-- ==== Sys2Proof/Word.lean ====
section
/-! DEFINITION. The number types of the Gelsa 4816: bytes, addresses, tags, house time, sequences, counters and the
index types of its fixed banks (editions, programmes, variants, rings, reference entries). -/

namespace Sys2Proof

/-- One byte of a record, a cell or a request (R204). -/
abbrev Byte := BitVec 8

/-- A 40-bit byte address of either port (00_scope, Principal figures). -/
abbrev Addr := BitVec 40

/-- House time: a 56-bit count of 50 ns ticks (R162). -/
abbrev HouseTime := BitVec 56

/-- The sequence the ring unit gives an ingest write; counts modulo 2^48 (R28, R29). -/
abbrev Sequence := BitVec 48

/-- A statistics counter: 32 bits, wrapping (00_scope, Conventions). -/
abbrev Counter := BitVec 32

/-- A 12-bit stream label; 4095 is the filler label (R1). -/
abbrev Label := BitVec 12

/-- The 8-bit initiator tag of a request on a port (R176). -/
abbrev PortTag := BitVec 8

/-- The 16-bit tag of a command, a splice or a schedule word. -/
abbrev Tag16 := BitVec 16

/-- An edition, 0 to 15. -/
abbrev EdId := Fin 16

/-- A programme slot, 0 to 47. -/
abbrev ProgId := Fin 48

/-- A variant of a programme, 0 to 7. -/
abbrev Variant := Fin 8

/-- An ingest ring, 0 to 31. -/
abbrev RingId := Fin 32

/-- An entry of the reference store, 0 to 8191 (R52). -/
abbrev EntryNo := Fin 8192

/-- A table of one value for each edition. -/
abbrev PerEdition (α : Type) := Vector α 16

/-- A table of one value for each programme slot. -/
abbrev PerProgramme (α : Type) := Vector α 48

end Sys2Proof
end

