-- ==== Sys2Proof/Syntax.lean ====
section
/-! DEFINITION. What the part can be given: a request on the upstream port, a response on the downstream port, a command
record's fields, an edge or a time event. `Instr` has one constructor for each row of spec/opcode_table.json. -/

namespace Sys2Proof

/-- Whether a request reads or writes. -/
inductive Dir where
  | read
  | write
  deriving DecidableEq, Repr

/-- A request on a port. Addresses and lengths are in 32-byte granules, because the port carries no other shape (R174):
the address is 32 × `granule` and the length 32 × (`extra` + 1), from 32 to 4096 bytes. A read has no data and no strobes. -/
structure Request where
  dir : Dir
  tag : PortTag
  granule : BitVec 35
  extra : BitVec 7
  strobes : List Bool
  data : List Byte
  deriving DecidableEq, Repr

/-- The byte address of a request. -/
def Request.addr (r : Request) : Nat := 32 * r.granule.toNat

/-- The length of a request in bytes. -/
def Request.len (r : Request) : Nat := 32 * (r.extra.toNat + 1)

/-- The two response kinds of both ports (00_scope, Conventions). -/
inductive RespKind where
  | okay
  | error
  deriving DecidableEq, Repr

/-- A response: its kind, and the data of a read. -/
structure Response where
  kind : RespKind
  data : List Byte
  deriving DecidableEq, Repr

/-- What a SECDED check finds in a stored entry (R7, R59, R60). -/
inductive BitFault where
  | clean
  | single
  | double
  deriving DecidableEq, Repr

/-- A storage error that befalls an entry of the reference store. -/
structure Upset where
  entry : EntryNo
  fault : BitFault
  deriving DecidableEq, Repr

/-- The fields of an 8-byte stream entry as software writes it (R206): programme and output label not yet checked. -/
structure StreamWord where
  valid : Bool
  restamp : Bool
  prog : BitVec 8
  variant : Variant
  mask : BitVec 16
  outLabel : Label
  deriving DecidableEq, Repr

/-- The parameters of a command record by kind (R208). SET RING and SET PROTECTION are two kinds each, by their flag. -/
inductive Command where
  | setStreamEntry (label : Label) (entry : StreamWord)
  | loadStreamEntries (first : Label) (count : BitVec 16) (list : Addr)
  | setEccThreshold (store : BitVec 8) (threshold : BitVec 16)
  | setRing (ring : BitVec 8) (silence : BitVec 16) (restore : BitVec 8) (base : Addr) (size : BitVec 32)
  | setRingTimingOnly (ring : BitVec 8) (silence : BitVec 16) (restore : BitVec 8)
  | disableRing (ring : BitVec 8)
  | setProtection (prog variant main backup : BitVec 8)
  | clearProtection (prog variant : BitVec 8)
  | setProgramme (edition prog priority ceiling : BitVec 8) (depth : BitVec 16)
  | setCarriage (edition length : BitVec 8) (list : Addr)
  | armSplice (edition prog target : BitVec 8) (force : Bool) (window : BitVec 16) (t : HouseTime)
  | cancelSplice (edition prog : BitVec 8)
  | setVariantNow (edition prog variant : BitVec 8)
  | startSchedule (edition : BitVec 8) (start : Addr)
  | haltSchedule (edition : BitVec 8)
  | clearSchedule (edition : BitVec 8)
  | resumeSchedule (edition : BitVec 8)
  | setEdition (edition : BitVec 8) (autoResume : Bool) (watch maxAge quota : BitVec 16) (base : Addr) (offset : BitVec 24)
  | editionOn (edition : BitVec 8)
  | editionOff (edition : BitVec 8)
  | timeLoad (value : HouseTime)
  | relocateControl (base complement : Addr)
  | setMemoryLimit (limit : BitVec 64)
  | setReportRing (places : BitVec 16) (intEnable : Bool) (base : Addr)
  | reportAck (index : BitVec 16)
  | statistics (scope number : BitVec 8)
  | restart
  deriving DecidableEq, Repr

/-- The tag and the control slot of a command, which its COMMAND report carries (R188, R191). -/
structure CmdHeader where
  tag : Tag16
  slot : BitVec 6
  deriving DecidableEq, Repr

/-- The steps of the part: one constructor for each row of spec/opcode_table.json.

An upstream row carries the request presented; a completion row carries the response (and, where more than one tag can
bring it, the tag); a command row carries the fields of the command as the command unit takes it, its tag and slot in
the header. `upsets` and `upset` are the storage errors that the SECDED checks of the step meet (R15, R16, R59, R60). -/
inductive Instr where
  -- requests on the upstream port
  | ingestWrite (r : Request)
  | malformedWrite (r : Request)
  | ringRead (r : Request)
  | passThroughRequest (r : Request)
  | controlPassThrough (r : Request)
  | requestBeyondLimit (r : Request)
  | wholeCellRead (r : Request) (upsets : List Upset)
  | lengthFault (r : Request)
  | feedWrite (r : Request)
  | commandWrite (r : Request)
  -- completions on the downstream port, and responses leaving the upstream port
  | downstreamCompletion (tag : PortTag) (rsp : Response)
  | ingestWriteCompletion (tag : PortTag) (rsp : Response) (upset : BitFault)
  | deliveryReadCompletion (e : EdId) (rsp : Response)
  | responseLeaves (tag : PortTag)
  | streamListReadCompletion (rsp : Response)
  | carriageListReadCompletion (rsp : Response)
  | wordFetchCompletion (e : EdId) (rsp : Response)
  | dataFetchCompletion (e : EdId) (rsp : Response)
  | reportWriteCompletion (rsp : Response)
  | indexBlockWriteCompletion (rsp : Response)
  -- the part's own events
  | purgeScanStep (upsets : List Upset)
  | silenceExpiry (ring : RingId)
  | feedWatchExpiry (e : EdId)
  | spliceTReached (e : EdId) (p : ProgId)
  | windowEnd (e : EdId) (p : ProgId)
  | waitReached (e : EdId)
  -- time inputs and resets
  | referenceLost
  | referenceRestored
  | ppsEdge
  | ppsTimeout
  | hardwareReset (strap : BitVec 4)
  | staleResponseDiscard (tag : PortTag) (rsp : Response)
  -- commands
  | setStreamEntry (h : CmdHeader) (label : Label) (entry : StreamWord)
  | loadStreamEntries (h : CmdHeader) (first : Label) (count : BitVec 16) (list : Addr)
  | setEccThreshold (h : CmdHeader) (store : BitVec 8) (threshold : BitVec 16)
  | setRing (h : CmdHeader) (ring : BitVec 8) (silence : BitVec 16) (restore : BitVec 8) (base : Addr) (size : BitVec 32)
  | setRingTimingOnly (h : CmdHeader) (ring : BitVec 8) (silence : BitVec 16) (restore : BitVec 8)
  | disableRing (h : CmdHeader) (ring : BitVec 8)
  | setProtection (h : CmdHeader) (prog variant main backup : BitVec 8)
  | clearProtection (h : CmdHeader) (prog variant : BitVec 8)
  | setProgramme (h : CmdHeader) (edition prog priority ceiling : BitVec 8) (depth : BitVec 16)
  | setCarriage (h : CmdHeader) (edition length : BitVec 8) (list : Addr)
  | armSplice (h : CmdHeader) (edition prog target : BitVec 8) (force : Bool) (window : BitVec 16) (t : HouseTime)
  | cancelSplice (h : CmdHeader) (edition prog : BitVec 8)
  | setVariantNow (h : CmdHeader) (edition prog variant : BitVec 8)
  | startSchedule (h : CmdHeader) (edition : BitVec 8) (start : Addr)
  | haltSchedule (h : CmdHeader) (edition : BitVec 8)
  | clearSchedule (h : CmdHeader) (edition : BitVec 8)
  | resumeSchedule (h : CmdHeader) (edition : BitVec 8)
  | setEdition (h : CmdHeader) (edition : BitVec 8) (autoResume : Bool) (watch maxAge quota : BitVec 16) (base : Addr)
      (offset : BitVec 24)
  | editionOn (h : CmdHeader) (edition : BitVec 8)
  | editionOff (h : CmdHeader) (edition : BitVec 8)
  | timeLoad (h : CmdHeader) (value : HouseTime)
  | relocateControl (h : CmdHeader) (base complement : Addr)
  | setMemoryLimit (h : CmdHeader) (limit : BitVec 64)
  | setReportRing (h : CmdHeader) (places : BitVec 16) (intEnable : Bool) (base : Addr)
  | reportAck (h : CmdHeader) (index : BitVec 16)
  | statistics (h : CmdHeader) (scope number : BitVec 8)
  | restart (h : CmdHeader)
  -- ticks
  | stationReferenceEdge
  | oscillatorPeriodEnd
  deriving DecidableEq, Repr

end Sys2Proof
end

