-- ==== Sys2Proof/Decode.lean ====
section
/-! DEFINITION. The command that a word spells by the bits of spec/opcode_table.json: the table gives no row any bits, so no
word spells a command. -/

namespace Sys2Proof

/-- No row of the table gives bits (every row's "fields" is empty), so there is no command for any word. -/
def decodeTableWord (_nbits _w : Nat) : Option Instr := none

end Sys2Proof
end

