-- ==== Sys2Proof/Config.lean ====
section
/-! DEFINITION. The figures the manual fixes for the part, the downstream tags of its own requests, and the one value
the manual leaves unstated (a free value, with no body). -/

namespace Sys2Proof.Config

/-- Ticks of 50 ns in one millisecond (00_scope, Conventions). -/
def ticksPerMs : Nat := 20000

/-- Elapsed ticks a pending time load waits for a pulse edge: 2 s (R168). -/
def loadWaitTicks : Nat := 40000000

/-- Oscillator periods without a reference edge that lose the reference, and the ticks added then (R163). -/
def lossPeriods : Nat := 20

/-- Bytes of one cell (R1). -/
def cellBytes : Nat := 224

/-- The filler label (R4, R100). -/
def fillerLabel : Label := 4095

/-- References the store can hold (R52). -/
def poolSize : Nat := 8192

/-- Entries one edition's in-flight list can hold (R88). -/
def listSize : Nat := 32

/-- Open requests of the upstream port (R178). -/
def openSize : Nat := 128

/-- Commands that may wait behind the running one (R188). -/
def queueSize : Nat := 8

/-- Bytes of a feed aperture: 256 cell slots (R84). -/
def feedBytes : Nat := 57344

/-- Bytes of the control aperture: 64 slots of 64 bytes (R171). -/
def controlBytes : Nat := 4096

/-- Bytes of the largest read the part makes (R12). -/
def longRead : Nat := 4096

/-- The end of the 40-bit address space. -/
def addressTop : Nat := 2 ^ 40

/-- The downstream tag of report record and index block writes (R176). -/
def reportTag : PortTag := 222

/-- The downstream tag of command list reads (R176). -/
def listTag : PortTag := 223

/-- The downstream tag of edition e's delivery reads, 224 + e (R176). -/
def deliveryTag (e : EdId) : PortTag := BitVec.ofNat 8 (224 + e.val)

/-- The downstream tag of channel e's fetches, 240 + e (R176). -/
def channelTag (e : EdId) : PortTag := BitVec.ofNat 8 (240 + e.val)

/-- The control aperture base that strap s selects: the last 4 KiB of a 256 MiB block (R181). -/
def strapBase (s : BitVec 4) : Addr := BitVec.ofNat 40 (s.toNat * 0x10000000 + 0x0FFFF000)

/-- FREE VALUE (DESIGN CHOICE, log entry 6). The 40-bit end address field of a SCHEDULE END report when the address that
was to be fetched is not below 2^40 (R147, R209): the manual states no value, so nothing constrains it. -/
opaque endAddressBeyond : Nat → Addr

end Sys2Proof.Config
end

