-- ==== Sys2Proof/Machine/State.lean ====
section
/-! DEFINITION. Everything the manual gives the part to hold, block by block, as plain data, with the value of each field
after hardware reset; and the reasons a step could stop. -/

namespace Sys2Proof.Machine

/-! ## Stream table (R5, R17) -/

/-- A stream table entry (R5). While `valid` is false the other fields have no effect. -/
structure StreamEntry where
  valid : Bool
  restamp : Bool
  prog : ProgId
  variant : Variant
  mask : BitVec 16
  outLabel : Label
  deriving DecidableEq, Repr

/-- The invalid entry of R19, with cleared fields (log entry 4). -/
def StreamEntry.invalid : StreamEntry :=
  { valid := false, restamp := false, prog := 0, variant := 0, mask := 0, outLabel := 0 }

/-- A stored entry with what its SECDED check bits would find now (R15, R16). -/
structure StreamSlot where
  entry : StreamEntry
  check : BitFault
  deriving DecidableEq, Repr

/-- The correctable threshold and count of one protected store (R17). -/
structure EccGauge where
  threshold : BitVec 16
  count : BitVec 16
  deriving DecidableEq, Repr

/-- The stream table: storage for labels 0 to 4094, none behind 4095 (R6), and its gauge. -/
structure StreamTable where
  slots : Vector StreamSlot 4095
  gauge : EccGauge
  deriving DecidableEq, Repr

/-! ## Ring unit (R20, R36, R39) -/

/-- The silence state of a ring (R20). -/
inductive Silence where
  | active
  | silent
  deriving DecidableEq, Repr

/-- A ring record with its six counters (R20, R39). -/
structure RingRecord where
  enabled : Bool
  base : Addr
  size : Nat
  silenceMs : Nat
  restore : Nat
  w : Sequence
  silence : Silence
  run : Nat
  quiet : Nat
  readsInFlight : Nat
  taken : Counter
  skips : Counter
  malformed : Counter
  labelFaults : Counter
  writeErrors : Counter
  duplicates : Counter
  deriving DecidableEq, Repr

/-- A protection pair: the main and the backup ring (R36). -/
structure ProtPair where
  main : RingId
  backup : RingId
  deriving DecidableEq, Repr

/-- The ring unit: 32 ring records and 384 protection settings. -/
structure RingUnit where
  recs : Vector RingRecord 32
  protection : PerProgramme (Vector (Option ProtPair) 8)
  deriving DecidableEq, Repr

/-! ## Admission unit and reference store (R51 to R61) -/

/-- A reference (R51). -/
structure Reference where
  ring : RingId
  seq : Sequence
  inLabel : Label
  outLabel : Label
  e : Bool
  k : Bool
  x : Bool
  restamp : Bool
  mark : Bool
  arrival : HouseTime
  deriving DecidableEq, Repr

/-- A stored reference with what its SECDED check bits would find now (R59, R60). -/
structure RefSlot where
  ref : Reference
  check : BitFault
  deriving DecidableEq, Repr

/-- The admission and release counters of one edition (R61). -/
structure AdmCounters where
  notCarried : Counter
  depthDrop : Counter
  quotaDrop : Counter
  poolDrop : Counter
  dormantReleases : Counter
  offReleases : Counter
  deriving DecidableEq, Repr

/-- A purge scan in flight (R58): its ring, the queue it stands in (48 × e + p), and the references of that queue it has
still to read. -/
structure PurgeScan where
  ring : RingId
  at_ : Nat
  todo : List EntryNo
  deriving DecidableEq, Repr

/-- The reference store with the depth limits and the admission counters. -/
structure RefStore where
  slots : Vector RefSlot 8192
  free : List EntryNo
  queues : PerEdition (PerProgramme (List EntryNo))
  edCount : PerEdition Nat
  pool : Nat
  depth : PerEdition (PerProgramme Nat)
  counters : PerEdition AdmCounters
  gauge : EccGauge
  scan : Option PurgeScan
  deriving DecidableEq, Repr

/-! ## Splice unit (R104, R105) -/

/-- Who armed a splice (R105). -/
inductive SpliceSource where
  | command
  | channel
  deriving DecidableEq, Repr

/-- A pending splice (R105). Its window end is T + W × 20,000 (`PendingSplice.windowEnd`). -/
structure PendingSplice where
  target : Variant
  t : HouseTime
  window : BitVec 16
  force : Bool
  tag : Tag16
  source : SpliceSource
  late : Bool
  deriving DecidableEq, Repr

/-- The state of a splice machine with the splice it times: absent in STEADY (R104). -/
inductive SplicePhase where
  | steady
  | armed (sp : PendingSplice)
  | seeking (sp : PendingSplice)
  deriving DecidableEq, Repr

/-- A splice machine (R104) and its record that the edition's channel waits on it (R108, R124). -/
structure SpliceMachine where
  phase : SplicePhase
  admitted : Variant
  markPending : Bool
  waiting : Bool
  deriving DecidableEq, Repr

/-- The splice unit: one machine for each (e,p). -/
structure SpliceUnit where
  machines : PerEdition (PerProgramme SpliceMachine)
  deriving DecidableEq, Repr

/-! ## Composer (R63) -/

/-- One position of a carriage frame (R64). -/
inductive Position where
  | openPool
  | prog (p : ProgId)
  deriving DecidableEq, Repr

/-- The class in which a programme competes for open places (R63). -/
inductive Priority where
  | low
  | high
  deriving DecidableEq, Repr

/-- A ceiling and a priority (R63). -/
structure ProgSetting where
  ceiling : Nat
  priority : Priority
  deriving DecidableEq, Repr

/-- A composition record with the four stale counters of its edition (R63, R82). A frame is the list of its positions. -/
structure CompRecord where
  frame : List Position
  staged : Option (List Position)
  pos : Nat
  openCount : PerProgramme Nat
  lastHigh : ProgId
  lastLow : ProgId
  inForce : PerProgramme ProgSetting
  pending : PerProgramme ProgSetting
  staleRing : Counter
  staleOverwritten : Counter
  staleAge : Counter
  staleEcc : Counter
  deriving DecidableEq, Repr

/-- The composer: one record for each edition. -/
structure Composer where
  recs : PerEdition CompRecord
  deriving DecidableEq, Repr

/-! ## Delivery unit (R88, R97, R101) -/

/-- The read state of an in-flight entry (R88), and `finished` once its final cell is made (R95). -/
inductive EntryState where
  | issued
  | returned (data : List Byte)
  | filled
  | finished (cell : List Byte) (delivered : Bool)
  deriving DecidableEq, Repr

/-- An in-flight entry (R88): a REFERENCE entry holds its reference fields, a FILLER entry none. -/
structure InFlight where
  ref : Option Reference
  t : HouseTime
  offset : BitVec 24
  state : EntryState
  deriving DecidableEq, Repr

/-- The delivery record of one edition: the in-flight list, as the list of its whole-cell reads in order, the continuity
table and the feed counters (R88, R97, R101). -/
structure FeedRecord where
  reads : List (List InFlight)
  cont : Vector (BitVec 4) 4096
  delivered : Counter
  filler : Counter
  overrun : Counter
  readError : Counter
  lengthFault : Counter
  feedWrites : Counter
  deriving DecidableEq, Repr

/-- The delivery unit. -/
structure Delivery where
  recs : PerEdition FeedRecord
  deriving DecidableEq, Repr

/-! ## Schedule channels (R125 to R127) -/

/-- The kind of a schedule word with the fields of the kind (R127). -/
inductive WordKind where
  | splice (prog : ProgId) (variant : Variant) (t : HouseTime) (window : BitVec 16) (force sync stopOnFail : Bool)
  | carriage (length count : Nat) (data : Addr) (suppress : Bool)
  | wait (t : HouseTime)
  | jump (target : Addr)
  | endWord
  deriving DecidableEq, Repr

/-- A schedule word (R127). -/
structure SchedWord where
  kind : WordKind
  note : Bool
  hold : Bool
  tag : Tag16
  deriving DecidableEq, Repr

/-- The current word of a channel: its address and contents (R125). -/
structure CurrentWord where
  addr : Addr
  word : SchedWord
  deriving DecidableEq, Repr

/-- The states of a channel (R126). -/
inductive ChanState where
  | idle
  | fetching
  | blocked
  | waiting
  | syncing
  | suspended
  deriving DecidableEq, Repr

/-- The fetch a channel waits for (R125). -/
inductive Fetch where
  | none
  | word
  | data
  deriving DecidableEq, Repr

/-- A channel record (R125). The next address is a whole number: a word's own address + 32 may reach 2^40 (R127). -/
structure Channel where
  state : ChanState
  current : Option CurrentWord
  next : Nat
  fetch : Fetch
  jumped : Bool
  progress : Nat
  words : BitVec 32
  sync : Option ProgId
  deriving DecidableEq, Repr

/-! ## Edition controller (R150) -/

/-- The lifecycle state of an edition (R153). -/
inductive EdState where
  | off
  | live
  | dormant
  deriving DecidableEq, Repr

/-- An edition record (R150). -/
structure EditionRecord where
  state : EdState
  base : Option Addr
  quota : Nat
  maxAge : Nat
  offset : BitVec 24
  watch : Nat
  autoResume : Bool
  idle : Nat
  deriving DecidableEq, Repr

/-! ## House time unit (R162 to R168) -/

/-- The reference state (R163). -/
inductive RefState where
  | locked
  | holdover
  deriving DecidableEq, Repr

/-- A pending time load: its value and the elapsed ticks it has waited (R166). -/
structure PendingLoad where
  value : HouseTime
  wait : Nat
  deriving DecidableEq, Repr

/-- The house time unit. `periods` counts the oscillator periods since the latest reference edge, up to 20 (R163). -/
structure TimeUnit where
  now : HouseTime
  ref : RefState
  periods : Nat
  load : Option PendingLoad
  deriving DecidableEq, Repr

/-! ## Path unit (R171, R176, R178) -/

/-- What answers an open request (R179): a downstream completion, the delivery unit's hand-over of a whole-cell read of an
edition, or the part itself at the take. -/
inductive OpenClass where
  | forwarded
  | feedRead (e : EdId)
  | atOnce
  deriving DecidableEq, Repr

/-- An open request with its response once that is ready (R178, R179). -/
structure OpenReq where
  tag : PortTag
  cls : OpenClass
  response : Option Response
  deriving DecidableEq, Repr

/-- What the ring unit keeps of an ingest write in flight (R3), and whether its ring has stayed enabled since the take
(R26). -/
structure IngestKept where
  ring : RingId
  seq : Sequence
  label : Label
  e : Bool
  k : Bool
  x : Bool
  arrival : HouseTime
  valid : Bool
  deriving DecidableEq, Repr

/-- The block that issued a downstream request, and what it needs at the completion (R176). `live` is false once the
block has given the request up: its completion is then discarded (R103, R145). -/
inductive DownKind where
  | forwarded
  | ingest (kept : IngestKept)
  | delivery (e : EdId) (ring : RingId) (live : Bool)
  | streamList
  | carriageList
  | wordFetch (e : EdId) (live : Bool)
  | dataFetch (e : EdId) (live : Bool)
  | recordWrite
  | indexWrite
  deriving DecidableEq, Repr

/-- A downstream request issued and not yet completed (R176). -/
structure DownReq where
  kind : DownKind
  req : Request
  deriving DecidableEq, Repr

/-- The path unit's own registers and tables: the control aperture base, the memory limit, the open requests in the order
of their takes, and the requests that wait at the upstream port (R171, R178). -/
structure PathUnit where
  control : Addr
  limit : Nat
  openReqs : List OpenReq
  waiting : List Request
  deriving DecidableEq, Repr

/-! ## Command unit (R188, R190) -/

/-- What the two checks of R190 before the owning block's make of a record: its fields, a reserved field that is not 0,
or an unknown kind. -/
inductive Parsed where
  | known (c : Command)
  | reserved
  | unknown
  deriving DecidableEq, Repr

/-- A command taken (R188): the kind code as written, the tag, the slot and the record's fields. -/
structure TakenCommand where
  code : BitVec 8
  tag : Tag16
  slot : BitVec 6
  body : Parsed
  deriving DecidableEq, Repr

/-- What a command in flight waits for (R190): list reads, the list read of SET CARRIAGE, the purge of a ring, or the
report writer. -/
inductive InFlightOp where
  | load (next remaining list : Nat)
  | carriage (e : EdId) (length : Nat)
  | purge (ring : RingId)
  | reportRing (places : Nat) (intEnable : Bool) (base : Addr)
  deriving DecidableEq, Repr

/-- The command in flight. -/
structure Running where
  cmd : TakenCommand
  op : InFlightOp
  deriving DecidableEq, Repr

/-- The command unit: the command in flight and the commands waiting, head first. -/
structure CommandUnit where
  running : Option Running
  queue : List TakenCommand
  deriving DecidableEq, Repr

/-! ## Report writer (R191 to R200) -/

/-- The outcome of a command (R191). -/
inductive CmdOutcome where
  | done
  | replaced
  | busy
  | state
  | range
  | overlap
  | queueFull
  | fetchError
  | unknown
  deriving DecidableEq, Repr

/-- The outcome of a splice (R123). -/
inductive SpliceOutcome where
  | switched
  | forced
  | abandoned
  | cancelled
  | unchanged
  deriving DecidableEq, Repr

/-- The cause in a SPLICE report (R123). -/
inductive SpliceCause where
  | none
  | command
  | off
  | clear
  deriving DecidableEq, Repr

/-- The status of a SCHEDULE END report (R147). -/
inductive EndStatus where
  | ended
  | check
  | halted
  | cleared
  | off
  | spliceFailed
  deriving DecidableEq, Repr

/-- The check codes, in their order (section 7.3). -/
inductive CheckCode where
  | none
  | align
  | address
  | fetch
  | kind
  | field
  | sequence
  | progress
  | length
  | position
  deriving DecidableEq, Repr

/-- One of the two protected stores (R17). -/
inductive StoreKind where
  | stream
  | refstore
  deriving DecidableEq, Repr

/-- The kind of an ECC report (R16, R17). -/
inductive EccKind where
  | threshold
  | uncorrectable
  deriving DecidableEq, Repr

/-- The event of an EDITION report (R160). -/
inductive EditionEvent where
  | dormant
  | resumed
  deriving DecidableEq, Repr

/-- The event of a TIME report, with its second house time value (R163, R164, R167, R168). -/
inductive TimeEvent where
  | referenceLost
  | referenceRestored
  | loaded (old : HouseTime)
  | ppsTimeout (abandoned : HouseTime)
  deriving DecidableEq, Repr

/-- The scope kind of a STATISTICS record (R200). -/
inductive StatScope where
  | edition
  | ring
  deriving DecidableEq, Repr

/-- What a report carries by kind (R209), without the fields every record opens with. -/
inductive Report where
  | command (code : BitVec 8) (slot : BitVec 6) (tag : Tag16) (outcome : CmdOutcome)
  | ring (r : RingId) (state : Silence) (w : Sequence)
  | ecc (store : StoreKind) (kind : EccKind) (index : Nat)
  | splice (e : EdId) (p : ProgId) (outcome : SpliceOutcome) (cause : SpliceCause) (late : Bool) (source : SpliceSource)
      (target admitted : Variant) (tag : Tag16)
  | note (e : EdId) (kind : BitVec 8) (tag : Tag16) (words : BitVec 32) (addr : Addr)
  | schedEnd (e : EdId) (status : EndStatus) (code : CheckCode) (words : BitVec 32) (addr : Addr) (tag : Tag16)
  | edition (e : EdId) (event : EditionEvent) (released : Nat)
  | time (event : TimeEvent)
  | stats (scope : StatScope) (number : Nat) (part : Nat) (c0 c1 c2 c3 : Counter)
  deriving DecidableEq, Repr

/-- A pending record: the report and house time at its hand-over (R192, R165). -/
structure PendingRecord where
  body : Report
  time : HouseTime
  deriving DecidableEq, Repr

/-- The write the report writer has in flight (R193): none, a record (with the lost count placed into it) or the index
block. -/
inductive WriterState where
  | idle
  | record (carried : BitVec 16)
  | index
  deriving DecidableEq, Repr

/-- The report writer with the interrupt output (R192, R198, R203). -/
structure ReportWriter where
  isSet : Bool
  base : Addr
  places : Nat
  intEnable : Bool
  writeIdx : Nat
  readIdx : Nat
  lost : BitVec 16
  seq : BitVec 32
  pend : List PendingRecord
  writer : WriterState
  intLine : Bool
  deriving DecidableEq, Repr

/-! ## Reasons to stop -/

/-- Faults. There is no constructor: the manual names no condition in which the part stops, and gives every request,
completion, event and command an effect, so no meaning raises a fault. -/
inductive Fault where
  deriving DecidableEq, Repr

/-- Refusals. -/
inductive Refusal where
  /-- Raised only by an arm of `exec` for a row that has no meaning yet (safe: the model stops); no arm does now. -/
  | notModelled (mnemonic : String)
  deriving DecidableEq, Repr

/-! ## The state -/

/-- The state of the part, one field for each block, the downstream requests in the order in which they were issued, and
the MODEL's own queue of commands that wait for `step`, first in, first out. -/
structure State where
  path : PathUnit
  down : List DownReq
  rings : RingUnit
  stream : StreamTable
  refs : RefStore
  splices : SpliceUnit
  comp : Composer
  dlv : Delivery
  chans : PerEdition Channel
  eds : PerEdition EditionRecord
  time : TimeUnit
  cmd : CommandUnit
  rep : ReportWriter
  pending : List Instr
  deriving DecidableEq, Repr

/-! ## Hardware reset values -/

/-- The gauges of R19. -/
def EccGauge.reset : EccGauge := { threshold := 0, count := 0 }

/-- R19. -/
def StreamTable.reset : StreamTable :=
  { slots := Vector.replicate 4095 { entry := .invalid, check := .clean }, gauge := .reset }

/-- R40; W, silence state, run count and quiet time have no effect while disabled (log entry 4). -/
def RingRecord.reset : RingRecord :=
  { enabled := false, base := 0, size := 16, silenceMs := 100, restore := 8, w := 0, silence := .silent, run := 0,
    quiet := 0, readsInFlight := 0, taken := 0, skips := 0, malformed := 0, labelFaults := 0, writeErrors := 0,
    duplicates := 0 }

/-- R40. -/
def RingUnit.reset : RingUnit :=
  { recs := Vector.replicate 32 .reset, protection := Vector.replicate 48 (Vector.replicate 8 none) }

/-- The contents of an entry that holds no reference, which have no effect (R56; log entry 4). -/
def Reference.blank : Reference :=
  { ring := 0, seq := 0, inLabel := 0, outLabel := 0, e := false, k := false, x := false, restamp := false, mark := false,
    arrival := 0 }

/-- R62. -/
def AdmCounters.reset : AdmCounters :=
  { notCarried := 0, depthDrop := 0, quotaDrop := 0, poolDrop := 0, dormantReleases := 0, offReleases := 0 }

/-- The entry numbers from n on, in ascending order, as far as `fuel` goes. -/
def entriesFrom : Nat → Nat → List EntryNo
  | 0, _ => []
  | fuel + 1, n => if h : n < 8192 then ⟨n, h⟩ :: entriesFrom fuel (n + 1) else []

/-- R62, with the REFSTORE gauge of R19. -/
def RefStore.reset : RefStore :=
  { slots := Vector.replicate 8192 { ref := .blank, check := .clean }, free := entriesFrom 8192 0,
    queues := Vector.replicate 16 (Vector.replicate 48 []), edCount := Vector.replicate 16 0, pool := 0,
    depth := Vector.replicate 16 (Vector.replicate 48 64), counters := Vector.replicate 16 .reset, gauge := .reset,
    scan := none }

/-- R124. -/
def SpliceMachine.reset : SpliceMachine := { phase := .steady, admitted := 0, markPending := false, waiting := false }

/-- R124. -/
def SpliceUnit.reset : SpliceUnit := { machines := Vector.replicate 16 (Vector.replicate 48 .reset) }

/-- R83: every ceiling 0, every priority LOW. -/
def ProgSetting.reset : ProgSetting := { ceiling := 0, priority := .low }

/-- R83. -/
def CompRecord.reset : CompRecord :=
  { frame := List.replicate 16 .openPool, staged := none, pos := 0, openCount := Vector.replicate 48 0, lastHigh := 47,
    lastLow := 47, inForce := Vector.replicate 48 .reset, pending := Vector.replicate 48 .reset, staleRing := 0,
    staleOverwritten := 0, staleAge := 0, staleEcc := 0 }

/-- R83. -/
def Composer.reset : Composer := { recs := Vector.replicate 16 .reset }

/-- R102. -/
def FeedRecord.reset : FeedRecord :=
  { reads := [], cont := Vector.replicate 4096 0, delivered := 0, filler := 0, overrun := 0, readError := 0,
    lengthFault := 0, feedWrites := 0 }

/-- R102. -/
def Delivery.reset : Delivery := { recs := Vector.replicate 16 .reset }

/-- R149; the next address has no effect in IDLE (R125; log entry 4). -/
def Channel.reset : Channel :=
  { state := .idle, current := none, next := 0, fetch := .none, jumped := false, progress := 0, words := 0, sync := none }

/-- R161. -/
def EditionRecord.reset : EditionRecord :=
  { state := .off, base := none, quota := 0, maxAge := 500, offset := 0, watch := 0, autoResume := false, idle := 0 }

/-- R170. -/
def TimeUnit.reset : TimeUnit := { now := 0, ref := .locked, periods := 0, load := none }

/-- R203. -/
def CommandUnit.reset : CommandUnit := { running := none, queue := [] }

/-- R203. -/
def ReportWriter.reset : ReportWriter :=
  { isSet := false, base := 0, places := 64, intEnable := false, writeIdx := 0, readIdx := 0, lost := 0, seq := 0,
    pend := [], writer := .idle, intLine := false }

/-- The part after hardware reset with strap s (R181, R186 and the reset rule of each block); no request waits at the
upstream port and no command waits in the model's queue. -/
def State.afterReset (strap : BitVec 4) : State :=
  { path := { control := Config.strapBase strap, limit := Config.addressTop, openReqs := [], waiting := [] },
    down := [], rings := .reset, stream := .reset, refs := .reset, splices := .reset, comp := .reset, dlv := .reset,
    chans := Vector.replicate 16 .reset, eds := Vector.replicate 16 .reset, time := .reset, cmd := .reset, rep := .reset,
    pending := [] }

/-- The machine right after reset. The strap pins are read as 0 (DESIGN CHOICE, log entry 3): `HARDWARE_RESET` carries any
strap. -/
def State.reset : State := .afterReset 0

end Sys2Proof.Machine
end

