-- ==== Sys2Proof/Machine/Table.lean ====
section
/-! DEFINITION. Reading and writing one place of a bank (a `Vector`), and changing every place of it. -/

namespace Sys2Proof.Machine

/-- Place i of a bank. -/
def tget {α : Type} {n : Nat} (v : Vector α n) (i : Fin n) : α := v[i.val]

/-- The bank with place i replaced. -/
def tput {α : Type} {n : Nat} (v : Vector α n) (i : Fin n) (x : α) : Vector α n := v.set i.val x i.isLt

/-- The bank with f applied to place i. -/
def tmodify {α : Type} {n : Nat} (v : Vector α n) (i : Fin n) (f : α → α) : Vector α n := tput v i (f (tget v i))

/-- The bank with f applied to every place. -/
def tmap {α β : Type} {n : Nat} (f : α → β) (v : Vector α n) : Vector β n := ⟨⟨v.toList.map f⟩, by simp⟩

/-- Place (i, j) of a bank of banks. -/
def tget2 {α : Type} {m n : Nat} (v : Vector (Vector α n) m) (i : Fin m) (j : Fin n) : α := tget (tget v i) j

/-- The bank of banks with place (i, j) replaced. -/
def tput2 {α : Type} {m n : Nat} (v : Vector (Vector α n) m) (i : Fin m) (j : Fin n) (x : α) : Vector (Vector α n) m :=
  tput v i (tput (tget v i) j x)

/-- The bank of banks with f applied to place (i, j). -/
def tmodify2 {α : Type} {m n : Nat} (v : Vector (Vector α n) m) (i : Fin m) (j : Fin n) (f : α → α) :
    Vector (Vector α n) m := tput2 v i j (f (tget2 v i j))

/-- The index with number k, if the bank has it. -/
def index? (n k : Nat) : Option (Fin n) := if h : k < n then some ⟨k, h⟩ else none

end Sys2Proof.Machine
end

