-- ==== Sys2Proof/Machine/Flags.lean ====
section
/-! DEFINITION. The tests and status computations of the blocks: counters, the unread count and the interrupt line, ring
activity and overwrite, staleness, carriage, splice times, region ranges. -/

namespace Sys2Proof.Machine

/-! ## Counts -/

/-- A 16-bit count increased by n, saturating at 65535 (R192, R194). -/
def satAdd (c : BitVec 16) (n : Nat) : BitVec 16 := BitVec.ofNat 16 (min 65535 (c.toNat + n))

/-- ⌈n / d⌉. -/
def ceilDiv (n d : Nat) : Nat := (n + d - 1) / d

/-! ## Report writer (R192, R198) -/

/-- The unread records: (write index − read index) mod N_r (R192). -/
def unread (r : ReportWriter) : Nat := (r.writeIdx + r.places - r.readIdx % r.places) % r.places

/-- The held records: unread plus pending (R192). -/
def held (r : ReportWriter) : Nat := unread r + r.pend.length

/-- Whether INT is to be asserted (R198). -/
def intWanted (r : ReportWriter) : Bool := r.isSet && r.intEnable && decide (0 < unread r)

/-! ## Rings (R21, R29, R37) -/

/-- The bytes of a ring's region (R21). -/
def ringBytes (r : RingRecord) : Nat := r.size * Config.cellBytes

/-- The overwrite judgement of R29: (W − q) mod 2^48 is greater than N. -/
def overwritten (r : RingRecord) (q : Sequence) : Bool := decide (r.size < (r.w - q).toNat)

/-- The address of the slot of sequence q (R90). -/
def slotAddr (r : RingRecord) (q : Sequence) : Nat := r.base.toNat + (q.toNat % r.size) * Config.cellBytes

/-- A ring that is enabled and ACTIVE (R37). -/
def ringActive (r : RingRecord) : Bool := r.enabled && r.silence == .active

/-- The active source of a protection pair (R37): the backup only while it alone is enabled and ACTIVE. -/
def activeSource (u : RingUnit) (pr : ProtPair) : RingId :=
  if !ringActive (tget u.recs pr.main) && ringActive (tget u.recs pr.backup) then pr.backup else pr.main

/-- Whether a cell of ring r passes the protection step of (p,v) (R38). -/
def protectionPasses (u : RingUnit) (p : ProgId) (v : Variant) (r : RingId) : Bool :=
  match tget (tget u.protection p) v with
  | none => true
  | some pr => activeSource u pr == r

/-- The silence time in ticks (R32). -/
def silenceTicks (r : RingRecord) : Nat := r.silenceMs * Config.ticksPerMs

/-! ## Composition (R47, R76, R78) -/

/-- The stale causes after ECC, in their order (R76). -/
inductive StaleCause where
  | ring
  | overwritten
  | age
  | ecc
  deriving DecidableEq, Repr

/-- The first cause for which a reference is stale at a feed read taken at t, with the edition's maximum age in ms (R76).
A difference below 0 counts as 0. -/
def staleCause (u : RingUnit) (maxAge : Nat) (t : HouseTime) (ref : Reference) : Option StaleCause :=
  let r := tget u.recs ref.ring
  if !r.enabled then some .ring
  else if overwritten r ref.seq then some .overwritten
  else if maxAge * Config.ticksPerMs < t.toNat - ref.arrival.toNat then some .age
  else none

/-- The carried test (R47, R73). -/
def carried (c : CompRecord) (p : ProgId) : Bool :=
  c.frame.contains (.prog p) || decide (0 < (tget c.inForce p).ceiling)

/-! ## Splices (R105, R109) -/

/-- The window end of a splice: T + W × 20,000, a whole number (R105). -/
def PendingSplice.windowEnd (sp : PendingSplice) : Nat := sp.t.toNat + sp.window.toNat * Config.ticksPerMs

/-! ## Editions (R156) -/

/-- Whether the feed watch of a LIVE edition has run out (R156). -/
def watchOut (r : EditionRecord) : Bool :=
  r.state == .live && decide (r.watch ≠ 0) && decide (r.watch * Config.ticksPerMs ≤ r.idle)

/-! ## Ranges (R185) -/

/-- Two ranges, each a first byte and a length, meet when they share a byte (R185). -/
def meets (a n b m : Nat) : Bool := decide (a < b + m) && decide (b < a + n) && decide (0 < n) && decide (0 < m)

/-- The range lies in the region. -/
def within (a n b m : Nat) : Bool := decide (b ≤ a) && decide (a + n ≤ b + m)

end Sys2Proof.Machine
end

