-- ==== Sys2Proof/Machine/Operands.lean ====
section
/-! DEFINITION. The byte layouts of chapter 12: reading the records that software writes (cell header, stream entry,
schedule word, command record) and building the ones the part writes (report record, index block, delivered header). -/

namespace Sys2Proof.Machine

/-! ## Bytes and fields (R204) -/

/-- Byte i of a record; a byte past its end reads as 0. -/
def byteAt (bs : List Byte) (i : Nat) : Byte := bs.getD i 0

/-- The number in n bytes from an offset, least significant byte first (R204). -/
def leNat (bs : List Byte) (off : Nat) : Nat → Nat
  | 0 => 0
  | n + 1 => (byteAt bs off).toNat + 256 * leNat bs (off + 1) n

/-- The low w bits of the number in n bytes from an offset. -/
def field (w : Nat) (bs : List Byte) (off n : Nat) : BitVec w := BitVec.ofNat w (leNat bs off n)

/-- n bytes of a number, least significant byte first (R204). -/
def putLE : Nat → Nat → List Byte
  | 0, _ => []
  | n + 1, v => BitVec.ofNat 8 v :: putLE n (v / 256)

/-- Bit k of byte i. -/
def bitAt (bs : List Byte) (i k : Nat) : Bool := (byteAt bs i).getLsbD k

/-- A byte whose bit k is b. -/
def flagBit (b : Bool) (k : Nat) : Byte := if b then BitVec.ofNat 8 (2 ^ k) else 0

/-- A record with the bytes from an offset replaced by new ones. -/
def setBytes (bs : List Byte) (off : Nat) (new : List Byte) : List Byte :=
  bs.take off ++ new ++ bs.drop (off + new.length)

/-- Exactly n bytes of a response: bytes past its end read as 0 (log entry 7). -/
def fit (n : Nat) (bs : List Byte) : List Byte := (bs ++ List.replicate n 0).take n

/-- True when every bit of the bytes 0 to n − 1 that `named` does not name is 0 (R204, R211). -/
def reservedClear (bs : List Byte) (named : Nat → Byte) (n : Nat) : Bool :=
  (List.range n).all fun i => (byteAt bs i) &&& ~~~(named i) == 0

/-! ## The cell header (R205) -/

/-- The label of a cell. -/
def cellLabel (bs : List Byte) : Label := field 12 bs 0 2

/-- The E flag of a cell. -/
def cellE (bs : List Byte) : Bool := bitAt bs 2 0

/-- The K flag of a cell. -/
def cellK (bs : List Byte) : Bool := bitAt bs 2 1

/-- The X flag of a cell. -/
def cellX (bs : List Byte) : Bool := bitAt bs 2 2

/-- The clock stamp of a cell. -/
def cellStamp (bs : List Byte) : BitVec 40 := field 40 bs 4 5

/-- The time field of a cell. -/
def cellTime (bs : List Byte) : HouseTime := field 56 bs 9 7

/-- The cell with its time field replaced (R30). -/
def stampTime (bs : List Byte) (t : HouseTime) : List Byte := setBytes bs 9 (putLE 7 t.toNat)

/-- A delivered cell: the returned data with label, continuity, E, K, X, clock stamp and time field rewritten, and every
other bit as DRAM returned it (R96). -/
def deliveredCell (bs : List Byte) (outLabel : Label) (cont : BitVec 4) (e k x : Bool) (stamp : BitVec 40)
    (t : HouseTime) : List Byte :=
  putLE 2 (outLabel.toNat + 4096 * cont.toNat)
    ++ [(byteAt bs 2 &&& 0xF8) ||| flagBit e 0 ||| flagBit k 1 ||| flagBit x 2, byteAt bs 3]
    ++ putLE 5 stamp.toNat ++ putLE 7 t.toNat ++ (fit Config.cellBytes bs).drop 16

/-- A filler cell of a feed read taken at t (R100). -/
def fillerCell (t : HouseTime) : List Byte :=
  putLE 2 Config.fillerLabel.toNat ++ List.replicate 7 0 ++ putLE 7 t.toNat ++ List.replicate 208 0

/-! ## The stream entry (R206) -/

/-- The stream entry at an offset, reserved bits ignored. -/
def streamWordAt (bs : List Byte) (off : Nat) : StreamWord :=
  { valid := bitAt bs off 0, restamp := bitAt bs off 1, prog := byteAt bs (off + 1),
    variant := ((byteAt bs (off + 2)).setWidth 3).toFin, mask := field 16 bs (off + 4) 2,
    outLabel := field 12 bs (off + 6) 2 }

/-- The named bits of a stream entry's byte i. -/
def streamNamed : Nat → Byte
  | 0 => 0x03
  | 1 => 0xFF
  | 2 => 0x07
  | 4 => 0xFF
  | 5 => 0xFF
  | 6 => 0xFF
  | 7 => 0x0F
  | _ => 0

/-- The table entry that a list entry is written as: invalid if VALID is clear or a field is out of range (R12). -/
def listEntry (w : StreamWord) : StreamEntry :=
  match index? 48 w.prog.toNat with
  | some p =>
    if w.valid && w.outLabel != Config.fillerLabel then
      { valid := true, restamp := w.restamp, prog := p, variant := w.variant, mask := w.mask, outLabel := w.outLabel }
    else .invalid
  | none => .invalid

/-! ## The schedule word (R207) -/

/-- The named bits of byte i of a schedule word of a kind code. -/
def wordNamed (kind : Nat) (i : Nat) : Byte :=
  if i = 0 ∨ i = 2 ∨ i = 3 then 0xFF
  else if i = 1 then 0x03
  else match kind with
    | 1 => if i = 4 ∨ i = 5 ∨ i = 8 ∨ i = 9 ∨ (16 ≤ i ∧ i ≤ 22) then 0xFF else if i = 6 then 0x07 else 0
    | 2 => if i = 4 ∨ i = 5 ∨ (8 ≤ i ∧ i ≤ 12) then 0xFF else if i = 6 then 0x01 else 0
    | 3 => if 16 ≤ i ∧ i ≤ 22 then 0xFF else 0
    | 4 => if 8 ≤ i ∧ i ≤ 12 then 0xFF else 0
    | _ => 0

/-- The kind of a schedule word from its bytes, if its fields pass the FIELD test but for reserved fields (R129). -/
def wordKind (bs : List Byte) : Option WordKind :=
  match (byteAt bs 0).toNat with
  | 1 =>
    match index? 48 (byteAt bs 4).toNat, index? 8 (byteAt bs 5).toNat with
    | some p, some v =>
      some (.splice p v (field 56 bs 16 7) (field 16 bs 8 2) (bitAt bs 6 0) (bitAt bs 6 1) (bitAt bs 6 2))
    | _, _ => none
  | 2 =>
    let c := (byteAt bs 4).toNat
    let n := (byteAt bs 5).toNat
    let d := field 40 bs 8 5
    if 16 ≤ c ∧ c ≤ 128 ∧ n ≠ 0 ∧ d.toNat % 32 = 0 then some (.carriage c n d (bitAt bs 6 0)) else none
  | 3 => some (.wait (field 56 bs 16 7))
  | 4 => some (.jump (field 40 bs 8 5))
  | 5 => some .endWord
  | _ => none

/-- The tag of a schedule word. -/
def wordTag (bs : List Byte) : Tag16 := field 16 bs 2 2

/-- The KIND and FIELD tests of a fetched word: the word, or the code of the first test that fails (R129, R211). -/
def parseWord (bs : List Byte) : SchedWord ⊕ CheckCode :=
  if ¬ (1 ≤ (byteAt bs 0).toNat ∧ (byteAt bs 0).toNat ≤ 5) then .inr .kind
  else match wordKind bs with
    | some k =>
      if reservedClear bs (wordNamed (byteAt bs 0).toNat) 32 then
        .inl { kind := k, note := bitAt bs 1 0, hold := bitAt bs 1 1, tag := wordTag bs }
      else .inr .field
    | none => .inr .field

/-- The kind code of a schedule word (R207). -/
def wordCode : WordKind → BitVec 8
  | .splice .. => 1
  | .carriage .. => 2
  | .wait _ => 3
  | .jump _ => 4
  | .endWord => 5

/-- The bytes from byte 4 on of a schedule word (R207). -/
def wordParams : WordKind → List Byte
  | .splice p v t win force sync stop =>
    [BitVec.ofNat 8 p.val, BitVec.ofNat 8 v.val, flagBit force 0 ||| flagBit sync 1 ||| flagBit stop 2, 0] ++ putLE 2 win.toNat
      ++ List.replicate 6 0 ++ putLE 7 t.toNat
  | .carriage len count a sup => [BitVec.ofNat 8 len, BitVec.ofNat 8 count, flagBit sup 0, 0] ++ putLE 5 a.toNat
  | .wait t => List.replicate 12 0 ++ putLE 7 t.toNat
  | .jump a => List.replicate 4 0 ++ putLE 5 a.toNat
  | .endWord => []

/-- The 32 bytes of a schedule word, as the host writes them (R207): the host's side, used only to state that a word reads
back. -/
def encodeWord (w : SchedWord) : List Byte :=
  fit 32 ([wordCode w.kind, flagBit w.note 0 ||| flagBit w.hold 1] ++ putLE 2 w.tag.toNat ++ wordParams w.kind)

/-! ## The command record (R208) -/

/-- The kind code of a command. -/
def commandCode : Command → BitVec 8
  | .setStreamEntry .. => 1
  | .loadStreamEntries .. => 2
  | .setEccThreshold .. => 3
  | .setRing .. => 4
  | .setRingTimingOnly .. => 4
  | .disableRing .. => 5
  | .setProtection .. => 6
  | .clearProtection .. => 6
  | .setProgramme .. => 7
  | .setCarriage .. => 8
  | .armSplice .. => 9
  | .cancelSplice .. => 10
  | .setVariantNow .. => 11
  | .startSchedule .. => 12
  | .haltSchedule .. => 13
  | .clearSchedule .. => 14
  | .resumeSchedule .. => 15
  | .setEdition .. => 16
  | .editionOn .. => 17
  | .editionOff .. => 18
  | .timeLoad .. => 19
  | .relocateControl .. => 20
  | .setMemoryLimit .. => 21
  | .setReportRing .. => 22
  | .reportAck .. => 23
  | .statistics .. => 24
  | .restart => 25

/-- The parameter bytes that R208 names for a kind code, as ranges of whole bytes, and its partly named bytes with the
bits named. -/
def commandNames (bs : List Byte) : Nat → List (Nat × Nat) × List (Nat × Byte)
  | 1 => ([(8, 8), (17, 17), (20, 22)], [(9, 0x0F), (16, 0x03), (18, 0x07), (23, 0x0F)])
  | 2 => ([(8, 8), (10, 11), (16, 20)], [(9, 0x0F)])
  | 3 => ([(8, 8), (10, 11)], [])
  | 4 => ([(8, 8), (10, 12), (16, 20), (24, 27)], [(9, 0x01)])
  | 5 => ([(8, 8)], [])
  | 6 => ([(8, 9), (11, 12)], [(10, 0x01)])
  | 7 => ([(8, 13)], [])
  | 8 => ([(8, 9), (16, 20)], [])
  | 9 => ([(8, 10), (12, 13), (16, 22)], [(11, 0x01)])
  | 10 => ([(8, 9)], [])
  | 11 => ([(8, 10)], [])
  | 12 => ([(8, 8), (16, 20)], [])
  | 13 => ([(8, 8)], [])
  | 14 => ([(8, 8)], [])
  | 15 => ([(8, 8)], [])
  | 16 => ([(8, 8), (10, 20), (24, 26)], [(9, 0x01)])
  | 17 => ([(8, 8)], [])
  | 18 => ([(8, 8)], [])
  | 19 => ([(16, 22)], [])
  | 20 => ([(16, 20), (24, 28)], [])
  | 21 => ([(16, 23)], [])
  | 22 => ([(8, 9), (16, 20)], [(10, 0x01)])
  | 23 => ([(8, 9)], [])
  | 24 => if byteAt bs 8 = 3 then ([(8, 8)], []) else ([(8, 9)], [])
  | _ => ([], [])

/-- The named bits of byte i of a command record: kind, tag and the parameters of its kind (R208). -/
def commandNamed (bs : List Byte) (i : Nat) : Byte :=
  if i = 0 ∨ i = 2 ∨ i = 3 then 0xFF
  else
    let names := commandNames bs (byteAt bs 0).toNat
    if names.1.any fun r => r.1 ≤ i && i ≤ r.2 then 0xFF
    else match names.2.find? (fun r => r.1 == i) with
      | some r => r.2
      | none => 0

/-- The fields of a command record of a known kind (R208). -/
def commandFields (bs : List Byte) : Option Command :=
  let b := byteAt bs
  match (b 0).toNat with
  | 1 => some (.setStreamEntry (field 12 bs 8 2) (streamWordAt bs 16))
  | 2 => some (.loadStreamEntries (field 12 bs 8 2) (field 16 bs 10 2) (field 40 bs 16 5))
  | 3 => some (.setEccThreshold (b 8) (field 16 bs 10 2))
  | 4 =>
    if bitAt bs 9 0 then some (.setRingTimingOnly (b 8) (field 16 bs 10 2) (b 12))
    else some (.setRing (b 8) (field 16 bs 10 2) (b 12) (field 40 bs 16 5) (field 32 bs 24 4))
  | 5 => some (.disableRing (b 8))
  | 6 => if bitAt bs 10 0 then some (.clearProtection (b 8) (b 9)) else some (.setProtection (b 8) (b 9) (b 11) (b 12))
  | 7 => some (.setProgramme (b 8) (b 9) (b 10) (b 11) (field 16 bs 12 2))
  | 8 => some (.setCarriage (b 8) (b 9) (field 40 bs 16 5))
  | 9 => some (.armSplice (b 8) (b 9) (b 10) (bitAt bs 11 0) (field 16 bs 12 2) (field 56 bs 16 7))
  | 10 => some (.cancelSplice (b 8) (b 9))
  | 11 => some (.setVariantNow (b 8) (b 9) (b 10))
  | 12 => some (.startSchedule (b 8) (field 40 bs 16 5))
  | 13 => some (.haltSchedule (b 8))
  | 14 => some (.clearSchedule (b 8))
  | 15 => some (.resumeSchedule (b 8))
  | 16 =>
    some (.setEdition (b 8) (bitAt bs 9 0) (field 16 bs 10 2) (field 16 bs 12 2) (field 16 bs 14 2) (field 40 bs 16 5)
      (field 24 bs 24 3))
  | 17 => some (.editionOn (b 8))
  | 18 => some (.editionOff (b 8))
  | 19 => some (.timeLoad (field 56 bs 16 7))
  | 20 => some (.relocateControl (field 40 bs 16 5) (field 40 bs 24 5))
  | 21 => some (.setMemoryLimit (field 64 bs 16 8))
  | 22 => some (.setReportRing (field 16 bs 8 2) (bitAt bs 10 0) (field 40 bs 16 5))
  | 23 => some (.reportAck (field 16 bs 8 2))
  | 24 => some (.statistics (b 8) (b 9))
  | 25 => some .restart
  | _ => none

/-- The first two checks of R190: the kind is known, and the reserved fields are 0 (R208, R211). -/
def parseCommand (bs : List Byte) : Parsed :=
  match commandFields bs with
  | none => .unknown
  | some c => if reservedClear bs (commandNamed bs) 64 then .known c else .reserved

/-- The copy of a command record taken from slot k (R188). -/
def takenRecord (bs : List Byte) (k : BitVec 6) : TakenCommand :=
  { code := byteAt bs 0, tag := field 16 bs 2 2, slot := k, body := parseCommand bs }

/-- A command as a command row of the table gives it: known, with the code of its kind. -/
def takenRow (h : CmdHeader) (c : Command) : TakenCommand :=
  { code := commandCode c, tag := h.tag, slot := h.slot, body := .known c }

/-! ### Building a command record

The host's side of R208, used only to state that reading a record gives back the command it was built from. -/

/-- The 8 bytes of a stream entry (R206). -/
def encodeStreamWord (w : StreamWord) : List Byte :=
  [flagBit w.valid 0 ||| flagBit w.restamp 1, w.prog, BitVec.ofNat 8 w.variant.val, 0] ++ putLE 2 w.mask.toNat
    ++ putLE 2 w.outLabel.toNat

/-- The parameter bytes, from byte 8 on, of a command (R208). -/
def commandParams : Command → List Byte
  | .setStreamEntry l w => putLE 2 l.toNat ++ List.replicate 6 0 ++ encodeStreamWord w
  | .loadStreamEntries f n a => putLE 2 f.toNat ++ putLE 2 n.toNat ++ List.replicate 4 0 ++ putLE 5 a.toNat
  | .setEccThreshold st t => [st, 0] ++ putLE 2 t.toNat
  | .setRing r si re ba sz =>
    [r, 0] ++ putLE 2 si.toNat ++ [re, 0, 0, 0] ++ putLE 5 ba.toNat ++ [0, 0, 0] ++ putLE 4 sz.toNat
  | .setRingTimingOnly r si re => [r, 1] ++ putLE 2 si.toNat ++ [re]
  | .disableRing r => [r]
  | .setProtection p v m b => [p, v, 0, m, b]
  | .clearProtection p v => [p, v, 1]
  | .setProgramme e p pr c d => [e, p, pr, c] ++ putLE 2 d.toNat
  | .setCarriage e c a => [e, c, 0, 0, 0, 0, 0, 0] ++ putLE 5 a.toNat
  | .armSplice e p v f w t => [e, p, v, flagBit f 0] ++ putLE 2 w.toNat ++ [0, 0] ++ putLE 7 t.toNat
  | .cancelSplice e p => [e, p]
  | .setVariantNow e p v => [e, p, v]
  | .startSchedule e a => [e, 0, 0, 0, 0, 0, 0, 0] ++ putLE 5 a.toNat
  | .haltSchedule e => [e]
  | .clearSchedule e => [e]
  | .resumeSchedule e => [e]
  | .setEdition e au w m q b o =>
    [e, flagBit au 0] ++ putLE 2 w.toNat ++ putLE 2 m.toNat ++ putLE 2 q.toNat ++ putLE 5 b.toNat ++ [0, 0, 0]
      ++ putLE 3 o.toNat
  | .editionOn e => [e]
  | .editionOff e => [e]
  | .timeLoad v => List.replicate 8 0 ++ putLE 7 v.toNat
  | .relocateControl b c => List.replicate 8 0 ++ putLE 5 b.toNat ++ [0, 0, 0] ++ putLE 5 c.toNat
  | .setMemoryLimit m => List.replicate 8 0 ++ putLE 8 m.toNat
  | .setReportRing n i b => putLE 2 n.toNat ++ [flagBit i 0, 0, 0, 0, 0, 0] ++ putLE 5 b.toNat
  | .reportAck a => putLE 2 a.toNat
  | .statistics s n => [s, n]
  | .restart => []

/-- The 64 bytes of a command record with its tag (R208). -/
def encodeCommand (tag : Tag16) (c : Command) : List Byte :=
  fit 64 ([commandCode c, 0] ++ putLE 2 tag.toNat ++ [0, 0, 0, 0] ++ commandParams c)

/-! ## The report record and the index block (R209, R210) -/

/-- The code of a command outcome. -/
def outcomeCode : CmdOutcome → Byte
  | .done => 0
  | .replaced => 1
  | .busy => 2
  | .state => 3
  | .range => 4
  | .overlap => 5
  | .queueFull => 6
  | .fetchError => 7
  | .unknown => 8

/-- The code of a splice outcome. -/
def spliceOutcomeCode : SpliceOutcome → Byte
  | .switched => 1
  | .forced => 2
  | .abandoned => 3
  | .cancelled => 4
  | .unchanged => 5

/-- The code of a splice cause. -/
def spliceCauseCode : SpliceCause → Byte
  | .none => 0
  | .command => 1
  | .off => 2
  | .clear => 3

/-- The code of a SCHEDULE END status. -/
def endStatusCode : EndStatus → Byte
  | .ended => 1
  | .check => 2
  | .halted => 3
  | .cleared => 4
  | .off => 5
  | .spliceFailed => 6

/-- The number of a check code. -/
def checkCodeByte : CheckCode → Byte
  | .none => 0
  | .align => 1
  | .address => 2
  | .fetch => 3
  | .kind => 4
  | .field => 5
  | .sequence => 6
  | .progress => 7
  | .length => 8
  | .position => 9

/-- The kind code of a report. -/
def reportCode : Report → Byte
  | .command .. => 1
  | .ring .. => 2
  | .ecc .. => 3
  | .splice .. => 4
  | .note .. => 5
  | .schedEnd .. => 6
  | .edition .. => 7
  | .time .. => 8
  | .stats .. => 9

/-- Bytes 8 to 15 of a report record: house time, or the scope of a STATISTICS record. -/
def reportHead (b : Report) (t : HouseTime) : List Byte :=
  match b with
  | .stats sc n part .. =>
    [match sc with | .edition => 1 | .ring => 2, BitVec.ofNat 8 n, BitVec.ofNat 8 part, 0, 0, 0, 0, 0]
  | _ => putLE 7 t.toNat ++ [0]

/-- The bytes of the fields of a report's kind, from byte 16 on. -/
def reportFields : Report → List Byte
  | .command code slot tag o => [code, slot.setWidth 8] ++ putLE 2 tag.toNat ++ [outcomeCode o]
  | .ring r st w =>
    [BitVec.ofNat 8 r.val, match st with | .silent => 0 | .active => 1, 0, 0, 0, 0, 0, 0] ++ putLE 6 w.toNat
  | .ecc st k i =>
    [match st with | .stream => 1 | .refstore => 2, match k with | .threshold => 1 | .uncorrectable => 2] ++ putLE 2 i
  | .splice e p o c late src tgt adm tag =>
    [BitVec.ofNat 8 e.val, BitVec.ofNat 8 p.val, spliceOutcomeCode o, spliceCauseCode c,
      flagBit late 0 ||| flagBit (src == .channel) 1, BitVec.ofNat 8 tgt.val, BitVec.ofNat 8 adm.val, 0]
      ++ putLE 2 tag.toNat
  | .note e k tag n a => [BitVec.ofNat 8 e.val, k] ++ putLE 2 tag.toNat ++ putLE 4 n.toNat ++ putLE 5 a.toNat
  | .schedEnd e st c n a tag =>
    [BitVec.ofNat 8 e.val, endStatusCode st, checkCodeByte c, 0] ++ putLE 4 n.toNat ++ putLE 5 a.toNat ++ [0]
      ++ putLE 2 tag.toNat
  | .edition e ev n =>
    [BitVec.ofNat 8 e.val, match ev with | .dormant => 1 | .resumed => 2, 0, 0] ++ putLE 2 n
  | .time .referenceLost => [1]
  | .time .referenceRestored => [2]
  | .time (.loaded old) => [3, 0, 0, 0, 0, 0, 0, 0] ++ putLE 7 old.toNat
  | .time (.ppsTimeout v) => [4, 0, 0, 0, 0, 0, 0, 0] ++ putLE 7 v.toNat
  | .stats _ _ _ c0 c1 c2 c3 => putLE 4 c0.toNat ++ putLE 4 c1.toNat ++ putLE 4 c2.toNat ++ putLE 4 c3.toNat

/-- The 32 bytes of a report record with the lost count and the sequence placed into it (R209, R193). -/
def encodeReport (r : PendingRecord) (lost : BitVec 16) (seq : BitVec 32) : List Byte :=
  [reportCode r.body, 0] ++ putLE 2 lost.toNat ++ putLE 4 seq.toNat ++ reportHead r.body r.time
    ++ fit 16 (reportFields r.body)

/-- The 32 bytes of the index block (R210). -/
def encodeIndex (writeIdx : Nat) (lost : BitVec 16) (seq : BitVec 32) : List Byte :=
  putLE 2 writeIdx ++ putLE 2 lost.toNat ++ putLE 4 seq.toNat ++ List.replicate 24 0

/-! ## Position bytes (R64) -/

/-- A position byte: 0 to 47 names a programme, 255 is OPEN, anything else is none. -/
def positionOf (b : Byte) : Option Position :=
  if b = 255 then some .openPool else (index? 48 b.toNat).map .prog

/-- The first n bytes as positions, if every one is a position. -/
def positionsOf (bs : List Byte) (n : Nat) : Option (List Position) :=
  ((List.range n).map (byteAt bs)).mapM positionOf

end Sys2Proof.Machine
end

