-- ==== Sys2Proof/Machine/Port.lean ====
section
/-! DEFINITION. The path unit: the region map and the class of a request (R171 to R174, R27, R85, R182), the requests
issued downstream (R175, R176), the open requests and their responses (R178 to R180). -/

namespace Sys2Proof.Machine

/-! ## The region map -/

/-- The request touches a range when one of its bytes lies in it (R173). -/
def touches (r : Request) (b m : Nat) : Bool := meets r.addr r.len b m

/-- The feed aperture of edition e, if its record holds a base (R171). -/
def feedBase (s : State) (e : EdId) : Option Nat := (tget s.eds e).base.map (·.toNat)

/-- The edition whose feed aperture the request touches. -/
def feedTouched (s : State) (r : Request) : Option EdId :=
  (List.finRange 16).find? fun e =>
    match feedBase s e with
    | some b => touches r b Config.feedBytes
    | none => false

/-- The region of ring i is in the map and the n bytes from a meet it. -/
def ringMeets (s : State) (a n : Nat) (i : RingId) : Bool :=
  let r := tget s.rings.recs i
  r.enabled && meets a n r.base.toNat (ringBytes r)

/-- The ring that a request touching a ring region belongs to: the ring that holds its first byte, or else the ring that
holds its lowest byte that lies in one (R27). -/
def ringTouched (s : State) (r : Request) : Option RingId :=
  match (List.finRange 32).find? (ringMeets s r.addr 1) with
  | some i => some i
  | none =>
    ((List.finRange 32).filter (ringMeets s r.addr r.len)).foldl
      (fun best i =>
        match best with
        | none => some i
        | some j => if (tget s.rings.recs i).base.toNat < (tget s.rings.recs j).base.toNat then some i else some j)
      none

/-- Every byte strobe of the request is set. -/
def fullStrobes (r : Request) : Bool := r.strobes == List.replicate r.len true

/-- The class of a request at its take (R173, R174, R27, R85, R182). -/
inductive ReqClass where
  | beyond
  | feedRead (e : EdId) (n : Nat)
  | lengthFault (e : EdId)
  | feedWrite (e : EdId)
  | ingest (ring : RingId) (slot : Nat)
  | malformed (ring : RingId)
  | ringRead (ring : RingId)
  | command (slot : BitVec 6)
  | controlOther
  | passThrough
  deriving DecidableEq, Repr

/-- A whole-cell read of the aperture at b: its number of cells (R85). -/
def wholeCells (r : Request) (b : Nat) : Option Nat :=
  let n := r.len / Config.cellBytes
  if b ≤ r.addr ∧ r.len = n * Config.cellBytes ∧ 1 ≤ n ∧ n ≤ 4 ∧ (r.addr - b) % Config.cellBytes = 0
      ∧ (r.addr - b) / Config.cellBytes + n ≤ 256 then some n
  else none

/-- The class of a feed request of edition e, whose aperture is at b (R85). -/
def classFeed (r : Request) (e : EdId) (b : Nat) : ReqClass :=
  match r.dir with
  | .write => .feedWrite e
  | .read =>
    match wholeCells r b with
    | some n => .feedRead e n
    | none => .lengthFault e

/-- The class of a ring request of ring i (R27). -/
def classRing (s : State) (r : Request) (i : RingId) : ReqClass :=
  let rec_ := tget s.rings.recs i
  let b := rec_.base.toNat
  match r.dir with
  | .read => .ringRead i
  | .write =>
    if r.len = Config.cellBytes ∧ within r.addr r.len b (ringBytes rec_) ∧ (r.addr - b) % Config.cellBytes = 0
        ∧ fullStrobes r then .ingest i ((r.addr - b) / Config.cellBytes)
    else .malformed i

/-- The class of a control request (R182). -/
def classControl (s : State) (r : Request) : ReqClass :=
  let b := s.path.control.toNat
  if r.dir = .write ∧ r.len = 64 ∧ within r.addr r.len b Config.controlBytes ∧ (r.addr - b) % 64 = 0 ∧ fullStrobes r then
    .command (BitVec.ofNat 6 ((r.addr - b) / 64))
  else .controlOther

/-- The class of a request, by the map as it stands (R172, R173, R174). -/
def classify (s : State) (r : Request) : ReqClass :=
  if Config.addressTop < r.addr + r.len then .beyond
  else match feedTouched s r with
    | some e => classFeed r e ((feedBase s e).getD 0)
    | none =>
      match ringTouched s r with
      | some i => classRing s r i
      | none =>
        if touches r s.path.control.toNat Config.controlBytes then classControl s r else .passThrough

/-- Whether the n bytes from a meet an enabled ring region other than that of `ring` (R185). -/
def meetsRing (s : State) (a n : Nat) (but : Option RingId) : Bool :=
  (List.finRange 32).any fun i => decide (some i ≠ but) && ringMeets s a n i

/-- Whether the n bytes from a meet a feed aperture of another edition than `but` (R185). -/
def meetsFeed (s : State) (a n : Nat) (but : Option EdId) : Bool :=
  (List.finRange 16).any fun e =>
    match feedBase s e with
    | some b => decide (some e ≠ but) && meets a n b Config.feedBytes
    | none => false

/-- Whether the n bytes from a meet the control aperture (R185). -/
def meetsControl (s : State) (a n : Nat) : Bool := meets a n s.path.control.toNat Config.controlBytes

/-! ## Downstream requests -/

/-- A read of the part's own, of len bytes from addr (R176). -/
def ownRead (tag : PortTag) (addr len : Nat) : Request :=
  { dir := .read, tag := tag, granule := BitVec.ofNat 35 (addr / 32), extra := BitVec.ofNat 7 (len / 32 - 1), strobes := [],
    data := [] }

/-- A write of the part's own, with every byte strobe set (R193). -/
def ownWrite (tag : PortTag) (addr : Nat) (data : List Byte) : Request :=
  { dir := .write, tag := tag, granule := BitVec.ofNat 35 (addr / 32), extra := BitVec.ofNat 7 (data.length / 32 - 1),
    strobes := List.replicate data.length true, data := data }

/-- A downstream request is issued: it joins the end of the list of its tag (R176). A forwarded request of a tag from 222 to
255 and the part's own requests of that tag so stand in the order in which they are made: DESIGN CHOICE, log entry 28. -/
def issue (kind : DownKind) (r : Request) (s : State) : State := { s with down := s.down ++ [⟨kind, r⟩] }

/-- The oldest downstream request of a tag, and the requests without it (R176). -/
def takeOldest (tag : PortTag) : List DownReq → Option (DownReq × List DownReq)
  | [] => none
  | d :: ds =>
    if d.req.tag = tag then some (d, ds)
    else (takeOldest tag ds).map fun r => (r.1, d :: r.2)

/-! ## Open requests -/

/-- A request becomes open at its take (R178). -/
def openReq (tag : PortTag) (cls : OpenClass) (rsp : Option Response) (s : State) : State :=
  { s with path := { s.path with openReqs := s.path.openReqs ++ [⟨tag, cls, rsp⟩] } }

/-- The response of the first open request that `sel` selects and that has none yet becomes ready (R179). -/
def readyFirst (sel : OpenReq → Bool) (rsp : Response) : List OpenReq → List OpenReq
  | [] => []
  | o :: os => if sel o && o.response.isNone then { o with response := some rsp } :: os else o :: readyFirst sel rsp os

/-- The response to a forwarded request of a tag becomes ready (R175, R179). The requests forwarded with one tag complete
in the order of their takes, so it is that of the oldest one still without a response (R176, R177). -/
def readyForwarded (tag : PortTag) (rsp : Response) (s : State) : State :=
  { s with path := { s.path with
      openReqs := readyFirst (fun o => o.tag == tag && o.cls == .forwarded) rsp s.path.openReqs } }

/-- The delivery unit hands over the oldest whole-cell read of edition e (R95, R179). -/
def readyFeed (e : EdId) (cells : List Byte) (s : State) : State :=
  { s with path := { s.path with openReqs := readyFirst (fun o => o.cls == .feedRead e) ⟨.okay, cells⟩ s.path.openReqs } }

/-- The open requests after the ready response of the oldest request of a tag has left, if it may leave: for a whole-cell
read, no earlier whole-cell read of its edition is open (R180). `before` holds the open requests before the list. -/
def leave (tag : PortTag) (before : List OpenReq) : List OpenReq → Option (List OpenReq)
  | [] => none
  | o :: os =>
    if o.tag = tag then
      match o.response, o.cls with
      | none, _ => none
      | some _, .feedRead e => if before.any (fun b => b.cls == .feedRead e) then none else some (before ++ os)
      | some _, _ => some (before ++ os)
    else leave tag (before ++ [o]) os

/-- A forwarded request: open upstream, and issued downstream with its own tag (R175). -/
def forward (kind : DownKind) (r : Request) (s : State) : State :=
  issue kind r (openReq r.tag .forwarded none s)

end Sys2Proof.Machine
end

