-- ==== Sys2Proof/Machine/Ops.lean ====
section
/-! DEFINITION. The operations the blocks share: handing a report to the report writer and the writer's writes (R192 to
R198), reference store entries (R49, R56, R57, R59, R60), the ECC gauges (R17), elapsed ticks (R165). -/

namespace Sys2Proof.Machine

/-! ## Block updates -/

/-- Ring record i replaced by its image. -/
def modRing (i : RingId) (f : RingRecord → RingRecord) (s : State) : State :=
  { s with rings := { s.rings with recs := tmodify s.rings.recs i f } }

/-- The edition record of e replaced by its image. -/
def modEd (e : EdId) (f : EditionRecord → EditionRecord) (s : State) : State := { s with eds := tmodify s.eds e f }

/-- The composition record of e replaced by its image. -/
def modComp (e : EdId) (f : CompRecord → CompRecord) (s : State) : State :=
  { s with comp := { s.comp with recs := tmodify s.comp.recs e f } }

/-- The delivery record of e replaced by its image. -/
def modFeed (e : EdId) (f : FeedRecord → FeedRecord) (s : State) : State :=
  { s with dlv := { s.dlv with recs := tmodify s.dlv.recs e f } }

/-- Channel e replaced by its image. -/
def modChan (e : EdId) (f : Channel → Channel) (s : State) : State := { s with chans := tmodify s.chans e f }

/-- Machine (e,p) replaced by its image. -/
def modMachine (e : EdId) (p : ProgId) (f : SpliceMachine → SpliceMachine) (s : State) : State :=
  { s with splices := { s.splices with machines := tmodify2 s.splices.machines e p f } }

/-- The admission counters of e replaced by their image. -/
def modAdm (e : EdId) (f : AdmCounters → AdmCounters) (s : State) : State :=
  { s with refs := { s.refs with counters := tmodify s.refs.counters e f } }

/-- Ring record i. -/
def ringOf (s : State) (i : RingId) : RingRecord := tget s.rings.recs i

/-- The edition record of e. -/
def edOf (s : State) (e : EdId) : EditionRecord := tget s.eds e

/-- The composition record of e. -/
def compOf (s : State) (e : EdId) : CompRecord := tget s.comp.recs e

/-- The delivery record of e. -/
def feedOf (s : State) (e : EdId) : FeedRecord := tget s.dlv.recs e

/-- Channel e. -/
def chanOf (s : State) (e : EdId) : Channel := tget s.chans e

/-- Machine (e,p). -/
def machineOf (s : State) (e : EdId) (p : ProgId) : SpliceMachine := tget2 s.splices.machines e p

/-- Queue (e,p). -/
def queueOf (s : State) (e : EdId) (p : ProgId) : List EntryNo := tget2 s.refs.queues e p

/-! ## The report writer -/

/-- The report ring with INT driven anew (R198). -/
def driveInt (r : ReportWriter) : ReportWriter := { r with intLine := intWanted r }

/-- The writer issues the write of the index block with the values as they stand (R195). -/
def issueIndex (s : State) : State :=
  issue .indexWrite (ownWrite Config.reportTag s.rep.base.toNat (encodeIndex s.rep.writeIdx s.rep.lost s.rep.seq))
    { s with rep := { s.rep with writer := .index } }

/-- When no write of the writer is in flight, it writes the head of the pending list, placing the lost count and the
sequence count into it; the lost count returns to 0 (R193). -/
def startWrite (s : State) : State :=
  match s.rep.writer, s.rep.pend with
  | .idle, p :: _ =>
    issue .recordWrite
      (ownWrite Config.reportTag (s.rep.base.toNat + 32 + 32 * s.rep.writeIdx) (encodeReport p s.rep.lost s.rep.seq))
      { s with rep := { s.rep with lost := 0, writer := .record s.rep.lost } }
  | _, _ => s

/-- Whether the writer accepts a record now (R192). -/
def accepts (r : ReportWriter) : Bool := r.isSet && decide (held r + 1 < r.places)

/-- A report is handed to the writer, with house time now: accepted at the tail of the pending list, or dropped and
counted as lost (R192). -/
def handOver (b : Report) (s : State) : State :=
  if accepts s.rep then startWrite { s with rep := { s.rep with pend := s.rep.pend ++ [⟨b, s.time.now⟩] } }
  else { s with rep := { s.rep with lost := satAdd s.rep.lost 1 } }

/-- The record is the COMMAND report of a REPORT ACK with outcome DONE (R193). -/
def isAckDone : Report → Bool
  | .command code _ _ .done => code == 23
  | _ => false

/-- The index after i in a ring of n places (R193). -/
def nextIndex (i n : Nat) : Nat := if i + 1 = n then 0 else i + 1

/-- A record write completes with OKAY: the indices and the sequence move (R193). -/
def recordWritten (r : ReportWriter) : ReportWriter :=
  let w := nextIndex r.writeIdx r.places
  let read :=
    match r.pend with
    | p :: _ => if isAckDone p.body && r.readIdx == r.writeIdx then w else r.readIdx
    | [] => r.readIdx
  driveInt { r with pend := r.pend.tail, writeIdx := w, readIdx := read, seq := r.seq + 1 }

/-- A record write completes with ERROR: the record and the count it carried are counted as lost (R194). -/
def recordFailed (r : ReportWriter) (carried : BitVec 16) : ReportWriter :=
  { r with pend := r.pend.tail, lost := satAdd r.lost (carried.toNat + 1) }

/-- The act of SET REPORT RING (R196). -/
def setRingAct (places : Nat) (intEnable : Bool) (base : Addr) (s : State) : State :=
  let kept := s.rep.pend.take (places - 1)
  issueIndex { s with rep := driveInt { s.rep with
    isSet := true, base := base, places := places, intEnable := intEnable, writeIdx := 0, readIdx := 0, pend := kept,
    lost := satAdd s.rep.lost (s.rep.pend.length - kept.length) } }

/-! ## ECC gauges (R17) -/

/-- The gauge after one single-bit correction, and whether its threshold was reached (R17). -/
def gaugeStep (g : EccGauge) : EccGauge × Bool :=
  if g.threshold = 0 then (g, false)
  else if g.threshold.toNat ≤ g.count.toNat + 1 then ({ g with count := 0 }, true)
  else ({ g with count := g.count + 1 }, false)

/-- A single-bit correction in the stream table at label i (R15, R17). -/
def countStream (i : Nat) (s : State) : State :=
  let g := gaugeStep s.stream.gauge
  let s' := { s with stream := { s.stream with gauge := g.1 } }
  if g.2 then handOver (.ecc .stream .threshold i) s' else s'

/-- A single-bit correction in the reference store at an entry (R59, R17). -/
def countRefs (n : EntryNo) (s : State) : State :=
  let g := gaugeStep s.refs.gauge
  let s' := { s with refs := { s.refs with gauge := g.1 } }
  if g.2 then handOver (.ecc .refstore .threshold n.val) s' else s'

/-! ## Reference store -/

/-- Reference n leaves queue (e,p) and its entry joins the tail of the free list (R56). -/
def releaseRef (e : EdId) (p : ProgId) (n : EntryNo) (r : RefStore) : RefStore :=
  { r with
    queues := tmodify2 r.queues e p (·.erase n), edCount := tmodify r.edCount e (· - 1), pool := r.pool - 1,
    free := r.free ++ [n], scan := r.scan.map fun sc => { sc with todo := sc.todo.erase n } }

/-- A reference is stored for (e,p) in the entry at the head of the free list, with fresh check bits (R49, R52). -/
def storeRef (e : EdId) (p : ProgId) (ref : Reference) (r : RefStore) : RefStore :=
  match r.free with
  | [] => r
  | n :: rest =>
    { r with
      slots := tput r.slots n { ref := ref, check := .clean }, free := rest, queues := tmodify2 r.queues e p (· ++ [n]),
      edCount := tmodify r.edCount e (· + 1), pool := r.pool + 1 }

/-- Every reference of edition e, in ascending programme slot and from head to tail (R57). -/
def refsOfEdition (e : EdId) (r : RefStore) : List EntryNo := (tget r.queues e).toList.flatten

/-- The release of every reference of edition e as one event, without reading the entries (R57). -/
def releaseEdition (e : EdId) (r : RefStore) : RefStore :=
  let gone := refsOfEdition e r
  { r with
    queues := tput r.queues e (Vector.replicate 48 []), edCount := tput r.edCount e 0, pool := r.pool - gone.length,
    free := r.free ++ gone,
    scan := r.scan.map fun sc => if sc.at_ / 48 = e.val then { sc with todo := [] } else sc }

/-- A stale discard of edition e is counted by its cause (R82). -/
def countStale (c : StaleCause) (r : CompRecord) : CompRecord :=
  match c with
  | .ring => { r with staleRing := r.staleRing + 1 }
  | .overwritten => { r with staleOverwritten := r.staleOverwritten + 1 }
  | .age => { r with staleAge := r.staleAge + 1 }
  | .ecc => { r with staleEcc := r.staleEcc + 1 }

/-- The stale head n of queue (e,p) is released and counted (R75). -/
def discardStale (e : EdId) (p : ProgId) (n : EntryNo) (c : StaleCause) (s : State) : State :=
  modComp e (countStale c) { s with refs := releaseRef e p n s.refs }

/-- Entry n, which stands in queue (e,p), is read with its SECDED check: the reference after any correction, or none when
it was uncorrectable and has been discarded (R59, R60). -/
def readRef (e : EdId) (p : ProgId) (n : EntryNo) (s : State) : State × Option Reference :=
  let slot := tget s.refs.slots n
  match slot.check with
  | .clean => (s, some slot.ref)
  | .single =>
    (countRefs n { s with refs := { s.refs with slots := tput s.refs.slots n { slot with check := .clean } } }, some slot.ref)
  | .double => (handOver (.ecc .refstore .uncorrectable n.val) (discardStale e p n .ecc s), none)

/-- What a SECDED check will find after a storage error: the new error if there is one (log entry 5). -/
def upsetCheck (new old : BitFault) : BitFault := if new = .clean then old else new

/-- Storage errors befall entries of the reference store (log entry 5). -/
def upsetRefs (us : List Upset) (s : State) : State :=
  { s with refs := { s.refs with
      slots := us.foldl (fun v u => tmodify v u.entry fun sl => { sl with check := upsetCheck u.fault sl.check })
        s.refs.slots } }

/-! ## Elapsed ticks (R165) -/

/-- n elapsed ticks: house time, the quiet time of every enabled ring, the idle time of every LIVE edition and the wait of
a pending load each grow by n (R162, R32, R156, R168). -/
def elapse (n : Nat) (s : State) : State :=
  { s with
    time := { s.time with
      now := s.time.now + BitVec.ofNat 56 n,
      load := s.time.load.map fun l => { l with wait := l.wait + n } },
    rings := { s.rings with recs := tmap (fun r => if r.enabled then { r with quiet := r.quiet + n } else r) s.rings.recs },
    eds := tmap (fun r => if r.state = .live then { r with idle := r.idle + n } else r) s.eds }

end Sys2Proof.Machine
end

