-- ==== Sys2Proof/Machine/Splices.lean ====
section
/-! DEFINITION. Splice machines and schedule channels together: judging an arming (R109), resolving a splice (R106, R111,
R112, R114), a channel's fetches, its going on and its end (R128, R131, R140, R147), and running a word (R130 to R138). -/

namespace Sys2Proof.Machine

/-! ## Ending a chain -/

/-- The end address as the 40-bit field of a SCHEDULE END report carries it; an address that is not below 2^40 has no
stated value there (R147, R209; log entry 6). -/
def endAddress (a : Nat) : Addr := if a < Config.addressTop then BitVec.ofNat 40 a else Config.endAddressBeyond a

/-- The fetches that channel e issued are given up: they are discarded at their completion (R145). -/
def killFetches (e : EdId) (ds : List DownReq) : List DownReq :=
  ds.map fun d =>
    match d.kind with
    | .wordFetch f live => { d with kind := .wordFetch f (live && decide (f ≠ e)) }
    | .dataFetch f live => { d with kind := .dataFetch f (live && decide (f ≠ e)) }
    | _ => d

/-- A wait of channel e on a machine is dropped (R108). -/
def dropWait (e : EdId) (s : State) : State :=
  { s with splices := { s.splices with
      machines := tmodify s.splices.machines e (tmap fun m => { m with waiting := false }) } }

/-- Channel e in IDLE: no current word, no fetch in flight and no sync machine (R125, R131). -/
def idleChannel (c : Channel) : Channel := { c with state := .idle, current := none, fetch := .none, sync := none }

/-- The chain of channel e ends: its wait is dropped, its fetch given up, a SCHEDULE END report handed over, and the
channel becomes IDLE (R131, R142, R145, R147). -/
def endChain (e : EdId) (status : EndStatus) (code : CheckCode) (addr : Nat) (tag : Tag16) (s : State) : State :=
  let s := dropWait e { s with down := killFetches e s.down }
  modChan e idleChannel (handOver (.schedEnd e status code (chanOf s e).words (endAddress addr) tag) s)

/-- The end address and tag where the host or the edition stops a chain: the current word, or the address being fetched
with tag 0 (R147). -/
def stopPlace (c : Channel) : Nat × Tag16 :=
  match c.current with
  | some w => (w.addr.toNat, w.word.tag)
  | none => (c.next, 0)

/-- A running channel e is stopped with a status; an IDLE one is not affected (R142, R143, R148). -/
def stopChain (e : EdId) (status : EndStatus) (s : State) : State :=
  let c := chanOf s e
  if c.state = .idle then s else endChain e status .none (stopPlace c).1 (stopPlace c).2 s

/-! ## Fetching and going on -/

/-- Channel e fetches the word at its next address, after the tests ALIGN and ADDRESS (R128). -/
def fetchWord (e : EdId) (s : State) : State :=
  let a := (chanOf s e).next
  if a % 32 ≠ 0 then endChain e .check .align a 0 s
  else if s.path.limit < a + 32 then endChain e .check .address a 0 s
  else
    issue (.wordFetch e true) (ownRead (Config.channelTag e) a 32)
      (modChan e (fun c => { c with state := .fetching, current := none, fetch := .word, sync := none }) s)

/-- The current word of channel e has been executed: HOLD leaves the channel SUSPENDED with the word current; otherwise the
channel fetches the next word (R140). -/
def goOn (e : EdId) (s : State) : State :=
  match (chanOf s e).current with
  | some w =>
    if w.word.hold then modChan e (fun c => { c with state := .suspended, fetch := .none, sync := none }) s
    else fetchWord e s
  | none => s

/-- Whether an outcome ends the chain of a SYNC word with STOP-ON-FAIL set (R138). -/
def outcomeFails : SpliceOutcome → Bool
  | .abandoned => true
  | .cancelled => true
  | _ => false

/-- Channel e judges the outcome of the splice of its SYNC word (R138). -/
def judgeOutcome (e : EdId) (o : SpliceOutcome) (s : State) : State :=
  match (chanOf s e).current with
  | some w =>
    match w.word.kind with
    | .splice _ _ _ _ _ _ stop =>
      if stop && outcomeFails o then endChain e .spliceFailed .none w.addr.toNat w.word.tag s else goOn e s
    | _ => s
  | none => s

/-- An outcome is handed to channel e from machine (e,p): judged if the channel is SYNCING on that machine, else ignored
(R106, R138). -/
def outcomeToChannel (e : EdId) (p : ProgId) (o : SpliceOutcome) (s : State) : State :=
  if (chanOf s e).state = .syncing ∧ (chanOf s e).sync = some p then judgeOutcome e o s else s

/-! ## Machines -/

/-- The SPLICE report of a resolution, with the admitted variant after it (R123). -/
def spliceReport (e : EdId) (p : ProgId) (sp : PendingSplice) (o : SpliceOutcome) (cause : SpliceCause) (s : State) : State :=
  handOver (.splice e p o cause sp.late sp.source sp.target (machineOf s e p).admitted sp.tag) s

/-- Machine (e,p) becomes STEADY; with `switch`, the admitted variant becomes the target and mark-pending is set (R111,
R112). -/
def settleMachine (switch : Bool) (sp : PendingSplice) (m : SpliceMachine) : SpliceMachine :=
  if switch then { m with phase := .steady, admitted := sp.target, markPending := true } else { m with phase := .steady }

/-- Whether an outcome changes the admitted variant (R111, R112). -/
def outcomeSwitches : SpliceOutcome → Bool
  | .switched => true
  | .forced => true
  | _ => false

/-- The splice sp resolves at machine (e,p): the machine becomes STEADY and the SPLICE report is handed over (R111, R112,
R114, R123). -/
def resolveOnly (e : EdId) (p : ProgId) (sp : PendingSplice) (o : SpliceOutcome) (cause : SpliceCause) (s : State) : State :=
  spliceReport e p sp o cause (modMachine e p (settleMachine (outcomeSwitches o) sp) s)

/-- The outcome of an expiry by the FORCE flag (R112). -/
def expiryOutcome (sp : PendingSplice) : SpliceOutcome := if sp.force then .forced else .abandoned

/-- An arming accepted at STEADY machine (e,p) is judged (R109): the state after it, and the outcome if it resolved at
once. -/
def judgeArming (e : EdId) (p : ProgId) (sp : PendingSplice) (s : State) : State × Option SpliceOutcome :=
  let h := s.time.now.toNat
  if sp.target = (machineOf s e p).admitted then
    (resolveOnly e p { sp with late := false } .unchanged .none s, some .unchanged)
  else if sp.windowEnd ≤ h then
    let sp := { sp with late := true }
    (resolveOnly e p sp (expiryOutcome sp) .none s, some (expiryOutcome sp))
  else if sp.t.toNat ≤ h then
    (modMachine e p (fun m => { m with phase := .seeking { sp with late := true } }) s, none)
  else (modMachine e p (fun m => { m with phase := .armed { sp with late := false } }) s, none)

/-- The splice that a SPLICE word arms (R108). -/
def wordSplice (w : SchedWord) : Option (ProgId × PendingSplice × Bool) :=
  match w.kind with
  | .splice p v t win force sync _ =>
    some (p, { target := v, t := t, window := win, force := force, tag := w.tag, source := .channel, late := false }, sync)
  | _ => none

/-- The arming of channel e's current SPLICE word is taken at STEADY machine (e,p), and the channel goes on, judges the
resolution at once or becomes SYNCING (R136, R137). -/
def takeArming (e : EdId) (p : ProgId) (sp : PendingSplice) (sync : Bool) (s : State) : State :=
  match judgeArming e p sp s with
  | (s, some o) => if sync then judgeOutcome e o s else goOn e s
  | (s, none) =>
    if sync then modChan e (fun c => { c with state := .syncing, sync := some p, fetch := .none }) s else goOn e s

/-- Channel e hands the arming of its current SPLICE word to its machine, or becomes BLOCKED on it (R108, R136). -/
def armFromChannel (e : EdId) (w : SchedWord) (s : State) : State :=
  match wordSplice w with
  | none => s
  | some (p, sp, sync) =>
    match (machineOf s e p).phase with
    | .steady => takeArming e p sp sync s
    | _ =>
      modChan e (fun c => { c with state := .blocked, fetch := .none }) (modMachine e p (fun m => { m with waiting := true }) s)

/-- At the return of machine (e,p) to STEADY, an arming that waits on it is taken as one act with the return (R108). -/
def takeWaiting (e : EdId) (p : ProgId) (s : State) : State :=
  if (machineOf s e p).waiting then
    let s := modMachine e p (fun m => { m with waiting := false }) s
    match (chanOf s e).current with
    | some w => armFromChannel e w.word s
    | none => s
  else s

/-- The pending splice sp of machine (e,p) resolves: its report, its outcome to the channel that armed it, and then the
arming that waits on the machine (R106, R108, R111, R112, R114). -/
def resolve (e : EdId) (p : ProgId) (sp : PendingSplice) (o : SpliceOutcome) (cause : SpliceCause) (s : State) : State :=
  let s := resolveOnly e p sp o cause s
  let s := if sp.source = .channel then outcomeToChannel e p o s else s
  takeWaiting e p s

/-- The splice that a machine times, if any. -/
def pendingOf : SplicePhase → Option PendingSplice
  | .steady => none
  | .armed sp => some sp
  | .seeking sp => some sp

/-- Machine (e,p) reaches T (R110): ARMED becomes SEEKING, and with W = 0 the splice expires as one act with that. -/
def reachT (e : EdId) (p : ProgId) (sp : PendingSplice) (s : State) : State :=
  let s := modMachine e p (fun m => { m with phase := .seeking sp }) s
  if sp.window = 0 then resolve e p sp (expiryOutcome sp) .none s else s

/-- Machine (e,p) is judged against house time changed by a load (R118, R119). -/
def judgeLoad (e : EdId) (p : ProgId) (s : State) : State :=
  let h := s.time.now.toNat
  match (machineOf s e p).phase with
  | .steady => s
  | .armed sp =>
    if sp.windowEnd ≤ h then resolve e p sp (expiryOutcome sp) .none s
    else if sp.t.toNat ≤ h then modMachine e p (fun m => { m with phase := .seeking sp }) s
    else s
  | .seeking sp => if sp.windowEnd ≤ h then resolve e p sp (expiryOutcome sp) .none s else s

/-- Every pending splice of edition e resolves CANCELLED with a cause, in ascending programme order, and no outcome is
handed to the channel (R121, R122). -/
def cancelAll (e : EdId) (cause : SpliceCause) (s : State) : State :=
  (List.finRange 48).foldl
    (fun s p =>
      match pendingOf (machineOf s e p).phase with
      | some sp => resolveOnly e p sp .cancelled cause s
      | none => s) s

/-! ## Running a word -/

/-- Channel e has executed its WAIT word if house time is at or beyond T; otherwise it waits (R132). -/
def judgeWait (e : EdId) (t : HouseTime) (s : State) : State :=
  if t.toNat ≤ s.time.now.toNat then goOn e s
  else modChan e (fun c => { c with state := .waiting, fetch := .none }) s

/-- Channel e runs its current word by its kind (R132 to R136). -/
def runWord (e : EdId) (a : Addr) (w : SchedWord) (s : State) : State :=
  match w.kind with
  | .splice .. => armFromChannel e w s
  | .carriage _ count d _ =>
    let n := 32 * ceilDiv count 32
    if s.path.limit < d.toNat + n then endChain e .check .address a.toNat w.tag s
    else
      issue (.dataFetch e true) (ownRead (Config.channelTag e) d.toNat n)
        (modChan e (fun c => { c with state := .fetching, fetch := .data }) s)
  | .wait t => judgeWait e t s
  | .jump target => goOn e (modChan e (fun c => { c with next := target.toNat, jumped := true }) s)
  | .endWord => endChain e .ended .none a.toNat w.tag s

/-- A JUMP or a CARRIAGE word, which the progress count counts (R125). -/
def countsProgress : WordKind → Bool
  | .carriage .. => true
  | .jump _ => true
  | _ => false

/-- The tests SEQUENCE, PROGRESS and LENGTH of a word of channel c (R129). -/
def wordTests (c : Channel) (w : SchedWord) : Option CheckCode :=
  if (match w.kind with | .jump _ => c.jumped | _ => false) then some .sequence
  else if countsProgress w.kind && decide (255 ≤ c.progress) then some .progress
  else match w.kind with
    | .carriage len count _ suppress => if !suppress && count != len then some .length else none
    | _ => none

/-- A word becomes current in channel e: the counts, the jumped flag, the fetch in flight, and the NOTE report (R130,
R146); the address after it becomes the next address (R127). -/
def wordCurrent (e : EdId) (a : Addr) (w : SchedWord) (s : State) : State :=
  let s := modChan e (fun c => { c with
    current := some ⟨a, w⟩, next := a.toNat + 32, words := c.words + 1,
    progress := if countsProgress w.kind then c.progress + 1 else 0, jumped := false, fetch := .none }) s
  if w.note then handOver (.note e (wordCode w.kind) w.tag (chanOf s e).words a) s else s

/-- The word fetch of channel e's present chain completes (R129, R130, R131). -/
def wordReturned (e : EdId) (rsp : Response) (s : State) : State :=
  let c := chanOf s e
  let bs := fit 32 rsp.data
  match rsp.kind with
  | .error => endChain e .check .fetch c.next 0 s
  | .okay =>
    match parseWord bs with
    | .inr code => endChain e .check code c.next (wordTag bs) s
    | .inl w =>
      match wordTests c w with
      | some code => endChain e .check code c.next w.tag s
      | none => runWord e (BitVec.ofNat 40 c.next) w (wordCurrent e (BitVec.ofNat 40 c.next) w s)

end Sys2Proof.Machine
end

