-- ==== Sys2Proof/Machine/Admission.lean ====
section
/-! DEFINITION. Admission (chapter 3): the stream table lookup, the protection step and the edition steps of one cell. -/

namespace Sys2Proof.Machine

/-! ## The stream table (R6, R7, R10) -/

/-- The slot of a label; label 4095 has no storage and reads as invalid (R6). -/
def streamSlot (t : StreamTable) (l : Label) : StreamSlot :=
  match index? 4095 l.toNat with
  | some i => tget t.slots i
  | none => { entry := .invalid, check := .clean }

/-- The entry of a label replaced whole, with fresh check bits; a write to label 4095 is discarded (R6, R10). -/
def writeStream (l : Nat) (x : StreamEntry) (t : StreamTable) : StreamTable :=
  match index? 4095 l with
  | some i => { t with slots := tput t.slots i { entry := x, check := .clean } }
  | none => t

/-- A storage error befalls the entry of a label; entry 4095 cannot suffer one (R6; log entry 5). -/
def upsetStream (l : Label) (u : BitFault) (t : StreamTable) : StreamTable :=
  match index? 4095 l.toNat with
  | some i =>
    { t with slots := tmodify t.slots i fun sl => { sl with check := if u = .clean then sl.check else u } }
  | none => t

/-- The lookup of an entry by admission: the state after any correction or rewrite, and the entry if it is valid (R7, R15,
R16). -/
def lookup (l : Label) (s : State) : State × Option StreamEntry :=
  let slot := streamSlot s.stream l
  let found := if slot.entry.valid then some slot.entry else none
  match slot.check with
  | .clean => (s, found)
  | .single => (countStream l.toNat { s with stream := writeStream l.toNat slot.entry s.stream }, found)
  | .double =>
    (handOver (.ecc .stream .uncorrectable l.toNat) { s with stream := writeStream l.toNat .invalid s.stream }, none)

/-! ## The edition steps (R42) -/

/-- Step 2: an entry-point admission resolves the SEEKING splice of its target variant as SWITCHED (R44, R111). -/
def entryPoint (e : EdId) (p : ProgId) (v : Variant) (cellE : Bool) (s : State) : State :=
  match (machineOf s e p).phase with
  | .seeking sp => if cellE && sp.target == v then resolve e p sp .switched .none s else s
  | _ => s

/-- The reference that a cell gives, with its mark (R49). -/
def referenceOf (c : IngestKept) (x : StreamEntry) (mark : Bool) : Reference :=
  { ring := c.ring, seq := c.seq, inLabel := c.label, outLabel := x.outLabel, e := c.e, k := c.k, x := c.x,
    restamp := x.restamp, mark := mark, arrival := c.arrival }

/-- Step 9: the reference is stored; it takes the mark if mark-pending is set and the cell has K, and mark-pending is then
clear (R49, R50). -/
def storeCell (e : EdId) (c : IngestKept) (x : StreamEntry) (s : State) : State :=
  let mark := (machineOf s e x.prog).markPending && c.k
  let s := { s with refs := storeRef e x.prog (referenceOf c x mark) s.refs }
  if mark then modMachine e x.prog (fun m => { m with markPending := false }) s else s

/-- Steps 5 to 9 (R47, R48, R49). -/
def admitLimits (e : EdId) (c : IngestKept) (x : StreamEntry) (s : State) : State :=
  if !carried (compOf s e) x.prog then modAdm e (fun a => { a with notCarried := a.notCarried + 1 }) s
  else if tget2 s.refs.depth e x.prog ≤ (queueOf s e x.prog).length then
    modAdm e (fun a => { a with depthDrop := a.depthDrop + 1 }) s
  else if (edOf s e).quota ≤ tget s.refs.edCount e then modAdm e (fun a => { a with quotaDrop := a.quotaDrop + 1 }) s
  else if Config.poolSize ≤ s.refs.pool then modAdm e (fun a => { a with poolDrop := a.poolDrop + 1 }) s
  else storeCell e c x s

/-- The edition steps of one edition (R42 to R50). -/
def admitEdition (c : IngestKept) (x : StreamEntry) (s : State) (e : EdId) : State :=
  if (edOf s e).state = .off then s
  else
    let s := entryPoint e x.prog x.variant c.e s
    if x.variant ≠ (machineOf s e x.prog).admitted then s
    else if (edOf s e).state = .dormant then s
    else admitLimits e c x s

/-- The editions whose bit is set in a mask, in ascending number (R42). -/
def maskEditions (mask : BitVec 16) : List EdId := (List.finRange 16).filter fun e => mask.getLsbD e.val

/-- Admission of one cell (R41, R42): filler, lookup, protection and the edition steps. A channel acts on the switch of its splice
before the next edition begins: DESIGN CHOICE, log entry 29 (R192). -/
def admitCell (c : IngestKept) (s : State) : State :=
  if c.label = Config.fillerLabel then s
  else
    match lookup c.label s with
    | (s, none) => modRing c.ring (fun r => { r with labelFaults := r.labelFaults + 1 }) s
    | (s, some x) =>
      if !protectionPasses s.rings x.prog x.variant c.ring then
        modRing c.ring (fun r => { r with duplicates := r.duplicates + 1 }) s
      else (maskEditions x.mask).foldl (admitEdition c x) s

/-- The completion of an ingest write at the ring unit (R26, R31). -/
def ingestReturned (c : IngestKept) (rsp : Response) (s : State) : State :=
  if !c.valid then s
  else match rsp.kind with
    | .okay => admitCell c s
    | .error => modRing c.ring (fun r => { r with writeErrors := r.writeErrors + 1 }) s

end Sys2Proof.Machine
end

