-- ==== Sys2Proof/Machine/Composition.lean ====
section
/-! DEFINITION. The composer (chapter 4): stale clearing, the choice of one position, the frame boundary, receiving a
frame, the changes of an edition's state, and the composition of a feed read. -/

namespace Sys2Proof.Machine

/-! ## Frames and boundaries -/

/-- Every open count at 0. -/
def zeroCounts : PerProgramme Nat := Vector.replicate 48 0

/-- What a frame boundary does (R66), with the position at 0; leaving LIVE applies the same (R72). -/
def boundary (c : CompRecord) : CompRecord :=
  { c with openCount := zeroCounts, inForce := c.pending, frame := c.staged.getD c.frame, staged := none, pos := 0 }

/-- The advance of the position after a choice (R65). -/
def advance (c : CompRecord) : CompRecord :=
  if c.pos + 1 < c.frame.length then { c with pos := c.pos + 1 } else boundary c

/-- A frame becomes current at once in an edition that is not LIVE (R69). -/
def applyFrame (f : List Position) (c : CompRecord) : CompRecord := { c with frame := f, pos := 0, openCount := zeroCounts }

/-- The composer receives a checked frame for edition e: the state after it, and whether a staged frame was replaced
(R69). -/
def receiveFrame (e : EdId) (f : List Position) (s : State) : State × Bool :=
  if (edOf s e).state = .live then
    (modComp e (fun c => { c with staged := some f }) s, (compOf s e).staged.isSome)
  else (modComp e (applyFrame f) s, false)

/-- The composer's record when EDITION ON turns an edition on from OFF (R72). -/
def compTurnOn (c : CompRecord) : CompRecord := { c with pos := 0, openCount := zeroCounts, lastHigh := 47, lastLow := 47 }

/-! ## Stale clearing -/

/-- The head of queue (e,p) is read and tested, and discarded with its successors for as long as it is stale or
uncorrectable; `fuel` bounds the references of the queue (R75, R76, R60). -/
def clearQueue (e : EdId) (p : ProgId) (t : HouseTime) : Nat → State → State
  | 0, s => s
  | fuel + 1, s =>
    match queueOf s e p with
    | [] => s
    | n :: _ =>
      match readRef e p n s with
      | (s, none) => clearQueue e p t fuel s
      | (s, some ref) =>
        match staleCause s.rings (edOf s e).maxAge t ref with
        | some c => clearQueue e p t fuel (discardStale e p n c s)
        | none => s

/-- Stale clearing of every queue of edition e (R75). -/
def clearAll (e : EdId) (t : HouseTime) (s : State) : State :=
  (List.finRange 48).foldl (fun s p => clearQueue e p t (queueOf s e p).length s) s

/-! ## One choice -/

/-- Programme q is a candidate of the open pool: its queue is not empty and its open count is below its ceiling in force
(R78). -/
def candidate (s : State) (e : EdId) (q : ProgId) : Bool :=
  !(queueOf s e q).isEmpty && decide (tget (compOf s e).openCount q < (tget (compOf s e).inForce q).ceiling)

/-- A candidate of a class (R78). -/
def candidateIn (s : State) (e : EdId) (cls : Priority) (q : ProgId) : Bool :=
  candidate s e q && (tget (compOf s e).inForce q).priority == cls

/-- The slots in round robin order after the last-served one, which comes last (R79). -/
def roundRobin (last : ProgId) : List ProgId := (List.finRange 48).map fun i => last + 1 + i

/-- The winner of the open pool with its class: HIGH candidates compete if there is any, else LOW ones (R78, R79). -/
def openWinner (s : State) (e : EdId) : Option (ProgId × Priority) :=
  match (roundRobin (compOf s e).lastHigh).find? (candidateIn s e .high) with
  | some q => some (q, .high)
  | none => ((roundRobin (compOf s e).lastLow).find? (candidateIn s e .low)).map fun q => (q, .low)

/-- A win of programme q: its open count and the last-served pointer of its class (R79). -/
def serveOpen (q : ProgId) (cls : Priority) (c : CompRecord) : CompRecord :=
  let c := { c with openCount := tmodify c.openCount q (· + 1) }
  match cls with
  | .high => { c with lastHigh := q }
  | .low => { c with lastLow := q }

/-- The head of queue (e,q) is taken as a choice and released (R81, R56). -/
def takeHead (e : EdId) (q : ProgId) (s : State) : State × Option Reference :=
  match queueOf s e q with
  | [] => (s, none)
  | n :: _ => ({ s with refs := releaseRef e q n s.refs }, some (tget s.refs.slots n).ref)

/-- The open pool's choice, if it makes one (R78, R79). -/
def chooseOpen (e : EdId) (s : State) : State × Option Reference :=
  match openWinner s e with
  | none => (s, none)
  | some (q, cls) => takeHead e q (modComp e (serveOpen q cls) s)

/-- The choice of one position after stale clearing: guaranteed, open pool or filler (R74 steps 2 to 4, R77, R80). -/
def choosePlace (e : EdId) (s : State) : State × Option Reference :=
  match (compOf s e).frame.getD (compOf s e).pos .openPool with
  | .prog p => if (queueOf s e p).isEmpty then chooseOpen e s else takeHead e p s
  | .openPool => chooseOpen e s

/-- One choice of a feed read taken at t: stale clearing, the choice and the advance (R74). -/
def chooseOne (e : EdId) (t : HouseTime) (s : State) : State × Option Reference :=
  let r := choosePlace e (clearAll e t s)
  (modComp e advance r.1, r.2)

/-- n choices one after another (R74). -/
def composeRead (e : EdId) (t : HouseTime) : Nat → State → State × List (Option Reference)
  | 0, s => (s, [])
  | n + 1, s =>
    let r := chooseOne e t s
    let rest := composeRead e t n r.1
    (rest.1, r.2 :: rest.2)

end Sys2Proof.Machine
end

