-- ==== Sys2Proof/Machine/Delivery.lean ====
section
/-! DEFINITION. The delivery unit (chapter 5): the in-flight list, the delivery reads and their returns, finishing, and
its work at RESTART. -/

namespace Sys2Proof.Machine

/-! ## The in-flight list -/

/-- Entries in use in an edition's in-flight list (R88). -/
def entriesUsed (f : FeedRecord) : Nat := (f.reads.map List.length).sum

/-- The list of the edition has room for n entries (R89). -/
def hasRoom (f : FeedRecord) (n : Nat) : Bool := decide (entriesUsed f + n ≤ Config.listSize)

/-- The entry for a choice of a feed read taken at t (R81, R88): a FILLER entry is FILLED from the start. -/
def entryFor (t : HouseTime) (offset : BitVec 24) (choice : Option Reference) : InFlight :=
  match choice with
  | some ref => { ref := some ref, t := t, offset := offset, state := .issued }
  | none => { ref := none, t := t, offset := offset, state := .filled }

/-- The delivery read of a chosen reference is issued, and counts as in flight for its ring (R90). -/
def issueDelivery (e : EdId) (ref : Reference) (s : State) : State :=
  issue (.delivery e ref.ring true)
    (ownRead (Config.deliveryTag e) (slotAddr (ringOf s ref.ring) ref.seq) Config.cellBytes)
    (modRing ref.ring (fun r => { r with readsInFlight := r.readsInFlight + 1 }) s)

/-- The entries of a whole-cell read join the in-flight list together, and the delivery reads of its references are issued
in composition order (R89, R90). -/
def joinRead (e : EdId) (entries : List InFlight) (s : State) : State :=
  (entries.filterMap (·.ref)).foldl (fun s ref => issueDelivery e ref s)
    (modFeed e (fun f => { f with reads := f.reads ++ [entries] }) s)

/-! ## Restamping and finishing -/

/-- The residence of a delivered cell: t − arrival, at least 0 (R98). -/
def residence (t arrival : HouseTime) : Nat := t.toNat - arrival.toNat

/-- The restamped clock stamp: (S + D + O) mod 2^40 (R99). -/
def restamp (stamp : BitVec 40) (d : Nat) (offset : BitVec 24) : BitVec 40 :=
  BitVec.ofInt 40 ((stamp.toNat : Int) + (d : Int) + offset.toInt)

/-- The final cell of a RETURNED entry with its continuity value (R96). -/
def finalCell (x : InFlight) (ref : Reference) (data : List Byte) (cont : BitVec 4) : List Byte :=
  let stamp := cellStamp data
  deliveredCell data ref.outLabel cont ref.e ref.k (ref.mark || ref.x)
    (if ref.k && ref.restamp then restamp stamp (residence x.t ref.arrival) x.offset else stamp) x.t

/-- The place of a label's counter in a continuity table (R97). -/
def contIndex (l : Label) : Fin 4096 := l.toFin

/-- The front unfinished entry is finished, if it is ready: RETURNED as a delivered cell that takes and advances the
counter of its output label, FILLED as a filler cell (R95, R97, R100). -/
def finishEntry (f : FeedRecord) (x : InFlight) : Option (FeedRecord × InFlight) :=
  match x.state with
  | .issued => none
  | .finished .. => some (f, x)
  | .filled => some ({ f with filler := f.filler + 1 }, { x with state := .finished (fillerCell x.t) false })
  | .returned data =>
    match x.ref with
    | none => none
    | some ref =>
      let i := contIndex ref.outLabel
      let c := tget f.cont i
      some ({ f with cont := tput f.cont i (c + 1), delivered := f.delivered + 1 },
        { x with state := .finished (finalCell x ref data c) true })

/-- Entries are finished from the front for as long as the front one is ready; the last component says whether every one
is finished (R95). -/
def finishEntries (f : FeedRecord) : List InFlight → FeedRecord × List InFlight × Bool
  | [] => (f, [], true)
  | x :: xs =>
    match finishEntry f x with
    | none => (f, x :: xs, false)
    | some (f, x') =>
      let r := finishEntries f xs
      (r.1, x' :: r.2.1, r.2.2)

/-- The final cell of a finished entry. -/
def cellOf (x : InFlight) : List Byte :=
  match x.state with
  | .finished cell _ => cell
  | _ => []

/-- Finishing over the reads of a list in order: the record, the reads that stay, and the data of the reads handed over
(R95). -/
def finishReads (f : FeedRecord) : List (List InFlight) → FeedRecord × List (List InFlight) × List (List Byte)
  | [] => (f, [], [])
  | xs :: rest =>
    match finishEntries f xs with
    | (f, xs, false) => (f, xs :: rest, [])
    | (f, xs, true) =>
      let r := finishReads f rest
      (r.1, r.2.1, (xs.map cellOf).flatten :: r.2.2)

/-- Finishing of edition e: ready entries at the front of its list are finished, and finished reads handed to the path
unit in order (R95). -/
def finish (e : EdId) (s : State) : State :=
  let f := feedOf s e
  let r := finishReads f f.reads
  r.2.2.foldl (fun s cells => readyFeed e cells s) (modFeed e (fun _ => { r.1 with reads := r.2.1 }) s)

/-! ## The return of a delivery read -/

/-- The first ISSUED entry of a list of entries, replaced by its image. -/
def updateIssued (g : InFlight → InFlight) : List InFlight → Option (List InFlight)
  | [] => none
  | x :: xs => if x.state = .issued then some (g x :: xs) else (updateIssued g xs).map (x :: ·)

/-- The first ISSUED entry of an in-flight list, replaced by its image (R90). -/
def updateFirst (g : InFlight → InFlight) : List (List InFlight) → List (List InFlight)
  | [] => []
  | xs :: rest =>
    match updateIssued g xs with
    | some ys => ys :: rest
    | none => xs :: updateFirst g rest

/-- The first ISSUED entry of an in-flight list. -/
def firstIssued (reads : List (List InFlight)) : Option InFlight := reads.flatten.find? fun x => x.state == .issued

/-- What the return of a delivery read makes of its entry (R91, R92, R93). -/
inductive Verdict where
  | readError
  | overrun
  | accepted
  deriving DecidableEq, Repr

/-- The judgement of a return: ERROR, the re-test of the ring and the label check (R91, R92, R93). -/
def judgeReturn (u : RingUnit) (ref : Reference) (rsp : Response) : Verdict :=
  match rsp.kind with
  | .error => .readError
  | .okay =>
    if !(tget u.recs ref.ring).enabled || overwritten (tget u.recs ref.ring) ref.seq then .overrun
    else if cellLabel (fit Config.cellBytes rsp.data) ≠ ref.inLabel then .overrun
    else .accepted

/-- The entry of a return becomes RETURNED or FILLED, and the edition's counter moves (R91, R92, R93). -/
def returnEntry (v : Verdict) (data : List Byte) (f : FeedRecord) : FeedRecord :=
  match v with
  | .readError =>
    { f with reads := updateFirst (fun x => { x with state := .filled }) f.reads, readError := f.readError + 1 }
  | .overrun => { f with reads := updateFirst (fun x => { x with state := .filled }) f.reads, overrun := f.overrun + 1 }
  | .accepted => { f with reads := updateFirst (fun x => { x with state := .returned data }) f.reads }

/-- One delivery read of ring i is no longer in flight (R94). -/
def readReturned (i : RingId) (s : State) : State :=
  modRing i (fun r => { r with readsInFlight := r.readsInFlight - 1 }) s

/-- The return of a delivery read of edition e, from the first ISSUED entry of its list to finishing (R90 to R95). -/
def deliveryReturned (e : EdId) (rsp : Response) (s : State) : State :=
  match firstIssued (feedOf s e).reads with
  | none => s
  | some x =>
    match x.ref with
    | none => s
    | some ref =>
      finish e (modFeed e (returnEntry (judgeReturn s.rings ref rsp) (fit Config.cellBytes rsp.data)) s)

/-! ## RESTART -/

/-- The filler data of a read at RESTART: one filler cell for each entry, with its own t (R103). -/
def fillerData (xs : List InFlight) : List Byte := (xs.map fun x => fillerCell x.t).flatten

/-- Every feed read in an in-flight list is answered with uncounted filler in list order, and the delivery unit returns to
its reset state (R103). -/
def restartDelivery (s : State) : State :=
  { (List.finRange 16).foldl
      (fun s e => (feedOf s e).reads.foldl (fun s xs => readyFeed e (fillerData xs) s) s) s with
    dlv := .reset }

end Sys2Proof.Machine
end

