-- ==== Sys2Proof/Machine/Editions.lean ====
section
/-! DEFINITION. The edition controller (chapter 8): turning an edition on and off, the expiry of its feed watch, the resume
at a feed read, and the whole-cell read by state. -/

namespace Sys2Proof.Machine

/-- The admission counters after n dormant releases (R57). -/
def addDormant (n : Nat) (a : AdmCounters) : AdmCounters :=
  { a with dormantReleases := a.dormantReleases + BitVec.ofNat 32 n }

/-- The admission counters after n off releases (R57). -/
def addOff (n : Nat) (a : AdmCounters) : AdmCounters := { a with offReleases := a.offReleases + BitVec.ofNat 32 n }

/-- Every reference of e is released; `count` moves the counter of the cause by their number (R57). -/
def releaseAll (e : EdId) (count : Nat → AdmCounters → AdmCounters) (s : State) : State :=
  modAdm e (count (refsOfEdition e s.refs).length) { s with refs := releaseEdition e s.refs }

/-- The feed watch of e expires (R157): DORMANT, the composer's change, the dormant release and the EDITION report. -/
def watchExpires (e : EdId) (s : State) : State :=
  let n := (refsOfEdition e s.refs).length
  handOver (.edition e .dormant n)
    (releaseAll e addDormant (modComp e boundary (modEd e (fun r => { r with state := .dormant }) s)))

/-- EDITION ON (R154). -/
def turnOn (e : EdId) (s : State) : State :=
  match (edOf s e).state with
  | .live => s
  | .dormant => modEd e (fun r => { r with state := .live, idle := 0 }) s
  | .off =>
    modFeed e (fun f => { f with cont := Vector.replicate 4096 0 })
      (modComp e compTurnOn (modEd e (fun r => { r with state := .live, idle := 0 }) s))

/-- EDITION OFF (R155): the state, the composer's change if it was LIVE, the off release, the cancels of its splices after
the channel's wait is dropped (R121), and the end of its chain (R148). -/
def turnOff (e : EdId) (s : State) : State :=
  let live := (edOf s e).state = .live
  let s := modEd e (fun r => { r with state := .off }) s
  let s := if live then modComp e boundary s else s
  stopChain e .off (cancelAll e .off (dropWait e (releaseAll e addOff s)))

/-- A feed read of e, whole-cell or length fault, is taken: LIVE restarts the watch, and DORMANT with AUTO-RESUME set is
resumed with its report (R156, R158). -/
def feedReadTaken (e : EdId) (s : State) : State :=
  match (edOf s e).state with
  | .live => modEd e (fun r => { r with idle := 0 }) s
  | .dormant =>
    if (edOf s e).autoResume then
      handOver (.edition e .resumed 0) (modEd e (fun r => { r with state := .live, idle := 0 }) s)
    else s
  | .off => s

/-- The choices of a whole-cell read of n cells taken now: composed in LIVE, filler otherwise (R74, R89, R158). -/
def readChoices (e : EdId) (n : Nat) (s : State) : State × List (Option Reference) :=
  if (edOf s e).state = .live then composeRead e s.time.now n s else (s, List.replicate n none)

/-- A whole-cell read of n cells of edition e is taken (R89, R158): its choices join the in-flight list with house time and
the offset of the take, and finishing runs. -/
def takeFeedRead (e : EdId) (n : Nat) (s : State) : State :=
  let t := s.time.now
  let offset := (edOf s e).offset
  let r := readChoices e n (feedReadTaken e s)
  finish e (joinRead e (r.2.map (entryFor t offset)) r.1)

end Sys2Proof.Machine
end

