-- ==== Sys2Proof/Machine/Commands.lean ====
section
/-! DEFINITION. What each command does at its owning block: its checks in order, its outcome and its effect, one function
for each kind. A command is done with an outcome, or in flight (R190). -/

namespace Sys2Proof.Machine

/-- What running a command comes to: an outcome, or an operation in flight (R190). -/
inductive Act where
  | done (o : CmdOutcome) (s : State)
  | inFlight (op : InFlightOp) (s : State)

/-! ## Cells and the stream table -/

/-- The entry as SET STREAM ENTRY gives it, its programme checked (R9). -/
def entryOf (w : StreamWord) (p : ProgId) : StreamEntry :=
  { valid := w.valid, restamp := w.restamp, prog := p, variant := w.variant, mask := w.mask, outLabel := w.outLabel }

/-- SET STREAM ENTRY (R9). -/
def doSetStreamEntry (l : Label) (w : StreamWord) (s : State) : Act :=
  match index? 48 w.prog.toNat with
  | none => .done .range s
  | some p =>
    if w.outLabel = Config.fillerLabel then .done .range s
    else .done .done { s with stream := writeStream l.toNat (entryOf w p) s.stream }

/-- The bytes of the next read of a load with n entries to come: at most 4096, in whole granules (R11, R12). -/
def loadBytes (n : Nat) : Nat := min Config.longRead (32 * ceilDiv n 4)

/-- The next list read of a load is issued (R12). -/
def issueLoad (list n : Nat) (s : State) : State := issue .streamList (ownRead Config.listTag list (loadBytes n)) s

/-- LOAD STREAM ENTRIES (R11, R12). -/
def doLoadStreamEntries (f : Label) (n : BitVec 16) (a : Addr) (s : State) : Act :=
  if n.toNat = 0 ∨ 4096 < n.toNat ∨ 4096 < f.toNat + n.toNat ∨ a.toNat % 32 ≠ 0
      ∨ s.path.limit < a.toNat + 32 * ceilDiv n.toNat 4 then .done .range s
  else .inFlight (.load f.toNat n.toNat a.toNat) (issueLoad a.toNat n.toNat s)

/-- SET ECC THRESHOLD (R18). -/
def doSetEccThreshold (store : BitVec 8) (t : BitVec 16) (s : State) : Act :=
  if store = 1 then .done .done { s with stream := { s.stream with gauge := { threshold := t, count := 0 } } }
  else if store = 2 then .done .done { s with refs := { s.refs with gauge := { threshold := t, count := 0 } } }
  else .done .range s

/-! ## Ingest rings and source protection -/

/-- A silence time is 1 to 1000 ms and a restore count 1 to 255 (R22, R23). -/
def timingInRange (silence : BitVec 16) (restore : BitVec 8) : Bool :=
  decide (1 ≤ silence.toNat ∧ silence.toNat ≤ 1000 ∧ 1 ≤ restore.toNat)

/-- A ring as SET RING enables it (R22); its counters keep their values. -/
def enableRing (silence : BitVec 16) (restore : BitVec 8) (base : Addr) (size : BitVec 32) (r : RingRecord) : RingRecord :=
  { r with
    enabled := true, base := base, size := size.toNat, silenceMs := silence.toNat, restore := restore.toNat, w := 0,
    silence := .silent, run := 0, quiet := 0 }

/-- SET RING with TIMING ONLY clear (R22). -/
def doSetRing (ring : BitVec 8) (silence : BitVec 16) (restore : BitVec 8) (base : Addr) (size : BitVec 32) (s : State) : Act :=
  match index? 32 ring.toNat with
  | none => .done .range s
  | some i =>
    let n := size.toNat * Config.cellBytes
    if size.toNat < 16 ∨ 65536 < size.toNat ∨ base.toNat % 4096 ≠ 0 ∨ Config.addressTop < base.toNat + n
        ∨ ¬ timingInRange silence restore then .done .range s
    else if (ringOf s i).enabled then .done .state s
    else if meetsRing s base.toNat n (some i) ∨ meetsFeed s base.toNat n none ∨ meetsControl s base.toNat n then
      .done .overlap s
    else .done .done (modRing i (enableRing silence restore base size) s)

/-- A change of a ring's silence state with its RING report (R33, R34, R35). -/
def silenceChange (i : RingId) (st : Silence) (s : State) : State :=
  let s := modRing i (fun r => { r with silence := st, run := 0 }) s
  handOver (.ring i st (ringOf s i).w) s

/-- The new timing of an enabled ring is applied at once to its present state (R23). -/
def applyTiming (i : RingId) (s : State) : State :=
  let r := ringOf s i
  if r.silence = .active ∧ silenceTicks r ≤ r.quiet then silenceChange i .silent s
  else if r.silence = .silent ∧ 0 < r.run ∧ silenceTicks r ≤ r.quiet then modRing i (fun r => { r with run := 0 }) s
  else if r.silence = .silent ∧ r.restore ≤ r.run then silenceChange i .active s
  else s

/-- SET RING with TIMING ONLY set (R23). -/
def doSetRingTimingOnly (ring : BitVec 8) (silence : BitVec 16) (restore : BitVec 8) (s : State) : Act :=
  match index? 32 ring.toNat with
  | none => .done .range s
  | some i =>
    if ¬ timingInRange silence restore then .done .range s
    else if ¬ (ringOf s i).enabled then .done .state s
    else .done .done (applyTiming i
      (modRing i (fun r => { r with silenceMs := silence.toNat, restore := restore.toNat }) s))

/-- The ingest writes of ring i in flight lose their claim to admission (R26). -/
def killIngest (i : RingId) (ds : List DownReq) : List DownReq :=
  ds.map fun d =>
    match d.kind with
    | .ingest k => if k.ring = i then { d with kind := .ingest { k with valid := false } } else d
    | _ => d

/-- DISABLE RING (R24, R25): the ring is disabled at once and its purge starts. -/
def doDisableRing (ring : BitVec 8) (s : State) : Act :=
  match index? 32 ring.toNat with
  | none => .done .range s
  | some i =>
    if ¬ (ringOf s i).enabled then .done .state s
    else
      let s := modRing i (fun r => { r with enabled := false }) { s with down := killIngest i s.down }
      .inFlight (.purge i)
        { s with refs := { s.refs with scan := some { ring := i, at_ := 0, todo := queueOf s 0 0 } } }

/-- The protection setting of (p,v) replaced (R36). -/
def setProt (p : ProgId) (v : Variant) (x : Option ProtPair) (s : State) : State :=
  { s with rings := { s.rings with protection := tput2 s.rings.protection p v x } }

/-- SET PROTECTION with CLEAR clear (R36). -/
def doSetProtection (prog variant main backup : BitVec 8) (s : State) : Act :=
  match index? 48 prog.toNat, index? 8 variant.toNat, index? 32 main.toNat, index? 32 backup.toNat with
  | some p, some v, some m, some b => if m = b then .done .range s else .done .done (setProt p v (some ⟨m, b⟩) s)
  | _, _, _, _ => .done .range s

/-- SET PROTECTION with CLEAR set (R36). -/
def doClearProtection (prog variant : BitVec 8) (s : State) : Act :=
  match index? 48 prog.toNat, index? 8 variant.toNat with
  | some p, some v => .done .done (setProt p v none s)
  | _, _ => .done .range s

/-! ## Carriage frames and composition -/

/-- A priority code: 0 LOW, 1 HIGH (R208). -/
def priorityOf (b : BitVec 8) : Option Priority := if b = 0 then some .low else if b = 1 then some .high else none

/-- The ceiling and priority of SET PROGRAMME: pending in LIVE, pending and in force otherwise (R71). -/
def setProgRecord (live : Bool) (p : ProgId) (x : ProgSetting) (c : CompRecord) : CompRecord :=
  if live then { c with pending := tput c.pending p x }
  else { c with pending := tput c.pending p x, inForce := tput c.inForce p x }

/-- SET PROGRAMME (R71, R54). -/
def doSetProgramme (edition prog priority ceiling : BitVec 8) (depth : BitVec 16) (s : State) : Act :=
  match index? 16 edition.toNat, index? 48 prog.toNat, priorityOf priority with
  | some e, some p, some pr =>
    if 128 < ceiling.toNat ∨ depth.toNat = 0 ∨ 1024 < depth.toNat then .done .range s
    else
      let s := { s with refs := { s.refs with depth := tput2 s.refs.depth e p depth.toNat } }
      .done .done (modComp e (setProgRecord ((edOf s e).state == .live) p ⟨ceiling.toNat, pr⟩) s)
  | _, _, _ => .done .range s

/-- SET CARRIAGE (R67): one list read of whole granules. -/
def doSetCarriage (edition length : BitVec 8) (a : Addr) (s : State) : Act :=
  match index? 16 edition.toNat with
  | none => .done .range s
  | some e =>
    let n := 32 * ceilDiv length.toNat 32
    if length.toNat < 16 ∨ 128 < length.toNat ∨ a.toNat % 32 ≠ 0 ∨ s.path.limit < a.toNat + n then .done .range s
    else .inFlight (.carriage e length.toNat) (issue .carriageList (ownRead Config.listTag a.toNat n) s)

/-! ## Regional splices -/

/-- ARM SPLICE (R107). -/
def doArmSplice (tag : Tag16) (edition prog target : BitVec 8) (force : Bool) (window : BitVec 16) (t : HouseTime)
    (s : State) : Act :=
  match index? 16 edition.toNat, index? 48 prog.toNat, index? 8 target.toNat with
  | some e, some p, some v =>
    match (machineOf s e p).phase with
    | .steady =>
      .done .done (judgeArming e p
        { target := v, t := t, window := window, force := force, tag := tag, source := .command, late := false } s).1
    | _ => .done .busy s
  | _, _, _ => .done .range s

/-- CANCEL SPLICE (R114). -/
def doCancelSplice (edition prog : BitVec 8) (s : State) : Act :=
  match index? 16 edition.toNat, index? 48 prog.toNat with
  | some e, some p =>
    match pendingOf (machineOf s e p).phase with
    | some sp => .done .done (resolve e p sp .cancelled .command s)
    | none => .done .state s
  | _, _ => .done .range s

/-- SET VARIANT NOW (R115). -/
def doSetVariantNow (edition prog variant : BitVec 8) (s : State) : Act :=
  match index? 16 edition.toNat, index? 48 prog.toNat, index? 8 variant.toNat with
  | some e, some p, some v =>
    match (machineOf s e p).phase with
    | .steady =>
      if v = (machineOf s e p).admitted then .done .done s
      else .done .done (modMachine e p (fun m => { m with admitted := v, markPending := true }) s)
    | _ => .done .busy s
  | _, _, _ => .done .range s

/-! ## Schedule channels -/

/-- START SCHEDULE (R141). -/
def doStartSchedule (edition : BitVec 8) (a : Addr) (s : State) : Act :=
  match index? 16 edition.toNat with
  | none => .done .range s
  | some e =>
    if (chanOf s e).state ≠ .idle then .done .busy s
    else .done .done (fetchWord e
      (modChan e (fun c => { c with next := a.toNat, words := 0, progress := 0, jumped := false }) s))

/-- HALT SCHEDULE (R142). -/
def doHaltSchedule (edition : BitVec 8) (s : State) : Act :=
  match index? 16 edition.toNat with
  | none => .done .range s
  | some e => if (chanOf s e).state = .idle then .done .state s else .done .done (stopChain e .halted s)

/-- CLEAR SCHEDULE (R143, R122, R70). -/
def doClearSchedule (edition : BitVec 8) (s : State) : Act :=
  match index? 16 edition.toNat with
  | none => .done .range s
  | some e =>
    .done .done (stopChain e .cleared
      (modComp e (fun c => { c with staged := none }) (cancelAll e .clear (dropWait e s))))

/-- RESUME SCHEDULE (R144). -/
def doResumeSchedule (edition : BitVec 8) (s : State) : Act :=
  match index? 16 edition.toNat with
  | none => .done .range s
  | some e => if (chanOf s e).state = .suspended then .done .done (fetchWord e s) else .done .state s

/-! ## Edition lifecycle -/

/-- The settings of SET EDITION in the record (R152). -/
def setEditionRecord (autoResume : Bool) (watch maxAge quota : BitVec 16) (base : Addr) (offset : BitVec 24)
    (r : EditionRecord) : EditionRecord :=
  { r with
    base := some base, quota := quota.toNat, maxAge := maxAge.toNat, offset := offset, watch := watch.toNat,
    autoResume := autoResume }

/-- SET EDITION (R151, R152): a watch that the new watch time finds run out expires at once. -/
def doSetEdition (edition : BitVec 8) (autoResume : Bool) (watch maxAge quota : BitVec 16) (base : Addr)
    (offset : BitVec 24) (s : State) : Act :=
  match index? 16 edition.toNat with
  | none => .done .range s
  | some e =>
    let same := (edOf s e).base = some base
    if base.toNat % 65536 ≠ 0 ∨ Config.addressTop < base.toNat + Config.feedBytes ∨ Config.poolSize < quota.toNat
        ∨ maxAge.toNat = 0 ∨ 2000 < maxAge.toNat ∨ 1000 < watch.toNat then .done .range s
    else if ¬ same ∧ (edOf s e).state ≠ .off then .done .state s
    else if ¬ same ∧ (meetsRing s base.toNat Config.feedBytes none ∨ meetsFeed s base.toNat Config.feedBytes (some e)
        ∨ meetsControl s base.toNat Config.feedBytes) then .done .overlap s
    else
      let s := modEd e (setEditionRecord autoResume watch maxAge quota base offset) s
      .done .done (if watchOut (edOf s e) then watchExpires e s else s)

/-- EDITION ON (R154). -/
def doEditionOn (edition : BitVec 8) (s : State) : Act :=
  match index? 16 edition.toNat with
  | none => .done .range s
  | some e => .done .done (turnOn e s)

/-- EDITION OFF (R155). -/
def doEditionOff (edition : BitVec 8) (s : State) : Act :=
  match index? 16 edition.toNat with
  | none => .done .range s
  | some e => .done .done (turnOff e s)

/-! ## House time and the memory path -/

/-- TIME LOAD (R166). -/
def doTimeLoad (v : HouseTime) (s : State) : Act :=
  .done (if s.time.load.isSome then .replaced else .done) { s with time := { s.time with load := some ⟨v, 0⟩ } }

/-- RELOCATE CONTROL (R183). The move is one act with the hand-over of its COMMAND report, which does not depend on it. -/
def doRelocateControl (b c : Addr) (s : State) : Act :=
  if c ≠ ~~~b ∨ b.toNat % 4096 ≠ 0 ∨ Config.addressTop < b.toNat + Config.controlBytes then .done .range s
  else if meetsRing s b.toNat Config.controlBytes none ∨ meetsFeed s b.toNat Config.controlBytes none then .done .overlap s
  else .done .done { s with path := { s.path with control := b } }

/-- SET MEMORY LIMIT (R184). -/
def doSetMemoryLimit (m : BitVec 64) (s : State) : Act :=
  if m.toNat < 4096 ∨ Config.addressTop < m.toNat ∨ m.toNat % 4096 ≠ 0 then .done .range s
  else .done .done { s with path := { s.path with limit := m.toNat } }

/-! ## Commands and reports -/

/-- SET REPORT RING (R196): in flight while the writer has a write in flight. -/
def doSetReportRing (n : BitVec 16) (intEnable : Bool) (base : Addr) (s : State) : Act :=
  if base.toNat % 4096 ≠ 0 ∨ n.toNat < 64 ∨ 16384 < n.toNat ∨ Config.addressTop < base.toNat + 32 * (n.toNat + 1) then
    .done .range s
  else if s.rep.writer = .idle then .done .done (setRingAct n.toNat intEnable base s)
  else .inFlight (.reportRing n.toNat intEnable base) s

/-- (a − b) mod n for indices of the report ring (R197). -/
def indexDiff (a b n : Nat) : Nat := (a + n - b % n) % n

/-- REPORT ACK (R197). -/
def doReportAck (a : BitVec 16) (s : State) : Act :=
  if !s.rep.isSet then .done .state s
  else if s.rep.places ≤ a.toNat ∨ unread s.rep < indexDiff a.toNat s.rep.readIdx s.rep.places then .done .range s
  else .done .done { s with rep := driveInt { s.rep with readIdx := a.toNat } }

/-- The four STATISTICS records of an edition (R200). -/
def editionStats (s : State) (e : EdId) : List Report :=
  let c := compOf s e
  let f := feedOf s e
  let a := tget s.refs.counters e
  [.stats .edition e.val 0 f.delivered f.filler c.staleRing c.staleOverwritten,
   .stats .edition e.val 1 c.staleAge c.staleEcc f.overrun f.readError,
   .stats .edition e.val 2 a.depthDrop a.quotaDrop a.poolDrop a.notCarried,
   .stats .edition e.val 3 f.lengthFault f.feedWrites a.dormantReleases a.offReleases]

/-- The two STATISTICS records of a ring (R200). -/
def ringStats (s : State) (i : RingId) : List Report :=
  let r := ringOf s i
  [.stats .ring i.val 0 r.taken r.skips r.malformed r.labelFaults,
   .stats .ring i.val 1 r.writeErrors r.duplicates 0 0]

/-- Reports handed over in order. -/
def handOverAll (bs : List Report) (s : State) : State := bs.foldl (fun s b => handOver b s) s

/-- STATISTICS (R199, R200). With scope ALL the number is a reserved byte, which must be 0 (R208). -/
def doStatistics (scope number : BitVec 8) (s : State) : Act :=
  if scope = 1 then
    match index? 16 number.toNat with
    | some e => .done .done (handOverAll (editionStats s e) s)
    | none => .done .range s
  else if scope = 2 then
    match index? 32 number.toNat with
    | some i => .done .done (handOverAll (ringStats s i) s)
    | none => .done .range s
  else if scope = 3 then
    if number ≠ 0 then .done .range s
    else .done .done (handOverAll
      ((List.finRange 16).flatMap (editionStats s) ++ (List.finRange 32).flatMap (ringStats s)) s)
  else .done .range s

/-! ## RESTART -/

/-- A ring record at RESTART: its delivery reads in flight are kept (R40). -/
def restartRing (r : RingRecord) : RingRecord := { RingRecord.reset with readsInFlight := r.readsInFlight }

/-- What RESTART does to a downstream request in flight: an ingest write is no longer admitted, and the part's own delivery
reads and schedule fetches are given up (R187, R26, R103, R145). -/
def restartDown (d : DownReq) : DownReq :=
  match d.kind with
  | .ingest k => { d with kind := .ingest { k with valid := false } }
  | .delivery e r _ => { d with kind := .delivery e r false }
  | .wordFetch e _ => { d with kind := .wordFetch e false }
  | .dataFetch e _ => { d with kind := .dataFetch e false }
  | _ => d

/-- Every block returns to its state after RESTART as one act; the report writer, house time with its reference state, the
control aperture, the memory limit and the requests in flight are kept (R201, R187). -/
def restartAct (s : State) : State :=
  let s := restartDelivery s
  { s with
    down := s.down.map restartDown,
    rings := { recs := tmap restartRing s.rings.recs, protection := RingUnit.reset.protection },
    stream := .reset, refs := .reset, splices := .reset, comp := .reset,
    chans := Vector.replicate 16 .reset, eds := Vector.replicate 16 .reset,
    time := { s.time with load := none } }

/-! ## The owning block of a command -/

/-- A command that has passed the first two checks is handed to its owning block (R190). -/
def runAct (tag : Tag16) (c : Command) (s : State) : Act :=
  match c with
  | .setStreamEntry l w => doSetStreamEntry l w s
  | .loadStreamEntries f n a => doLoadStreamEntries f n a s
  | .setEccThreshold st t => doSetEccThreshold st t s
  | .setRing r si re b n => doSetRing r si re b n s
  | .setRingTimingOnly r si re => doSetRingTimingOnly r si re s
  | .disableRing r => doDisableRing r s
  | .setProtection p v m b => doSetProtection p v m b s
  | .clearProtection p v => doClearProtection p v s
  | .setProgramme e p pr c d => doSetProgramme e p pr c d s
  | .setCarriage e n a => doSetCarriage e n a s
  | .armSplice e p v f w t => doArmSplice tag e p v f w t s
  | .cancelSplice e p => doCancelSplice e p s
  | .setVariantNow e p v => doSetVariantNow e p v s
  | .startSchedule e a => doStartSchedule e a s
  | .haltSchedule e => doHaltSchedule e s
  | .clearSchedule e => doClearSchedule e s
  | .resumeSchedule e => doResumeSchedule e s
  | .setEdition e au w m q b o => doSetEdition e au w m q b o s
  | .editionOn e => doEditionOn e s
  | .editionOff e => doEditionOff e s
  | .timeLoad v => doTimeLoad v s
  | .relocateControl b c => doRelocateControl b c s
  | .setMemoryLimit m => doSetMemoryLimit m s
  | .setReportRing n i b => doSetReportRing n i b s
  | .reportAck a => doReportAck a s
  | .statistics sc n => doStatistics sc n s
  | .restart => .done .done (restartAct s)

end Sys2Proof.Machine
end

