-- ==== Sys2Proof/Machine/CommandUnit.lean ====
section
/-! DEFINITION. The command unit (sections 11.1 and 11.2): taking a command, running it, ending it and starting the next;
and the operations in flight it waits for: list reads, the purge of a ring, SET REPORT RING. -/

namespace Sys2Proof.Machine

/-- The COMMAND report of a command (R191). -/
def commandReport (c : TakenCommand) (o : CmdOutcome) : Report := .command c.code c.slot c.tag o

/-- A command waiting behind RESTART is refused with STATE (R202). -/
def refuseWaiting (s : State) (c : TakenCommand) : State := handOver (commandReport c .state) s

/-- A command starts to run (R190): UNKNOWN, RANGE for reserved fields, or its owning block. A command that is done hands
over its COMMAND report; RESTART then refuses the commands that waited behind it (R202). -/
def startCommand (c : TakenCommand) (s : State) : State :=
  match c.body with
  | .unknown => handOver (commandReport c .unknown) s
  | .reserved => handOver (commandReport c .range) s
  | .known .restart =>
    s.cmd.queue.foldl refuseWaiting
      (handOver (commandReport c .done) { restartAct s with cmd := { s.cmd with queue := [] } })
  | .known k =>
    match runAct c.tag k s with
    | .done o s => handOver (commandReport c o) s
    | .inFlight op s => { s with cmd := { s.cmd with running := some ⟨c, op⟩ } }

/-- The command in flight ends with an outcome and its COMMAND report (R190). -/
def endRunning (o : CmdOutcome) (s : State) : State :=
  match s.cmd.running with
  | some r => handOver (commandReport r.cmd o) { s with cmd := { s.cmd with running := none } }
  | none => s

/-! ## Purges (R25, R58) -/

/-- The contents of the queue with number n, 48 × e + p. -/
def queueAt (r : RefStore) (n : Nat) : List EntryNo :=
  match index? 16 (n / 48), index? 48 (n % 48) with
  | some e, some p => tget2 r.queues e p
  | _, _ => []

/-- The scan standing at a reference still to read: in its present queue, or at the head of the next queue that holds one,
as that queue stands; none when the scan has passed the last queue (R58). -/
def scanSeek (r : RefStore) (sc : PurgeScan) : Option PurgeScan :=
  if sc.todo ≠ [] then some sc
  else
    ((List.range' (sc.at_ + 1) (767 - sc.at_)).find? fun n => !(queueAt r n).isEmpty).map fun n =>
      { sc with at_ := n, todo := queueAt r n }

/-- The scan has passed the last queue once no reference stands ahead of it (R58). -/
def advanceScan (s : State) : State :=
  match s.refs.scan.bind (scanSeek s.refs) with
  | some _ => s
  | none => { s with refs := { s.refs with scan := none } }

/-- The purge of the command in flight has ended: its scan has passed the last queue and no delivery read of its ring is in
flight (R25, R58, R94). -/
def purgeOver (s : State) : Bool :=
  match s.cmd.running with
  | some ⟨_, .purge i⟩ => s.refs.scan.isNone && decide ((ringOf s i).readsInFlight = 0)
  | _ => false

/-- DISABLE RING ends with DONE if its purge has ended (R25). -/
def endPurge (s : State) : State :=
  let s := advanceScan s
  if purgeOver s then endRunning .done s else s

/-! ## Starting the waiting commands -/

/-- Commands start from the head of the queue for as long as none is in flight (R188, R190); a purge with nothing to do
ends as it starts. `fuel` bounds the commands waiting. -/
def drain : Nat → State → State
  | 0, s => s
  | fuel + 1, s =>
    match s.cmd.running, s.cmd.queue with
    | none, c :: rest => drain fuel (endPurge (startCommand c { s with cmd := { s.cmd with queue := rest } }))
    | _, _ => s

/-- The commands that may now start do (R190). -/
def startWaiting (s : State) : State := drain s.cmd.queue.length s

/-- The command in flight ends, and the waiting commands start as one act with that (R190). -/
def finishRunning (o : CmdOutcome) (s : State) : State := startWaiting (endRunning o s)

/-- If the purge in flight has ended, DISABLE RING ends and the waiting commands start (R25, R190). The row that ends a purge
does this last, after its finishing and the counters of that: DESIGN CHOICE, log entry 27 (R94, R199). -/
def settlePurge (s : State) : State :=
  let s := advanceScan s
  if purgeOver s then finishRunning .done s else s

/-- A command is taken (R188): it starts at once, joins the queue, or is refused with QUEUE FULL (R189). -/
def takeCommand (c : TakenCommand) (s : State) : State :=
  match s.cmd.running with
  | none => endPurge (startCommand c s)
  | some _ =>
    if s.cmd.queue.length < Config.queueSize then { s with cmd := { s.cmd with queue := s.cmd.queue ++ [c] } }
    else handOver (commandReport c .queueFull) s

/-- One step of the purge scan (R58): the next reference is read, released if it belongs to the ring being purged, and left
in place otherwise. -/
def scanStep (s : State) : State :=
  match s.refs.scan.bind (scanSeek s.refs) with
  | none => s
  | some sc =>
    match index? 16 (sc.at_ / 48), index? 48 (sc.at_ % 48), sc.todo with
    | some e, some p, n :: rest =>
      let s := { s with refs := { s.refs with scan := some { sc with todo := rest } } }
      match readRef e p n s with
      | (s, some ref) => if ref.ring = sc.ring then { s with refs := releaseRef e p n s.refs } else s
      | (s, none) => s
    | _, _, _ => s

/-! ## Completions of the operations in flight -/

/-- The entries of one list read, written in ascending label order (R12). -/
def writeList (bs : List Byte) (first n : Nat) (t : StreamTable) : StreamTable :=
  (List.range n).foldl (fun t i => writeStream (first + i) (listEntry (streamWordAt bs (8 * i))) t) t

/-- A list read of LOAD STREAM ENTRIES completes (R12, R14). -/
def streamListReturned (rsp : Response) (s : State) : State :=
  match s.cmd.running with
  | some ⟨c, .load next remaining list⟩ =>
    match rsp.kind with
    | .error => finishRunning .fetchError s
    | .okay =>
      let n := min 512 remaining
      let s := { s with stream := writeList rsp.data next n s.stream }
      if remaining - n = 0 then finishRunning .done s
      else
        issueLoad (list + Config.longRead) (remaining - n)
          { s with cmd := { s.cmd with running := some ⟨c, .load (next + n) (remaining - n) (list + Config.longRead)⟩ } }
  | _ => s

/-- The list read of SET CARRIAGE completes (R68, R69). -/
def carriageListReturned (rsp : Response) (s : State) : State :=
  match s.cmd.running with
  | some ⟨_, .carriage e len⟩ =>
    match rsp.kind with
    | .error => finishRunning .fetchError s
    | .okay =>
      match positionsOf rsp.data len with
      | none => finishRunning .range s
      | some f =>
        let r := receiveFrame e f s
        finishRunning (if r.2 then .replaced else .done) r.1
  | _ => s

/-- The frame that a CARRIAGE word of length `len` builds from its data area of `count` bytes (R134). -/
def buildFrame (bs : List Byte) (len count : Nat) : Option (List Position) :=
  (positionsOf bs (min len count)).map fun f => f ++ List.replicate (len - count) .openPool

/-- The data fetch of a CARRIAGE word of channel e's present chain completes (R134, R135). -/
def dataReturned (e : EdId) (rsp : Response) (s : State) : State :=
  match (chanOf s e).current with
  | some w =>
    match w.word.kind, rsp.kind with
    | .carriage .., .error => endChain e .check .fetch w.addr.toNat w.word.tag s
    | .carriage len count _ _, .okay =>
      match buildFrame rsp.data len count with
      | none => endChain e .check .position w.addr.toNat w.word.tag s
      | some f => goOn e (modChan e (fun c => { c with fetch := .none }) (receiveFrame e f s).1)
    | _, _ => s
  | none => s

/-- A record write of the report writer completes: its act, and the issue of the index block write (R193, R194). -/
def recordReturned (rsp : Response) (s : State) : State :=
  match s.rep.writer with
  | .record carried =>
    issueIndex { s with rep := match rsp.kind with | .okay => recordWritten s.rep | .error => recordFailed s.rep carried }
  | _ => s

/-- An index block write completes, with OKAY or ERROR alike: the act of a SET REPORT RING in flight is taken, or the writer
goes on with the next record (R193, R194, R196). -/
def indexReturned (s : State) : State :=
  match s.rep.writer with
  | .index =>
    let s := { s with rep := { s.rep with writer := .idle } }
    match s.cmd.running with
    | some ⟨_, .reportRing n en b⟩ => finishRunning .done (setRingAct n en b s)
    | _ => startWrite s
  | _ => s

/-- A downstream response completes the oldest request of its tag, and is handed to the block that issued it; a response
that matches no request is discarded (R176, R186). At a delivery return that ends a purge the delivery unit finishes and counts
first, and DISABLE RING ends and the waiting commands start after that: DESIGN CHOICE, log entry 27 (R94, R199). -/
def respond (tag : PortTag) (rsp : Response) (s : State) : State :=
  match takeOldest tag s.down with
  | none => s
  | some (d, rest) =>
    let s := { s with down := rest }
    match d.kind with
    | .forwarded => readyForwarded tag rsp s
    | .ingest k => ingestReturned k rsp (readyForwarded tag rsp s)
    | .delivery e r live =>
      let s := readReturned r s
      settlePurge (if live then deliveryReturned e rsp s else s)
    | .streamList => streamListReturned rsp s
    | .carriageList => carriageListReturned rsp s
    | .wordFetch e live => if live then wordReturned e rsp s else s
    | .dataFetch e live => if live then dataReturned e rsp s else s
    | .recordWrite => recordReturned rsp s
    | .indexWrite => indexReturned s

end Sys2Proof.Machine
end

