-- ==== Sys2Proof/Machine/CommandRows.lean ====
section
/-! DEFINITION. The command rows: the command unit takes the command with these fields (R188), and runs it at once when no
command is running. -/

namespace Sys2Proof.Machine

/-- What the command unit makes of a command row: the command is taken (R188, R190). -/
def takeRow (h : CmdHeader) (c : Command) (s : State) : Host.Outcome State Fault Refusal :=
  .next (takeCommand (takenRow h c) s)

/-- SET_STREAM_ENTRY (R9). -/
def execSetStreamEntry (h : CmdHeader) (label : Label) (entry : StreamWord) (s : State) :
    Host.Outcome State Fault Refusal := takeRow h (.setStreamEntry label entry) s

/-- LOAD_STREAM_ENTRIES (R11, R12). -/
def execLoadStreamEntries (h : CmdHeader) (first : Label) (count : BitVec 16) (list : Addr) (s : State) :
    Host.Outcome State Fault Refusal := takeRow h (.loadStreamEntries first count list) s

/-- SET_ECC_THRESHOLD (R18). -/
def execSetEccThreshold (h : CmdHeader) (store : BitVec 8) (threshold : BitVec 16) (s : State) :
    Host.Outcome State Fault Refusal := takeRow h (.setEccThreshold store threshold) s

/-- SET_RING (R22). -/
def execSetRing (h : CmdHeader) (ring : BitVec 8) (silence : BitVec 16) (restore : BitVec 8) (base : Addr) (size : BitVec 32) (s : State) :
    Host.Outcome State Fault Refusal := takeRow h (.setRing ring silence restore base size) s

/-- SET_RING_TIMING_ONLY (R23). -/
def execSetRingTimingOnly (h : CmdHeader) (ring : BitVec 8) (silence : BitVec 16) (restore : BitVec 8) (s : State) :
    Host.Outcome State Fault Refusal := takeRow h (.setRingTimingOnly ring silence restore) s

/-- DISABLE_RING (R24, R25). -/
def execDisableRing (h : CmdHeader) (ring : BitVec 8) (s : State) :
    Host.Outcome State Fault Refusal := takeRow h (.disableRing ring) s

/-- SET_PROTECTION (R36). -/
def execSetProtection (h : CmdHeader) (prog variant main backup : BitVec 8) (s : State) :
    Host.Outcome State Fault Refusal := takeRow h (.setProtection prog variant main backup) s

/-- CLEAR_PROTECTION (R36). -/
def execClearProtection (h : CmdHeader) (prog variant : BitVec 8) (s : State) :
    Host.Outcome State Fault Refusal := takeRow h (.clearProtection prog variant) s

/-- SET_PROGRAMME (R71, R54). -/
def execSetProgramme (h : CmdHeader) (edition prog priority ceiling : BitVec 8) (depth : BitVec 16) (s : State) :
    Host.Outcome State Fault Refusal := takeRow h (.setProgramme edition prog priority ceiling depth) s

/-- SET_CARRIAGE (R67). -/
def execSetCarriage (h : CmdHeader) (edition length : BitVec 8) (list : Addr) (s : State) :
    Host.Outcome State Fault Refusal := takeRow h (.setCarriage edition length list) s

/-- ARM_SPLICE (R107, R109). -/
def execArmSplice (h : CmdHeader) (edition prog target : BitVec 8) (force : Bool) (window : BitVec 16) (t : HouseTime) (s : State) :
    Host.Outcome State Fault Refusal := takeRow h (.armSplice edition prog target force window t) s

/-- CANCEL_SPLICE (R114). -/
def execCancelSplice (h : CmdHeader) (edition prog : BitVec 8) (s : State) :
    Host.Outcome State Fault Refusal := takeRow h (.cancelSplice edition prog) s

/-- SET_VARIANT_NOW (R115). -/
def execSetVariantNow (h : CmdHeader) (edition prog variant : BitVec 8) (s : State) :
    Host.Outcome State Fault Refusal := takeRow h (.setVariantNow edition prog variant) s

/-- START_SCHEDULE (R141). -/
def execStartSchedule (h : CmdHeader) (edition : BitVec 8) (start : Addr) (s : State) :
    Host.Outcome State Fault Refusal := takeRow h (.startSchedule edition start) s

/-- HALT_SCHEDULE (R142). -/
def execHaltSchedule (h : CmdHeader) (edition : BitVec 8) (s : State) :
    Host.Outcome State Fault Refusal := takeRow h (.haltSchedule edition) s

/-- CLEAR_SCHEDULE (R143). -/
def execClearSchedule (h : CmdHeader) (edition : BitVec 8) (s : State) :
    Host.Outcome State Fault Refusal := takeRow h (.clearSchedule edition) s

/-- RESUME_SCHEDULE (R144). -/
def execResumeSchedule (h : CmdHeader) (edition : BitVec 8) (s : State) :
    Host.Outcome State Fault Refusal := takeRow h (.resumeSchedule edition) s

/-- SET_EDITION (R151, R152). -/
def execSetEdition (h : CmdHeader) (edition : BitVec 8) (autoResume : Bool) (watch maxAge quota : BitVec 16) (base : Addr) (offset : BitVec 24) (s : State) :
    Host.Outcome State Fault Refusal := takeRow h (.setEdition edition autoResume watch maxAge quota base offset) s

/-- EDITION_ON (R154). -/
def execEditionOn (h : CmdHeader) (edition : BitVec 8) (s : State) :
    Host.Outcome State Fault Refusal := takeRow h (.editionOn edition) s

/-- EDITION_OFF (R155). -/
def execEditionOff (h : CmdHeader) (edition : BitVec 8) (s : State) :
    Host.Outcome State Fault Refusal := takeRow h (.editionOff edition) s

/-- TIME_LOAD (R166). -/
def execTimeLoad (h : CmdHeader) (value : HouseTime) (s : State) :
    Host.Outcome State Fault Refusal := takeRow h (.timeLoad value) s

/-- RELOCATE_CONTROL (R183). -/
def execRelocateControl (h : CmdHeader) (base complement : Addr) (s : State) :
    Host.Outcome State Fault Refusal := takeRow h (.relocateControl base complement) s

/-- SET_MEMORY_LIMIT (R184). -/
def execSetMemoryLimit (h : CmdHeader) (limit : BitVec 64) (s : State) :
    Host.Outcome State Fault Refusal := takeRow h (.setMemoryLimit limit) s

/-- SET_REPORT_RING (R196). -/
def execSetReportRing (h : CmdHeader) (places : BitVec 16) (intEnable : Bool) (base : Addr) (s : State) :
    Host.Outcome State Fault Refusal := takeRow h (.setReportRing places intEnable base) s

/-- REPORT_ACK (R197). -/
def execReportAck (h : CmdHeader) (index : BitVec 16) (s : State) :
    Host.Outcome State Fault Refusal := takeRow h (.reportAck index) s

/-- STATISTICS (R199, R200). -/
def execStatistics (h : CmdHeader) (scope number : BitVec 8) (s : State) :
    Host.Outcome State Fault Refusal := takeRow h (.statistics scope number) s

/-- RESTART (R201, R202). -/
def execRestart (h : CmdHeader) (s : State) :
    Host.Outcome State Fault Refusal := takeRow h .restart s

end Sys2Proof.Machine
end

