-- ==== Sys2Proof/Machine/Completions.lean ====
section
/-! DEFINITION. The rows of the downstream port: a response completes the oldest request of its tag (R176), whichever block
issued that. -/

namespace Sys2Proof.Machine

/-- The label of the ingest write that the next response of a tag completes, if it is one (R3). -/
def ingestLabel (tag : PortTag) (s : State) : Option Label :=
  match takeOldest tag s.down with
  | some (⟨.ingest k, _⟩, _) => some k.label
  | _ => none

/-- DOWNSTREAM_COMPLETION (R175, R179). -/
def execDownstreamCompletion (tag : PortTag) (rsp : Response) (s : State) : Host.Outcome State Fault Refusal :=
  .next (respond tag rsp s)

/-- INGEST_WRITE_COMPLETION (R31, R41), with the storage error that its lookup meets. -/
def execIngestWriteCompletion (tag : PortTag) (rsp : Response) (upset : BitFault) (s : State) :
    Host.Outcome State Fault Refusal :=
  match ingestLabel tag s with
  | some l => .next (respond tag rsp { s with stream := upsetStream l upset s.stream })
  | none => .next (respond tag rsp s)

/-- DELIVERY_READ_COMPLETION (R90 to R95). -/
def execDeliveryReadCompletion (e : EdId) (rsp : Response) (s : State) : Host.Outcome State Fault Refusal :=
  .next (respond (Config.deliveryTag e) rsp s)

/-- STREAM_LIST_READ_COMPLETION (R12, R14). -/
def execStreamListReadCompletion (rsp : Response) (s : State) : Host.Outcome State Fault Refusal :=
  .next (respond Config.listTag rsp s)

/-- CARRIAGE_LIST_READ_COMPLETION (R68, R69). -/
def execCarriageListReadCompletion (rsp : Response) (s : State) : Host.Outcome State Fault Refusal :=
  .next (respond Config.listTag rsp s)

/-- WORD_FETCH_COMPLETION (R129 to R145). -/
def execWordFetchCompletion (e : EdId) (rsp : Response) (s : State) : Host.Outcome State Fault Refusal :=
  .next (respond (Config.channelTag e) rsp s)

/-- DATA_FETCH_COMPLETION (R134, R135). -/
def execDataFetchCompletion (e : EdId) (rsp : Response) (s : State) : Host.Outcome State Fault Refusal :=
  .next (respond (Config.channelTag e) rsp s)

/-- REPORT_WRITE_COMPLETION (R193, R194). -/
def execReportWriteCompletion (rsp : Response) (s : State) : Host.Outcome State Fault Refusal :=
  .next (respond Config.reportTag rsp s)

/-- INDEX_BLOCK_WRITE_COMPLETION (R193 to R196). -/
def execIndexBlockWriteCompletion (rsp : Response) (s : State) : Host.Outcome State Fault Refusal :=
  .next (respond Config.reportTag rsp s)

/-- STALE_RESPONSE_DISCARD (R186): a response of a tag with no listed request changes nothing. -/
def execStaleResponseDiscard (tag : PortTag) (rsp : Response) (s : State) : Host.Outcome State Fault Refusal :=
  .next (respond tag rsp s)

end Sys2Proof.Machine
end

