-- ==== Sys2Proof/Machine/Events.lean ====
section
/-! DEFINITION. The rows of the part's own events, of the time inputs and of hardware reset. An event row whose moment has
not come in the present state changes nothing (log entry 8). -/

namespace Sys2Proof.Machine

/-- PURGE_SCAN_STEP (R58), with the storage errors that its read meets; the purge ends when R25 says. -/
def execPurgeScanStep (upsets : List Upset) (s : State) : Host.Outcome State Fault Refusal :=
  .next (settlePurge (scanStep (upsetRefs upsets s)))

/-- The quiet time of an enabled ring has reached its silence time (R32). -/
def silenceDue (r : RingRecord) : Bool := r.enabled && decide (silenceTicks r ≤ r.quiet)

/-- The expiry of a ring's quiet time (R33, R34). -/
def silenceExpires (i : RingId) (s : State) : State :=
  match (ringOf s i).silence with
  | .active => silenceChange i .silent s
  | .silent => modRing i (fun r => { r with run := 0 }) s

/-- SILENCE_EXPIRY (R32, R33, R34). -/
def execSilenceExpiry (i : RingId) (s : State) : Host.Outcome State Fault Refusal :=
  if silenceDue (ringOf s i) then .next (silenceExpires i s) else .next s

/-- FEED_WATCH_EXPIRY (R156, R157). The release may take the last reference that a purge scan had ahead of it (R58). -/
def execFeedWatchExpiry (e : EdId) (s : State) : Host.Outcome State Fault Refusal :=
  if watchOut (edOf s e) then .next (settlePurge (watchExpires e s)) else .next s

/-- SPLICE_T_REACHED (R110). -/
def execSpliceTReached (e : EdId) (p : ProgId) (s : State) : Host.Outcome State Fault Refusal :=
  match (machineOf s e p).phase with
  | .armed sp => if sp.t.toNat ≤ s.time.now.toNat then .next (reachT e p sp s) else .next s
  | _ => .next s

/-- WINDOW_END (R112). -/
def execWindowEnd (e : EdId) (p : ProgId) (s : State) : Host.Outcome State Fault Refusal :=
  match (machineOf s e p).phase with
  | .seeking sp =>
    if sp.windowEnd ≤ s.time.now.toNat then .next (resolve e p sp (expiryOutcome sp) .none s) else .next s
  | _ => .next s

/-- A WAITING channel is judged against house time: its WAIT word is executed once house time is at or beyond T (R132). -/
def judgeWaiting (s : State) (e : EdId) : State :=
  let c := chanOf s e
  match c.state, c.current with
  | .waiting, some w =>
    match w.word.kind with
    | .wait t => judgeWait e t s
    | _ => s
  | _, _ => s

/-- WAIT_REACHED (R132). -/
def execWaitReached (e : EdId) (s : State) : Host.Outcome State Fault Refusal := .next (judgeWaiting s e)

/-! ## Time inputs -/

/-- A rising edge of the station reference: one tick in LOCKED; in HOLDOVER the restore, its tick and its report (R163,
R164). -/
def referenceEdge (s : State) : State :=
  match s.time.ref with
  | .locked => elapse 1 { s with time := { s.time with periods := 0 } }
  | .holdover =>
    handOver (.time .referenceRestored)
      (elapse 1 { s with time := { s.time with ref := .locked, periods := 0 } })

/-- STATION_REFERENCE_EDGE (R163, R164). -/
def execStationReferenceEdge (s : State) : Host.Outcome State Fault Refusal := .next (referenceEdge s)

/-- REFERENCE_RESTORED (R164): the first edge of the reference taken in HOLDOVER. -/
def execReferenceRestored (s : State) : Host.Outcome State Fault Refusal := .next (referenceEdge s)

/-- OSCILLATOR_PERIOD_END (R163): a tick in HOLDOVER; in LOCKED one period more without a reference edge. -/
def execOscillatorPeriodEnd (s : State) : Host.Outcome State Fault Refusal :=
  match s.time.ref with
  | .holdover => .next (elapse 1 s)
  | .locked => .next { s with time := { s.time with periods := min Config.lossPeriods (s.time.periods + 1) } }

/-- The loss of the reference (R163): HOLDOVER, 20 elapsed ticks, and the report with house time after them. -/
def loseReference (s : State) : State :=
  handOver (.time .referenceLost) (elapse Config.lossPeriods { s with time := { s.time with ref := .holdover } })

/-- REFERENCE_LOST (R163): in LOCKED, once 20 oscillator periods have passed with no reference edge. -/
def execReferenceLost (s : State) : Host.Outcome State Fault Refusal :=
  if s.time.ref = .locked ∧ Config.lossPeriods ≤ s.time.periods then .next (loseReference s) else .next s

/-- Every machine is judged against house time after a load, in ascending edition and programme order (R118). A channel acts on
the resolution of one machine before the next is judged, so the SCHEDULE END report of a chain that ends there (R138) comes before
the SPLICE reports of later machines: DESIGN CHOICE, log entry 29 (R192). -/
def judgeMachines (s : State) : State :=
  (List.finRange 16).foldl (fun s e => (List.finRange 48).foldl (fun s p => judgeLoad e p s) s) s

/-- The application of a pending time load (R167): house time, the LOADED report, then the machines (R118) and the WAITING
channels (R132). -/
def applyLoad (v : HouseTime) (s : State) : State :=
  let old := s.time.now
  let s := handOver (.time (.loaded old)) { s with time := { s.time with now := v, load := none } }
  (List.finRange 16).foldl judgeWaiting (judgeMachines s)

/-- PPS_EDGE (R167): a pulse edge with no load pending does nothing. -/
def execPpsEdge (s : State) : Host.Outcome State Fault Refusal :=
  match s.time.load with
  | some l => .next (applyLoad l.value s)
  | none => .next s

/-- PPS_TIMEOUT (R168): the pending load is abandoned once it has waited 2 s. -/
def execPpsTimeout (s : State) : Host.Outcome State Fault Refusal :=
  match s.time.load with
  | some l =>
    if Config.loadWaitTicks ≤ l.wait then
      .next (handOver (.time (.ppsTimeout l.value)) { s with time := { s.time with load := none } })
    else .next s
  | none => .next s

/-! ## Hardware reset -/

/-- HARDWARE_RESET (R186, R181 and the reset rule of each block) with the strap read at its release. Requests that wait at
the upstream port and have not been taken go on waiting, and the model's own queue is not the part's (log entry 3). -/
def execHardwareReset (strap : BitVec 4) (s : State) : Host.Outcome State Fault Refusal :=
  let r := State.afterReset strap
  .next { r with path := { r.path with waiting := s.path.waiting }, pending := s.pending }

end Sys2Proof.Machine
end

