-- ==== Sys2Proof/Machine/Upstream.lean ====
section
/-! DEFINITION. The rows of the upstream port: a request is presented, and taken when the port's conditions hold (R178),
by its class at the take (R173); and a ready response leaves (R180). -/

namespace Sys2Proof.Machine

/-! ## The take of an ingest write -/

/-- The distance of slot s from the expected slot of a ring (R28). -/
def slotSkip (r : RingRecord) (slot : Nat) : Nat := (slot + r.size - r.w.toNat % r.size) % r.size

/-- The sequence that a write of a slot is given (R28). -/
def slotSequence (r : RingRecord) (slot : Nat) : Sequence := r.w + BitVec.ofNat 48 (slotSkip r slot)

/-- The ring record after the take of an ingest write to a slot, before the silent run is judged: W, the counters and the
quiet time (R28, R32, R39). -/
def takeSlot (slot : Nat) (r : RingRecord) : RingRecord :=
  { r with
    w := slotSequence r slot + 1, taken := r.taken + 1, skips := if slotSkip r slot = 0 then r.skips else r.skips + 1,
    quiet := 0 }

/-- The step of a silent run at an ingest write (R34): ACTIVE with a RING report when the run reaches the restore count. -/
def silentRun (i : RingId) (s : State) : State :=
  let r := ringOf s i
  if r.silence = .active then s
  else if r.restore ≤ r.run + 1 then silenceChange i .active s
  else modRing i (fun r => { r with run := r.run + 1 }) s

/-- What the ring unit keeps of an ingest write (R3). -/
def keepIngest (i : RingId) (slot : Nat) (r : Request) (s : State) : IngestKept :=
  { ring := i, seq := slotSequence (ringOf s i) slot, label := cellLabel r.data, e := cellE r.data, k := cellK r.data,
    x := cellX r.data, arrival := s.time.now, valid := true }

/-- The request of an ingest write as it goes downstream: the time field stamped with house time (R30). -/
def stamped (r : Request) (t : HouseTime) : Request := { r with data := stampTime r.data t }

/-- The take of an ingest write to a slot of ring i (R27, R28, R30, R34). -/
def takeIngest (i : RingId) (slot : Nat) (r : Request) (s : State) : State :=
  let kept := keepIngest i slot r s
  silentRun i (modRing i (takeSlot slot) (forward (.ingest kept) (stamped r s.time.now) s))

/-! ## The take of any request -/

/-- A request is taken: it becomes open and is handed to the block that owns its class (R173, R178, R179). Where the take of a
whole-cell read ends a purge, its finishing and counters come before the end of DISABLE RING: DESIGN CHOICE, log entry 27.
A forwarded request is listed before the requests of the part's own that its take causes, also under one tag from 222 to 255,
where R176 and R177 leave their order open: DESIGN CHOICE, log entry 28. -/
def takeRequest (r : Request) (s : State) : State :=
  match classify s r with
  | .beyond => openReq r.tag .atOnce (some ⟨.error, []⟩) s
  | .feedRead e n => settlePurge (takeFeedRead e n (openReq r.tag (.feedRead e) none s))
  | .lengthFault e =>
    feedReadTaken e (modFeed e (fun f => { f with lengthFault := f.lengthFault + 1 })
      (openReq r.tag .atOnce (some ⟨.okay, List.replicate r.len 0⟩) s))
  | .feedWrite e =>
    modFeed e (fun f => { f with feedWrites := f.feedWrites + 1 }) (openReq r.tag .atOnce (some ⟨.okay, []⟩) s)
  | .ingest i slot => takeIngest i slot r s
  | .malformed i => modRing i (fun x => { x with malformed := x.malformed + 1 }) (forward .forwarded r s)
  | .ringRead _ => forward .forwarded r s
  | .command k => takeCommand (takenRecord r.data k) (forward .forwarded r s)
  | .controlOther => forward .forwarded r s
  | .passThrough => forward .forwarded r s

/-- Whether a request can be taken now, as far as the table and the in-flight list go (R178, R89). -/
def roomFor (s : State) (r : Request) : Bool :=
  decide (s.path.openReqs.length < Config.openSize) &&
    match classify s r with
    | .feedRead e n => hasRoom (feedOf s e) n
    | _ => true

/-- Whether no request of a tag waits in a list (R178). -/
def tagFree (tag : PortTag) (ws : List Request) : Bool := ws.all fun w => w.tag != tag

/-- A request is presented at the upstream port: taken if it can be, else it waits there (R178). -/
def present (r : Request) (s : State) : State :=
  if tagFree r.tag s.path.waiting && roomFor s r then takeRequest r s
  else { s with path := { s.path with waiting := s.path.waiting ++ [r] } }

/-- The first waiting request that can be taken, and the others in order; `before` holds the ones passed over (R178). -/
def nextTake (s : State) (before : List Request) : List Request → Option (Request × List Request)
  | [] => none
  | w :: ws =>
    if tagFree w.tag before && roomFor s w then some (w, before ++ ws) else nextTake s (before ++ [w]) ws

/-- What `step` does on an empty queue: the oldest request waiting at the upstream port that can be taken is taken; if there
is none, the part idles (R178; log entry 2). -/
def idleStep (s : State) : State :=
  match nextTake s [] s.path.waiting with
  | none => s
  | some (r, ws) => takeRequest r { s with path := { s.path with waiting := ws } }

/-! ## The rows -/

/-- INGEST_WRITE (R27, R28, R30, R34). -/
def execIngestWrite (r : Request) (s : State) : Host.Outcome State Fault Refusal := .next (present r s)

/-- MALFORMED_WRITE (R27). -/
def execMalformedWrite (r : Request) (s : State) : Host.Outcome State Fault Refusal := .next (present r s)

/-- RING_READ (R27). -/
def execRingRead (r : Request) (s : State) : Host.Outcome State Fault Refusal := .next (present r s)

/-- PASS_THROUGH_REQUEST (R175). -/
def execPassThroughRequest (r : Request) (s : State) : Host.Outcome State Fault Refusal := .next (present r s)

/-- CONTROL_PASS_THROUGH (R182). -/
def execControlPassThrough (r : Request) (s : State) : Host.Outcome State Fault Refusal := .next (present r s)

/-- REQUEST_BEYOND_LIMIT (R174). -/
def execRequestBeyondLimit (r : Request) (s : State) : Host.Outcome State Fault Refusal := .next (present r s)

/-- WHOLE_CELL_READ (R74, R89, R158), with the storage errors that its stale clearing meets. -/
def execWholeCellRead (r : Request) (upsets : List Upset) (s : State) : Host.Outcome State Fault Refusal :=
  .next (present r (upsetRefs upsets s))

/-- LENGTH_FAULT (R86, R158). -/
def execLengthFault (r : Request) (s : State) : Host.Outcome State Fault Refusal := .next (present r s)

/-- FEED_WRITE (R87). -/
def execFeedWrite (r : Request) (s : State) : Host.Outcome State Fault Refusal := .next (present r s)

/-- COMMAND_WRITE (R182, R188 to R190). -/
def execCommandWrite (r : Request) (s : State) : Host.Outcome State Fault Refusal := .next (present r s)

/-- RESPONSE_LEAVES (R180): the ready response of the oldest open request of a tag leaves, if it may; otherwise nothing
leaves. -/
def execResponseLeaves (tag : PortTag) (s : State) : Host.Outcome State Fault Refusal :=
  match leave tag [] s.path.openReqs with
  | some os => .next { s with path := { s.path with openReqs := os } }
  | none => .next s

end Sys2Proof.Machine
end

