-- ==== Sys2Proof/Machine/Dispatch.lean ====
section
/-! DEFINITION. The meaning of each row of spec/opcode_table.json: one arm for each constructor of `Instr`. -/

namespace Sys2Proof.Machine

def exec (i : Instr) (s : State) : Host.Outcome State Fault Refusal :=
  match i with
  | .ingestWrite r => Sys2Proof.Machine.execIngestWrite r s
  | .malformedWrite r => Sys2Proof.Machine.execMalformedWrite r s
  | .ringRead r => Sys2Proof.Machine.execRingRead r s
  | .passThroughRequest r => Sys2Proof.Machine.execPassThroughRequest r s
  | .controlPassThrough r => Sys2Proof.Machine.execControlPassThrough r s
  | .requestBeyondLimit r => Sys2Proof.Machine.execRequestBeyondLimit r s
  | .wholeCellRead r upsets => Sys2Proof.Machine.execWholeCellRead r upsets s
  | .lengthFault r => Sys2Proof.Machine.execLengthFault r s
  | .feedWrite r => Sys2Proof.Machine.execFeedWrite r s
  | .commandWrite r => Sys2Proof.Machine.execCommandWrite r s
  | .downstreamCompletion tag rsp => Sys2Proof.Machine.execDownstreamCompletion tag rsp s
  | .ingestWriteCompletion tag rsp upset => Sys2Proof.Machine.execIngestWriteCompletion tag rsp upset s
  | .deliveryReadCompletion e rsp => Sys2Proof.Machine.execDeliveryReadCompletion e rsp s
  | .responseLeaves tag => Sys2Proof.Machine.execResponseLeaves tag s
  | .streamListReadCompletion rsp => Sys2Proof.Machine.execStreamListReadCompletion rsp s
  | .carriageListReadCompletion rsp => Sys2Proof.Machine.execCarriageListReadCompletion rsp s
  | .wordFetchCompletion e rsp => Sys2Proof.Machine.execWordFetchCompletion e rsp s
  | .dataFetchCompletion e rsp => Sys2Proof.Machine.execDataFetchCompletion e rsp s
  | .reportWriteCompletion rsp => Sys2Proof.Machine.execReportWriteCompletion rsp s
  | .indexBlockWriteCompletion rsp => Sys2Proof.Machine.execIndexBlockWriteCompletion rsp s
  | .purgeScanStep upsets => Sys2Proof.Machine.execPurgeScanStep upsets s
  | .silenceExpiry ring => Sys2Proof.Machine.execSilenceExpiry ring s
  | .feedWatchExpiry e => Sys2Proof.Machine.execFeedWatchExpiry e s
  | .spliceTReached e p => Sys2Proof.Machine.execSpliceTReached e p s
  | .windowEnd e p => Sys2Proof.Machine.execWindowEnd e p s
  | .waitReached e => Sys2Proof.Machine.execWaitReached e s
  | .referenceLost => Sys2Proof.Machine.execReferenceLost s
  | .referenceRestored => Sys2Proof.Machine.execReferenceRestored s
  | .ppsEdge => Sys2Proof.Machine.execPpsEdge s
  | .ppsTimeout => Sys2Proof.Machine.execPpsTimeout s
  | .hardwareReset strap => Sys2Proof.Machine.execHardwareReset strap s
  | .staleResponseDiscard tag rsp => Sys2Proof.Machine.execStaleResponseDiscard tag rsp s
  | .setStreamEntry h label entry => Sys2Proof.Machine.execSetStreamEntry h label entry s
  | .loadStreamEntries h first count list => Sys2Proof.Machine.execLoadStreamEntries h first count list s
  | .setEccThreshold h store threshold => Sys2Proof.Machine.execSetEccThreshold h store threshold s
  | .setRing h ring silence restore base size => Sys2Proof.Machine.execSetRing h ring silence restore base size s
  | .setRingTimingOnly h ring silence restore => Sys2Proof.Machine.execSetRingTimingOnly h ring silence restore s
  | .disableRing h ring => Sys2Proof.Machine.execDisableRing h ring s
  | .setProtection h prog variant main backup => Sys2Proof.Machine.execSetProtection h prog variant main backup s
  | .clearProtection h prog variant => Sys2Proof.Machine.execClearProtection h prog variant s
  | .setProgramme h edition prog priority ceiling depth => Sys2Proof.Machine.execSetProgramme h edition prog priority ceiling depth s
  | .setCarriage h edition length list => Sys2Proof.Machine.execSetCarriage h edition length list s
  | .armSplice h edition prog target force window t => Sys2Proof.Machine.execArmSplice h edition prog target force window t s
  | .cancelSplice h edition prog => Sys2Proof.Machine.execCancelSplice h edition prog s
  | .setVariantNow h edition prog variant => Sys2Proof.Machine.execSetVariantNow h edition prog variant s
  | .startSchedule h edition start => Sys2Proof.Machine.execStartSchedule h edition start s
  | .haltSchedule h edition => Sys2Proof.Machine.execHaltSchedule h edition s
  | .clearSchedule h edition => Sys2Proof.Machine.execClearSchedule h edition s
  | .resumeSchedule h edition => Sys2Proof.Machine.execResumeSchedule h edition s
  | .setEdition h edition autoResume watch maxAge quota base offset => Sys2Proof.Machine.execSetEdition h edition autoResume watch maxAge quota base offset s
  | .editionOn h edition => Sys2Proof.Machine.execEditionOn h edition s
  | .editionOff h edition => Sys2Proof.Machine.execEditionOff h edition s
  | .timeLoad h value => Sys2Proof.Machine.execTimeLoad h value s
  | .relocateControl h base complement => Sys2Proof.Machine.execRelocateControl h base complement s
  | .setMemoryLimit h limit => Sys2Proof.Machine.execSetMemoryLimit h limit s
  | .setReportRing h places intEnable base => Sys2Proof.Machine.execSetReportRing h places intEnable base s
  | .reportAck h index => Sys2Proof.Machine.execReportAck h index s
  | .statistics h scope number => Sys2Proof.Machine.execStatistics h scope number s
  | .restart h => Sys2Proof.Machine.execRestart h s
  | .stationReferenceEdge => Sys2Proof.Machine.execStationReferenceEdge s
  | .oscillatorPeriodEnd => Sys2Proof.Machine.execOscillatorPeriodEnd s

end Sys2Proof.Machine
end

