-- ==== Sys2Proof/Safety.lean ====
section
/-! DEFINITION. The words in which statements about the part are made: safe steps, which blocks a change may touch, the
state of the command unit and of the upstream port in which a command takes effect at once, and the laws of the manual
that every step keeps. -/

namespace Sys2Proof.Machine

/-- The outcome is a next state. -/
def Proceeds (o : Host.Outcome State Fault Refusal) : Prop := ∃ t, o = .next t

/-! ## Frames -/

/-- The fields of `State`. -/
inductive Block where
  | path | down | rings | stream | refs | splices | comp | dlv | chans | eds | time | cmd | rep | pending
  deriving DecidableEq, Repr

/-- From s to t no block changes but the ones listed. -/
structure Frame (bs : List Block) (s t : State) : Prop where
  path : .path ∈ bs ∨ t.path = s.path
  down : .down ∈ bs ∨ t.down = s.down
  rings : .rings ∈ bs ∨ t.rings = s.rings
  stream : .stream ∈ bs ∨ t.stream = s.stream
  refs : .refs ∈ bs ∨ t.refs = s.refs
  splices : .splices ∈ bs ∨ t.splices = s.splices
  comp : .comp ∈ bs ∨ t.comp = s.comp
  dlv : .dlv ∈ bs ∨ t.dlv = s.dlv
  chans : .chans ∈ bs ∨ t.chans = s.chans
  eds : .eds ∈ bs ∨ t.eds = s.eds
  time : .time ∈ bs ∨ t.time = s.time
  cmd : .cmd ∈ bs ∨ t.cmd = s.cmd
  rep : .rep ∈ bs ∨ t.rep = s.rep
  pending : .pending ∈ bs ∨ t.pending = s.pending

/-! ## When a command takes effect at once -/

/-- No command is in flight and no purge scan runs: a command taken now starts at once (R188). -/
abbrev CmdIdle (s : State) : Prop := s.cmd.running = none ∧ s.refs.scan = none

/-- No purge is in flight, so that nothing ends one (R25). -/
def NoPurge (s : State) : Prop := s.refs.scan = none ∧ ∀ c i, s.cmd.running ≠ some ⟨c, .purge i⟩

/-- The table of open requests and, for a whole-cell read, the in-flight list of its edition have room (R178, R89). -/
def Room (s : State) (r : Request) : Prop :=
  s.path.openReqs.length < 128 ∧ ∀ e n, classify s r = .feedRead e n → entriesUsed (feedOf s e) + n ≤ 32

/-- The conditions of R178 hold: the request is taken when it is presented. -/
def Takes (s : State) (r : Request) : Prop := (∀ w ∈ s.path.waiting, w.tag ≠ r.tag) ∧ Room s r

/-- The request has a byte among the n bytes from b (R173). -/
abbrev Shares (r : Request) (b n : Nat) : Prop := r.addr < b + n ∧ b < r.addr + r.len

/-- The request is a whole-cell read of n cells of the aperture at b (R85). -/
def WholeCells (r : Request) (b n : Nat) : Prop :=
  1 ≤ n ∧ n ≤ 4 ∧ r.len = n * 224 ∧ ∃ slot, r.addr = b + slot * 224 ∧ slot + n ≤ 256

/-- The entries of an in-flight list that are not yet finished: the cells that the edition still owes (R95). -/
def owed (f : FeedRecord) : Nat :=
  (f.reads.flatten.filter fun x => match x.state with | .finished .. => false | _ => true).length

/-- The COMMAND report of a command that ends with an outcome (R191). -/
def ended (h : CmdHeader) (code : BitVec 8) (o : CmdOutcome) : Report := .command code h.slot h.tag o

/-! ## Rows -/

/-- The rows that present a request at the upstream port. Each presents the request to the same port, and the class comes
from the map at the take (R173, R178; log entry 9). -/
def presenting : List (Request → Instr) :=
  [.ingestWrite, .malformedWrite, .ringRead, .passThroughRequest, .controlPassThrough, .requestBeyondLimit,
    fun r => .wholeCellRead r [], .lengthFault, .feedWrite, .commandWrite]

/-- The row of a command. -/
def rowOf (h : CmdHeader) : Command → Instr
  | .setStreamEntry l w => .setStreamEntry h l w
  | .loadStreamEntries f n a => .loadStreamEntries h f n a
  | .setEccThreshold st t => .setEccThreshold h st t
  | .setRing r si re b n => .setRing h r si re b n
  | .setRingTimingOnly r si re => .setRingTimingOnly h r si re
  | .disableRing r => .disableRing h r
  | .setProtection p v m b => .setProtection h p v m b
  | .clearProtection p v => .clearProtection h p v
  | .setProgramme e p pr c d => .setProgramme h e p pr c d
  | .setCarriage e n a => .setCarriage h e n a
  | .armSplice e p v f w t => .armSplice h e p v f w t
  | .cancelSplice e p => .cancelSplice h e p
  | .setVariantNow e p v => .setVariantNow h e p v
  | .startSchedule e a => .startSchedule h e a
  | .haltSchedule e => .haltSchedule h e
  | .clearSchedule e => .clearSchedule h e
  | .resumeSchedule e => .resumeSchedule h e
  | .setEdition e au w m q b o => .setEdition h e au w m q b o
  | .editionOn e => .editionOn h e
  | .editionOff e => .editionOff h e
  | .timeLoad v => .timeLoad h v
  | .relocateControl b c => .relocateControl h b c
  | .setMemoryLimit m => .setMemoryLimit h m
  | .setReportRing n i b => .setReportRing h n i b
  | .reportAck a => .reportAck h a
  | .statistics sc n => .statistics h sc n
  | .restart => .restart h

/-! ## The layout of a schedule word -/

/-- The bits of byte k of a schedule word of a kind code that its layout names; the others are reserved (R207). -/
def wordNames (kind k : Nat) : Byte :=
  match kind, k with
  | _, 0 | _, 2 | _, 3 => 0xFF
  | _, 1 => 0x03
  | 1, 4 | 1, 5 | 1, 8 | 1, 9 | 1, 16 | 1, 17 | 1, 18 | 1, 19 | 1, 20 | 1, 21 | 1, 22 => 0xFF
  | 1, 6 => 0x07
  | 2, 4 | 2, 5 | 2, 8 | 2, 9 | 2, 10 | 2, 11 | 2, 12 => 0xFF
  | 2, 6 => 0x01
  | 3, 16 | 3, 17 | 3, 18 | 3, 19 | 3, 20 | 3, 21 | 3, 22 => 0xFF
  | 4, 8 | 4, 9 | 4, 10 | 4, 11 | 4, 12 => 0xFF
  | _, _ => 0

/-- The 32 bytes hold the word by its layout: every field in its bytes, every reserved field 0, and every field in its range
(R129, R207, R211). -/
def WordLaidOut (d : List Byte) (w : SchedWord) : Prop :=
  let num : Nat → Nat → Nat := leNat d
  let flag : Bool → Nat → Nat := fun b n => if b then n else 0
  let zero : Nat → Nat → Prop := fun i n => ∀ k, i ≤ k → k < i + n → byteAt d k = 0
  num 1 1 = flag w.note 1 + flag w.hold 2 ∧ num 2 2 = w.tag.toNat ∧
  match w.kind with
  | .splice p v t win force sync stop =>
    num 0 1 = 1 ∧ num 4 1 = p.val ∧ num 5 1 = v.val ∧ num 6 1 = flag force 1 + flag sync 2 + flag stop 4 ∧ zero 7 1 ∧
      num 8 2 = win.toNat ∧ zero 10 6 ∧ num 16 7 = t.toNat ∧ zero 23 9
  | .carriage len count a sup =>
    num 0 1 = 2 ∧ num 4 1 = len ∧ 16 ≤ len ∧ len ≤ 128 ∧ num 5 1 = count ∧ count ≠ 0 ∧ num 6 1 = flag sup 1 ∧ zero 7 1 ∧
      num 8 5 = a.toNat ∧ a.toNat % 32 = 0 ∧ zero 13 19
  | .wait t => num 0 1 = 3 ∧ zero 4 12 ∧ num 16 7 = t.toNat ∧ zero 23 9
  | .jump a => num 0 1 = 4 ∧ zero 4 4 ∧ num 8 5 = a.toNat ∧ zero 13 19
  | .endWord => num 0 1 = 5 ∧ zero 4 28

/-! ## The end of a chain -/

/-- A downstream request once the fetches of channel e are given up: they are discarded at their completion (R145). -/
def givenUp (e : EdId) (d : DownReq) : DownReq :=
  if d.kind = .wordFetch e true then { d with kind := .wordFetch e false }
  else if d.kind = .dataFetch e true then { d with kind := .dataFetch e false }
  else d

/-- A channel whose chain has ended (R125, R131). -/
def stopped (c : Channel) : Channel := { c with state := .idle, current := none, fetch := .none, sync := none }

/-- From s to u the chain of channel e ends if it runs, with its fetches given up, and no other channel changes (R125, R131,
R145). -/
structure Stops (e : EdId) (s u : State) : Prop where
  chan : chanOf u e = if (chanOf s e).state = .idle then chanOf s e else stopped (chanOf s e)
  others : ∀ a, a ≠ e → chanOf u a = chanOf s a
  down : u.down = if (chanOf s e).state = .idle then s.down else s.down.map (givenUp e)

/-- The SCHEDULE END report of a chain of channel e that a command stops with a status, if it runs: it names the current
word, or with tag 0 the address being fetched (R142, R143, R147, R148). -/
def stopReports (e : EdId) (status : EndStatus) (s : State) : List Report :=
  let c := chanOf s e
  if c.state = .idle then []
  else match c.current with
    | some w => [.schedEnd e status .none c.words w.addr w.word.tag]
    | none => [.schedEnd e status .none c.words (endAddress c.next) 0]

/-- The SPLICE reports of the cancels of every pending splice of e with a cause, in ascending programme order (R121, R122,
R123). -/
def cancelReports (e : EdId) (cause : SpliceCause) (s : State) : List Report :=
  (List.finRange 48).filterMap fun p =>
    (pendingOf (machineOf s e p).phase).map fun sp =>
      .splice e p .cancelled cause sp.late sp.source sp.target (machineOf s e p).admitted sp.tag

/-! ## Laws of the manual -/

/-- INT follows the unread records (R198). -/
abbrev IntLaw (s : State) : Prop :=
  s.rep.intLine = (s.rep.isSet && s.rep.intEnable && decide (0 < unread s.rep))

/-- The report writer's indices lie in its ring, it never holds more than N_r − 1 records, it holds none before a ring is
set, and a record write in flight is that of the head of the pending list (R192, R193, R196). -/
structure WriterLaw (s : State) : Prop where
  places : 64 ≤ s.rep.places ∧ s.rep.places ≤ 16384
  writeIdx : s.rep.writeIdx < s.rep.places
  readIdx : s.rep.readIdx < s.rep.places
  held : unread s.rep + s.rep.pend.length ≤ s.rep.places - 1
  unset : s.rep.isSet = false → s.rep.pend = []
  head : ∀ c, s.rep.writer = .record c → s.rep.pend ≠ []
  waiting : ∀ c n i b, s.cmd.running = some ⟨c, .reportRing n i b⟩ → 64 ≤ n ∧ n ≤ 16384

/-- A carriage frame has 16 to 128 positions (R64). -/
abbrev FrameLength (n : Nat) : Prop := 16 ≤ n ∧ n ≤ 128

/-- The composer's laws for every edition: the position lies in the current frame, every frame has 16 to 128 positions, no
open count exceeds the ceiling in force, and outside LIVE nothing is staged and every open count is 0 (R64, R65, R69, R72,
R78); the frames that are on their way have a legal length (R67, R129). -/
structure CarriageLaw (s : State) : Prop where
  pos : ∀ e, (compOf s e).pos < (compOf s e).frame.length
  frame : ∀ e, FrameLength (compOf s e).frame.length
  staged : ∀ e f, (compOf s e).staged = some f → FrameLength f.length
  opened : ∀ e q, tget (compOf s e).openCount q ≤ (tget (compOf s e).inForce q).ceiling
  asleep : ∀ e, (edOf s e).state ≠ .live → (compOf s e).staged = none ∧ ∀ q, tget (compOf s e).openCount q = 0
  command : ∀ c e n, s.cmd.running = some ⟨c, .carriage e n⟩ → FrameLength n
  word : ∀ e a w n k d b, (chanOf s e).current = some ⟨a, w⟩ → w.kind = .carriage n k d b → FrameLength n

/-- Every in-flight list holds at most 32 entries, at most 128 requests are open, and at most 8 commands wait (R88, R178,
R188). -/
structure CapacityLaw (s : State) : Prop where
  list : ∀ e, entriesUsed (feedOf s e) ≤ 32
  openReqs : s.path.openReqs.length ≤ 128
  queue : s.cmd.queue.length ≤ 8

/-- The entries of every queue, edition by edition and programme by programme. -/
def queued (r : RefStore) : List EntryNo := (List.finRange 16).flatMap fun e => refsOfEdition e r

/-- Every entry is free or in exactly one queue, once; the edition counts and the pool count are the lengths; a purge scan
reads only references of the queue it stands in (R52, R53, R55, R58). -/
structure StoreLaw (s : State) : Prop where
  parts : (s.refs.free ++ queued s.refs).Perm (List.finRange 8192)
  edition : ∀ e, tget s.refs.edCount e = (refsOfEdition e s.refs).length
  pool : s.refs.pool = (queued s.refs).length
  scan : ∀ sc, s.refs.scan = some sc → sc.todo.Sublist (queueAt s.refs sc.at_)

/-- A pending splice never targets the admitted variant of its machine (R104). -/
def SpliceLaw (s : State) : Prop :=
  ∀ e p sp, pendingOf (machineOf s e p).phase = some sp → sp.target ≠ (machineOf s e p).admitted

/-- An IDLE channel has no current word, no fetch in flight and no sync machine (R125). -/
def ChannelLaw (s : State) : Prop :=
  ∀ e, (chanOf s e).state = .idle → (chanOf s e).current = none ∧ (chanOf s e).fetch = .none ∧ (chanOf s e).sync = none

/-- No two regions of the map meet (R185). -/
structure RegionLaw (s : State) : Prop where
  rings : ∀ i, (ringOf s i).enabled = true →
    meetsRing s (ringOf s i).base.toNat (ringBytes (ringOf s i)) (some i) = false ∧
    meetsFeed s (ringOf s i).base.toNat (ringBytes (ringOf s i)) none = false ∧
    meetsControl s (ringOf s i).base.toNat (ringBytes (ringOf s i)) = false
  feeds : ∀ e b, (edOf s e).base = some b →
    meetsFeed s b.toNat 57344 (some e) = false ∧ meetsControl s b.toNat 57344 = false

end Sys2Proof.Machine
end

