-- ==== Sys2Proof/Certificates/Slice0/Obligations.lean ====
section
/-! DEFINITION. The statements for the provers. In each, the state named by an equation `exec c s = .next t` is the whole
state after the command, so that every block not mentioned is unchanged. -/

open Sys2Proof Sys2Proof.Machine

/-! ## The machine -/

/-- The command at the front of the queue runs on the state with the rest of the queue. The queue is the model's own
(log entry 1). -/
def Obligations.FrontCommandRuns : Prop :=
  ∀ (s : State) (c : Instr) (rest : List Instr), s.pending = c :: rest → step s = exec c { s with pending := rest }

/-- No command stops the part, and none touches the model's own queue. The queue is the model's own (log entry 1). -/
def Obligations.EveryCommandAnswersAndKeepsTheQueue : Prop :=
  ∀ (c : Instr) (s : State), ∃ t, exec c s = .next t ∧ t.pending = s.pending

/-! ## Resets -/

/-- The reset values of R19, R40, R62, R83, R102, R124, R149, R161, R170, R181 (strap 0, log entry 3), R186 and R203.
The values R40 and R125 do not state are not named here (log entry 4). -/
def Obligations.ResetLeavesTheStatedValues : Prop :=
  let s := State.reset
  (∀ l, (streamSlot s.stream l).entry.valid = false ∧ (streamSlot s.stream l).check = .clean) ∧
  s.stream.gauge = ⟨0, 0⟩ ∧ s.refs.gauge = ⟨0, 0⟩ ∧
  (∀ i, let r := ringOf s i
    r.enabled = false ∧ r.base = 0 ∧ r.size = 16 ∧ r.silenceMs = 100 ∧ r.restore = 8 ∧ r.readsInFlight = 0 ∧ r.taken = 0 ∧
    r.skips = 0 ∧ r.malformed = 0 ∧ r.labelFaults = 0 ∧ r.writeErrors = 0 ∧ r.duplicates = 0) ∧
  (∀ p v, tget (tget s.rings.protection p) v = none) ∧
  s.refs.free = List.finRange 8192 ∧ s.refs.pool = 0 ∧ s.refs.scan = none ∧
  (∀ e, tget s.refs.edCount e = 0 ∧ tget s.refs.counters e = ⟨0, 0, 0, 0, 0, 0⟩) ∧
  (∀ e p, queueOf s e p = [] ∧ tget2 s.refs.depth e p = 64) ∧
  (∀ e, let c := compOf s e
    c.frame = List.replicate 16 .openPool ∧ c.staged = none ∧ c.pos = 0 ∧ c.lastHigh = 47 ∧ c.lastLow = 47 ∧
    c.staleRing = 0 ∧ c.staleOverwritten = 0 ∧ c.staleAge = 0 ∧ c.staleEcc = 0 ∧
    ∀ q, tget c.openCount q = 0 ∧ tget c.inForce q = ⟨0, .low⟩ ∧ tget c.pending q = ⟨0, .low⟩) ∧
  (∀ e, let f := feedOf s e
    f.reads = [] ∧ f.delivered = 0 ∧ f.filler = 0 ∧ f.overrun = 0 ∧ f.readError = 0 ∧ f.lengthFault = 0 ∧
    f.feedWrites = 0 ∧ ∀ l, tget f.cont l = 0) ∧
  (∀ e p, machineOf s e p = { phase := .steady, admitted := 0, markPending := false, waiting := false }) ∧
  (∀ e, let c := chanOf s e
    c.state = .idle ∧ c.current = none ∧ c.fetch = .none ∧ c.sync = none ∧ c.jumped = false ∧ c.words = 0 ∧
    c.progress = 0) ∧
  (∀ e, edOf s e = { state := .off, base := none, quota := 0, maxAge := 500, offset := 0, watch := 0, autoResume := false,
                     idle := 0 }) ∧
  s.time.now = 0 ∧ s.time.ref = .locked ∧ s.time.load = none ∧
  s.path.control = 0x000FFFF000#40 ∧ s.path.limit = 2 ^ 40 ∧ s.path.openReqs = [] ∧ s.down = [] ∧
  s.cmd = { running := none, queue := [] } ∧
  s.rep = { isSet := false, base := 0, places := 64, intEnable := false, writeIdx := 0, readIdx := 0, lost := 0, seq := 0,
            pend := [], writer := .idle, intLine := false }

/-- Hardware reset with strap s: every block is as after reset, the control aperture lies at s × 0x10000000 + 0x0FFFF000, and
requests that were presented and not taken wait on (R181, R186; for the queue of the model, log entry 3). The values that R40,
R125, R5 and R56 do not state are the model's choice (log entry 4). -/
def Obligations.HardwareResetRestoresEveryBlock : Prop :=
  ∀ (strap : BitVec 4) (s : State),
    exec (.hardwareReset strap) s = .next
      { State.reset with
        path := { control := BitVec.ofNat 40 (strap.toNat * 0x10000000 + 0x0FFFF000), limit := 2 ^ 40, openReqs := [],
                  waiting := s.path.waiting },
        pending := s.pending }

/-- Every law of `Safety` holds after reset, whatever the strap. -/
def Obligations.ResetMeetsEveryLaw : Prop :=
  ∀ strap : BitVec 4, let s := State.afterReset strap
    IntLaw s ∧ WriterLaw s ∧ CarriageLaw s ∧ CapacityLaw s ∧ StoreLaw s ∧ SpliceLaw s ∧ ChannelLaw s ∧ RegionLaw s

/-- RESTART on a command unit with no command in flight: every block but the report writer, house time, the control aperture and
the memory limit is reset, the delivery reads in flight stay counted, each feed read in an in-flight list is answered in list
order with one filler cell for each entry, its own COMMAND report is handed over, and then the refusal of each waiting command.
A RESTART at the head of the queue does the same when the command unit comes to it (R201, R202, R40, R103, R170, R187, R190).
The values that the reset rules do not state are the model's choice (log entry 4). What a request in flight keeps is the model's
record of it (log entry 22), and which open request a read answers is its reading (log entry 12). -/
def Obligations.RestartResetsTheBlocks : Prop :=
  ∀ (s : State) (h : CmdHeader), s.cmd.running = none →
    ∃ t, exec (.restart h) s = .next t ∧
      (∀ u : State, u.cmd = { running := none, queue := takenRow h .restart :: s.cmd.queue } →
        s = { u with cmd := s.cmd } → startWaiting u = t) ∧
      t.path.openReqs.length = s.path.openReqs.length ∧
      (∀ pre o post, s.path.openReqs = pre ++ o :: post →
        (∀ e, o.cls = .feedRead e → o.response = none →
          let ahead := (pre.filter fun b => b.cls == .feedRead e && b.response.isNone).length
          t.path.openReqs[pre.length]? = some { o with
            response := (feedOf s e).reads[ahead]?.map fun xs => ⟨.okay, (xs.map fun x => fillerCell x.t).flatten⟩ }) ∧
        ((o.response ≠ none ∨ ∀ e, o.cls ≠ .feedRead e) → t.path.openReqs[pre.length]? = some o)) ∧
      t.stream = State.reset.stream ∧ t.refs = State.reset.refs ∧ t.splices = State.reset.splices ∧
      t.comp = State.reset.comp ∧ t.dlv = State.reset.dlv ∧ t.chans = State.reset.chans ∧ t.eds = State.reset.eds ∧
      t.rings.protection = State.reset.rings.protection ∧
      (∀ i, ringOf t i = { ringOf State.reset i with readsInFlight := (ringOf s i).readsInFlight }) ∧
      t.time = { s.time with load := none } ∧ t.path.control = s.path.control ∧ t.path.limit = s.path.limit ∧
      t.path.waiting = s.path.waiting ∧ t.path.openReqs.map OpenReq.tag = s.path.openReqs.map OpenReq.tag ∧
      t.cmd = { running := none, queue := [] } ∧
      (∃ ws, t.down = s.down.map restartDown ++ ws ∧ ∀ d ∈ ws, d.kind = .recordWrite) ∧
      t.rep = (handOverAll (ended h 25 .done :: s.cmd.queue.map fun c => .command c.code c.slot c.tag .state) s).rep ∧
      t.pending = s.pending

/-! ## Laws that every step keeps -/

/-- R198. -/
def Obligations.StepKeepsTheInterruptLine : Prop := ∀ s t : State, IntLaw s → step s = .next t → IntLaw t

/-- R192, R193, R196. -/
def Obligations.StepKeepsTheReportRing : Prop := ∀ s t : State, WriterLaw s → step s = .next t → WriterLaw t

/-- R64, R65, R69, R72, R78. -/
def Obligations.StepKeepsTheCarriageRecords : Prop := ∀ s t : State, CarriageLaw s → step s = .next t → CarriageLaw t

/-- R88, R178, R188. -/
def Obligations.StepKeepsTheCapacities : Prop := ∀ s t : State, CapacityLaw s → step s = .next t → CapacityLaw t

/-- R52, R53, R55, R58. The scan clause is about the model's reading of a purge scan (log entry 13). -/
def Obligations.StepKeepsTheReferenceStore : Prop := ∀ s t : State, StoreLaw s → step s = .next t → StoreLaw t

/-- R104. -/
def Obligations.StepKeepsSpliceTargetsApart : Prop := ∀ s t : State, SpliceLaw s → step s = .next t → SpliceLaw t

/-- R125. -/
def Obligations.StepKeepsIdleChannelsEmpty : Prop := ∀ s t : State, ChannelLaw s → step s = .next t → ChannelLaw t

/-- R185. -/
def Obligations.StepKeepsRegionsApart : Prop := ∀ s t : State, RegionLaw s → step s = .next t → RegionLaw t

/-! ## Command records and command writes -/

/-- Reading a command record gives back the command it was built from, with every field at every value (R208, R211). With
scope ALL the number byte of STATISTICS is reserved. -/
def Obligations.CommandRecordReadsBack : Prop :=
  ∀ (c : Command) (tag : Tag16) (slot : BitVec 6), (∀ n, c = .statistics 3 n → n = 0) →
    takenRecord (encodeCommand tag c) slot = takenRow ⟨tag, slot⟩ c

/-- A command write is forwarded unchanged, and its record is taken: it runs at once, joins the queue, or is refused with QUEUE
FULL; a record of an unknown kind ends with UNKNOWN, and one of a known kind with a reserved field that is not 0 with RANGE.
Waiting commands start from the head of the queue for as long as no command is in flight, each as its own row does (R182, R188,
R189, R190, R211). The model keeps a waiting command as its parsed record (log entry 10) and issues a forwarded request at its
take (log entry 11). That the forwarded write is listed before the record write that its take causes, also where both have the
tag 222, is its choice (log entry 28). -/
def Obligations.CommandWriteTakesItsRecord : Prop :=
  (∀ (s : State) (r : Request) (k : BitVec 6), classify s r = .command k → Takes s r →
    let u : State := { s with path := { s.path with openReqs := s.path.openReqs ++ [⟨r.tag, .forwarded, none⟩] },
                              down := s.down ++ [⟨.forwarded, r⟩] }
    let refused : CmdOutcome → Host.Outcome State Fault Refusal := fun o =>
      .next (handOver (.command (byteAt r.data 0) k (field 16 r.data 2 2) o) u)
    let kind := (byteAt r.data 0).toNat
    (s.cmd.running = none → exec (.commandWrite r) s = .next (takeCommand (takenRecord r.data k) u)) ∧
    (s.cmd.running = none → ∀ tag c, (∀ n, c = .statistics 3 n → n = 0) → r.data = encodeCommand tag c →
      exec (.commandWrite r) s = takeRow ⟨tag, k⟩ c u) ∧
    (s.cmd.running ≠ none → s.cmd.queue.length < 8 → exec (.commandWrite r) s =
      .next { u with cmd := { s.cmd with queue := s.cmd.queue ++ [takenRecord r.data k] } }) ∧
    (s.cmd.running ≠ none → 8 ≤ s.cmd.queue.length → exec (.commandWrite r) s = refused .queueFull) ∧
    (CmdIdle s → (kind = 0 ∨ 25 < kind) → exec (.commandWrite r) s = refused .unknown) ∧
    (CmdIdle s → 1 ≤ kind → kind ≤ 25 → (∃ i, i < 64 ∧ byteAt r.data i &&& ~~~commandNamed r.data i ≠ 0) →
      exec (.commandWrite r) s = refused .range)) ∧
  (∀ (bs : List Byte) (i : Nat), (i = 1 ∨ (4 ≤ i ∧ i ≤ 7) ∨ 29 ≤ i) → commandNamed bs i = 0) ∧
  (∀ s : State, (s.cmd.running ≠ none ∨ s.cmd.queue = []) → startWaiting s = s) ∧
  (∀ (s : State) (c : TakenCommand) (rest : List TakenCommand), s.cmd = { running := none, queue := c :: rest } →
    startWaiting s = startWaiting (takeCommand c { s with cmd := { running := none, queue := rest } })) ∧
  ∀ (h : CmdHeader) (c : Command) (s : State), exec (rowOf h c) s = .next (takeCommand (takenRow h c) s)

/-! ## The upstream port -/

/-- The class of a request: beyond 2^40; else by the feed aperture it touches; else by the enabled ring region that holds
its first byte, or else the lowest byte of it that lies in one; else by the control aperture; else pass-through (R173, R174,
R27, R85, R182). -/
def Obligations.RequestClassFollowsTheMap : Prop :=
  ∀ (s : State) (r : Request),
    (2 ^ 40 < r.addr + r.len → classify s r = .beyond) ∧
    (r.addr + r.len ≤ 2 ^ 40 →
      (∀ (e : EdId) (b : Addr), (edOf s e).base = some b → Shares r b.toNat 57344 →
        (∀ e' b', e' ≠ e → (edOf s e').base = some b' → ¬Shares r b'.toNat 57344) →
        (r.dir = .write → classify s r = .feedWrite e) ∧
        (∀ n, r.dir = .read → WholeCells r b.toNat n → classify s r = .feedRead e n) ∧
        (r.dir = .read → (∀ n, ¬WholeCells r b.toNat n) → classify s r = .lengthFault e)) ∧
      ((∀ (e : EdId) (b : Addr), (edOf s e).base = some b → ¬Shares r b.toNat 57344) →
        (∀ i : RingId, let R := ringOf s i
          R.enabled = true → R.base.toNat ≤ r.addr → r.addr < R.base.toNat + R.size * 224 →
          (∀ j, j ≠ i → (ringOf s j).enabled = true →
            ¬((ringOf s j).base.toNat ≤ r.addr ∧ r.addr < (ringOf s j).base.toNat + (ringOf s j).size * 224)) →
          (r.dir = .read → classify s r = .ringRead i) ∧
          (∀ slot, r.dir = .write → r.len = 224 → r.addr = R.base.toNat + slot * 224 → slot < R.size →
            r.strobes = List.replicate 224 true → classify s r = .ingest i slot) ∧
          (r.dir = .write → ¬(r.len = 224 ∧ (r.addr - R.base.toNat) % 224 = 0 ∧ r.strobes = List.replicate 224 true) →
            classify s r = .malformed i)) ∧
        (∀ i : RingId, let R := ringOf s i
          R.enabled = true → 0 < R.size → r.addr < R.base.toNat → R.base.toNat < r.addr + r.len →
          (∀ j, j ≠ i → (ringOf s j).enabled = true →
            (ringOf s j).base.toNat + (ringOf s j).size * 224 ≤ r.addr ∨ R.base.toNat < (ringOf s j).base.toNat) →
          (r.dir = .read → classify s r = .ringRead i) ∧ (r.dir = .write → classify s r = .malformed i)) ∧
        ((∀ i, (ringOf s i).enabled = true → ¬Shares r (ringOf s i).base.toNat ((ringOf s i).size * 224)) →
          (∀ k : BitVec 6, r.dir = .write → r.len = 64 → r.addr = s.path.control.toNat + 64 * k.toNat →
            r.strobes = List.replicate 64 true → classify s r = .command k) ∧
          (Shares r s.path.control.toNat 4096 →
            ¬(r.dir = .write ∧ r.len = 64 ∧ r.strobes = List.replicate 64 true ∧
              ∃ k : BitVec 6, r.addr = s.path.control.toNat + 64 * k.toNat) →
            classify s r = .controlOther) ∧
          (¬Shares r s.path.control.toNat 4096 → classify s r = .passThrough))))

/-- Pass-through requests, control requests that are no command write, ring reads and malformed ring writes are opened and
forwarded unchanged with their own tag; a malformed write counts in its ring. A request that cannot yet be taken waits at the
port, and a step on an empty queue takes the oldest waiting request whose conditions hold, or idles (R27, R89, R173, R175, R178,
R182). A forwarded request is issued at its take and joins the list of downstream requests behind those already there (log
entries 11 and 28); the choice among waiting requests of different tags and the idle step are the model's (log entry 2), and
every presenting row takes a request by its actual class (log entry 9). -/
def Obligations.OtherRequestsAreForwarded : Prop :=
  (∀ (s : State) (r : Request), Takes s r →
    let u : State := { s with path := { s.path with openReqs := s.path.openReqs ++ [⟨r.tag, .forwarded, none⟩] },
                              down := s.down ++ [⟨.forwarded, r⟩] }
    (classify s r = .passThrough → exec (.passThroughRequest r) s = .next u) ∧
    (classify s r = .controlOther → exec (.controlPassThrough r) s = .next u) ∧
    (∀ i, classify s r = .ringRead i → exec (.ringRead r) s = .next u) ∧
    (∀ i, classify s r = .malformed i →
      exec (.malformedWrite r) s = .next (modRing i (fun x => { x with malformed := x.malformed + 1 }) u)) ∧
    ∀ row ∈ presenting, exec (row r) s = .next (takeRequest r s)) ∧
  (∀ (s : State) (r : Request), ¬Takes s r →
    let waits : State → State := fun v => { v with path := { v.path with waiting := v.path.waiting ++ [r] } }
    (∀ row ∈ presenting, exec (row r) s = .next (waits s)) ∧
    ∀ us, exec (.wholeCellRead r us) s = .next (waits (upsetRefs us s))) ∧
  ∀ s : State, s.pending = [] →
    let held : List Request → Request → Prop := fun before b => (∃ w ∈ before, w.tag = b.tag) ∨ ¬Room s b
    (∀ pre r post, s.path.waiting = pre ++ r :: post → ¬held pre r →
      (∀ p b q, pre = p ++ b :: q → held p b) →
      step s = .next (takeRequest r { s with path := { s.path with waiting := pre ++ post } })) ∧
    ((∀ p b q, s.path.waiting = p ++ b :: q → held p b) → step s = .next s)

/-- A request beyond 2^40, a feed write and a length fault are answered at their take and reach neither DRAM nor the
composer; a length fault restarts the feed watch, or resumes a DORMANT edition with AUTO-RESUME (R86, R87, R158,
R174). The empty data of a response without data is the model's choice (log entry 20). -/
def Obligations.RequestsAnsweredAtTheirTake : Prop :=
  ∀ (s : State) (r : Request), Takes s r →
    let answer : Response → State := fun rsp =>
      { s with path := { s.path with openReqs := s.path.openReqs ++ [⟨r.tag, .atOnce, some rsp⟩] } }
    (classify s r = .beyond → exec (.requestBeyondLimit r) s = .next (answer ⟨.error, []⟩)) ∧
    (∀ e, classify s r = .feedWrite e →
      exec (.feedWrite r) s = .next (modFeed e (fun f => { f with feedWrites := f.feedWrites + 1 }) (answer ⟨.okay, []⟩))) ∧
    (∀ e, classify s r = .lengthFault e →
      let u := modFeed e (fun f => { f with lengthFault := f.lengthFault + 1 }) (answer ⟨.okay, List.replicate r.len 0⟩)
      ((edOf s e).state = .live → exec (.lengthFault r) s = .next (modEd e (fun x => { x with idle := 0 }) u)) ∧
      ((edOf s e).state = .dormant → (edOf s e).autoResume = true → exec (.lengthFault r) s =
        .next (handOver (.edition e .resumed 0) (modEd e (fun x => { x with state := .live, idle := 0 }) u))) ∧
      ((edOf s e).state = .dormant → (edOf s e).autoResume = false → exec (.lengthFault r) s = .next u) ∧
      ((edOf s e).state = .off → exec (.lengthFault r) s = .next u))

/-- An ingest write to a slot is given its sequence, advances W past the slots between, restarts the quiet time, is stamped with
house time and forwarded, and makes its step of a silent run. The stamped data of a cell holds house time in its time field,
bytes 9 to 15, and every other byte as it was written (R3, R28, R30, R32, R34, R35, R205). The sequence taken mod N is the slot
as long as W does not wrap (log entry 15). That the write is issued downstream at its take (log entry 11), and is listed before
the record write of the ACTIVE report, also where both have the tag 222 (log entry 28), is the model's choice. -/
def Obligations.IngestWriteIsSequencedAndStamped : Prop :=
  (∀ (d : List Byte) (t : HouseTime), d.length = 224 →
    let d' := stampTime d t
    d'.length = 224 ∧ leNat d' 9 7 = t.toNat ∧ cellTime d' = t ∧ ∀ k, (k < 9 ∨ 16 ≤ k) → byteAt d' k = byteAt d k) ∧
  ∀ (s : State) (r : Request) (i : RingId) (slot : Nat), classify s r = .ingest i slot → Takes s r →
    let R := ringOf s i
    let d := (slot + R.size - R.w.toNat % R.size) % R.size
    let q : Sequence := R.w + BitVec.ofNat 48 d
    let kept : IngestKept := { ring := i, seq := q, label := cellLabel r.data, e := cellE r.data, k := cellK r.data,
                               x := cellX r.data, arrival := s.time.now, valid := true }
    let u : State := modRing i
      (fun x => { x with
        w := q + 1, taken := x.taken + 1, skips := if d = 0 then x.skips else x.skips + 1, quiet := 0 })
      { s with path := { s.path with openReqs := s.path.openReqs ++ [⟨r.tag, .forwarded, none⟩] },
               down := s.down ++ [⟨.ingest kept, { r with data := stampTime r.data s.time.now }⟩] }
    (R.silence = .active → exec (.ingestWrite r) s = .next u) ∧
    (R.silence = .silent → R.run + 1 < R.restore →
      exec (.ingestWrite r) s = .next (modRing i (fun x => { x with run := x.run + 1 }) u)) ∧
    (R.silence = .silent → R.restore ≤ R.run + 1 → exec (.ingestWrite r) s =
      .next (handOver (.ring i .active (q + 1)) (modRing i (fun x => { x with silence := .active, run := 0 }) u))) ∧
    (R.w.toNat + R.size < 2 ^ 48 → q.toNat % R.size = slot)

/-- A whole-cell read of an edition that is OFF, or DORMANT without AUTO-RESUME, is answered with n filler cells that
carry house time, counted in its filler counter, once nothing is ahead of it in the list (R89, R95, R100, R158). The
storage errors `us` are the model's operand (log entry 5). -/
def Obligations.SleepingEditionAnswersFiller : Prop :=
  ∀ (s : State) (r : Request) (us : List Upset) (e : EdId) (n : Nat), classify s r = .feedRead e n → Takes s r →
    NoPurge s → ((edOf s e).state = .off ∨ ((edOf s e).state = .dormant ∧ (edOf s e).autoResume = false)) →
    (feedOf s e).reads = [] → (∀ o ∈ s.path.openReqs, o.cls = .feedRead e → o.response ≠ none) →
    exec (.wholeCellRead r us) s = .next
      (modFeed e (fun f => { f with filler := f.filler + BitVec.ofNat 32 n })
        { upsetRefs us s with path := { s.path with openReqs := s.path.openReqs ++
            [⟨r.tag, .feedRead e, some ⟨.okay, (List.replicate n (fillerCell s.time.now)).flatten⟩⟩] } })

/-- A whole-cell read of n cells that the part composes makes n choices; its entries join the in-flight list together in
composition order with house time and the offset of the take, each chosen reference issues one read of 224 bytes of its slot
under the tag of the edition and counts in flight for its ring, and finishing runs. The edition then owes exactly n cells more,
each counted as delivered or filler when it is finished; it is LIVE with idle time 0, an edition that was DORMANT having handed
over its RESUMED report, and no record of another edition changes (R74, R81, R89, R90, R95, R101, R156, R158). The storage
errors `us` are the model's operand (log entry 5). That the requests it lists join the list of downstream requests as they are
made, behind those already there, is the model's choice (log entries 11 and 28). -/
def Obligations.ComposedReadOwesEveryCell : Prop :=
  ∀ (s : State) (r : Request) (us : List Upset) (e : EdId) (n : Nat), classify s r = .feedRead e n → Takes s r →
    NoPurge s → ((edOf s e).state = .live ∨ ((edOf s e).state = .dormant ∧ (edOf s e).autoResume = true)) →
    let woken : State := modEd e (fun x => { x with state := .live, idle := 0 })
      { upsetRefs us s with
        path := { s.path with openReqs := s.path.openReqs ++ [⟨r.tag, .feedRead e, none⟩] } }
    let start := if (edOf s e).state = .live then woken else handOver (.edition e .resumed 0) woken
    let composed := composeRead e s.time.now n start
    let entry : Option Reference → InFlight := fun ref =>
      { ref := ref, t := s.time.now, offset := (edOf s e).offset,
        state := match ref with | some _ => .issued | none => .filled }
    let read : Reference → DownReq := fun x =>
      let R := ringOf s x.ring
      ⟨.delivery e x.ring true,
        ownRead (Config.deliveryTag e) (R.base.toNat + (x.seq.toNat % R.size) * 224) 224⟩
    let chosen := composed.2.filterMap id
    composed.2.length = n ∧
    ∃ u t, exec (.wholeCellRead r us) s = .next t ∧ t = finish e u ∧
      Frame [.down, .rings, .dlv] composed.1 u ∧
      u.down = composed.1.down ++ chosen.map read ∧
      (∀ i, ringOf u i = { ringOf s i with
        readsInFlight := (ringOf s i).readsInFlight + (chosen.filter fun x => x.ring == i).length }) ∧
      u.rings.protection = s.rings.protection ∧
      feedOf u e = { feedOf s e with reads := (feedOf s e).reads ++ [composed.2.map entry] } ∧
      (∀ a, a ≠ e → feedOf u a = feedOf s a) ∧
      edOf t e = { edOf s e with state := .live, idle := 0 } ∧
      (feedOf t e).delivered + (feedOf t e).filler + BitVec.ofNat 32 (owed (feedOf t e)) =
        (feedOf s e).delivered + (feedOf s e).filler + BitVec.ofNat 32 (owed (feedOf s e) + n) ∧
      t.path.openReqs.length = s.path.openReqs.length + 1 ∧
      (∀ a, a ≠ e → edOf t a = edOf s a ∧ compOf t a = compOf s a ∧ feedOf t a = feedOf s a ∧
        ∀ p, queueOf t a p = queueOf s a p) ∧
      Frame [.path, .down, .rings, .refs, .comp, .dlv, .eds, .rep] s t

/-- The ready response of the oldest open request of a tag leaves, unless it is that of a whole-cell read behind an earlier
whole-cell read of its edition; a response that is not ready does not leave (R180). -/
def Obligations.ResponseLeavesInOrder : Prop :=
  ∀ (s : State) (tag : PortTag) (pre : List OpenReq) (o : OpenReq) (post : List OpenReq),
    s.path.openReqs = pre ++ o :: post → o.tag = tag → (∀ b ∈ pre, b.tag ≠ tag) →
    (∀ rsp, o.response = some rsp → (∀ e, o.cls = .feedRead e → ∀ b ∈ pre, b.cls ≠ .feedRead e) →
      exec (.responseLeaves tag) s = .next { s with path := { s.path with openReqs := pre ++ post } }) ∧
    (o.response = none → exec (.responseLeaves tag) s = .next s) ∧
    (∀ e b, o.cls = .feedRead e → b ∈ pre → b.cls = .feedRead e → exec (.responseLeaves tag) s = .next s)

/-! ## Composition -/

/-- Stale clearing of an edition at house time t takes its queues in ascending order. At the head of a queue, an
uncorrectable entry is discarded and reported; a correctable one is corrected and written back, counted while the
threshold is not 0, and reported when the count reaches it; a stale reference is discarded and counted once, by the first
cause of RING, OVERWRITTEN and AGE that holds; a clean head that none holds of ends the clearing and stays. So afterwards
every queue of the edition is empty or has a head without storage error that passes the tests (R17, R56, R59, R60, R75, R76,
R82). -/
def Obligations.StaleClearingLeavesFreshHeads : Prop :=
  (∀ (s : State) (e : EdId) (t : HouseTime) (q : ProgId) (n : EntryNo) (rest : List EntryNo),
    let u := clearAll e t s
    queueOf u e q = n :: rest →
    let x := (tget u.refs.slots n).ref
    let R := ringOf s x.ring
    (tget u.refs.slots n).check = .clean ∧ R.enabled = true ∧ (R.w - x.seq).toNat ≤ R.size ∧
      t.toNat - x.arrival.toNat ≤ (edOf s e).maxAge * 20000) ∧
  ∀ (e : EdId) (t : HouseTime),
    let clear : ProgId → State → State := fun p s => clearQueue e p t (queueOf s e p).length s
    (∀ s, clearAll e t s = (List.finRange 48).foldl (fun s p => clear p s) s) ∧
    ∀ (s : State) (p : ProgId),
      (queueOf s e p = [] → clear p s = s) ∧
      ∀ n rest, queueOf s e p = n :: rest →
        let slot := tget s.refs.slots n
        let x := slot.ref
        let R := ringOf s x.ring
        let gone : RefStore :=
          { s.refs with
            queues := tput2 s.refs.queues e p rest, edCount := tput s.refs.edCount e (tget s.refs.edCount e - 1),
            pool := s.refs.pool - 1, free := s.refs.free ++ [n],
            scan := s.refs.scan.map fun sc => { sc with todo := sc.todo.erase n } }
        let discard : (CompRecord → CompRecord) → State := fun count => modComp e count { s with refs := gone }
        let lapped := R.size < (R.w - x.seq).toNat
        let old := (edOf s e).maxAge * 20000 < t.toNat - x.arrival.toNat
        let g := s.refs.gauge
        let corrected : EccGauge → State := fun gauge =>
          { s with refs := { s.refs with slots := tput s.refs.slots n { slot with check := .clean }, gauge := gauge } }
        (slot.check = .double → clear p s = clear p (handOver (.ecc .refstore .uncorrectable n.val)
          (discard fun c => { c with staleEcc := c.staleEcc + 1 }))) ∧
        (slot.check = .single → g.threshold = 0 → clear p s = clear p (corrected g)) ∧
        (slot.check = .single → g.threshold ≠ 0 → g.count.toNat + 1 < g.threshold.toNat →
          clear p s = clear p (corrected { g with count := g.count + 1 })) ∧
        (slot.check = .single → g.threshold ≠ 0 → g.threshold.toNat ≤ g.count.toNat + 1 →
          clear p s = clear p (handOver (.ecc .refstore .threshold n.val) (corrected { g with count := 0 }))) ∧
        (slot.check = .clean → R.enabled = false →
          clear p s = clear p (discard fun c => { c with staleRing := c.staleRing + 1 })) ∧
        (slot.check = .clean → R.enabled = true → lapped →
          clear p s = clear p (discard fun c => { c with staleOverwritten := c.staleOverwritten + 1 })) ∧
        (slot.check = .clean → R.enabled = true → ¬lapped → old →
          clear p s = clear p (discard fun c => { c with staleAge := c.staleAge + 1 })) ∧
        (slot.check = .clean → R.enabled = true → ¬lapped → ¬old → clear p s = s)

/-- A choice clears the queues, chooses for the position and advances, and a read of n cells makes n of them one after
another. A position that names a programme with a cell waiting takes the head of its queue and spends no open place; an OPEN
position, and one whose programme has no cell, gives its place to the open pool: to the candidate of the competing class
that comes first after the class's last-served pointer; the winner's head is released, its open count rises by 1 and it
becomes the pointer of its class. HIGH candidates compete alone if there is one; with no candidate there is no choice. After
a choice the position advances, or a frame boundary zeroes the open counts and brings the pending settings and the staged
frame into force at position 0 (R65, R66, R74, R77, R78, R79, R80, R81). -/
def Obligations.PlacesAreServedInTurn : Prop :=
  (∀ (s : State) (e : EdId) (p : ProgId), (compOf s e).frame[(compOf s e).pos]? = some (.prog p) →
    (∀ n rest, queueOf s e p = n :: rest →
      choosePlace e s = ({ s with refs := releaseRef e p n s.refs }, some (tget s.refs.slots n).ref)) ∧
    (queueOf s e p = [] → choosePlace e s = chooseOpen e s)) ∧
  (∀ (s : State) (e : EdId), (compOf s e).frame[(compOf s e).pos]? = some .openPool →
    choosePlace e s = chooseOpen e s) ∧
  (∀ (s : State) (e : EdId) (t : HouseTime),
    chooseOne e t s =
      (modComp e advance (choosePlace e (clearAll e t s)).1, (choosePlace e (clearAll e t s)).2) ∧
    composeRead e t 0 s = (s, []) ∧
    ∀ n, composeRead e t (n + 1) s =
      ((composeRead e t n (chooseOne e t s).1).1, (chooseOne e t s).2 :: (composeRead e t n (chooseOne e t s).1).2)) ∧
  (∀ (s : State) (e : EdId),
    let c := compOf s e
    let cand : Priority → ProgId → Prop := fun k q =>
      queueOf s e q ≠ [] ∧ tget c.openCount q < (tget c.inForce q).ceiling ∧ (tget c.inForce q).priority = k
    ((∀ k q, ¬cand k q) → chooseOpen e s = (s, none)) ∧
    ∀ k q n rest, cand k q → (k = .low → ∀ q', ¬cand .high q') →
      let last := match k with | .high => c.lastHigh | .low => c.lastLow
      (∀ q', cand k q' → (q.val + 47 - last.val) % 48 ≤ (q'.val + 47 - last.val) % 48) →
      queueOf s e q = n :: rest →
      let c' := { c with openCount := tput c.openCount q (tget c.openCount q + 1) }
      let c'' := match k with | .high => { c' with lastHigh := q } | .low => { c' with lastLow := q }
      chooseOpen e s =
        ({ s with comp := { recs := tput s.comp.recs e c'' }, refs := releaseRef e q n s.refs },
          some (tget s.refs.slots n).ref)) ∧
  ∀ (s : State) (e : EdId) (t : HouseTime),
    let c := compOf s e
    let d := compOf (chooseOne e t s).1 e
    (c.pos + 1 < c.frame.length →
      d.pos = c.pos + 1 ∧ d.frame = c.frame ∧ d.staged = c.staged ∧ d.inForce = c.inForce ∧ d.pending = c.pending) ∧
    (c.frame.length ≤ c.pos + 1 →
      d.pos = 0 ∧ d.frame = c.staged.getD c.frame ∧ d.staged = none ∧ d.inForce = c.pending ∧ d.pending = c.pending ∧
        ∀ q, tget d.openCount q = 0)

/-! ## Admission -/

/-- The completion of an ingest write: its response goes upstream; a write whose ring was disabled meanwhile does nothing more,
ERROR counts a write error, filler ends there, a label fault or a protected duplicate counts in the ring, a double-bit error
also rewrites the entry and is reported, and any other cell runs the edition steps of its mask in ascending order. A single-bit
error is corrected and written back, counted while the threshold is not 0 and reported when the count reaches it, and the cell
goes on with the corrected entry (R4, R7, R8, R15, R16, R17, R26, R31, R38, R41, R42). The model's choices: the storage error is
an operand (log entry 5), every field of the entry rewritten as invalid is clear (log entry 4), and a channel acts on the switch
of its splice before the next edition begins (log entry 29). Its readings: the ECC report stands before the later reports of the
row (log entry 25), and which open request becomes ready (log entry 12). -/
def Obligations.IngestCompletionAdmitsTheCell : Prop :=
  ∀ (s : State) (tag : PortTag) (k : IngestKept) (q : Request) (rest : List DownReq),
    takeOldest tag s.down = some (⟨.ingest k, q⟩, rest) →
    let u : Response → State := fun rsp => readyForwarded tag rsp { s with down := rest }
    let slot := streamSlot s.stream k.label
    (∀ rsp, k.valid = false → exec (.ingestWriteCompletion tag rsp .clean) s = .next (u rsp)) ∧
    (∀ d, k.valid = true → exec (.ingestWriteCompletion tag ⟨.error, d⟩ .clean) s =
      .next (modRing k.ring (fun r => { r with writeErrors := r.writeErrors + 1 }) (u ⟨.error, d⟩))) ∧
    (∀ d, k.valid = true → k.label = 4095 →
      exec (.ingestWriteCompletion tag ⟨.okay, d⟩ .clean) s = .next (u ⟨.okay, d⟩)) ∧
    (∀ d, k.valid = true → k.label ≠ 4095 → slot.check = .clean → slot.entry.valid = false →
      exec (.ingestWriteCompletion tag ⟨.okay, d⟩ .clean) s =
        .next (modRing k.ring (fun r => { r with labelFaults := r.labelFaults + 1 }) (u ⟨.okay, d⟩))) ∧
    (∀ d, k.valid = true → k.label ≠ 4095 → exec (.ingestWriteCompletion tag ⟨.okay, d⟩ .double) s =
      .next (modRing k.ring (fun r => { r with labelFaults := r.labelFaults + 1 })
        (handOver (.ecc .stream .uncorrectable k.label.toNat)
          { u ⟨.okay, d⟩ with stream := writeStream k.label.toNat .invalid s.stream }))) ∧
    (∀ d, k.valid = true → k.label ≠ 4095 → slot.check = .clean → slot.entry.valid = true →
      (protectionPasses s.rings slot.entry.prog slot.entry.variant k.ring = false →
        exec (.ingestWriteCompletion tag ⟨.okay, d⟩ .clean) s =
          .next (modRing k.ring (fun r => { r with duplicates := r.duplicates + 1 }) (u ⟨.okay, d⟩))) ∧
      (protectionPasses s.rings slot.entry.prog slot.entry.variant k.ring = true →
        exec (.ingestWriteCompletion tag ⟨.okay, d⟩ .clean) s =
          .next (((List.finRange 16).filter fun e => slot.entry.mask.getLsbD e.val).foldl
            (admitEdition k slot.entry) (u ⟨.okay, d⟩)))) ∧
    (∀ d, k.valid = true → k.label ≠ 4095 →
      let g := s.stream.gauge
      let corrected : EccGauge → State := fun gauge =>
        { u ⟨.okay, d⟩ with stream := { writeStream k.label.toNat slot.entry s.stream with gauge := gauge } }
      let goesOn : State → Host.Outcome State Fault Refusal := fun v => .next
        (if slot.entry.valid = false then modRing k.ring (fun r => { r with labelFaults := r.labelFaults + 1 }) v
         else if protectionPasses s.rings slot.entry.prog slot.entry.variant k.ring = false then
           modRing k.ring (fun r => { r with duplicates := r.duplicates + 1 }) v
         else ((List.finRange 16).filter fun e => slot.entry.mask.getLsbD e.val).foldl (admitEdition k slot.entry) v)
      let row := exec (.ingestWriteCompletion tag ⟨.okay, d⟩ .single) s
      (g.threshold = 0 → row = goesOn (corrected g)) ∧
      (g.threshold ≠ 0 → g.count.toNat + 1 < g.threshold.toNat →
        row = goesOn (corrected { g with count := g.count + 1 })) ∧
      (g.threshold ≠ 0 → g.threshold.toNat ≤ g.count.toNat + 1 →
        row = goesOn (handOver (.ecc .stream .threshold k.label.toNat) (corrected { g with count := 0 }))))

/-- The edition steps of a cell: the first step that ends it decides, with at most one counter, and a stored reference takes
the entry at the head of the free list to the tail of its queue, with the mark if mark-pending is set and the cell has K. A
cell with E of the target variant of a SEEKING splice resolves it SWITCHED first, also in DORMANT, and the later steps are made
on what that leaves: the admitted variant, the mark and every other field as they are then (R42, R43, R44, R45 to R50,
R111). -/
def Obligations.EditionStepsEndAtTheFirst : Prop :=
  ∀ (s : State) (e : EdId) (c : IngestKept) (x : StreamEntry),
    let later : State → State → Prop := fun u row =>
      let m := machineOf u e x.prog
      let m' : SpliceMachine := { m with markPending := m.markPending && !c.k }
      let count : (AdmCounters → AdmCounters) → State := fun f => modAdm e f u
      (x.variant ≠ m.admitted → row = u) ∧
      (x.variant = m.admitted → (edOf u e).state = .dormant → row = u) ∧
      (x.variant = m.admitted → (edOf u e).state = .live →
        let isCarried := .prog x.prog ∈ (compOf u e).frame ∨ 0 < (tget (compOf u e).inForce x.prog).ceiling
        (¬isCarried → row = count fun a => { a with notCarried := a.notCarried + 1 }) ∧
        (isCarried →
          (tget2 u.refs.depth e x.prog ≤ (queueOf u e x.prog).length →
            row = count fun a => { a with depthDrop := a.depthDrop + 1 }) ∧
          ((queueOf u e x.prog).length < tget2 u.refs.depth e x.prog →
            ((edOf u e).quota ≤ tget u.refs.edCount e → row = count fun a => { a with quotaDrop := a.quotaDrop + 1 }) ∧
            (tget u.refs.edCount e < (edOf u e).quota →
              (8192 ≤ u.refs.pool → row = count fun a => { a with poolDrop := a.poolDrop + 1 }) ∧
              (∀ n rest, u.refs.pool < 8192 → u.refs.free = n :: rest →
                let ref : Reference := { ring := c.ring, seq := c.seq, inLabel := c.label, outLabel := x.outLabel, e := c.e,
                                         k := c.k, x := c.x, restamp := x.restamp, mark := m.markPending && c.k,
                                         arrival := c.arrival }
                row =
                  { u with
                    refs := { u.refs with
                      slots := tput u.refs.slots n ⟨ref, .clean⟩, free := rest,
                      queues := tmodify2 u.refs.queues e x.prog (· ++ [n]),
                      edCount := tput u.refs.edCount e (tget u.refs.edCount e + 1), pool := u.refs.pool + 1 },
                    splices := { machines := tput2 u.splices.machines e x.prog m' } })))))
    ((edOf s e).state = .off → admitEdition c x s e = s) ∧
    ((edOf s e).state ≠ .off →
      ((∀ sp, (machineOf s e x.prog).phase = .seeking sp → sp.target = x.variant → c.e = false) →
        later s (admitEdition c x s e)) ∧
      ∀ sp, (machineOf s e x.prog).phase = .seeking sp → sp.target = x.variant → c.e = true →
        let u := resolve e x.prog sp .switched .none s
        (edOf u e).state = (edOf s e).state ∧ later u (admitEdition c x s e))

/-! ## The downstream port -/

/-- The response of a tag completes the oldest downstream request of it; that of a forwarded request makes the oldest
unanswered forwarded request of the tag ready; a response with no request of its tag is discarded (R175, R176, R179,
R186). The choice of the open request is the model's (log entry 12). -/
def Obligations.ResponseMeetsTheOldestRequest : Prop :=
  ∀ (s : State) (tag : PortTag) (rsp : Response),
    (∀ dpre q dpost pre c post, s.down = dpre ++ ⟨.forwarded, q⟩ :: dpost → q.tag = tag → (∀ d ∈ dpre, d.req.tag ≠ tag) →
      s.path.openReqs = pre ++ c :: post → c = ⟨tag, .forwarded, none⟩ →
      (∀ o ∈ pre, o.tag = tag → o.cls = .forwarded → o.response ≠ none) →
      exec (.downstreamCompletion tag rsp) s = .next
        { s with down := dpre ++ dpost,
                 path := { s.path with openReqs := pre ++ ⟨tag, .forwarded, some rsp⟩ :: post } }) ∧
    ((∀ d ∈ s.down, d.req.tag ≠ tag) → exec (.staleResponseDiscard tag rsp) s = .next s)

/-- The return of a delivery read of edition e: its ring counts one read fewer in flight; it is judged on the first ISSUED entry
of the list: ERROR counts a read error, an OKAY of a disabled or lapped ring or with another label counts an overrun, and the
place becomes filler; otherwise the cell is kept. Finishing then takes the entries from the front for as long as the front one
is ready: a FILLED entry becomes a filler cell, a RETURNED entry a delivered cell, which takes and advances its label's
continuity counter; at an ISSUED entry it stops, and every later entry and read stays listed. The oldest read leaves the list
when every entry of it is finished, and its cells are handed over in order. A read of one cell that is alone in the list is so
handed over at once. The return of a read that RESTART gave up tells the ring alone (R90 to R97, R100, R101, R103). Which open
request a finished read answers is the model's reading (log entry 12). Data that is not 224 bytes long is fitted by the model's
choice (log entry 7). -/
def Obligations.DeliveryReturnIsJudged : Prop :=
  (∀ (s : State) (e : EdId) (rsp : Response) (i : RingId) (live : Bool) (q : Request) (rest : List DownReq),
    takeOldest (Config.deliveryTag e) s.down = some (⟨.delivery e i live, q⟩, rest) → NoPurge s →
    let row := exec (.deliveryReadCompletion e rsp) s
    let told : State := { modRing i (fun r => { r with readsInFlight := r.readsInFlight - 1 }) s with down := rest }
    (live = false → row = .next told) ∧
    ∀ (before : List (List InFlight)) (ahead : List InFlight) (x : InFlight) (behind : List InFlight)
      (after : List (List InFlight)) (ref : Reference), live = true →
      (feedOf s e).reads = before ++ (ahead ++ x :: behind) :: after →
      (∀ y ∈ before.flatten ++ ahead, y.state ≠ .issued) → x.state = .issued → x.ref = some ref → ref.ring = i →
      let r := ringOf s i
      let lapped := r.enabled = false ∨ r.size < (r.w - ref.seq).toNat
      let data := fit 224 rsp.data
      let judged : EntryState → (FeedRecord → FeedRecord) → Host.Outcome State Fault Refusal := fun st count =>
        .next (finish e (modFeed e (fun f => count { f with
          reads := before ++ (ahead ++ { x with state := st } :: behind) :: after }) told))
      (rsp.kind = .error → row = judged .filled fun f => { f with readError := f.readError + 1 }) ∧
      (rsp.kind = .okay → (lapped ∨ cellLabel data ≠ ref.inLabel) →
        row = judged .filled fun f => { f with overrun := f.overrun + 1 }) ∧
      (rsp.kind = .okay → ¬lapped → cellLabel data = ref.inLabel → row = judged (.returned data) id)) ∧
  (∀ (s : State) (e : EdId),
    let f := feedOf s e
    let isFinished : InFlight → Prop := fun y => ∃ cell real, y.state = .finished cell real
    (f.reads = [] → finish e s = s) ∧
    ∀ (ahead : List InFlight) (after : List (List InFlight)), (∀ y ∈ ahead, isFinished y) →
      (∀ cells : List (List Byte × Bool), ahead.map (·.state) = cells.map (fun c => EntryState.finished c.1 c.2) →
        f.reads = ahead :: after →
        ∀ pre tag post, s.path.openReqs = pre ++ ⟨tag, .feedRead e, none⟩ :: post →
          (∀ o ∈ pre, o.cls = .feedRead e → o.response ≠ none) →
          finish e s = finish e (modFeed e (fun f => { f with reads := after })
            { s with path := { s.path with openReqs := pre ++
              ⟨tag, .feedRead e, some ⟨.okay, (cells.map (·.1)).flatten⟩⟩ :: post } })) ∧
      ∀ (y : InFlight) (behind : List InFlight), f.reads = (ahead ++ y :: behind) :: after →
        let goesOn : List Byte → Bool → (FeedRecord → FeedRecord) → State := fun cell real count =>
          finish e (modFeed e (fun f => count { f with
            reads := (ahead ++ { y with state := .finished cell real } :: behind) :: after }) s)
        (y.state = .issued → finish e s = s) ∧
        (y.state = .filled →
          finish e s = goesOn (fillerCell y.t) false fun f => { f with filler := f.filler + 1 }) ∧
        ∀ data ref, y.state = .returned data → y.ref = some ref →
          let l := ref.outLabel.toFin
          finish e s = goesOn (finalCell y ref data (tget f.cont l)) true fun f =>
            { f with delivered := f.delivered + 1, cont := tput f.cont l (tget f.cont l + 1) }) ∧
  ∀ (s : State) (e : EdId) (rsp : Response) (i : RingId) (q : Request) (rest : List DownReq) (x : InFlight)
    (ref : Reference) (pre : List OpenReq) (tag : PortTag) (post : List OpenReq),
    takeOldest (Config.deliveryTag e) s.down = some (⟨.delivery e i true, q⟩, rest) → NoPurge s →
    (feedOf s e).reads = [[x]] → x.state = .issued → x.ref = some ref → ref.ring = i →
    s.path.openReqs = pre ++ ⟨tag, .feedRead e, none⟩ :: post →
    (∀ o ∈ pre, o.cls = .feedRead e → o.response ≠ none) →
    let r := ringOf s i
    let f := feedOf s e
    let answer : FeedRecord → List Byte → Host.Outcome State Fault Refusal := fun g cell =>
      .next (modFeed e (fun _ => { g with reads := [] })
        { modRing i (fun r => { r with readsInFlight := r.readsInFlight - 1 }) s with
          down := rest, path := { s.path with openReqs := pre ++ ⟨tag, .feedRead e, some ⟨.okay, cell⟩⟩ :: post } })
    let lapped := r.enabled = false ∨ r.size < (r.w - ref.seq).toNat
    let data := fit 224 rsp.data
    let row := exec (.deliveryReadCompletion e rsp) s
    (rsp.kind = .error → row = answer { f with readError := f.readError + 1, filler := f.filler + 1 } (fillerCell x.t)) ∧
    (rsp.kind = .okay → (lapped ∨ cellLabel data ≠ ref.inLabel) →
      row = answer { f with overrun := f.overrun + 1, filler := f.filler + 1 } (fillerCell x.t)) ∧
    (rsp.kind = .okay → ¬lapped → cellLabel data = ref.inLabel →
      row = answer
        { f with delivered := f.delivered + 1,
                 cont := tput f.cont ref.outLabel.toFin (tget f.cont ref.outLabel.toFin + 1) }
        (finalCell x ref data (tget f.cont ref.outLabel.toFin)))

/-- The records that the part writes, read back by their layout. The header of a delivered cell and of a filler cell: label,
continuity, flags, clock stamp restamped by the residence and the offset, time field; every other bit is as DRAM returned it.
The report record of every kind, with its lost count, sequence and house time, and every byte that the layout does not name
0; and the index block (R96, R98, R99, R100, R204, R205, R209, R210). -/
def Obligations.DeliveredHeaderReadsBack : Prop :=
  (∀ (x : InFlight) (ref : Reference) (data : List Byte) (c : BitVec 4), data.length = 224 →
    let cell := finalCell x ref data c
    let residence : Int := max 0 ((x.t.toNat : Int) - (ref.arrival.toNat : Int))
    cell.length = 224 ∧ cellLabel cell = ref.outLabel ∧ leNat cell 0 2 / 4096 = c.toNat ∧ cellE cell = ref.e ∧
    cellK cell = ref.k ∧ cellX cell = (ref.mark || ref.x) ∧ cellTime cell = x.t ∧
    ((ref.k && ref.restamp) = false → cellStamp cell = cellStamp data) ∧
    ((ref.k && ref.restamp) = true →
      ((cellStamp cell).toNat : Int) = ((cellStamp data).toNat + residence + x.offset.toInt) % 2 ^ 40) ∧
    byteAt cell 3 = byteAt data 3 ∧ (byteAt cell 2) >>> 3 = (byteAt data 2) >>> 3 ∧ cell.drop 16 = data.drop 16) ∧
  (∀ t : HouseTime, let cell := fillerCell t
    cell.length = 224 ∧ cellLabel cell = 4095 ∧ leNat cell 0 2 / 4096 = 0 ∧ byteAt cell 2 = 0 ∧ byteAt cell 3 = 0 ∧
    cellStamp cell = 0 ∧ cellTime cell = t ∧ cell.drop 16 = List.replicate 208 0) ∧
  (∀ (x : PendingRecord) (lost : BitVec 16) (seq : BitVec 32),
    let bs := encodeReport x lost seq
    let kind := (byteAt bs 0).toNat
    let num : Nat → Nat → Nat := leNat bs
    let timed := num 8 7 = x.time.toNat
    let zero : Nat → Nat → Prop := fun i n => ∀ k, i ≤ k → k < i + n → byteAt bs k = 0
    bs.length = 32 ∧ byteAt bs 1 = 0 ∧ num 2 2 = lost.toNat ∧ num 4 4 = seq.toNat ∧ byteAt bs 15 = 0 ∧
    match x.body with
    | .command code slot tag o => kind = 1 ∧ timed ∧ byteAt bs 16 = code ∧ num 17 1 = slot.toNat ∧ num 18 2 = tag.toNat ∧
      num 20 1 = (match o with
        | .done => 0 | .replaced => 1 | .busy => 2 | .state => 3 | .range => 4 | .overlap => 5 | .queueFull => 6
        | .fetchError => 7 | .unknown => 8) ∧ zero 21 11
    | .ring r st w => kind = 2 ∧ timed ∧ num 16 1 = r.val ∧ num 17 1 = (match st with | .silent => 0 | .active => 1) ∧
      zero 18 6 ∧ num 24 6 = w.toNat ∧ zero 30 2
    | .ecc st k i => kind = 3 ∧ timed ∧ num 16 1 = (match st with | .stream => 1 | .refstore => 2) ∧
      num 17 1 = (match k with | .threshold => 1 | .uncorrectable => 2) ∧ num 18 2 = i % 65536 ∧ zero 20 12
    | .splice e p o c late src tgt adm tag => kind = 4 ∧ timed ∧ num 16 1 = e.val ∧ num 17 1 = p.val ∧
      num 18 1 = (match o with
        | .switched => 1 | .forced => 2 | .abandoned => 3 | .cancelled => 4 | .unchanged => 5) ∧
      num 19 1 = (match c with | .none => 0 | .command => 1 | .off => 2 | .clear => 3) ∧
      num 20 1 = (if late then 1 else 0) + (match src with | .command => 0 | .channel => 2) ∧
      num 21 1 = tgt.val ∧ num 22 1 = adm.val ∧ zero 23 1 ∧ num 24 2 = tag.toNat ∧ zero 26 6
    | .note e k tag n a => kind = 5 ∧ timed ∧ num 16 1 = e.val ∧ byteAt bs 17 = k ∧ num 18 2 = tag.toNat ∧
      num 20 4 = n.toNat ∧ num 24 5 = a.toNat ∧ zero 29 3
    | .schedEnd e st c n a tag => kind = 6 ∧ timed ∧ num 16 1 = e.val ∧
      num 17 1 = (match st with
        | .ended => 1 | .check => 2 | .halted => 3 | .cleared => 4 | .off => 5 | .spliceFailed => 6) ∧
      num 18 1 = (match c with
        | .none => 0 | .align => 1 | .address => 2 | .fetch => 3 | .kind => 4 | .field => 5 | .sequence => 6
        | .progress => 7 | .length => 8 | .position => 9) ∧
      zero 19 1 ∧ num 20 4 = n.toNat ∧ num 24 5 = a.toNat ∧ zero 29 1 ∧ num 30 2 = tag.toNat
    | .edition e ev n => kind = 7 ∧ timed ∧ num 16 1 = e.val ∧ num 17 1 = (match ev with | .dormant => 1 | .resumed => 2) ∧
      zero 18 2 ∧ num 20 2 = n % 65536 ∧ zero 22 10
    | .time ev => kind = 8 ∧ timed ∧ num 16 1 = (match ev with
        | .referenceLost => 1 | .referenceRestored => 2 | .loaded _ => 3 | .ppsTimeout _ => 4) ∧ zero 17 7 ∧
      num 24 7 = (match ev with
        | .referenceLost => 0 | .referenceRestored => 0 | .loaded h => h.toNat | .ppsTimeout h => h.toNat) ∧ zero 31 1
    | .stats sc n part c0 c1 c2 c3 => kind = 9 ∧ num 8 1 = (match sc with | .edition => 1 | .ring => 2) ∧
      num 9 1 = n % 256 ∧ num 10 1 = part % 256 ∧ zero 11 4 ∧
      num 16 4 = c0.toNat ∧ num 20 4 = c1.toNat ∧ num 24 4 = c2.toNat ∧ num 28 4 = c3.toNat) ∧
  ∀ (w : Nat) (lost : BitVec 16) (seq : BitVec 32), w < 65536 →
    let bs := encodeIndex w lost seq
    bs.length = 32 ∧ leNat bs 0 2 = w ∧ leNat bs 2 2 = lost.toNat ∧ leNat bs 4 4 = seq.toNat ∧
      bs.drop 8 = List.replicate 24 0

/-- The completion of a record write: with OKAY the record leaves, the indices and the sequence move, a REPORT ACK's own DONE
report is read at once when nothing precedes it, and INT follows; with ERROR the record and the count it carried are lost. The
index block is then written (R193, R194, R195, R197, R198). That the requests it lists join the list of downstream requests as
they are made, behind those already there, is the model's choice (log entries 11 and 28). -/
def Obligations.RecordWriteCompletes : Prop :=
  ∀ (s : State) (q : Request) (rest : List DownReq) (carried : BitVec 16) (p : PendingRecord) (ps : List PendingRecord),
    takeOldest 222 s.down = some (⟨.recordWrite, q⟩, rest) → s.rep.writer = .record carried → s.rep.pend = p :: ps →
    let r := s.rep
    let w := if r.writeIdx + 1 = r.places then 0 else r.writeIdx + 1
    let own : Prop := (∃ slot tag, p.body = .command 23 slot tag .done) ∧ r.readIdx = r.writeIdx
    let after : ReportWriter → Host.Outcome State Fault Refusal := fun r' => .next
      { s with
        rep := { r' with writer := .index },
        down := rest ++ [⟨.indexWrite, ownWrite 222 r.base.toNat (encodeIndex r'.writeIdx r'.lost r'.seq)⟩] }
    (∀ d, own → exec (.reportWriteCompletion ⟨.okay, d⟩) s =
      after (driveInt { r with pend := ps, writeIdx := w, readIdx := w, seq := r.seq + 1 })) ∧
    (∀ d, ¬own → exec (.reportWriteCompletion ⟨.okay, d⟩) s =
      after (driveInt { r with pend := ps, writeIdx := w, seq := r.seq + 1 })) ∧
    (∀ d, exec (.reportWriteCompletion ⟨.error, d⟩) s =
      after { r with pend := ps, lost := BitVec.ofNat 16 (min 65535 (r.lost.toNat + (carried.toNat + 1))) })

/-- The completion of an index block write, OKAY or ERROR: the act of a SET REPORT RING in flight is taken, its COMMAND report
handed over and the waiting commands start; otherwise the next pending record is written (R190, R193, R194, R196). That the
requests it lists join the list of downstream requests as they are made, behind those already there, is the model's choice (log
entries 11 and 28). -/
def Obligations.IndexWriteCompletes : Prop :=
  ∀ (s : State) (rsp : Response) (q : Request) (rest : List DownReq),
    takeOldest 222 s.down = some (⟨.indexWrite, q⟩, rest) → s.rep.writer = .index →
    let u : State := { s with down := rest, rep := { s.rep with writer := .idle } }
    let row := exec (.indexBlockWriteCompletion rsp) s
    ((∀ c n i b, s.cmd.running ≠ some ⟨c, .reportRing n i b⟩) → s.rep.pend = [] → row = .next u) ∧
    ((∀ c n i b, s.cmd.running ≠ some ⟨c, .reportRing n i b⟩) → ∀ p ps, s.rep.pend = p :: ps → row = .next
      { u with
        rep := { u.rep with lost := 0, writer := .record s.rep.lost },
        down := rest ++ [⟨.recordWrite, ownWrite 222 (s.rep.base.toNat + 32 + 32 * s.rep.writeIdx)
          (encodeReport p s.rep.lost s.rep.seq)⟩] }) ∧
    (∀ c n i b, s.cmd.running = some ⟨c, .reportRing n i b⟩ →
      let lost := BitVec.ofNat 16 (min 65535 (s.rep.lost.toNat + (s.rep.pend.length - (n - 1))))
      row = .next (startWaiting (handOver (.command c.code c.slot c.tag .done)
        { s with
          rep := { s.rep with
            isSet := true, base := b, places := n, intEnable := i, writeIdx := 0, readIdx := 0,
            pend := s.rep.pend.take (n - 1), lost := lost, intLine := false, writer := .index },
          down := rest ++ [⟨.indexWrite, ownWrite 222 b.toNat (encodeIndex 0 lost s.rep.seq)⟩],
          cmd := { running := none, queue := s.cmd.queue } })))

/-- Every report handed over is accepted at the tail of the pending list while fewer than N_r − 1 records are held, and dropped
and counted otherwise, or when no ring is set (R192). That the requests it lists join the list of downstream requests as they
are made, behind those already there, is the model's choice (log entries 11 and 28). -/
def Obligations.HandOverAcceptsOrDrops : Prop :=
  ∀ (b : Report) (s : State),
    let n := (s.rep.writeIdx + s.rep.places - s.rep.readIdx % s.rep.places) % s.rep.places + s.rep.pend.length
    (s.rep.isSet = true → n < s.rep.places - 1 →
      (handOver b s).rep.pend = s.rep.pend ++ [⟨b, s.time.now⟩] ∧
      (s.rep.writer = .idle → s.rep.pend = [] → (handOver b s).down = s.down ++
        [⟨.recordWrite, ownWrite 222 (s.rep.base.toNat + 32 + 32 * s.rep.writeIdx)
          (encodeReport ⟨b, s.time.now⟩ s.rep.lost s.rep.seq)⟩]) ∧
      (s.rep.writer ≠ .idle → (handOver b s).down = s.down ∧ (handOver b s).rep.lost = s.rep.lost)) ∧
    ((s.rep.isSet = false ∨ s.rep.places - 1 ≤ n) →
      handOver b s = { s with rep := { s.rep with lost := BitVec.ofNat 16 (min 65535 (s.rep.lost.toNat + 1)) } })

/-! ## Lists read by commands -/

/-- LOAD STREAM ENTRIES: its four checks give RANGE with no read, otherwise the first read is issued and the load is in flight.
The completion of a read writes its entries in order and goes on, ends with DONE, or ends with FETCH ERROR; at the end the
waiting commands start (R11, R12, R14, R190). Bytes past the end of the data read as 0, and an invalid entry is stored cleared,
by the model's choice (log entries 4 and 7). That the requests it lists join the list of downstream requests as they are made,
behind those already there, is the model's choice (log entries 11 and 28). -/
def Obligations.LoadReadsTheListInOrder : Prop :=
  (∀ (s : State) (h : CmdHeader) (f : Label) (n : BitVec 16) (a : Addr), CmdIdle s →
    let bad := n.toNat = 0 ∨ 4096 < n.toNat ∨ 4095 < f.toNat + n.toNat - 1 ∨ a.toNat % 32 ≠ 0 ∨
      s.path.limit < a.toNat + 32 * ((n.toNat + 3) / 4)
    (bad → exec (.loadStreamEntries h f n a) s = .next (handOver (ended h 2 .range) s)) ∧
    (¬bad → exec (.loadStreamEntries h f n a) s = .next
      { s with
        down := s.down ++ [⟨.streamList, ownRead 223 a.toNat (min 4096 (32 * ((n.toNat + 3) / 4)))⟩],
        cmd := { s.cmd with
          running := some ⟨takenRow h (.loadStreamEntries f n a), .load f.toNat n.toNat a.toNat⟩ } })) ∧
  ∀ (s : State) (c : TakenCommand) (next remaining list : Nat) (q : Request) (rest : List DownReq),
    s.cmd.running = some ⟨c, .load next remaining list⟩ →
    takeOldest 223 s.down = some (⟨.streamList, q⟩, rest) →
    let fin : CmdOutcome → StreamTable → State := fun o tb =>
      startWaiting (handOver (.command c.code c.slot c.tag o)
        { s with down := rest, stream := tb, cmd := { running := none, queue := s.cmd.queue } })
    (∀ d, exec (.streamListReadCompletion ⟨.error, d⟩) s = .next (fin .fetchError s.stream)) ∧
    ∀ d, ∃ tb : StreamTable, tb.gauge = s.stream.gauge ∧
      (∀ l : Label, streamSlot tb l =
        if next ≤ l.toNat ∧ l.toNat < next + min 512 remaining ∧ l ≠ 4095 then
          ⟨listEntry (streamWordAt d (8 * (l.toNat - next))), .clean⟩
        else streamSlot s.stream l) ∧
      (remaining ≤ 512 → exec (.streamListReadCompletion ⟨.okay, d⟩) s = .next (fin .done tb)) ∧
      (512 < remaining → exec (.streamListReadCompletion ⟨.okay, d⟩) s = .next
        { s with
          down := rest ++
            [⟨.streamList, ownRead 223 (list + 4096) (min 4096 (32 * ((remaining - 512 + 3) / 4)))⟩],
          stream := tb,
          cmd := { running := some ⟨c, .load (next + 512) (remaining - 512) (list + 4096)⟩, queue := s.cmd.queue } })

/-- SET CARRIAGE: its checks give RANGE with no read, otherwise one read is issued. Its completion gives FETCH ERROR, RANGE for
a byte that is no position, or the frame: staged in LIVE (REPLACED if one was staged), current at once otherwise; the waiting
commands then start (R67, R68, R69, R190). Bytes past the end of the data read as 0 by the model's choice (log entry 7). That
the requests it lists join the list of downstream requests as they are made, behind those already there, is the model's choice
(log entries 11 and 28). -/
def Obligations.SetCarriageReadsItsFrame : Prop :=
  (∀ (s : State) (h : CmdHeader) (ed len : BitVec 8) (a : Addr), CmdIdle s →
    let bad := 16 ≤ ed.toNat ∨ len.toNat < 16 ∨ 128 < len.toNat ∨ a.toNat % 32 ≠ 0 ∨
      s.path.limit < a.toNat + 32 * ((len.toNat + 31) / 32)
    (bad → exec (.setCarriage h ed len a) s = .next (handOver (ended h 8 .range) s)) ∧
    (∀ e : EdId, e.val = ed.toNat → ¬bad → exec (.setCarriage h ed len a) s = .next
      { s with
        down := s.down ++ [⟨.carriageList, ownRead 223 a.toNat (32 * ((len.toNat + 31) / 32))⟩],
        cmd := { s.cmd with running := some ⟨takenRow h (.setCarriage ed len a), .carriage e len.toNat⟩ } })) ∧
  ∀ (s : State) (c : TakenCommand) (e : EdId) (len : Nat) (q : Request) (rest : List DownReq),
    s.cmd.running = some ⟨c, .carriage e len⟩ →
    takeOldest 223 s.down = some (⟨.carriageList, q⟩, rest) →
    let fin : CmdOutcome → (CompRecord → CompRecord) → Host.Outcome State Fault Refusal := fun o g =>
      .next (startWaiting (handOver (.command c.code c.slot c.tag o)
        (modComp e g { s with down := rest, cmd := { running := none, queue := s.cmd.queue } })))
    (∀ d, exec (.carriageListReadCompletion ⟨.error, d⟩) s = fin .fetchError id) ∧
    (∀ d, (∃ i, i < len ∧ positionOf (byteAt d i) = none) →
      exec (.carriageListReadCompletion ⟨.okay, d⟩) s = fin .range id) ∧
    ∀ d (f : List Position), f.length = len → (∀ i, i < len → positionOf (byteAt d i) = f[i]?) →
      ((edOf s e).state = .live → exec (.carriageListReadCompletion ⟨.okay, d⟩) s =
        fin (if (compOf s e).staged.isSome then .replaced else .done) fun x => { x with staged := some f }) ∧
      ((edOf s e).state ≠ .live → exec (.carriageListReadCompletion ⟨.okay, d⟩) s =
        fin .done fun x => { x with frame := f, pos := 0, openCount := Vector.replicate 48 0 })

/-! ## Schedule channels -/

/-- The completion of channel e's word fetch. A given-up fetch is discarded; ERROR, a bad word, and a word that fails SEQUENCE,
PROGRESS or LENGTH end the chain with their code. A word is read from the bytes that its layout names, and every word whose
fields are in range reads back from its bytes; an unknown kind is KIND, and a reserved field that is not 0 or a field out of
range is FIELD. A word that passes becomes current, with its counts and, with NOTE set, its SCHEDULE NOTE report, and runs: an
END word ends the chain; a WAIT word is executed or waits; a JUMP word goes on at its target; a CARRIAGE word fetches its data
or fails ADDRESS; a SPLICE word hands over its arming (R129 to R134, R136, R145 to R147, R207, R211). An arming that finds its
machine STEADY is judged by R109; with SYNC the channel judges a resolution at once or becomes SYNCING, without SYNC it goes on;
at a pending machine the channel becomes BLOCKED and the machine records that it waits (R108, R109, R136, R137, R138). How a
chain ends is said by `HaltAndClearStopTheChain`, and how a channel goes on by `ChannelsFetchTheirWords`. Nothing is said of the
end address field beyond 2^40 (log entry 6). That the requests it lists join the list of downstream requests as they are made,
behind those already there, is the model's choice (log entries 11 and 28). -/
def Obligations.FetchedWordRuns : Prop :=
  (∀ d : List Byte,
    let kind := (byteAt d 0).toNat
    (∀ w, parseWord d = .inl w ↔ WordLaidOut d w) ∧
    ((kind = 0 ∨ 5 < kind) → parseWord d = .inr .kind) ∧
    (1 ≤ kind → kind ≤ 5 → (∀ w, ¬WordLaidOut d w) → parseWord d = .inr .field) ∧
    (1 ≤ kind → kind ≤ 5 → (∃ k, k < 32 ∧ byteAt d k &&& ~~~wordNames kind k ≠ 0) → parseWord d = .inr .field) ∧
    (kind = 1 → (48 ≤ (byteAt d 4).toNat ∨ 8 ≤ (byteAt d 5).toNat) → parseWord d = .inr .field) ∧
    (kind = 2 → ((byteAt d 4).toNat < 16 ∨ 128 < (byteAt d 4).toNat ∨ byteAt d 5 = 0 ∨ (byteAt d 8).toNat % 32 ≠ 0) →
      parseWord d = .inr .field)) ∧
  (∀ w : SchedWord, (∀ len count a sup, w.kind = .carriage len count a sup →
      16 ≤ len ∧ len ≤ 128 ∧ 1 ≤ count ∧ count ≤ 255 ∧ a.toNat % 32 = 0) →
    (encodeWord w).length = 32 ∧ WordLaidOut (encodeWord w) w ∧ parseWord (encodeWord w) = .inl w) ∧
  (∀ (s : State) (e : EdId) (live : Bool) (q : Request) (rest : List DownReq),
    takeOldest (Config.channelTag e) s.down = some (⟨.wordFetch e live, q⟩, rest) →
    let u : State := { s with down := rest }
    let c := chanOf s e
    let row : Response → Host.Outcome State Fault Refusal := fun rsp => exec (.wordFetchCompletion e rsp) s
    (∀ rsp, live = false → row rsp = .next u) ∧
    (live = true →
      (∀ d, row ⟨.error, d⟩ = .next (endChain e .check .fetch c.next 0 u)) ∧
      ∀ d, d.length = 32 →
        (∀ code, parseWord d = .inr code →
          row ⟨.okay, d⟩ = .next (endChain e .check code c.next (field 16 d 2 2) u)) ∧
        ∀ w, parseWord d = .inl w → c.next < 2 ^ 40 →
          let fails : CheckCode → Prop := fun code => row ⟨.okay, d⟩ = .next (endChain e .check code c.next w.tag u)
          let now : BitVec 8 → Nat → State := fun code progress =>
            let v := modChan e (fun c => { c with
              current := some ⟨BitVec.ofNat 40 c.next, w⟩, next := c.next + 32, words := c.words + 1,
              progress := progress, jumped := false, fetch := .none }) u
            if w.note = true then handOver (.note e code w.tag (c.words + 1) (BitVec.ofNat 40 c.next)) v else v
          (w.kind = .endWord → row ⟨.okay, d⟩ = .next (endChain e .ended .none c.next w.tag (now 5 0))) ∧
          (∀ t, w.kind = .wait t → t.toNat ≤ s.time.now.toNat → row ⟨.okay, d⟩ = .next (goOn e (now 3 0))) ∧
          (∀ t, w.kind = .wait t → s.time.now.toNat < t.toNat → row ⟨.okay, d⟩ =
            .next (modChan e (fun c => { c with state := .waiting, fetch := .none }) (now 3 0))) ∧
          (∀ a, w.kind = .jump a → c.jumped = true → fails .sequence) ∧
          (∀ a, w.kind = .jump a → c.jumped = false → 255 ≤ c.progress → fails .progress) ∧
          (∀ a, w.kind = .jump a → c.jumped = false → c.progress < 255 → row ⟨.okay, d⟩ = .next
            (goOn e (modChan e (fun c => { c with next := a.toNat, jumped := true }) (now 4 (c.progress + 1))))) ∧
          (∀ len count a sup, w.kind = .carriage len count a sup →
            let bytes := 32 * ((count + 31) / 32)
            (255 ≤ c.progress → fails .progress) ∧
            (c.progress < 255 → sup = false → count ≠ len → fails .length) ∧
            (c.progress < 255 → (sup = true ∨ count = len) → s.path.limit < a.toNat + bytes → row ⟨.okay, d⟩ =
              .next (endChain e .check .address c.next w.tag (now 2 (c.progress + 1)))) ∧
            (c.progress < 255 → (sup = true ∨ count = len) → a.toNat + bytes ≤ s.path.limit → row ⟨.okay, d⟩ = .next
              (issue (.dataFetch e true) (ownRead (Config.channelTag e) a.toNat bytes)
                (modChan e (fun c => { c with state := .fetching, fetch := .data }) (now 2 (c.progress + 1)))))) ∧
          (∀ p v t win force sync stop, w.kind = .splice p v t win force sync stop →
            row ⟨.okay, d⟩ = .next (armFromChannel e w (now 1 0))))) ∧
  ∀ (s : State) (e : EdId) (a : Addr) (w : SchedWord) (p : ProgId) (v : Variant) (t : HouseTime) (win : BitVec 16)
    (force sync stop : Bool), (chanOf s e).current = some ⟨a, w⟩ → w.kind = .splice p v t win force sync stop →
    let m := machineOf s e p
    let h := s.time.now.toNat
    let last := t.toNat + win.toNat * 20000
    let sp : Bool → PendingSplice := fun late => ⟨v, t, win, force, w.tag, .channel, late⟩
    let report : SpliceOutcome → Bool → Variant → State → State := fun o late adm =>
      handOver (.splice e p o .none late .channel v adm w.tag)
    let pends : SplicePhase → State := fun ph =>
      let x := modMachine e p (fun m => { m with phase := ph }) s
      if sync = true then modChan e (fun c => { c with state := .syncing, sync := some p, fetch := .none }) x else goOn e x
    let row := armFromChannel e w s
    (m.phase ≠ .steady → row = modChan e (fun c => { c with state := .blocked, fetch := .none })
      (modMachine e p (fun m => { m with waiting := true }) s)) ∧
    (m.phase = .steady →
      (v = m.admitted → row = goOn e (report .unchanged false m.admitted s)) ∧
      (v ≠ m.admitted → last ≤ h → force = true → row = goOn e
        (report .forced true v (modMachine e p (fun m => { m with admitted := v, markPending := true }) s))) ∧
      (v ≠ m.admitted → last ≤ h → force = false → (sync = false ∨ stop = false) →
        row = goOn e (report .abandoned true m.admitted s)) ∧
      (v ≠ m.admitted → last ≤ h → force = false → sync = true → stop = true →
        row = endChain e .spliceFailed .none a.toNat w.tag (report .abandoned true m.admitted s)) ∧
      (v ≠ m.admitted → h < last → t.toNat ≤ h → row = pends (.seeking (sp true))) ∧
      (v ≠ m.admitted → h < t.toNat → row = pends (.armed (sp false))))

/-- The completion of a CARRIAGE word's data fetch: ERROR or a byte that is no position ends the chain; otherwise the
frame, with OPEN in the positions beyond the count, is handed to the composer and the channel goes on. A given-up fetch is
discarded: it changes nothing but the list of downstream requests (R69, R134, R135, R145). Bytes past the end of the data read
as 0 by the model's choice (log entry 7). -/
def Obligations.FetchedFrameIsHandedOver : Prop :=
  (∀ (s : State) (e : EdId) (q : Request) (rest : List DownReq) (rsp : Response),
    takeOldest (Config.channelTag e) s.down = some (⟨.dataFetch e false, q⟩, rest) →
    exec (.dataFetchCompletion e rsp) s = .next { s with down := rest }) ∧
  ∀ (s : State) (e : EdId) (q : Request) (rest : List DownReq) (a : Addr) (w : SchedWord) (len count : Nat) (da : Addr)
    (sup : Bool),
    takeOldest (Config.channelTag e) s.down = some (⟨.dataFetch e true, q⟩, rest) →
    (chanOf s e).current = some ⟨a, w⟩ → w.kind = .carriage len count da sup →
    let u : State := { s with down := rest }
    (∀ d, exec (.dataFetchCompletion e ⟨.error, d⟩) s = .next (endChain e .check .fetch a.toNat w.tag u)) ∧
    (∀ d, (∃ i, i < min len count ∧ positionOf (byteAt d i) = none) →
      exec (.dataFetchCompletion e ⟨.okay, d⟩) s = .next (endChain e .check .position a.toNat w.tag u)) ∧
    ∀ d (f : List Position), f.length = min len count → (∀ i, i < min len count → positionOf (byteAt d i) = f[i]?) →
      let whole := f ++ List.replicate (len - count) .openPool
      let g : CompRecord → CompRecord := fun x =>
        if (edOf s e).state = .live then { x with staged := some whole }
        else { x with frame := whole, pos := 0, openCount := Vector.replicate 48 0 }
      exec (.dataFetchCompletion e ⟨.okay, d⟩) s =
        .next (goOn e (modChan e (fun c => { c with fetch := .none }) (modComp e g u)))

/-- START SCHEDULE and RESUME SCHEDULE fetch the next word, or end the chain at the tests ALIGN and ADDRESS; BUSY, STATE and
RANGE change nothing. A channel whose word has been executed is SUSPENDED if the word has HOLD, and otherwise fetches the next
word in the same way; so does a WAIT word that has waited, once house time is at or beyond T (R128, R132, R140, R141, R144).
That the row may come after its moment is the model's choice (log entry 8). That the requests it lists join the list of
downstream requests as they are made, behind those already there, is the model's choice (log entries 11 and 28). -/
def Obligations.ChannelsFetchTheirWords : Prop :=
  let fetch : EdId → State → State := fun e s =>
    let a := (chanOf s e).next
    if a % 32 ≠ 0 then endChain e .check .align a 0 s
    else if s.path.limit < a + 32 then endChain e .check .address a 0 s
    else issue (.wordFetch e true) (ownRead (Config.channelTag e) a 32)
      (modChan e (fun c => { c with state := .fetching, current := none, fetch := .word, sync := none }) s)
  let suspend : EdId → State → State := fun e =>
    modChan e (fun c => { c with state := .suspended, fetch := .none, sync := none })
  (∀ (s : State) (h : CmdHeader) (ed : BitVec 8) (a : Addr), CmdIdle s →
    let start := exec (.startSchedule h ed a) s
    let resume := exec (.resumeSchedule h ed) s
    (16 ≤ ed.toNat → start = .next (handOver (ended h 12 .range) s) ∧ resume = .next (handOver (ended h 15 .range) s)) ∧
    ∀ e : EdId, e.val = ed.toNat →
      ((chanOf s e).state = .idle → start = .next (handOver (ended h 12 .done)
        (fetch e (modChan e (fun c => { c with next := a.toNat, words := 0, progress := 0, jumped := false }) s)))) ∧
      ((chanOf s e).state ≠ .idle → start = .next (handOver (ended h 12 .busy) s)) ∧
      ((chanOf s e).state = .suspended → resume = .next (handOver (ended h 15 .done) (fetch e s))) ∧
      ((chanOf s e).state ≠ .suspended → resume = .next (handOver (ended h 15 .state) s))) ∧
  ∀ (s : State) (e : EdId) (a : Addr) (w : SchedWord), (chanOf s e).current = some ⟨a, w⟩ →
    (w.hold = true → goOn e s = suspend e s) ∧
    (w.hold = false → goOn e s = fetch e s) ∧
    ∀ t : HouseTime, (chanOf s e).state = .waiting → w.kind = .wait t → t.toNat ≤ s.time.now.toNat →
      (w.hold = true → exec (.waitReached e) s = .next (suspend e s)) ∧
      (w.hold = false → exec (.waitReached e) s = .next (fetch e s))

/-- The end of a chain hands over its SCHEDULE END report; the channel becomes IDLE, its fetches are given up and its wait
on a machine is dropped. HALT SCHEDULE ends a running chain so with status HALTED and reaches no machine's splice; on an
IDLE channel it is STATE. CLEAR SCHEDULE drops the wait, cancels every pending splice of the edition with cause CLEAR, each
with its SPLICE report in ascending programme order, discards the staged frame, and ends the chain with status CLEARED if it
runs. The COMMAND report comes last. An edition above 15 is RANGE (R70, R108, R122, R131, R142, R143, R145, R147). The end
address field beyond 2^40 is the model's free value (log entry 6), and a request given up stays listed by the model's record
of it (log entry 22). -/
def Obligations.HaltAndClearStopTheChain : Prop :=
  (∀ (s : State) (e : EdId) (status : EndStatus) (code : CheckCode) (a : Addr) (tag : Tag16),
    ∃ u : State, Frame [.down, .splices, .chans] s u ∧ u.down = s.down.map (givenUp e) ∧
      (∀ x p, machineOf u x p = if x = e then { machineOf s x p with waiting := false } else machineOf s x p) ∧
      (∀ x, chanOf u x = if x = e then stopped (chanOf s x) else chanOf s x) ∧
      endChain e status code a.toNat tag s = handOver (.schedEnd e status code (chanOf s e).words a tag) u) ∧
  ∀ (s : State) (h : CmdHeader) (ed : BitVec 8), CmdIdle s →
    let halt := exec (.haltSchedule h ed) s
    let clear := exec (.clearSchedule h ed) s
    (16 ≤ ed.toNat → halt = .next (handOver (ended h 13 .range) s) ∧ clear = .next (handOver (ended h 14 .range) s)) ∧
    ∀ e : EdId, e.val = ed.toNat →
      ((chanOf s e).state = .idle → halt = .next (handOver (ended h 13 .state) s)) ∧
      ((chanOf s e).state ≠ .idle → ∃ u : State, Frame [.down, .splices, .chans] s u ∧ Stops e s u ∧
        (∀ x p, machineOf u x p = if x = e then { machineOf s x p with waiting := false } else machineOf s x p) ∧
        halt = .next (handOver (ended h 13 .done) (handOverAll (stopReports e .halted s) u))) ∧
      ∃ u : State, Frame [.down, .splices, .chans, .comp] s u ∧ Stops e s u ∧
        (∀ x p, machineOf u x p =
          if x = e then { machineOf s x p with phase := .steady, waiting := false } else machineOf s x p) ∧
        (∀ x, compOf u x = if x = e then { compOf s x with staged := none } else compOf s x) ∧
        clear = .next (handOver (ended h 14 .done)
          (handOverAll (cancelReports e .clear s ++ stopReports e .cleared s) u))

/-! ## Splices and house time -/

/-- A splice at its times and at an entry point: T makes ARMED SEEKING, or expires the splice when W is 0; the window end
expires it, FORCED or ABANDONED by its flag; an entry point of the target variant switches it. At a resolution the machine is
STEADY, a switch sets mark-pending, and one SPLICE report is handed over. The outcome of a splice that the channel armed is
judged by the channel if it is SYNCING on this machine: STOP-ON-FAIL ends the chain at ABANDONED and CANCELLED, otherwise the
channel goes on; in every other state it is ignored. An arming that waits on the machine is taken at the return to STEADY, as
one act with it (R106, R108, R110, R111, R112, R117, R123, R138). That the rows may come after their moments is the model's
choice (log entry 8). -/
def Obligations.SplicesResolveAtTheirTimes : Prop :=
  ∀ (s : State) (e : EdId) (p : ProgId) (sp : PendingSplice),
    let m := machineOf s e p
    let c := chanOf s e
    let settled : SpliceOutcome → SpliceCause → State := fun o cause =>
      let switch := o == .switched || o == .forced
      let v := if switch then sp.target else m.admitted
      handOver (.splice e p o cause sp.late sp.source sp.target v sp.tag)
        (modMachine e p (fun m => { m with
          phase := .steady, admitted := v, markPending := m.markPending || switch }) s)
    let judged := sp.source = .channel ∧ c.state = .syncing ∧ c.sync = some p
    let expiry : SpliceOutcome := if sp.force then .forced else .abandoned
    (m.waiting = false → ¬judged → ∀ o cause, resolve e p sp o cause s = settled o cause) ∧
    (m.waiting = false → judged → ∀ a w q v t win force sync stop, c.current = some ⟨a, w⟩ →
      w.kind = .splice q v t win force sync stop → ∀ o cause,
        resolve e p sp o cause s =
          if stop = true ∧ (o = .abandoned ∨ o = .cancelled) then
            endChain e .spliceFailed .none a.toNat w.tag (settled o cause)
          else goOn e (settled o cause)) ∧
    (m.waiting = true → c.state = .blocked → ∀ a w, c.current = some ⟨a, w⟩ → ∀ o cause,
      resolve e p sp o cause s =
        armFromChannel e w (modMachine e p (fun m => { m with waiting := false }) (settled o cause))) ∧
    (m.phase = .armed sp → sp.t.toNat ≤ s.time.now.toNat → sp.window ≠ 0 → exec (.spliceTReached e p) s =
      .next (modMachine e p (fun m => { m with phase := .seeking sp }) s)) ∧
    (m.phase = .armed sp → sp.t.toNat ≤ s.time.now.toNat → sp.window = 0 →
      exec (.spliceTReached e p) s = .next (resolve e p sp expiry .none s)) ∧
    (m.phase = .seeking sp → sp.t.toNat + sp.window.toNat * 20000 ≤ s.time.now.toNat →
      exec (.windowEnd e p) s = .next (resolve e p sp expiry .none s)) ∧
    (m.phase = .seeking sp → entryPoint e p sp.target true s = resolve e p sp .switched .none s)

/-- An arming of the host at a STEADY machine is judged by R109: UNCHANGED for the admitted variant; an expiry with LATE at or
past the window end; SEEKING with LATE at or past T; else ARMED. At a pending machine it is BUSY. CANCEL SPLICE resolves every
pending splice, of the host or of the channel, CANCELLED with cause COMMAND, before its own report; with a splice of the host and
no waiting arming that is its SPLICE report and the return to STEADY. It is STATE at a STEADY machine. An edition, programme or
target variant out of range is RANGE (R107, R109, R114). What a resolution does with the channel and a waiting arming is said by
`SplicesResolveAtTheirTimes`. -/
def Obligations.ArmingAndCancelling : Prop :=
  (∀ (s : State) (hd : CmdHeader) (ed pr tg : BitVec 8) (force : Bool) (win : BitVec 16) (t : HouseTime), CmdIdle s →
    ((16 ≤ ed.toNat ∨ 48 ≤ pr.toNat ∨ 8 ≤ tg.toNat) →
      exec (.armSplice hd ed pr tg force win t) s = .next (handOver (ended hd 9 .range) s)) ∧
    ((16 ≤ ed.toNat ∨ 48 ≤ pr.toNat) → exec (.cancelSplice hd ed pr) s = .next (handOver (ended hd 10 .range) s))) ∧
  ∀ (s : State) (hd : CmdHeader) (ed pr tg : BitVec 8) (force : Bool) (win : BitVec 16) (t : HouseTime) (e : EdId)
    (p : ProgId) (v : Variant), CmdIdle s → e.val = ed.toNat → p.val = pr.toNat → v.val = tg.toNat →
    let m := machineOf s e p
    let h := s.time.now.toNat
    let last := t.toNat + win.toNat * 20000
    let sp : Bool → PendingSplice := fun late => ⟨v, t, win, force, hd.tag, .command, late⟩
    let row := exec (.armSplice hd ed pr tg force win t) s
    let done : State → Host.Outcome State Fault Refusal := fun u => .next (handOver (ended hd 9 .done) u)
    let cancel := exec (.cancelSplice hd ed pr) s
    (m.phase = .steady → v = m.admitted →
      row = done (handOver (.splice e p .unchanged .none false .command v m.admitted hd.tag) s)) ∧
    (m.phase = .steady → v ≠ m.admitted → last ≤ h → force = true → row = done
      (handOver (.splice e p .forced .none true .command v v hd.tag)
        (modMachine e p (fun m => { m with admitted := v, markPending := true }) s))) ∧
    (m.phase = .steady → v ≠ m.admitted → last ≤ h → force = false →
      row = done (handOver (.splice e p .abandoned .none true .command v m.admitted hd.tag) s)) ∧
    (m.phase = .steady → v ≠ m.admitted → h < last → t.toNat ≤ h →
      row = done (modMachine e p (fun m => { m with phase := .seeking (sp true) }) s)) ∧
    (m.phase = .steady → v ≠ m.admitted → h < t.toNat →
      row = done (modMachine e p (fun m => { m with phase := .armed (sp false) }) s)) ∧
    (m.phase ≠ .steady → row = .next (handOver (ended hd 9 .busy) s)) ∧
    (m.phase = .steady → cancel = .next (handOver (ended hd 10 .state) s)) ∧
    (∀ q, (m.phase = .armed q ∨ m.phase = .seeking q) →
      cancel = .next (handOver (ended hd 10 .done) (resolve e p q .cancelled .command s))) ∧
    (∀ q, pendingOf m.phase = some q → q.source = .command → m.waiting = false → cancel = .next
      (handOver (ended hd 10 .done)
        (handOver (.splice e p .cancelled .command q.late .command q.target m.admitted q.tag)
          (modMachine e p (fun m => { m with phase := .steady }) s))))

/-- R115: SET VARIANT NOW at a STEADY machine sets the admitted variant and, if it differs, mark-pending; at a pending one it
is BUSY; out of range it is RANGE. It writes no report but its COMMAND report, in every state of the edition. -/
def Obligations.SetVariantNowSwitchesAtOnce : Prop :=
  ∀ (s : State) (h : CmdHeader) (ed pr vr : BitVec 8), CmdIdle s →
    let row := exec (.setVariantNow h ed pr vr) s
    ((16 ≤ ed.toNat ∨ 48 ≤ pr.toNat ∨ 8 ≤ vr.toNat) → row = .next (handOver (ended h 11 .range) s)) ∧
    ∀ (e : EdId) (p : ProgId) (v : Variant), e.val = ed.toNat → p.val = pr.toNat → v.val = vr.toNat →
      ((machineOf s e p).phase ≠ .steady → row = .next (handOver (ended h 11 .busy) s)) ∧
      ((machineOf s e p).phase = .steady → v = (machineOf s e p).admitted →
        row = .next (handOver (ended h 11 .done) s)) ∧
      ((machineOf s e p).phase = .steady → v ≠ (machineOf s e p).admitted → row = .next
        (handOver (ended h 11 .done) (modMachine e p (fun m => { m with admitted := v, markPending := true }) s)))

/-- An elapsed tick: a reference edge in LOCKED and an oscillator period in HOLDOVER each add 1 to house time, to the
quiet time of every enabled ring, to the idle time of every LIVE edition and to the wait of a pending load. In LOCKED
an oscillator period only counts toward the loss of the reference (R32, R156, R162, R163, R165). The count of
oscillator periods in LOCKED is the model's own (log entry 18). -/
def Obligations.TicksElapse : Prop :=
  ∀ s : State,
    let ticked : Nat → State → Prop := fun periods t =>
      t.time.now = s.time.now + 1 ∧ t.time.ref = s.time.ref ∧ t.time.periods = periods ∧
      t.time.load = s.time.load.map (fun l => { l with wait := l.wait + 1 }) ∧
      t.rings.protection = s.rings.protection ∧
      (∀ i, ringOf t i =
        if (ringOf s i).enabled then { ringOf s i with quiet := (ringOf s i).quiet + 1 } else ringOf s i) ∧
      (∀ e, edOf t e = if (edOf s e).state = .live then { edOf s e with idle := (edOf s e).idle + 1 } else edOf s e) ∧
      Frame [.time, .rings, .eds] s t
    (s.time.ref = .locked → ∃ t, exec .stationReferenceEdge s = .next t ∧ ticked 0 t) ∧
    (s.time.ref = .holdover → ∃ t, exec .oscillatorPeriodEnd s = .next t ∧ ticked s.time.periods t) ∧
    (s.time.ref = .locked → exec .oscillatorPeriodEnd s =
      .next { s with time := { s.time with periods := min 20 (s.time.periods + 1) } })

/-- The loss of the reference after 20 oscillator periods without an edge adds 20 ticks and reports house time after
them; the first edge in HOLDOVER restores it, adds its tick and reports. The ticks count in the quiet time of every enabled
ring, in the idle time of every LIVE edition and in the wait of a pending load, and no other field of them changes (R32, R156,
R163, R164, R165). The count of oscillator periods is the model's own (log entry 18). -/
def Obligations.ReferenceIsLostAndRestored : Prop :=
  ∀ s : State,
    let after : Nat → TimeUnit → State → Prop := fun n u t =>
      t.time = u ∧ t.rings.protection = s.rings.protection ∧
      (∀ i, ringOf t i =
        if (ringOf s i).enabled then { ringOf s i with quiet := (ringOf s i).quiet + n } else ringOf s i) ∧
      (∀ e, edOf t e = if (edOf s e).state = .live then { edOf s e with idle := (edOf s e).idle + n } else edOf s e) ∧
      t.pending = s.pending
    (s.time.ref = .locked → 20 ≤ s.time.periods → ∃ u, after 20
        { now := s.time.now + 20, ref := .holdover, periods := s.time.periods,
          load := s.time.load.map fun l => { l with wait := l.wait + 20 } } u ∧
      Frame [.time, .rings, .eds] s u ∧
      exec .referenceLost s = .next (handOver (.time .referenceLost) u)) ∧
    (s.time.ref = .holdover → ∃ u, after 1
        { now := s.time.now + 1, ref := .locked, periods := 0,
          load := s.time.load.map fun l => { l with wait := l.wait + 1 } } u ∧
      Frame [.time, .rings, .eds] s u ∧
      exec .referenceRestored s = .next (handOver (.time .referenceRestored) u))

/-- R166: TIME LOAD makes its value the pending load with a fresh wait, DONE or REPLACED, and ends at once. -/
def Obligations.TimeLoadBecomesPending : Prop :=
  ∀ (s : State) (h : CmdHeader) (v : HouseTime), CmdIdle s →
    let u : State := { s with time := { s.time with load := some ⟨v, 0⟩ } }
    (s.time.load = none → exec (.timeLoad h v) s = .next (handOver (ended h 19 .done) u)) ∧
    (∀ old, s.time.load = some old → exec (.timeLoad h v) s = .next (handOver (ended h 19 .replaced) u))

/-- A pulse edge applies the pending load with its LOADED report, and then judges every machine against the new house time in
ascending edition and programme order, and every WAITING channel; with no load pending it changes nothing. A load that has
waited 2 s is abandoned with its report. A machine judged at a load expires at or beyond its window end, seeks from T on, and
otherwise stays; a WAITING channel whose T is reached has its word executed, and any other channel stays (R118, R119, R132,
R167, R168). That the channels come after the machines, in ascending order, is the model's reading (log entry 14); that a
channel acts on the resolution of a machine before the next is judged, with its SCHEDULE END report where its chain ends (log
entry 29), and that the timeout may come after its moment (log entry 8), are its choices. -/
def Obligations.PulseEdgeAppliesTheLoad : Prop :=
  let machines : State → State := fun u =>
    (List.finRange 16).foldl (fun u e => (List.finRange 48).foldl (fun u p => judgeLoad e p u) u) u
  (∀ s : State,
    (s.time.load = none → exec .ppsEdge s = .next s ∧ exec .ppsTimeout s = .next s) ∧
    ∀ l, s.time.load = some l →
      exec .ppsEdge s = .next ((List.finRange 16).foldl judgeWaiting (machines (handOver (.time (.loaded s.time.now))
        { s with time := { s.time with now := l.value, load := none } }))) ∧
      ((∀ e p, (machineOf s e p).phase = .steady) → (∀ e, (chanOf s e).state ≠ .waiting) →
        exec .ppsEdge s = .next (handOver (.time (.loaded s.time.now))
          { s with time := { s.time with now := l.value, load := none } })) ∧
      (40000000 ≤ l.wait → exec .ppsTimeout s = .next (handOver (.time (.ppsTimeout l.value))
        { s with time := { s.time with load := none } }))) ∧
  (∀ (s : State) (e : EdId),
    ((chanOf s e).state ≠ .waiting → judgeWaiting s e = s) ∧
    ∀ a w t, (chanOf s e).state = .waiting → (chanOf s e).current = some ⟨a, w⟩ → w.kind = .wait t →
      (t.toNat ≤ s.time.now.toNat → judgeWaiting s e = goOn e s) ∧
      (s.time.now.toNat < t.toNat → (chanOf s e).fetch = .none → judgeWaiting s e = s)) ∧
  ∀ (s : State) (e : EdId) (p : ProgId) (sp : PendingSplice),
    let m := machineOf s e p
    let h := s.time.now.toNat
    let last := sp.t.toNat + sp.window.toNat * 20000
    let o : SpliceOutcome := if sp.force then .forced else .abandoned
    (m.phase = .steady → judgeLoad e p s = s) ∧
    (m.phase = .armed sp → last ≤ h → judgeLoad e p s = resolve e p sp o .none s) ∧
    (m.phase = .armed sp → sp.t.toNat ≤ h → h < last →
      judgeLoad e p s = modMachine e p (fun m => { m with phase := .seeking sp }) s) ∧
    (m.phase = .armed sp → h < sp.t.toNat → judgeLoad e p s = s) ∧
    (m.phase = .seeking sp → last ≤ h → judgeLoad e p s = resolve e p sp o .none s) ∧
    (m.phase = .seeking sp → h < last → judgeLoad e p s = s)

/-! ## Rings and the stream table -/

/-- SET STREAM ENTRY writes its entry whole with fresh check bits, or gives RANGE; label 4095 stays invalid (R6, R9, R10). -/
def Obligations.SetStreamEntryWritesOneEntry : Prop :=
  ∀ (s : State) (h : CmdHeader) (l : Label) (w : StreamWord), CmdIdle s →
    ((48 ≤ w.prog.toNat ∨ w.outLabel = 4095) →
      exec (.setStreamEntry h l w) s = .next (handOver (ended h 1 .range) s)) ∧
    ∀ p : ProgId, p.val = w.prog.toNat → w.outLabel ≠ 4095 → ∃ tb : StreamTable,
      exec (.setStreamEntry h l w) s = .next (handOver (ended h 1 .done) { s with stream := tb }) ∧
      tb.gauge = s.stream.gauge ∧
      ∀ l' : Label, streamSlot tb l' =
        if l' = l ∧ l ≠ 4095 then ⟨⟨w.valid, w.restamp, p, w.variant, w.mask, w.outLabel⟩, .clean⟩
        else streamSlot s.stream l'

/-- R18: SET ECC THRESHOLD replaces the threshold of the named store and clears its count; another store code is RANGE. -/
def Obligations.SetEccThresholdClearsTheCount : Prop :=
  ∀ (s : State) (h : CmdHeader) (store : BitVec 8) (t : BitVec 16), CmdIdle s →
    let row := exec (.setEccThreshold h store t) s
    (store = 1 → row = .next (handOver (ended h 3 .done) { s with stream := { s.stream with gauge := ⟨t, 0⟩ } })) ∧
    (store = 2 → row = .next (handOver (ended h 3 .done) { s with refs := { s.refs with gauge := ⟨t, 0⟩ } })) ∧
    (store ≠ 1 → store ≠ 2 → row = .next (handOver (ended h 3 .range) s))

/-- SET RING: RANGE, STATE and OVERLAP in their order, and a ring that passes is enabled afresh, SILENT, with its counters kept.
With TIMING ONLY, the new times are applied at once to the present state. The expiry of an enabled ring's quiet time makes an
ACTIVE ring SILENT with its report, and ends the run of a SILENT one (R22, R23, R32, R33, R34, R35). That a RING report of the
new times comes before the COMMAND report is the model's reading (log entry 25), and that the expiry may come after its moment
its choice (log entry 8). -/
def Obligations.SetRingEnablesOrRetimes : Prop :=
  (∀ (s : State) (h : CmdHeader) (ring : BitVec 8) (sil : BitVec 16) (res : BitVec 8), CmdIdle s →
    let badTime := sil.toNat = 0 ∨ 1000 < sil.toNat ∨ res.toNat = 0
    let retime := exec (.setRingTimingOnly h ring sil res) s
    (∀ (b : Addr) (n : BitVec 32),
      let row := exec (.setRing h ring sil res b n) s
      let bad := 32 ≤ ring.toNat ∨ n.toNat < 16 ∨ 65536 < n.toNat ∨ b.toNat % 4096 ≠ 0 ∨
        2 ^ 40 < b.toNat + n.toNat * 224 ∨ badTime
      (bad → row = .next (handOver (ended h 4 .range) s)) ∧
      ∀ i : RingId, i.val = ring.toNat → ¬bad →
        let hits := meetsRing s b.toNat (n.toNat * 224) (some i) = true ∨ meetsFeed s b.toNat (n.toNat * 224) none = true ∨
          meetsControl s b.toNat (n.toNat * 224) = true
        ((ringOf s i).enabled = true → row = .next (handOver (ended h 4 .state) s)) ∧
        ((ringOf s i).enabled = false → hits → row = .next (handOver (ended h 4 .overlap) s)) ∧
        ((ringOf s i).enabled = false → ¬hits → row = .next (handOver (ended h 4 .done)
          (modRing i (fun r => { r with
            enabled := true, base := b, size := n.toNat, silenceMs := sil.toNat, restore := res.toNat, w := 0,
            silence := .silent, run := 0, quiet := 0 }) s)))) ∧
    (((32 ≤ ring.toNat ∨ badTime) → retime = .next (handOver (ended h 4 .range) s)) ∧
      ∀ i : RingId, i.val = ring.toNat → ¬badTime →
        let R := ringOf s i
        let f : RingRecord → RingRecord := fun r => { r with silenceMs := sil.toNat, restore := res.toNat }
        let due := sil.toNat * 20000 ≤ R.quiet
        let done : (RingRecord → RingRecord) → Host.Outcome State Fault Refusal :=
          fun g => .next (handOver (ended h 4 .done) (modRing i g s))
        let report : Silence → (RingRecord → RingRecord) → Host.Outcome State Fault Refusal :=
          fun st g => .next (handOver (ended h 4 .done) (handOver (.ring i st R.w) (modRing i g s)))
        (R.enabled = false → retime = .next (handOver (ended h 4 .state) s)) ∧
        (R.enabled = true → R.silence = .active → due →
          retime = report .silent fun r => { f r with silence := .silent, run := 0 }) ∧
        (R.enabled = true → R.silence = .active → ¬due → retime = done f) ∧
        (R.enabled = true → R.silence = .silent → 0 < R.run → due → retime = done fun r => { f r with run := 0 }) ∧
        (R.enabled = true → R.silence = .silent → ¬(0 < R.run ∧ due) → res.toNat ≤ R.run →
          retime = report .active fun r => { f r with silence := .active, run := 0 }) ∧
        (R.enabled = true → R.silence = .silent → ¬(0 < R.run ∧ due) → R.run < res.toNat → retime = done f))) ∧
  ∀ (s : State) (i : RingId), (ringOf s i).enabled = true → (ringOf s i).silenceMs * 20000 ≤ (ringOf s i).quiet →
    ((ringOf s i).silence = .active → exec (.silenceExpiry i) s = .next
      (handOver (.ring i .silent (ringOf s i).w) (modRing i (fun r => { r with silence := .silent, run := 0 }) s))) ∧
    ((ringOf s i).silence = .silent →
      exec (.silenceExpiry i) s = .next (modRing i (fun r => { r with run := 0 }) s))

/-- R36: SET PROTECTION and its CLEAR form write the setting of one programme and variant, or give RANGE. -/
def Obligations.ProtectionIsSetAndCleared : Prop :=
  ∀ (s : State) (h : CmdHeader) (pr vr mn bk : BitVec 8), CmdIdle s →
    let put : ProgId → Variant → Option ProtPair → State := fun p v x =>
      { s with rings := { s.rings with protection := tput2 s.rings.protection p v x } }
    ((48 ≤ pr.toNat ∨ 8 ≤ vr.toNat ∨ 32 ≤ mn.toNat ∨ 32 ≤ bk.toNat ∨ mn = bk) →
      exec (.setProtection h pr vr mn bk) s = .next (handOver (ended h 6 .range) s)) ∧
    ((48 ≤ pr.toNat ∨ 8 ≤ vr.toNat) → exec (.clearProtection h pr vr) s = .next (handOver (ended h 6 .range) s)) ∧
    ∀ (p : ProgId) (v : Variant), p.val = pr.toNat → v.val = vr.toNat →
      exec (.clearProtection h pr vr) s = .next (handOver (ended h 6 .done) (put p v none)) ∧
      ∀ (m b : RingId), m.val = mn.toNat → b.val = bk.toNat → m ≠ b →
        exec (.setProtection h pr vr mn bk) s = .next (handOver (ended h 6 .done) (put p v (some ⟨m, b⟩)))

/-- DISABLE RING disables the ring at once, gives up its ingest writes in flight and starts its purge, which stays in flight
while a reference or a delivery read remains. Its scan starts at the queue of edition 0 and programme 0; past the last reference
of a queue it moves to the next queue that is not empty, as that stands. A step of the scan releases a reference of the ring and
leaves one of another; an entry with a single-bit error is corrected, counted and compared, one with a double-bit error is
discarded, counted as stale and reported. With the last reference scanned and no delivery read in flight the command ends with
DONE, at the scan's last step or at the return of the last delivery read after it, and the waiting commands start (R17, R24,
R25, R26, R58, R59, R60, R94, R190). The order in which a scan reads a queue that changes (log entry 13) and the ECC report's
place before the COMMAND report (log entry 25) are the model's readings; that a return finishes its cells before the command
ends is its choice (log entry 27), and the storage errors `us` are the model's operand (log entry 5). -/
def Obligations.DisableRingPurges : Prop :=
  (∀ (s : State) (h : CmdHeader) (ring : BitVec 8), CmdIdle s →
    let row := exec (.disableRing h ring) s
    (32 ≤ ring.toNat → row = .next (handOver (ended h 5 .range) s)) ∧
    ∀ i : RingId, i.val = ring.toNat →
      ((ringOf s i).enabled = false → row = .next (handOver (ended h 5 .state) s)) ∧
      ((ringOf s i).enabled = true → ((ringOf s i).readsInFlight ≠ 0 ∨ ∃ e p, queueOf s e p ≠ []) →
        ∃ t, row = .next t ∧ t.rings = (modRing i (fun r => { r with enabled := false }) s).rings ∧
          t.down = killIngest i s.down ∧ t.cmd.queue = s.cmd.queue ∧
          t.cmd.running = some ⟨takenRow h (.disableRing ring), .purge i⟩ ∧ { t.refs with scan := none } = s.refs ∧
          ((∀ e p, queueOf s e p = []) → t.refs.scan = none) ∧
          ((∃ e p, queueOf s e p ≠ []) → t.refs.scan = some { ring := i, at_ := 0, todo := queueOf s 0 0 }) ∧
          Frame [.rings, .down, .refs, .cmd] s t) ∧
      ((ringOf s i).enabled = true → (ringOf s i).readsInFlight = 0 → (∀ e p, queueOf s e p = []) →
        row = .next (handOver (ended h 5 .done)
          (modRing i (fun r => { r with enabled := false }) { s with down := killIngest i s.down })))) ∧
  (∀ (s : State) (c : TakenCommand) (i j : RingId) (e : EdId) (live : Bool) (rsp : Response) (q : Request)
    (rest : List DownReq),
    s.cmd.running = some ⟨c, .purge i⟩ → s.refs.scan = none →
    takeOldest (Config.deliveryTag e) s.down = some (⟨.delivery e j live, q⟩, rest) →
    ∃ t, exec (.deliveryReadCompletion e rsp) { s with cmd := { running := none, queue := [] } } = .next t ∧
      ((ringOf t i).readsInFlight ≠ 0 → exec (.deliveryReadCompletion e rsp) s = .next { t with cmd := s.cmd }) ∧
      ((ringOf t i).readsInFlight = 0 → exec (.deliveryReadCompletion e rsp) s = .next
        (startWaiting (handOver (.command c.code c.slot c.tag .done)
          { t with cmd := { running := none, queue := s.cmd.queue } })))) ∧
  (∀ (s : State) (us : List Upset), exec (.purgeScanStep us) s = exec (.purgeScanStep []) (upsetRefs us s)) ∧
  (∀ (s : State) (i : RingId) (k : Nat) (e : EdId) (p : ProgId) (n : EntryNo) (rest : List EntryNo),
    s.refs.scan = some { ring := i, at_ := k, todo := [] } → k < 48 * e.val + p.val →
    (∀ a b, k < 48 * a.val + b.val → 48 * a.val + b.val < 48 * e.val + p.val → queueOf s a b = []) →
    queueOf s e p = n :: rest →
    exec (.purgeScanStep []) s = exec (.purgeScanStep [])
      { s with refs := { s.refs with scan := some { ring := i, at_ := 48 * e.val + p.val, todo := n :: rest } } }) ∧
  ∀ (s : State) (c : TakenCommand) (i : RingId) (e : EdId) (p : ProgId) (n : EntryNo) (rest : List EntryNo),
    s.cmd.running = some ⟨c, .purge i⟩ →
    s.refs.scan = some { ring := i, at_ := 48 * e.val + p.val, todo := n :: rest } → n ∉ rest →
    let slot := tget s.refs.slots n
    let r : RefStore := { s.refs with scan := some { ring := i, at_ := 48 * e.val + p.val, todo := rest } }
    let gone : RefStore → RefStore := fun x =>
      { x with
        queues := tput2 x.queues e p ((tget2 x.queues e p).erase n), edCount := tput x.edCount e (tget x.edCount e - 1),
        pool := x.pool - 1, free := x.free ++ [n] }
    let compared : State → State := fun u => if slot.ref.ring = i then { u with refs := gone u.refs } else u
    let g := s.refs.gauge
    let corrected : EccGauge → State := fun gauge =>
      { s with refs := { r with slots := tput s.refs.slots n { slot with check := .clean }, gauge := gauge } }
    let passed := rest = [] ∧ ∀ a b, 48 * e.val + p.val < 48 * a.val + b.val → queueOf s a b = []
    let becomes : State → Prop := fun u =>
      (¬passed → exec (.purgeScanStep []) s = .next u) ∧
      (passed → (ringOf s i).readsInFlight = 0 → exec (.purgeScanStep []) s = .next
        (startWaiting (handOver (.command c.code c.slot c.tag .done)
          { u with refs := { u.refs with scan := none }, cmd := { running := none, queue := s.cmd.queue } }))) ∧
      (passed → (ringOf s i).readsInFlight ≠ 0 →
        exec (.purgeScanStep []) s = .next { u with refs := { u.refs with scan := none } })
    (slot.check = .clean → becomes (compared { s with refs := r })) ∧
    (slot.check = .single → g.threshold = 0 → becomes (compared (corrected g))) ∧
    (slot.check = .single → g.threshold ≠ 0 → g.count.toNat + 1 < g.threshold.toNat →
      becomes (compared (corrected { g with count := g.count + 1 }))) ∧
    (slot.check = .single → g.threshold ≠ 0 → g.threshold.toNat ≤ g.count.toNat + 1 →
      becomes (compared (handOver (.ecc .refstore .threshold n.val) (corrected { g with count := 0 })))) ∧
    (slot.check = .double → becomes (handOver (.ecc .refstore .uncorrectable n.val)
      (modComp e (fun x => { x with staleEcc := x.staleEcc + 1 }) { s with refs := gone r })))

/-! ## Editions and programmes -/

/-- SET PROGRAMME: the depth limit at once; ceiling and priority pending in LIVE, in force at once otherwise; its checks give
RANGE (R54, R71). -/
def Obligations.SetProgrammeWaitsForTheBoundary : Prop :=
  ∀ (s : State) (h : CmdHeader) (ed pr prio ceil : BitVec 8) (depth : BitVec 16), CmdIdle s →
    let row := exec (.setProgramme h ed pr prio ceil depth) s
    let bad := 16 ≤ ed.toNat ∨ 48 ≤ pr.toNat ∨ (prio ≠ 0 ∧ prio ≠ 1) ∨ 128 < ceil.toNat ∨ depth.toNat = 0 ∨
      1024 < depth.toNat
    (bad → row = .next (handOver (ended h 7 .range) s)) ∧
    ∀ (e : EdId) (p : ProgId), e.val = ed.toNat → p.val = pr.toNat → ¬bad →
      let x : ProgSetting := ⟨ceil.toNat, if prio = 1 then .high else .low⟩
      let u : State := { s with refs := { s.refs with depth := tput2 s.refs.depth e p depth.toNat } }
      ((edOf s e).state = .live → row = .next (handOver (ended h 7 .done)
        (modComp e (fun c => { c with pending := tput c.pending p x }) u))) ∧
      ((edOf s e).state ≠ .live → row = .next (handOver (ended h 7 .done)
        (modComp e (fun c => { c with pending := tput c.pending p x, inForce := tput c.inForce p x }) u)))

/-- SET EDITION: RANGE, STATE and OVERLAP in their order, and otherwise every setting replaced; a watch that the new watch
time finds run out expires before the COMMAND report (R151, R152). -/
def Obligations.SetEditionReplacesEverySetting : Prop :=
  ∀ (s : State) (h : CmdHeader) (ed : BitVec 8) (auto : Bool) (watch age quota : BitVec 16) (b : Addr) (off : BitVec 24),
    CmdIdle s →
    let row := exec (.setEdition h ed auto watch age quota b off) s
    let bad := 16 ≤ ed.toNat ∨ b.toNat % 65536 ≠ 0 ∨ 2 ^ 40 < b.toNat + 57344 ∨ 8192 < quota.toNat ∨ age.toNat = 0 ∨
      2000 < age.toNat ∨ 1000 < watch.toNat
    (bad → row = .next (handOver (ended h 16 .range) s)) ∧
    ∀ e : EdId, e.val = ed.toNat → ¬bad →
      let same := (edOf s e).base = some b
      let hits := meetsRing s b.toNat 57344 none = true ∨ meetsFeed s b.toNat 57344 (some e) = true ∨
        meetsControl s b.toNat 57344 = true
      let u := modEd e (fun r => { r with
        base := some b, quota := quota.toNat, maxAge := age.toNat, offset := off, watch := watch.toNat,
        autoResume := auto }) s
      let out := (edOf s e).state = .live ∧ watch.toNat ≠ 0 ∧ watch.toNat * 20000 ≤ (edOf s e).idle
      (¬same → (edOf s e).state ≠ .off → row = .next (handOver (ended h 16 .state) s)) ∧
      (¬same → (edOf s e).state = .off → hits → row = .next (handOver (ended h 16 .overlap) s)) ∧
      ((same ∨ ((edOf s e).state = .off ∧ ¬hits)) → ¬out → row = .next (handOver (ended h 16 .done) u)) ∧
      (same → out → row = .next (handOver (ended h 16 .done) (watchExpires e u)))

/-- EDITION ON starts the watch and, from OFF, the composition record and the continuity table; in LIVE it changes nothing.
EDITION OFF makes the edition OFF, applies what a boundary would have applied if it was LIVE, releases and counts every
reference, cancels every splice with cause OFF, each with its SPLICE report in ascending programme order, and ends the chain
with status OFF if it runs; the COMMAND report comes last (R57, R72, R97, R121, R148, R154, R155). The end address field
beyond 2^40 is the model's free value (log entry 6), and a request given up stays listed by the model's record of it (log
entry 22). -/
def Obligations.EditionsTurnOnAndOff : Prop :=
  ∀ (s : State) (h : CmdHeader) (ed : BitVec 8), CmdIdle s →
    (16 ≤ ed.toNat → exec (.editionOn h ed) s = .next (handOver (ended h 17 .range) s) ∧
      exec (.editionOff h ed) s = .next (handOver (ended h 18 .range) s)) ∧
    ∀ e : EdId, e.val = ed.toNat →
      let on := exec (.editionOn h ed) s
      let watched := modEd e (fun r => { r with state := .live, idle := 0 }) s
      let fresh : CompRecord → CompRecord := fun c =>
        { c with pos := 0, openCount := Vector.replicate 48 0, lastHigh := 47, lastLow := 47 }
      ((edOf s e).state = .live → on = .next (handOver (ended h 17 .done) s)) ∧
      ((edOf s e).state = .dormant → on = .next (handOver (ended h 17 .done) watched)) ∧
      ((edOf s e).state = .off → on = .next (handOver (ended h 17 .done)
        (modFeed e (fun f => { f with cont := Vector.replicate 4096 0 }) (modComp e fresh watched)))) ∧
      let gone := refsOfEdition e s.refs
      ∃ u : State, exec (.editionOff h ed) s = .next (handOver (ended h 18 .done)
          (handOverAll (cancelReports e .off s ++ stopReports e .off s) u)) ∧
        Frame [.eds, .comp, .refs, .splices, .down, .chans] s u ∧ Stops e s u ∧
        (∀ a, edOf u a = if a = e then { edOf s a with state := .off } else edOf s a) ∧
        (∀ a, compOf u a =
          if a = e ∧ (edOf s e).state = .live then boundary (compOf s a) else compOf s a) ∧
        (∀ a p, machineOf u a p =
          if a = e then { machineOf s a p with phase := .steady, waiting := false } else machineOf s a p) ∧
        (∀ a p, queueOf u a p = if a = e then [] else queueOf s a p) ∧
        (∀ a, tget u.refs.edCount a = if a = e then 0 else tget s.refs.edCount a) ∧
        (∀ a, tget u.refs.counters a =
          if a = e then { tget s.refs.counters a with
            offReleases := (tget s.refs.counters a).offReleases + BitVec.ofNat 32 gone.length }
          else tget s.refs.counters a) ∧
        u.refs.pool = s.refs.pool - gone.length ∧ u.refs.free = s.refs.free ++ gone ∧ u.refs.slots = s.refs.slots ∧
        u.refs.depth = s.refs.depth ∧ u.refs.gauge = s.refs.gauge ∧ u.refs.scan = none

/-- The expiry of a feed watch makes the edition DORMANT, applies what a boundary would have applied, releases and
counts every reference of it, and hands over the report with their number; splices, channel and continuity stay (R57,
R72, R156, R157, R160). That the expiry may come after its moment is the model's choice (log entry 8). -/
def Obligations.FeedWatchExpires : Prop :=
  ∀ (s : State) (e : EdId), (edOf s e).state = .live → (edOf s e).watch ≠ 0 →
    (edOf s e).watch * 20000 ≤ (edOf s e).idle → NoPurge s →
    let n := (refsOfEdition e s.refs).length
    ∃ u : State, exec (.feedWatchExpiry e) s = .next (handOver (.edition e .dormant n) u) ∧
      u.eds = tput s.eds e { edOf s e with state := .dormant } ∧ u.comp.recs = tput s.comp.recs e (boundary (compOf s e)) ∧
      (∀ p, queueOf u e p = []) ∧ tget u.refs.edCount e = 0 ∧ u.refs.free = s.refs.free ++ refsOfEdition e s.refs ∧
      tget u.refs.counters e = addDormant n (tget s.refs.counters e) ∧ u.refs.pool = s.refs.pool - n ∧
      (∀ a, a ≠ e → tget u.refs.counters a = tget s.refs.counters a ∧ ∀ p, queueOf u a p = queueOf s a p) ∧
      Frame [.eds, .comp, .refs] s u

/-! ## Placing and reporting commands -/

/-- RELOCATE CONTROL: RANGE for a wrong complement, alignment or end, OVERLAP for a region met, else the aperture moves (R183,
R185). The aperture moves before the COMMAND report is handed over by the model's reading (log entry 21). -/
def Obligations.RelocateControlMovesTheAperture : Prop :=
  ∀ (s : State) (h : CmdHeader) (b c : Addr), CmdIdle s →
    let row := exec (.relocateControl h b c) s
    let bad := c ≠ ~~~b ∨ b.toNat % 4096 ≠ 0 ∨ 2 ^ 40 < b.toNat + 4096
    let hits := meetsRing s b.toNat 4096 none = true ∨ meetsFeed s b.toNat 4096 none = true
    (bad → row = .next (handOver (ended h 20 .range) s)) ∧
    (¬bad → hits → row = .next (handOver (ended h 20 .overlap) s)) ∧
    (¬bad → ¬hits → row = .next (handOver (ended h 20 .done) { s with path := { s.path with control := b } }))

/-- R184: a limit from 4096 to 2^40 that is a multiple of 4096 replaces the memory limit at once, with DONE; any other is
RANGE. The limit enters no class of a request. It is 2^40 after hardware reset, and RESTART keeps it. -/
def Obligations.SetMemoryLimitReplacesTheLimit : Prop :=
  (∀ (s : State) (h : CmdHeader) (m : BitVec 64), CmdIdle s →
    let ok := 4096 ≤ m.toNat ∧ m.toNat ≤ 2 ^ 40 ∧ m.toNat % 4096 = 0
    (ok → exec (.setMemoryLimit h m) s =
      .next (handOver (ended h 21 .done) { s with path := { s.path with limit := m.toNat } })) ∧
    (¬ok → exec (.setMemoryLimit h m) s = .next (handOver (ended h 21 .range) s))) ∧
  (∀ (s : State) (n : Nat) (r : Request), classify { s with path := { s.path with limit := n } } r = classify s r) ∧
  (∀ strap s t, exec (.hardwareReset strap) s = .next t → t.path.limit = 2 ^ 40) ∧
  ∀ h s t, exec (.restart h) s = .next t → t.path.limit = s.path.limit

/-- SET REPORT RING with no write of the writer in flight sets the ring, empties its indices, drops the newest pending records
beyond N_r − 1 and writes the new index block; with a write in flight it waits; its checks give RANGE (R196). That the requests
it lists join the list of downstream requests as they are made, behind those already there, is the model's choice (log entries
11 and 28). -/
def Obligations.SetReportRingStartsANewRing : Prop :=
  ∀ (s : State) (h : CmdHeader) (n : BitVec 16) (en : Bool) (b : Addr), CmdIdle s →
    let row := exec (.setReportRing h n en b) s
    let bad := b.toNat % 4096 ≠ 0 ∨ n.toNat < 64 ∨ 16384 < n.toNat ∨ 2 ^ 40 < b.toNat + 32 * (n.toNat + 1)
    (bad → row = .next (handOver (ended h 22 .range) s)) ∧
    (¬bad → s.rep.writer = .idle →
      let lost := BitVec.ofNat 16 (min 65535 (s.rep.lost.toNat + (s.rep.pend.length - (n.toNat - 1))))
      row = .next (handOver (ended h 22 .done)
        { s with
          rep := { s.rep with
            isSet := true, base := b, places := n.toNat, intEnable := en, writeIdx := 0, readIdx := 0,
            pend := s.rep.pend.take (n.toNat - 1), lost := lost, intLine := false, writer := .index },
          down := s.down ++ [⟨.indexWrite, ownWrite 222 b.toNat (encodeIndex 0 lost s.rep.seq)⟩] })) ∧
    (¬bad → s.rep.writer ≠ .idle → row = .next
      { s with cmd := { s.cmd with
        running := some ⟨takenRow h (.setReportRing n en b), .reportRing n.toNat en b⟩ } })

/-- REPORT ACK moves the read index within the unread span and drives INT anew; outside the span it is RANGE, and with
no ring set STATE (R197, R198). STATE before RANGE is the model's reading (log entry 16). -/
def Obligations.ReportAckMovesTheReadIndex : Prop :=
  ∀ (s : State) (h : CmdHeader) (a : BitVec 16), CmdIdle s → s.rep.readIdx < s.rep.places →
    s.rep.writeIdx < s.rep.places →
    let row := exec (.reportAck h a) s
    let N := s.rep.places
    let span := (a.toNat + N - s.rep.readIdx) % N ≤ (s.rep.writeIdx + N - s.rep.readIdx) % N
    (s.rep.isSet = false → row = .next (handOver (ended h 23 .state) s)) ∧
    (s.rep.isSet = true → (N ≤ a.toNat ∨ ¬span) → row = .next (handOver (ended h 23 .range) s)) ∧
    (s.rep.isSet = true → a.toNat < N → span → row = .next (handOver (ended h 23 .done)
      { s with rep := { s.rep with
        readIdx := a.toNat,
        intLine := s.rep.intEnable && decide (0 < (s.rep.writeIdx + N - a.toNat) % N) } }))

/-- STATISTICS hands over the records of its scope in order, with the counters in the order of R200, then ends with
DONE; no counter changes. A bad scope or number is RANGE (R199, R200). RANGE for a number with scope ALL is the
model's reading (log entry 19). -/
def Obligations.StatisticsReportsTheCounters : Prop :=
  ∀ (s : State) (h : CmdHeader) (scope number : BitVec 8), CmdIdle s →
    let edition : EdId → List Report := fun e =>
      let c := compOf s e
      let f := feedOf s e
      let a := tget s.refs.counters e
      [.stats .edition e.val 0 f.delivered f.filler c.staleRing c.staleOverwritten,
       .stats .edition e.val 1 c.staleAge c.staleEcc f.overrun f.readError,
       .stats .edition e.val 2 a.depthDrop a.quotaDrop a.poolDrop a.notCarried,
       .stats .edition e.val 3 f.lengthFault f.feedWrites a.dormantReleases a.offReleases]
    let ring : RingId → List Report := fun i =>
      let r := ringOf s i
      [.stats .ring i.val 0 r.taken r.skips r.malformed r.labelFaults,
       .stats .ring i.val 1 r.writeErrors r.duplicates 0 0]
    let row := exec (.statistics h scope number) s
    let done : List Report → Host.Outcome State Fault Refusal := fun l =>
      .next (handOver (ended h 24 .done) (handOverAll l s))
    (∀ e : EdId, scope = 1 → e.val = number.toNat → row = done (edition e)) ∧
    (∀ i : RingId, scope = 2 → i.val = number.toNat → row = done (ring i)) ∧
    (scope = 3 → number = 0 → row = done ((List.finRange 16).flatMap edition ++ (List.finRange 32).flatMap ring)) ∧
    (((scope = 1 ∧ 16 ≤ number.toNat) ∨ (scope = 2 ∧ 32 ≤ number.toNat) ∨ (scope = 3 ∧ number ≠ 0) ∨
        (scope ≠ 1 ∧ scope ≠ 2 ∧ scope ≠ 3)) →
      row = .next (handOver (ended h 24 .range) s))
end

