-- ==== Sys2Proof/Laws/Table.lean ====
section
/-! SUPPORT. Banks: what reading a place gives after a place was written, changed or every place was mapped; and the index
lookup `index?`. -/

namespace Sys2Proof.Machine

variable {α β : Type} {m n : Nat}

@[simp] theorem tget_tput_same (v : Vector α n) (i : Fin n) (x : α) : tget (tput v i x) i = x := by
  simp [tget, tput]

theorem tget_tput_ne (v : Vector α n) {i j : Fin n} (h : j ≠ i) (x : α) : tget (tput v i x) j = tget v j := by
  have h' : i.val ≠ j.val := fun e => h (Fin.ext e.symm)
  simp [tget, tput, h']

theorem tget_tput (v : Vector α n) (i j : Fin n) (x : α) : tget (tput v i x) j = if j = i then x else tget v j := by
  split
  · subst_vars; simp
  · exact tget_tput_ne v ‹_› x

@[simp] theorem tget_tmodify_same (v : Vector α n) (i : Fin n) (f : α → α) : tget (tmodify v i f) i = f (tget v i) := by
  simp [tmodify]

theorem tget_tmodify_ne (v : Vector α n) {i j : Fin n} (h : j ≠ i) (f : α → α) :
    tget (tmodify v i f) j = tget v j := by
  simp [tmodify, tget_tput_ne v h]

theorem tget_tmodify (v : Vector α n) (i j : Fin n) (f : α → α) :
    tget (tmodify v i f) j = if j = i then f (tget v i) else tget v j := by
  simp [tmodify, tget_tput]

@[simp] theorem tget_tmap (f : α → β) (v : Vector α n) (i : Fin n) : tget (tmap f v) i = f (tget v i) := by
  simp [tget, tmap, Vector.getElem_mk]

@[simp] theorem tget_replicate (x : α) (i : Fin n) : tget (Vector.replicate n x) i = x := by
  simp [tget]

@[simp] theorem tget2_replicate (x : α) (i : Fin m) (j : Fin n) :
    tget2 (Vector.replicate m (Vector.replicate n x)) i j = x := by
  simp [tget2]

@[simp] theorem tget2_tput2_same (v : Vector (Vector α n) m) (i : Fin m) (j : Fin n) (x : α) :
    tget2 (tput2 v i j x) i j = x := by
  simp [tget2, tput2]

theorem tget2_tput2 (v : Vector (Vector α n) m) (i a : Fin m) (j b : Fin n) (x : α) :
    tget2 (tput2 v i j x) a b = if a = i ∧ b = j then x else tget2 v a b := by
  simp only [tget2, tput2, tget_tput]
  by_cases ha : a = i
  · subst ha; simp [tget_tput]
  · simp [ha]

@[simp] theorem tget2_tmodify2_same (v : Vector (Vector α n) m) (i : Fin m) (j : Fin n) (f : α → α) :
    tget2 (tmodify2 v i j f) i j = f (tget2 v i j) := by
  simp [tmodify2]

theorem tget2_tmodify2 (v : Vector (Vector α n) m) (i a : Fin m) (j b : Fin n) (f : α → α) :
    tget2 (tmodify2 v i j f) a b = if a = i ∧ b = j then f (tget2 v i j) else tget2 v a b := by
  simp [tmodify2, tget2_tput2]

/-- Two banks with the same places are equal. -/
theorem table_ext {v w : Vector α n} (h : ∀ i, tget v i = tget w i) : v = w := by
  apply Vector.ext
  intro i hi
  exact h ⟨i, hi⟩

/-- Two banks of banks with the same places are equal. -/
theorem table2_ext {v w : Vector (Vector α n) m} (h : ∀ i j, tget2 v i j = tget2 w i j) : v = w :=
  table_ext fun i => table_ext fun j => h i j

@[simp] theorem index?_val (i : Fin n) : index? n i.val = some i := by
  simp [index?]

theorem index?_eq_some {k : Nat} {i : Fin n} : index? n k = some i ↔ i.val = k := by
  unfold index?
  split
  · simp only [Option.some.injEq]
    constructor
    · rintro rfl; rfl
    · intro e; exact Fin.ext e.symm
  · constructor
    · intro e; cases e
    · intro e; exact absurd (e ▸ i.isLt) ‹_›

theorem index?_eq_none {k : Nat} : index? n k = none ↔ n ≤ k := by
  unfold index?
  split
  · simp; omega
  · simp; omega

end Sys2Proof.Machine
end

