-- ==== Sys2Proof/Laws/State.lean ====
section
/-! SUPPORT. One lemma for each field of `State` and each block update: the updated field reads as its image, every other
field as before; and what the accessors of the blocks read after an update. -/

namespace Sys2Proof.Machine

variable (s : State)

/-! ### modRing -/

@[simp] theorem modRing_path (i : RingId) (f : RingRecord → RingRecord) : (modRing i f s).path = s.path := rfl
@[simp] theorem modRing_down (i : RingId) (f : RingRecord → RingRecord) : (modRing i f s).down = s.down := rfl
@[simp] theorem modRing_rings (i : RingId) (f : RingRecord → RingRecord) : (modRing i f s).rings = { s.rings with recs := tmodify s.rings.recs i f } := rfl
@[simp] theorem modRing_stream (i : RingId) (f : RingRecord → RingRecord) : (modRing i f s).stream = s.stream := rfl
@[simp] theorem modRing_refs (i : RingId) (f : RingRecord → RingRecord) : (modRing i f s).refs = s.refs := rfl
@[simp] theorem modRing_splices (i : RingId) (f : RingRecord → RingRecord) : (modRing i f s).splices = s.splices := rfl
@[simp] theorem modRing_comp (i : RingId) (f : RingRecord → RingRecord) : (modRing i f s).comp = s.comp := rfl
@[simp] theorem modRing_dlv (i : RingId) (f : RingRecord → RingRecord) : (modRing i f s).dlv = s.dlv := rfl
@[simp] theorem modRing_chans (i : RingId) (f : RingRecord → RingRecord) : (modRing i f s).chans = s.chans := rfl
@[simp] theorem modRing_eds (i : RingId) (f : RingRecord → RingRecord) : (modRing i f s).eds = s.eds := rfl
@[simp] theorem modRing_time (i : RingId) (f : RingRecord → RingRecord) : (modRing i f s).time = s.time := rfl
@[simp] theorem modRing_cmd (i : RingId) (f : RingRecord → RingRecord) : (modRing i f s).cmd = s.cmd := rfl
@[simp] theorem modRing_rep (i : RingId) (f : RingRecord → RingRecord) : (modRing i f s).rep = s.rep := rfl
@[simp] theorem modRing_pending (i : RingId) (f : RingRecord → RingRecord) : (modRing i f s).pending = s.pending := rfl

/-! ### modEd -/

@[simp] theorem modEd_path (e : EdId) (f : EditionRecord → EditionRecord) : (modEd e f s).path = s.path := rfl
@[simp] theorem modEd_down (e : EdId) (f : EditionRecord → EditionRecord) : (modEd e f s).down = s.down := rfl
@[simp] theorem modEd_rings (e : EdId) (f : EditionRecord → EditionRecord) : (modEd e f s).rings = s.rings := rfl
@[simp] theorem modEd_stream (e : EdId) (f : EditionRecord → EditionRecord) : (modEd e f s).stream = s.stream := rfl
@[simp] theorem modEd_refs (e : EdId) (f : EditionRecord → EditionRecord) : (modEd e f s).refs = s.refs := rfl
@[simp] theorem modEd_splices (e : EdId) (f : EditionRecord → EditionRecord) : (modEd e f s).splices = s.splices := rfl
@[simp] theorem modEd_comp (e : EdId) (f : EditionRecord → EditionRecord) : (modEd e f s).comp = s.comp := rfl
@[simp] theorem modEd_dlv (e : EdId) (f : EditionRecord → EditionRecord) : (modEd e f s).dlv = s.dlv := rfl
@[simp] theorem modEd_chans (e : EdId) (f : EditionRecord → EditionRecord) : (modEd e f s).chans = s.chans := rfl
@[simp] theorem modEd_eds (e : EdId) (f : EditionRecord → EditionRecord) : (modEd e f s).eds = tmodify s.eds e f := rfl
@[simp] theorem modEd_time (e : EdId) (f : EditionRecord → EditionRecord) : (modEd e f s).time = s.time := rfl
@[simp] theorem modEd_cmd (e : EdId) (f : EditionRecord → EditionRecord) : (modEd e f s).cmd = s.cmd := rfl
@[simp] theorem modEd_rep (e : EdId) (f : EditionRecord → EditionRecord) : (modEd e f s).rep = s.rep := rfl
@[simp] theorem modEd_pending (e : EdId) (f : EditionRecord → EditionRecord) : (modEd e f s).pending = s.pending := rfl

/-! ### modComp -/

@[simp] theorem modComp_path (e : EdId) (f : CompRecord → CompRecord) : (modComp e f s).path = s.path := rfl
@[simp] theorem modComp_down (e : EdId) (f : CompRecord → CompRecord) : (modComp e f s).down = s.down := rfl
@[simp] theorem modComp_rings (e : EdId) (f : CompRecord → CompRecord) : (modComp e f s).rings = s.rings := rfl
@[simp] theorem modComp_stream (e : EdId) (f : CompRecord → CompRecord) : (modComp e f s).stream = s.stream := rfl
@[simp] theorem modComp_refs (e : EdId) (f : CompRecord → CompRecord) : (modComp e f s).refs = s.refs := rfl
@[simp] theorem modComp_splices (e : EdId) (f : CompRecord → CompRecord) : (modComp e f s).splices = s.splices := rfl
@[simp] theorem modComp_comp (e : EdId) (f : CompRecord → CompRecord) : (modComp e f s).comp = { recs := tmodify s.comp.recs e f } := rfl
@[simp] theorem modComp_dlv (e : EdId) (f : CompRecord → CompRecord) : (modComp e f s).dlv = s.dlv := rfl
@[simp] theorem modComp_chans (e : EdId) (f : CompRecord → CompRecord) : (modComp e f s).chans = s.chans := rfl
@[simp] theorem modComp_eds (e : EdId) (f : CompRecord → CompRecord) : (modComp e f s).eds = s.eds := rfl
@[simp] theorem modComp_time (e : EdId) (f : CompRecord → CompRecord) : (modComp e f s).time = s.time := rfl
@[simp] theorem modComp_cmd (e : EdId) (f : CompRecord → CompRecord) : (modComp e f s).cmd = s.cmd := rfl
@[simp] theorem modComp_rep (e : EdId) (f : CompRecord → CompRecord) : (modComp e f s).rep = s.rep := rfl
@[simp] theorem modComp_pending (e : EdId) (f : CompRecord → CompRecord) : (modComp e f s).pending = s.pending := rfl

/-! ### modFeed -/

@[simp] theorem modFeed_path (e : EdId) (f : FeedRecord → FeedRecord) : (modFeed e f s).path = s.path := rfl
@[simp] theorem modFeed_down (e : EdId) (f : FeedRecord → FeedRecord) : (modFeed e f s).down = s.down := rfl
@[simp] theorem modFeed_rings (e : EdId) (f : FeedRecord → FeedRecord) : (modFeed e f s).rings = s.rings := rfl
@[simp] theorem modFeed_stream (e : EdId) (f : FeedRecord → FeedRecord) : (modFeed e f s).stream = s.stream := rfl
@[simp] theorem modFeed_refs (e : EdId) (f : FeedRecord → FeedRecord) : (modFeed e f s).refs = s.refs := rfl
@[simp] theorem modFeed_splices (e : EdId) (f : FeedRecord → FeedRecord) : (modFeed e f s).splices = s.splices := rfl
@[simp] theorem modFeed_comp (e : EdId) (f : FeedRecord → FeedRecord) : (modFeed e f s).comp = s.comp := rfl
@[simp] theorem modFeed_dlv (e : EdId) (f : FeedRecord → FeedRecord) : (modFeed e f s).dlv = { recs := tmodify s.dlv.recs e f } := rfl
@[simp] theorem modFeed_chans (e : EdId) (f : FeedRecord → FeedRecord) : (modFeed e f s).chans = s.chans := rfl
@[simp] theorem modFeed_eds (e : EdId) (f : FeedRecord → FeedRecord) : (modFeed e f s).eds = s.eds := rfl
@[simp] theorem modFeed_time (e : EdId) (f : FeedRecord → FeedRecord) : (modFeed e f s).time = s.time := rfl
@[simp] theorem modFeed_cmd (e : EdId) (f : FeedRecord → FeedRecord) : (modFeed e f s).cmd = s.cmd := rfl
@[simp] theorem modFeed_rep (e : EdId) (f : FeedRecord → FeedRecord) : (modFeed e f s).rep = s.rep := rfl
@[simp] theorem modFeed_pending (e : EdId) (f : FeedRecord → FeedRecord) : (modFeed e f s).pending = s.pending := rfl

/-! ### modChan -/

@[simp] theorem modChan_path (e : EdId) (f : Channel → Channel) : (modChan e f s).path = s.path := rfl
@[simp] theorem modChan_down (e : EdId) (f : Channel → Channel) : (modChan e f s).down = s.down := rfl
@[simp] theorem modChan_rings (e : EdId) (f : Channel → Channel) : (modChan e f s).rings = s.rings := rfl
@[simp] theorem modChan_stream (e : EdId) (f : Channel → Channel) : (modChan e f s).stream = s.stream := rfl
@[simp] theorem modChan_refs (e : EdId) (f : Channel → Channel) : (modChan e f s).refs = s.refs := rfl
@[simp] theorem modChan_splices (e : EdId) (f : Channel → Channel) : (modChan e f s).splices = s.splices := rfl
@[simp] theorem modChan_comp (e : EdId) (f : Channel → Channel) : (modChan e f s).comp = s.comp := rfl
@[simp] theorem modChan_dlv (e : EdId) (f : Channel → Channel) : (modChan e f s).dlv = s.dlv := rfl
@[simp] theorem modChan_chans (e : EdId) (f : Channel → Channel) : (modChan e f s).chans = tmodify s.chans e f := rfl
@[simp] theorem modChan_eds (e : EdId) (f : Channel → Channel) : (modChan e f s).eds = s.eds := rfl
@[simp] theorem modChan_time (e : EdId) (f : Channel → Channel) : (modChan e f s).time = s.time := rfl
@[simp] theorem modChan_cmd (e : EdId) (f : Channel → Channel) : (modChan e f s).cmd = s.cmd := rfl
@[simp] theorem modChan_rep (e : EdId) (f : Channel → Channel) : (modChan e f s).rep = s.rep := rfl
@[simp] theorem modChan_pending (e : EdId) (f : Channel → Channel) : (modChan e f s).pending = s.pending := rfl

/-! ### modMachine -/

@[simp] theorem modMachine_path (e : EdId) (p : ProgId) (f : SpliceMachine → SpliceMachine) : (modMachine e p f s).path = s.path := rfl
@[simp] theorem modMachine_down (e : EdId) (p : ProgId) (f : SpliceMachine → SpliceMachine) : (modMachine e p f s).down = s.down := rfl
@[simp] theorem modMachine_rings (e : EdId) (p : ProgId) (f : SpliceMachine → SpliceMachine) : (modMachine e p f s).rings = s.rings := rfl
@[simp] theorem modMachine_stream (e : EdId) (p : ProgId) (f : SpliceMachine → SpliceMachine) : (modMachine e p f s).stream = s.stream := rfl
@[simp] theorem modMachine_refs (e : EdId) (p : ProgId) (f : SpliceMachine → SpliceMachine) : (modMachine e p f s).refs = s.refs := rfl
@[simp] theorem modMachine_splices (e : EdId) (p : ProgId) (f : SpliceMachine → SpliceMachine) : (modMachine e p f s).splices = { machines := tmodify2 s.splices.machines e p f } := rfl
@[simp] theorem modMachine_comp (e : EdId) (p : ProgId) (f : SpliceMachine → SpliceMachine) : (modMachine e p f s).comp = s.comp := rfl
@[simp] theorem modMachine_dlv (e : EdId) (p : ProgId) (f : SpliceMachine → SpliceMachine) : (modMachine e p f s).dlv = s.dlv := rfl
@[simp] theorem modMachine_chans (e : EdId) (p : ProgId) (f : SpliceMachine → SpliceMachine) : (modMachine e p f s).chans = s.chans := rfl
@[simp] theorem modMachine_eds (e : EdId) (p : ProgId) (f : SpliceMachine → SpliceMachine) : (modMachine e p f s).eds = s.eds := rfl
@[simp] theorem modMachine_time (e : EdId) (p : ProgId) (f : SpliceMachine → SpliceMachine) : (modMachine e p f s).time = s.time := rfl
@[simp] theorem modMachine_cmd (e : EdId) (p : ProgId) (f : SpliceMachine → SpliceMachine) : (modMachine e p f s).cmd = s.cmd := rfl
@[simp] theorem modMachine_rep (e : EdId) (p : ProgId) (f : SpliceMachine → SpliceMachine) : (modMachine e p f s).rep = s.rep := rfl
@[simp] theorem modMachine_pending (e : EdId) (p : ProgId) (f : SpliceMachine → SpliceMachine) : (modMachine e p f s).pending = s.pending := rfl

/-! ### modAdm -/

@[simp] theorem modAdm_path (e : EdId) (f : AdmCounters → AdmCounters) : (modAdm e f s).path = s.path := rfl
@[simp] theorem modAdm_down (e : EdId) (f : AdmCounters → AdmCounters) : (modAdm e f s).down = s.down := rfl
@[simp] theorem modAdm_rings (e : EdId) (f : AdmCounters → AdmCounters) : (modAdm e f s).rings = s.rings := rfl
@[simp] theorem modAdm_stream (e : EdId) (f : AdmCounters → AdmCounters) : (modAdm e f s).stream = s.stream := rfl
@[simp] theorem modAdm_refs (e : EdId) (f : AdmCounters → AdmCounters) : (modAdm e f s).refs = { s.refs with counters := tmodify s.refs.counters e f } := rfl
@[simp] theorem modAdm_splices (e : EdId) (f : AdmCounters → AdmCounters) : (modAdm e f s).splices = s.splices := rfl
@[simp] theorem modAdm_comp (e : EdId) (f : AdmCounters → AdmCounters) : (modAdm e f s).comp = s.comp := rfl
@[simp] theorem modAdm_dlv (e : EdId) (f : AdmCounters → AdmCounters) : (modAdm e f s).dlv = s.dlv := rfl
@[simp] theorem modAdm_chans (e : EdId) (f : AdmCounters → AdmCounters) : (modAdm e f s).chans = s.chans := rfl
@[simp] theorem modAdm_eds (e : EdId) (f : AdmCounters → AdmCounters) : (modAdm e f s).eds = s.eds := rfl
@[simp] theorem modAdm_time (e : EdId) (f : AdmCounters → AdmCounters) : (modAdm e f s).time = s.time := rfl
@[simp] theorem modAdm_cmd (e : EdId) (f : AdmCounters → AdmCounters) : (modAdm e f s).cmd = s.cmd := rfl
@[simp] theorem modAdm_rep (e : EdId) (f : AdmCounters → AdmCounters) : (modAdm e f s).rep = s.rep := rfl
@[simp] theorem modAdm_pending (e : EdId) (f : AdmCounters → AdmCounters) : (modAdm e f s).pending = s.pending := rfl

/-! ### issue -/

@[simp] theorem issue_path (k : DownKind) (r : Request) : (issue k r s).path = s.path := rfl
@[simp] theorem issue_down (k : DownKind) (r : Request) : (issue k r s).down = s.down ++ [⟨k, r⟩] := rfl
@[simp] theorem issue_rings (k : DownKind) (r : Request) : (issue k r s).rings = s.rings := rfl
@[simp] theorem issue_stream (k : DownKind) (r : Request) : (issue k r s).stream = s.stream := rfl
@[simp] theorem issue_refs (k : DownKind) (r : Request) : (issue k r s).refs = s.refs := rfl
@[simp] theorem issue_splices (k : DownKind) (r : Request) : (issue k r s).splices = s.splices := rfl
@[simp] theorem issue_comp (k : DownKind) (r : Request) : (issue k r s).comp = s.comp := rfl
@[simp] theorem issue_dlv (k : DownKind) (r : Request) : (issue k r s).dlv = s.dlv := rfl
@[simp] theorem issue_chans (k : DownKind) (r : Request) : (issue k r s).chans = s.chans := rfl
@[simp] theorem issue_eds (k : DownKind) (r : Request) : (issue k r s).eds = s.eds := rfl
@[simp] theorem issue_time (k : DownKind) (r : Request) : (issue k r s).time = s.time := rfl
@[simp] theorem issue_cmd (k : DownKind) (r : Request) : (issue k r s).cmd = s.cmd := rfl
@[simp] theorem issue_rep (k : DownKind) (r : Request) : (issue k r s).rep = s.rep := rfl
@[simp] theorem issue_pending (k : DownKind) (r : Request) : (issue k r s).pending = s.pending := rfl

/-! ### openReq -/

@[simp] theorem openReq_path (tag : PortTag) (c : OpenClass) (rsp : Option Response) : (openReq tag c rsp s).path = { s.path with openReqs := s.path.openReqs ++ [⟨tag, c, rsp⟩] } := rfl
@[simp] theorem openReq_down (tag : PortTag) (c : OpenClass) (rsp : Option Response) : (openReq tag c rsp s).down = s.down := rfl
@[simp] theorem openReq_rings (tag : PortTag) (c : OpenClass) (rsp : Option Response) : (openReq tag c rsp s).rings = s.rings := rfl
@[simp] theorem openReq_stream (tag : PortTag) (c : OpenClass) (rsp : Option Response) : (openReq tag c rsp s).stream = s.stream := rfl
@[simp] theorem openReq_refs (tag : PortTag) (c : OpenClass) (rsp : Option Response) : (openReq tag c rsp s).refs = s.refs := rfl
@[simp] theorem openReq_splices (tag : PortTag) (c : OpenClass) (rsp : Option Response) : (openReq tag c rsp s).splices = s.splices := rfl
@[simp] theorem openReq_comp (tag : PortTag) (c : OpenClass) (rsp : Option Response) : (openReq tag c rsp s).comp = s.comp := rfl
@[simp] theorem openReq_dlv (tag : PortTag) (c : OpenClass) (rsp : Option Response) : (openReq tag c rsp s).dlv = s.dlv := rfl
@[simp] theorem openReq_chans (tag : PortTag) (c : OpenClass) (rsp : Option Response) : (openReq tag c rsp s).chans = s.chans := rfl
@[simp] theorem openReq_eds (tag : PortTag) (c : OpenClass) (rsp : Option Response) : (openReq tag c rsp s).eds = s.eds := rfl
@[simp] theorem openReq_time (tag : PortTag) (c : OpenClass) (rsp : Option Response) : (openReq tag c rsp s).time = s.time := rfl
@[simp] theorem openReq_cmd (tag : PortTag) (c : OpenClass) (rsp : Option Response) : (openReq tag c rsp s).cmd = s.cmd := rfl
@[simp] theorem openReq_rep (tag : PortTag) (c : OpenClass) (rsp : Option Response) : (openReq tag c rsp s).rep = s.rep := rfl
@[simp] theorem openReq_pending (tag : PortTag) (c : OpenClass) (rsp : Option Response) : (openReq tag c rsp s).pending = s.pending := rfl

/-! ### readyForwarded -/

@[simp] theorem readyForwarded_down (tag : PortTag) (rsp : Response) : (readyForwarded tag rsp s).down = s.down := rfl
@[simp] theorem readyForwarded_rings (tag : PortTag) (rsp : Response) : (readyForwarded tag rsp s).rings = s.rings := rfl
@[simp] theorem readyForwarded_stream (tag : PortTag) (rsp : Response) : (readyForwarded tag rsp s).stream = s.stream := rfl
@[simp] theorem readyForwarded_refs (tag : PortTag) (rsp : Response) : (readyForwarded tag rsp s).refs = s.refs := rfl
@[simp] theorem readyForwarded_splices (tag : PortTag) (rsp : Response) : (readyForwarded tag rsp s).splices = s.splices := rfl
@[simp] theorem readyForwarded_comp (tag : PortTag) (rsp : Response) : (readyForwarded tag rsp s).comp = s.comp := rfl
@[simp] theorem readyForwarded_dlv (tag : PortTag) (rsp : Response) : (readyForwarded tag rsp s).dlv = s.dlv := rfl
@[simp] theorem readyForwarded_chans (tag : PortTag) (rsp : Response) : (readyForwarded tag rsp s).chans = s.chans := rfl
@[simp] theorem readyForwarded_eds (tag : PortTag) (rsp : Response) : (readyForwarded tag rsp s).eds = s.eds := rfl
@[simp] theorem readyForwarded_time (tag : PortTag) (rsp : Response) : (readyForwarded tag rsp s).time = s.time := rfl
@[simp] theorem readyForwarded_cmd (tag : PortTag) (rsp : Response) : (readyForwarded tag rsp s).cmd = s.cmd := rfl
@[simp] theorem readyForwarded_rep (tag : PortTag) (rsp : Response) : (readyForwarded tag rsp s).rep = s.rep := rfl
@[simp] theorem readyForwarded_pending (tag : PortTag) (rsp : Response) : (readyForwarded tag rsp s).pending = s.pending := rfl

/-! ### readyFeed -/

@[simp] theorem readyFeed_down (e : EdId) (cells : List Byte) : (readyFeed e cells s).down = s.down := rfl
@[simp] theorem readyFeed_rings (e : EdId) (cells : List Byte) : (readyFeed e cells s).rings = s.rings := rfl
@[simp] theorem readyFeed_stream (e : EdId) (cells : List Byte) : (readyFeed e cells s).stream = s.stream := rfl
@[simp] theorem readyFeed_refs (e : EdId) (cells : List Byte) : (readyFeed e cells s).refs = s.refs := rfl
@[simp] theorem readyFeed_splices (e : EdId) (cells : List Byte) : (readyFeed e cells s).splices = s.splices := rfl
@[simp] theorem readyFeed_comp (e : EdId) (cells : List Byte) : (readyFeed e cells s).comp = s.comp := rfl
@[simp] theorem readyFeed_dlv (e : EdId) (cells : List Byte) : (readyFeed e cells s).dlv = s.dlv := rfl
@[simp] theorem readyFeed_chans (e : EdId) (cells : List Byte) : (readyFeed e cells s).chans = s.chans := rfl
@[simp] theorem readyFeed_eds (e : EdId) (cells : List Byte) : (readyFeed e cells s).eds = s.eds := rfl
@[simp] theorem readyFeed_time (e : EdId) (cells : List Byte) : (readyFeed e cells s).time = s.time := rfl
@[simp] theorem readyFeed_cmd (e : EdId) (cells : List Byte) : (readyFeed e cells s).cmd = s.cmd := rfl
@[simp] theorem readyFeed_rep (e : EdId) (cells : List Byte) : (readyFeed e cells s).rep = s.rep := rfl
@[simp] theorem readyFeed_pending (e : EdId) (cells : List Byte) : (readyFeed e cells s).pending = s.pending := rfl

/-! ### Accessors -/

theorem ringOf_modRing (i j : RingId) (f : RingRecord → RingRecord) :
    ringOf (modRing i f s) j = if j = i then f (ringOf s i) else ringOf s j := tget_tmodify _ _ _ _

@[simp] theorem ringOf_modRing_same (i : RingId) (f : RingRecord → RingRecord) : ringOf (modRing i f s) i = f (ringOf s i) := tget_tmodify_same _ _ _

theorem ringOf_congr {s t : State} (h : t.rings = s.rings) (i : RingId) : ringOf t i = ringOf s i := by simp only [ringOf, h]

theorem edOf_modEd (e j : EdId) (f : EditionRecord → EditionRecord) :
    edOf (modEd e f s) j = if j = e then f (edOf s e) else edOf s j := tget_tmodify _ _ _ _

@[simp] theorem edOf_modEd_same (e : EdId) (f : EditionRecord → EditionRecord) : edOf (modEd e f s) e = f (edOf s e) := tget_tmodify_same _ _ _

theorem edOf_congr {s t : State} (h : t.eds = s.eds) (e : EdId) : edOf t e = edOf s e := by simp only [edOf, h]

theorem compOf_modComp (e j : EdId) (f : CompRecord → CompRecord) :
    compOf (modComp e f s) j = if j = e then f (compOf s e) else compOf s j := tget_tmodify _ _ _ _

@[simp] theorem compOf_modComp_same (e : EdId) (f : CompRecord → CompRecord) : compOf (modComp e f s) e = f (compOf s e) := tget_tmodify_same _ _ _

theorem compOf_congr {s t : State} (h : t.comp = s.comp) (e : EdId) : compOf t e = compOf s e := by simp only [compOf, h]

theorem feedOf_modFeed (e j : EdId) (f : FeedRecord → FeedRecord) :
    feedOf (modFeed e f s) j = if j = e then f (feedOf s e) else feedOf s j := tget_tmodify _ _ _ _

@[simp] theorem feedOf_modFeed_same (e : EdId) (f : FeedRecord → FeedRecord) : feedOf (modFeed e f s) e = f (feedOf s e) := tget_tmodify_same _ _ _

theorem feedOf_congr {s t : State} (h : t.dlv = s.dlv) (e : EdId) : feedOf t e = feedOf s e := by simp only [feedOf, h]

theorem chanOf_modChan (e j : EdId) (f : Channel → Channel) :
    chanOf (modChan e f s) j = if j = e then f (chanOf s e) else chanOf s j := tget_tmodify _ _ _ _

@[simp] theorem chanOf_modChan_same (e : EdId) (f : Channel → Channel) : chanOf (modChan e f s) e = f (chanOf s e) := tget_tmodify_same _ _ _

theorem chanOf_congr {s t : State} (h : t.chans = s.chans) (e : EdId) : chanOf t e = chanOf s e := by simp only [chanOf, h]

theorem machineOf_modMachine (e a : EdId) (p b : ProgId) (f : SpliceMachine → SpliceMachine) :
    machineOf (modMachine e p f s) a b = if a = e ∧ b = p then f (machineOf s e p) else machineOf s a b :=
  tget2_tmodify2 _ _ _ _ _ _

@[simp] theorem machineOf_modMachine_same (e : EdId) (p : ProgId) (f : SpliceMachine → SpliceMachine) :
    machineOf (modMachine e p f s) e p = f (machineOf s e p) := tget2_tmodify2_same _ _ _ _

theorem machineOf_congr {s t : State} (h : t.splices = s.splices) (e : EdId) (p : ProgId) :
    machineOf t e p = machineOf s e p := by simp only [machineOf, h]

theorem queueOf_congr {s t : State} (h : t.refs = s.refs) (e : EdId) (p : ProgId) : queueOf t e p = queueOf s e p := by
  simp only [queueOf, h]

@[simp] theorem ringOf_modEd (e : EdId) (f : EditionRecord → EditionRecord) (j : RingId) :
    ringOf (modEd e f s) j = ringOf s j := rfl

@[simp] theorem ringOf_modComp (e : EdId) (f : CompRecord → CompRecord) (j : RingId) :
    ringOf (modComp e f s) j = ringOf s j := rfl

@[simp] theorem ringOf_modFeed (e : EdId) (f : FeedRecord → FeedRecord) (j : RingId) :
    ringOf (modFeed e f s) j = ringOf s j := rfl

@[simp] theorem ringOf_modChan (e : EdId) (f : Channel → Channel) (j : RingId) :
    ringOf (modChan e f s) j = ringOf s j := rfl

@[simp] theorem ringOf_modMachine (e : EdId) (p : ProgId) (f : SpliceMachine → SpliceMachine) (j : RingId) :
    ringOf (modMachine e p f s) j = ringOf s j := rfl

@[simp] theorem ringOf_modAdm (e : EdId) (f : AdmCounters → AdmCounters) (j : RingId) :
    ringOf (modAdm e f s) j = ringOf s j := rfl

@[simp] theorem ringOf_issue (k : DownKind) (r : Request) (j : RingId) :
    ringOf (issue k r s) j = ringOf s j := rfl

@[simp] theorem ringOf_openReq (tag : PortTag) (c : OpenClass) (rsp : Option Response) (j : RingId) :
    ringOf (openReq tag c rsp s) j = ringOf s j := rfl

@[simp] theorem ringOf_readyForwarded (tag : PortTag) (rsp : Response) (j : RingId) :
    ringOf (readyForwarded tag rsp s) j = ringOf s j := rfl

@[simp] theorem ringOf_readyFeed (e : EdId) (cells : List Byte) (j : RingId) :
    ringOf (readyFeed e cells s) j = ringOf s j := rfl

@[simp] theorem edOf_modRing (i : RingId) (f : RingRecord → RingRecord) (j : EdId) :
    edOf (modRing i f s) j = edOf s j := rfl

@[simp] theorem edOf_modComp (e : EdId) (f : CompRecord → CompRecord) (j : EdId) :
    edOf (modComp e f s) j = edOf s j := rfl

@[simp] theorem edOf_modFeed (e : EdId) (f : FeedRecord → FeedRecord) (j : EdId) :
    edOf (modFeed e f s) j = edOf s j := rfl

@[simp] theorem edOf_modChan (e : EdId) (f : Channel → Channel) (j : EdId) :
    edOf (modChan e f s) j = edOf s j := rfl

@[simp] theorem edOf_modMachine (e : EdId) (p : ProgId) (f : SpliceMachine → SpliceMachine) (j : EdId) :
    edOf (modMachine e p f s) j = edOf s j := rfl

@[simp] theorem edOf_modAdm (e : EdId) (f : AdmCounters → AdmCounters) (j : EdId) :
    edOf (modAdm e f s) j = edOf s j := rfl

@[simp] theorem edOf_issue (k : DownKind) (r : Request) (j : EdId) :
    edOf (issue k r s) j = edOf s j := rfl

@[simp] theorem edOf_openReq (tag : PortTag) (c : OpenClass) (rsp : Option Response) (j : EdId) :
    edOf (openReq tag c rsp s) j = edOf s j := rfl

@[simp] theorem edOf_readyForwarded (tag : PortTag) (rsp : Response) (j : EdId) :
    edOf (readyForwarded tag rsp s) j = edOf s j := rfl

@[simp] theorem edOf_readyFeed (e : EdId) (cells : List Byte) (j : EdId) :
    edOf (readyFeed e cells s) j = edOf s j := rfl

@[simp] theorem compOf_modRing (i : RingId) (f : RingRecord → RingRecord) (j : EdId) :
    compOf (modRing i f s) j = compOf s j := rfl

@[simp] theorem compOf_modEd (e : EdId) (f : EditionRecord → EditionRecord) (j : EdId) :
    compOf (modEd e f s) j = compOf s j := rfl

@[simp] theorem compOf_modFeed (e : EdId) (f : FeedRecord → FeedRecord) (j : EdId) :
    compOf (modFeed e f s) j = compOf s j := rfl

@[simp] theorem compOf_modChan (e : EdId) (f : Channel → Channel) (j : EdId) :
    compOf (modChan e f s) j = compOf s j := rfl

@[simp] theorem compOf_modMachine (e : EdId) (p : ProgId) (f : SpliceMachine → SpliceMachine) (j : EdId) :
    compOf (modMachine e p f s) j = compOf s j := rfl

@[simp] theorem compOf_modAdm (e : EdId) (f : AdmCounters → AdmCounters) (j : EdId) :
    compOf (modAdm e f s) j = compOf s j := rfl

@[simp] theorem compOf_issue (k : DownKind) (r : Request) (j : EdId) :
    compOf (issue k r s) j = compOf s j := rfl

@[simp] theorem compOf_openReq (tag : PortTag) (c : OpenClass) (rsp : Option Response) (j : EdId) :
    compOf (openReq tag c rsp s) j = compOf s j := rfl

@[simp] theorem compOf_readyForwarded (tag : PortTag) (rsp : Response) (j : EdId) :
    compOf (readyForwarded tag rsp s) j = compOf s j := rfl

@[simp] theorem compOf_readyFeed (e : EdId) (cells : List Byte) (j : EdId) :
    compOf (readyFeed e cells s) j = compOf s j := rfl

@[simp] theorem feedOf_modRing (i : RingId) (f : RingRecord → RingRecord) (j : EdId) :
    feedOf (modRing i f s) j = feedOf s j := rfl

@[simp] theorem feedOf_modEd (e : EdId) (f : EditionRecord → EditionRecord) (j : EdId) :
    feedOf (modEd e f s) j = feedOf s j := rfl

@[simp] theorem feedOf_modComp (e : EdId) (f : CompRecord → CompRecord) (j : EdId) :
    feedOf (modComp e f s) j = feedOf s j := rfl

@[simp] theorem feedOf_modChan (e : EdId) (f : Channel → Channel) (j : EdId) :
    feedOf (modChan e f s) j = feedOf s j := rfl

@[simp] theorem feedOf_modMachine (e : EdId) (p : ProgId) (f : SpliceMachine → SpliceMachine) (j : EdId) :
    feedOf (modMachine e p f s) j = feedOf s j := rfl

@[simp] theorem feedOf_modAdm (e : EdId) (f : AdmCounters → AdmCounters) (j : EdId) :
    feedOf (modAdm e f s) j = feedOf s j := rfl

@[simp] theorem feedOf_issue (k : DownKind) (r : Request) (j : EdId) :
    feedOf (issue k r s) j = feedOf s j := rfl

@[simp] theorem feedOf_openReq (tag : PortTag) (c : OpenClass) (rsp : Option Response) (j : EdId) :
    feedOf (openReq tag c rsp s) j = feedOf s j := rfl

@[simp] theorem feedOf_readyForwarded (tag : PortTag) (rsp : Response) (j : EdId) :
    feedOf (readyForwarded tag rsp s) j = feedOf s j := rfl

@[simp] theorem feedOf_readyFeed (e : EdId) (cells : List Byte) (j : EdId) :
    feedOf (readyFeed e cells s) j = feedOf s j := rfl

@[simp] theorem chanOf_modRing (i : RingId) (f : RingRecord → RingRecord) (j : EdId) :
    chanOf (modRing i f s) j = chanOf s j := rfl

@[simp] theorem chanOf_modEd (e : EdId) (f : EditionRecord → EditionRecord) (j : EdId) :
    chanOf (modEd e f s) j = chanOf s j := rfl

@[simp] theorem chanOf_modComp (e : EdId) (f : CompRecord → CompRecord) (j : EdId) :
    chanOf (modComp e f s) j = chanOf s j := rfl

@[simp] theorem chanOf_modFeed (e : EdId) (f : FeedRecord → FeedRecord) (j : EdId) :
    chanOf (modFeed e f s) j = chanOf s j := rfl

@[simp] theorem chanOf_modMachine (e : EdId) (p : ProgId) (f : SpliceMachine → SpliceMachine) (j : EdId) :
    chanOf (modMachine e p f s) j = chanOf s j := rfl

@[simp] theorem chanOf_modAdm (e : EdId) (f : AdmCounters → AdmCounters) (j : EdId) :
    chanOf (modAdm e f s) j = chanOf s j := rfl

@[simp] theorem chanOf_issue (k : DownKind) (r : Request) (j : EdId) :
    chanOf (issue k r s) j = chanOf s j := rfl

@[simp] theorem chanOf_openReq (tag : PortTag) (c : OpenClass) (rsp : Option Response) (j : EdId) :
    chanOf (openReq tag c rsp s) j = chanOf s j := rfl

@[simp] theorem chanOf_readyForwarded (tag : PortTag) (rsp : Response) (j : EdId) :
    chanOf (readyForwarded tag rsp s) j = chanOf s j := rfl

@[simp] theorem chanOf_readyFeed (e : EdId) (cells : List Byte) (j : EdId) :
    chanOf (readyFeed e cells s) j = chanOf s j := rfl

@[simp] theorem machineOf_modRing (i : RingId) (f : RingRecord → RingRecord) (a : EdId) (b : ProgId) :
    machineOf (modRing i f s) a b = machineOf s a b := rfl

@[simp] theorem machineOf_modEd (e : EdId) (f : EditionRecord → EditionRecord) (a : EdId) (b : ProgId) :
    machineOf (modEd e f s) a b = machineOf s a b := rfl

@[simp] theorem machineOf_modComp (e : EdId) (f : CompRecord → CompRecord) (a : EdId) (b : ProgId) :
    machineOf (modComp e f s) a b = machineOf s a b := rfl

@[simp] theorem machineOf_modFeed (e : EdId) (f : FeedRecord → FeedRecord) (a : EdId) (b : ProgId) :
    machineOf (modFeed e f s) a b = machineOf s a b := rfl

@[simp] theorem machineOf_modChan (e : EdId) (f : Channel → Channel) (a : EdId) (b : ProgId) :
    machineOf (modChan e f s) a b = machineOf s a b := rfl

@[simp] theorem machineOf_modAdm (e : EdId) (f : AdmCounters → AdmCounters) (a : EdId) (b : ProgId) :
    machineOf (modAdm e f s) a b = machineOf s a b := rfl

@[simp] theorem machineOf_issue (k : DownKind) (r : Request) (a : EdId) (b : ProgId) :
    machineOf (issue k r s) a b = machineOf s a b := rfl

@[simp] theorem machineOf_openReq (tag : PortTag) (c : OpenClass) (rsp : Option Response) (a : EdId) (b : ProgId) :
    machineOf (openReq tag c rsp s) a b = machineOf s a b := rfl

@[simp] theorem machineOf_readyForwarded (tag : PortTag) (rsp : Response) (a : EdId) (b : ProgId) :
    machineOf (readyForwarded tag rsp s) a b = machineOf s a b := rfl

@[simp] theorem machineOf_readyFeed (e : EdId) (cells : List Byte) (a : EdId) (b : ProgId) :
    machineOf (readyFeed e cells s) a b = machineOf s a b := rfl

@[simp] theorem queueOf_modRing (i : RingId) (f : RingRecord → RingRecord) (a : EdId) (b : ProgId) :
    queueOf (modRing i f s) a b = queueOf s a b := rfl

@[simp] theorem queueOf_modEd (e : EdId) (f : EditionRecord → EditionRecord) (a : EdId) (b : ProgId) :
    queueOf (modEd e f s) a b = queueOf s a b := rfl

@[simp] theorem queueOf_modComp (e : EdId) (f : CompRecord → CompRecord) (a : EdId) (b : ProgId) :
    queueOf (modComp e f s) a b = queueOf s a b := rfl

@[simp] theorem queueOf_modFeed (e : EdId) (f : FeedRecord → FeedRecord) (a : EdId) (b : ProgId) :
    queueOf (modFeed e f s) a b = queueOf s a b := rfl

@[simp] theorem queueOf_modChan (e : EdId) (f : Channel → Channel) (a : EdId) (b : ProgId) :
    queueOf (modChan e f s) a b = queueOf s a b := rfl

@[simp] theorem queueOf_modMachine (e : EdId) (p : ProgId) (f : SpliceMachine → SpliceMachine) (a : EdId) (b : ProgId) :
    queueOf (modMachine e p f s) a b = queueOf s a b := rfl

@[simp] theorem queueOf_issue (k : DownKind) (r : Request) (a : EdId) (b : ProgId) :
    queueOf (issue k r s) a b = queueOf s a b := rfl

@[simp] theorem queueOf_openReq (tag : PortTag) (c : OpenClass) (rsp : Option Response) (a : EdId) (b : ProgId) :
    queueOf (openReq tag c rsp s) a b = queueOf s a b := rfl

@[simp] theorem queueOf_readyForwarded (tag : PortTag) (rsp : Response) (a : EdId) (b : ProgId) :
    queueOf (readyForwarded tag rsp s) a b = queueOf s a b := rfl

@[simp] theorem queueOf_readyFeed (e : EdId) (cells : List Byte) (a : EdId) (b : ProgId) :
    queueOf (readyFeed e cells s) a b = queueOf s a b := rfl

@[simp] theorem queueOf_modAdm (e : EdId) (f : AdmCounters → AdmCounters) (a : EdId) (b : ProgId) :
    queueOf (modAdm e f s) a b = queueOf s a b := rfl

end Sys2Proof.Machine
end

