-- ==== Sys2Proof/Laws/Frame.lean ====
section
/-! SUPPORT. Frames: how they compose, and which blocks each shared operation may touch. -/

-- One theorem at a time: elaborating the many small theorems below at once takes more threads than the sandbox allows.
set_option Elab.async false

namespace Sys2Proof.Machine

/-! ## Composing frames -/

theorem Frame.refl {bs : List Block} (s : State) : Frame bs s s := by
  constructor <;> exact .inr rfl

theorem Frame.trans {bs : List Block} {s t u : State} (h : Frame bs s t) (g : Frame bs t u) : Frame bs s u where
  path := h.path.elim .inl fun a => g.path.elim .inl fun b => .inr (b.trans a)
  down := h.down.elim .inl fun a => g.down.elim .inl fun b => .inr (b.trans a)
  rings := h.rings.elim .inl fun a => g.rings.elim .inl fun b => .inr (b.trans a)
  stream := h.stream.elim .inl fun a => g.stream.elim .inl fun b => .inr (b.trans a)
  refs := h.refs.elim .inl fun a => g.refs.elim .inl fun b => .inr (b.trans a)
  splices := h.splices.elim .inl fun a => g.splices.elim .inl fun b => .inr (b.trans a)
  comp := h.comp.elim .inl fun a => g.comp.elim .inl fun b => .inr (b.trans a)
  dlv := h.dlv.elim .inl fun a => g.dlv.elim .inl fun b => .inr (b.trans a)
  chans := h.chans.elim .inl fun a => g.chans.elim .inl fun b => .inr (b.trans a)
  eds := h.eds.elim .inl fun a => g.eds.elim .inl fun b => .inr (b.trans a)
  time := h.time.elim .inl fun a => g.time.elim .inl fun b => .inr (b.trans a)
  cmd := h.cmd.elim .inl fun a => g.cmd.elim .inl fun b => .inr (b.trans a)
  rep := h.rep.elim .inl fun a => g.rep.elim .inl fun b => .inr (b.trans a)
  pending := h.pending.elim .inl fun a => g.pending.elim .inl fun b => .inr (b.trans a)

/-- A frame with more blocks. -/
theorem Frame.mono {bs cs : List Block} {s t : State} (h : Frame bs s t)
    (w : bs.all (fun b => cs.contains b) = true := by decide) : Frame cs s t := by
  have k : ∀ b, b ∈ bs → b ∈ cs := by
    intro b hb
    have := List.all_eq_true.mp w b hb
    simpa using this
  exact ⟨h.path.imp_left (k _),
    h.down.imp_left (k _),
    h.rings.imp_left (k _),
    h.stream.imp_left (k _),
    h.refs.imp_left (k _),
    h.splices.imp_left (k _),
    h.comp.imp_left (k _),
    h.dlv.imp_left (k _),
    h.chans.imp_left (k _),
    h.eds.imp_left (k _),
    h.time.imp_left (k _),
    h.cmd.imp_left (k _),
    h.rep.imp_left (k _),
    h.pending.imp_left (k _)⟩

/-- Two steps, each with a smaller frame. -/
theorem Frame.andThen {bs cs ds : List Block} {s t u : State} (h : Frame bs s t) (g : Frame cs t u)
    (w : bs.all (fun b => ds.contains b) = true := by decide) (v : cs.all (fun b => ds.contains b) = true := by decide) :
    Frame ds s u := (h.mono w).trans (g.mono v)

theorem Frame.foldl {α : Type} {bs : List Block} {f : State → α → State} (h : ∀ s a, Frame bs s (f s a)) (l : List α)
    (s : State) : Frame bs s (l.foldl f s) := by
  induction l generalizing s with
  | nil => exact .refl s
  | cons a l ih => exact (h s a).trans (ih _)

theorem Frame.path_eq {bs : List Block} {s t : State} (h : Frame bs s t) (n : .path ∉ bs := by decide) :
    t.path = s.path := h.path.resolve_left n

theorem Frame.down_eq {bs : List Block} {s t : State} (h : Frame bs s t) (n : .down ∉ bs := by decide) :
    t.down = s.down := h.down.resolve_left n

theorem Frame.rings_eq {bs : List Block} {s t : State} (h : Frame bs s t) (n : .rings ∉ bs := by decide) :
    t.rings = s.rings := h.rings.resolve_left n

theorem Frame.stream_eq {bs : List Block} {s t : State} (h : Frame bs s t) (n : .stream ∉ bs := by decide) :
    t.stream = s.stream := h.stream.resolve_left n

theorem Frame.refs_eq {bs : List Block} {s t : State} (h : Frame bs s t) (n : .refs ∉ bs := by decide) :
    t.refs = s.refs := h.refs.resolve_left n

theorem Frame.splices_eq {bs : List Block} {s t : State} (h : Frame bs s t) (n : .splices ∉ bs := by decide) :
    t.splices = s.splices := h.splices.resolve_left n

theorem Frame.comp_eq {bs : List Block} {s t : State} (h : Frame bs s t) (n : .comp ∉ bs := by decide) :
    t.comp = s.comp := h.comp.resolve_left n

theorem Frame.dlv_eq {bs : List Block} {s t : State} (h : Frame bs s t) (n : .dlv ∉ bs := by decide) :
    t.dlv = s.dlv := h.dlv.resolve_left n

theorem Frame.chans_eq {bs : List Block} {s t : State} (h : Frame bs s t) (n : .chans ∉ bs := by decide) :
    t.chans = s.chans := h.chans.resolve_left n

theorem Frame.eds_eq {bs : List Block} {s t : State} (h : Frame bs s t) (n : .eds ∉ bs := by decide) :
    t.eds = s.eds := h.eds.resolve_left n

theorem Frame.time_eq {bs : List Block} {s t : State} (h : Frame bs s t) (n : .time ∉ bs := by decide) :
    t.time = s.time := h.time.resolve_left n

theorem Frame.cmd_eq {bs : List Block} {s t : State} (h : Frame bs s t) (n : .cmd ∉ bs := by decide) :
    t.cmd = s.cmd := h.cmd.resolve_left n

theorem Frame.rep_eq {bs : List Block} {s t : State} (h : Frame bs s t) (n : .rep ∉ bs := by decide) :
    t.rep = s.rep := h.rep.resolve_left n

theorem Frame.pending_eq {bs : List Block} {s t : State} (h : Frame bs s t) (n : .pending ∉ bs := by decide) :
    t.pending = s.pending := h.pending.resolve_left n

/-! ## One block replaced -/

theorem frame_path (s : State) (x : PathUnit) : Frame [.path] s { s with path := x } := by
  constructor <;> first | exact .inr rfl | exact .inl (by decide)

theorem frame_down (s : State) (x : List DownReq) : Frame [.down] s { s with down := x } := by
  constructor <;> first | exact .inr rfl | exact .inl (by decide)

theorem frame_rings (s : State) (x : RingUnit) : Frame [.rings] s { s with rings := x } := by
  constructor <;> first | exact .inr rfl | exact .inl (by decide)

theorem frame_stream (s : State) (x : StreamTable) : Frame [.stream] s { s with stream := x } := by
  constructor <;> first | exact .inr rfl | exact .inl (by decide)

theorem frame_refs (s : State) (x : RefStore) : Frame [.refs] s { s with refs := x } := by
  constructor <;> first | exact .inr rfl | exact .inl (by decide)

theorem frame_splices (s : State) (x : SpliceUnit) : Frame [.splices] s { s with splices := x } := by
  constructor <;> first | exact .inr rfl | exact .inl (by decide)

theorem frame_comp (s : State) (x : Composer) : Frame [.comp] s { s with comp := x } := by
  constructor <;> first | exact .inr rfl | exact .inl (by decide)

theorem frame_dlv (s : State) (x : Delivery) : Frame [.dlv] s { s with dlv := x } := by
  constructor <;> first | exact .inr rfl | exact .inl (by decide)

theorem frame_chans (s : State) (x : PerEdition Channel) : Frame [.chans] s { s with chans := x } := by
  constructor <;> first | exact .inr rfl | exact .inl (by decide)

theorem frame_eds (s : State) (x : PerEdition EditionRecord) : Frame [.eds] s { s with eds := x } := by
  constructor <;> first | exact .inr rfl | exact .inl (by decide)

theorem frame_time (s : State) (x : TimeUnit) : Frame [.time] s { s with time := x } := by
  constructor <;> first | exact .inr rfl | exact .inl (by decide)

theorem frame_cmd (s : State) (x : CommandUnit) : Frame [.cmd] s { s with cmd := x } := by
  constructor <;> first | exact .inr rfl | exact .inl (by decide)

theorem frame_rep (s : State) (x : ReportWriter) : Frame [.rep] s { s with rep := x } := by
  constructor <;> first | exact .inr rfl | exact .inl (by decide)

theorem frame_pending (s : State) (x : List Instr) : Frame [.pending] s { s with pending := x } := by
  constructor <;> first | exact .inr rfl | exact .inl (by decide)

/-! ## Shared operations -/

theorem modRing_frame (i : RingId) (f : RingRecord → RingRecord) (s : State) : Frame [.rings] s (modRing i f s) :=
  frame_rings s _

theorem modEd_frame (e : EdId) (f : EditionRecord → EditionRecord) (s : State) : Frame [.eds] s (modEd e f s) :=
  frame_eds s _

theorem modComp_frame (e : EdId) (f : CompRecord → CompRecord) (s : State) : Frame [.comp] s (modComp e f s) :=
  frame_comp s _

theorem modFeed_frame (e : EdId) (f : FeedRecord → FeedRecord) (s : State) : Frame [.dlv] s (modFeed e f s) :=
  frame_dlv s _

theorem modChan_frame (e : EdId) (f : Channel → Channel) (s : State) : Frame [.chans] s (modChan e f s) :=
  frame_chans s _

theorem modMachine_frame (e : EdId) (p : ProgId) (f : SpliceMachine → SpliceMachine) (s : State) :
    Frame [.splices] s (modMachine e p f s) := frame_splices s _

theorem modAdm_frame (e : EdId) (f : AdmCounters → AdmCounters) (s : State) : Frame [.refs] s (modAdm e f s) :=
  frame_refs s _

theorem issue_frame (k : DownKind) (r : Request) (s : State) : Frame [.down] s (issue k r s) := frame_down s _

theorem openReq_frame (tag : PortTag) (c : OpenClass) (rsp : Option Response) (s : State) :
    Frame [.path] s (openReq tag c rsp s) := frame_path s _

theorem readyForwarded_frame (tag : PortTag) (rsp : Response) (s : State) :
    Frame [.path] s (readyForwarded tag rsp s) := frame_path s _

theorem readyFeed_frame (e : EdId) (cells : List Byte) (s : State) : Frame [.path] s (readyFeed e cells s) :=
  frame_path s _

theorem forward_frame (k : DownKind) (r : Request) (s : State) : Frame [.path, .down] s (forward k r s) :=
  (openReq_frame _ _ _ _).andThen (issue_frame _ _ _)

theorem issueIndex_frame (s : State) : Frame [.down, .rep] s (issueIndex s) :=
  (frame_rep s _).andThen (issue_frame _ _ _)

theorem startWrite_frame (s : State) : Frame [.down, .rep] s (startWrite s) := by
  unfold startWrite
  split
  · exact (frame_rep s _).andThen (issue_frame _ _ _)
  · exact .refl s

theorem handOver_frame (b : Report) (s : State) : Frame [.down, .rep] s (handOver b s) := by
  unfold handOver
  split
  · exact (frame_rep s _).andThen (startWrite_frame _)
  · exact (frame_rep s _).mono

theorem handOverAll_frame (bs : List Report) (s : State) : Frame [.down, .rep] s (handOverAll bs s) :=
  .foldl (fun s b => handOver_frame b s) bs s

theorem setRingAct_frame (n : Nat) (i : Bool) (b : Addr) (s : State) : Frame [.down, .rep] s (setRingAct n i b s) :=
  (frame_rep s _).andThen (issueIndex_frame _)

theorem countStream_frame (i : Nat) (s : State) : Frame [.stream, .down, .rep] s (countStream i s) := by
  unfold countStream
  dsimp only
  split
  · exact (frame_stream s _).andThen (handOver_frame _ _)
  · exact (frame_stream s _).mono

theorem countRefs_frame (n : EntryNo) (s : State) : Frame [.refs, .down, .rep] s (countRefs n s) := by
  unfold countRefs
  dsimp only
  split
  · exact (frame_refs s _).andThen (handOver_frame _ _)
  · exact (frame_refs s _).mono

theorem discardStale_frame (e : EdId) (p : ProgId) (n : EntryNo) (c : StaleCause) (s : State) :
    Frame [.refs, .comp] s (discardStale e p n c s) :=
  (frame_refs s _).andThen (modComp_frame _ _ _)

theorem readRef_frame (e : EdId) (p : ProgId) (n : EntryNo) (s : State) :
    Frame [.refs, .comp, .down, .rep] s (readRef e p n s).1 := by
  unfold readRef
  dsimp only
  split
  · exact .refl s
  · exact (frame_refs s _).andThen (countRefs_frame _ _)
  · exact (discardStale_frame _ _ _ _ s).andThen (handOver_frame _ _)

theorem upsetRefs_frame (us : List Upset) (s : State) : Frame [.refs] s (upsetRefs us s) := frame_refs s _

theorem elapse_frame (n : Nat) (s : State) : Frame [.time, .rings, .eds] s (elapse n s) := by
  constructor <;> first | exact .inr rfl | exact .inl (by decide)

/-! ## Splice machines and channels -/

theorem dropWait_frame (e : EdId) (s : State) : Frame [.splices] s (dropWait e s) := frame_splices s _

theorem endChain_frame (e : EdId) (st : EndStatus) (c : CheckCode) (a : Nat) (tag : Tag16) (s : State) :
    Frame [.splices, .down, .rep, .chans] s (endChain e st c a tag s) :=
  (((frame_down s _).andThen (dropWait_frame e _) : Frame [.splices, .down] _ _).andThen (handOver_frame _ _)
    : Frame [.splices, .down, .rep] _ _).andThen (modChan_frame _ _ _)

theorem stopChain_frame (e : EdId) (st : EndStatus) (s : State) :
    Frame [.splices, .down, .rep, .chans] s (stopChain e st s) := by
  unfold stopChain
  dsimp only
  split
  · exact .refl s
  · exact endChain_frame _ _ _ _ _ _

theorem fetchWord_frame (e : EdId) (s : State) : Frame [.splices, .down, .rep, .chans] s (fetchWord e s) := by
  unfold fetchWord
  dsimp only
  split
  · exact endChain_frame _ _ _ _ _ _
  split
  · exact endChain_frame _ _ _ _ _ _
  · exact (modChan_frame _ _ s).andThen (issue_frame _ _ _)

theorem goOn_frame (e : EdId) (s : State) : Frame [.splices, .down, .rep, .chans] s (goOn e s) := by
  unfold goOn
  split
  · split
    · exact (modChan_frame _ _ s).mono
    · exact fetchWord_frame e s
  · exact .refl s

theorem judgeOutcome_frame (e : EdId) (o : SpliceOutcome) (s : State) :
    Frame [.splices, .down, .rep, .chans] s (judgeOutcome e o s) := by
  unfold judgeOutcome
  split
  · split
    · split
      · exact endChain_frame _ _ _ _ _ _
      · exact goOn_frame e s
    · exact .refl s
  · exact .refl s

theorem outcomeToChannel_frame (e : EdId) (p : ProgId) (o : SpliceOutcome) (s : State) :
    Frame [.splices, .down, .rep, .chans] s (outcomeToChannel e p o s) := by
  unfold outcomeToChannel
  split
  · exact judgeOutcome_frame e o s
  · exact .refl s

theorem resolveOnly_frame (e : EdId) (p : ProgId) (sp : PendingSplice) (o : SpliceOutcome) (c : SpliceCause) (s : State) :
    Frame [.splices, .down, .rep] s (resolveOnly e p sp o c s) :=
  (modMachine_frame _ _ _ s).andThen (handOver_frame _ _)

theorem judgeArming_frame (e : EdId) (p : ProgId) (sp : PendingSplice) (s : State) :
    Frame [.splices, .down, .rep] s (judgeArming e p sp s).1 := by
  unfold judgeArming
  dsimp only
  split
  · exact resolveOnly_frame _ _ _ _ _ s
  split
  · exact resolveOnly_frame _ _ _ _ _ s
  split
  · exact (modMachine_frame _ _ _ s).mono
  · exact (modMachine_frame _ _ _ s).mono

theorem takeArming_frame (e : EdId) (p : ProgId) (sp : PendingSplice) (sync : Bool) (s : State) :
    Frame [.splices, .down, .rep, .chans] s (takeArming e p sp sync s) := by
  have h := judgeArming_frame e p sp s
  unfold takeArming
  split <;> rename_i heq <;> rw [heq] at h
  · split
    · exact h.andThen (judgeOutcome_frame _ _ _)
    · exact h.andThen (goOn_frame _ _)
  · split
    · exact h.andThen (modChan_frame _ _ _)
    · exact h.andThen (goOn_frame _ _)

theorem armFromChannel_frame (e : EdId) (w : SchedWord) (s : State) :
    Frame [.splices, .down, .rep, .chans] s (armFromChannel e w s) := by
  unfold armFromChannel
  split
  · exact .refl s
  · split
    · exact takeArming_frame _ _ _ _ _
    · exact (modMachine_frame _ _ _ s).andThen (modChan_frame _ _ _)

theorem takeWaiting_frame (e : EdId) (p : ProgId) (s : State) :
    Frame [.splices, .down, .rep, .chans] s (takeWaiting e p s) := by
  unfold takeWaiting
  split
  · dsimp only
    split
    · exact (modMachine_frame _ _ _ s).andThen (armFromChannel_frame _ _ _)
    · exact (modMachine_frame _ _ _ s).mono
  · exact .refl s

theorem resolve_frame (e : EdId) (p : ProgId) (sp : PendingSplice) (o : SpliceOutcome) (c : SpliceCause) (s : State) :
    Frame [.splices, .down, .rep, .chans] s (resolve e p sp o c s) := by
  unfold resolve
  dsimp only
  refine Frame.trans ((resolveOnly_frame e p sp o c s).mono) (Frame.trans ?_ (takeWaiting_frame e p _))
  split
  · exact outcomeToChannel_frame _ _ _ _
  · exact .refl _

theorem reachT_frame (e : EdId) (p : ProgId) (sp : PendingSplice) (s : State) :
    Frame [.splices, .down, .rep, .chans] s (reachT e p sp s) := by
  unfold reachT
  dsimp only
  split
  · exact (modMachine_frame _ _ _ s).andThen (resolve_frame _ _ _ _ _ _)
  · exact (modMachine_frame _ _ _ s).mono

theorem judgeLoad_frame (e : EdId) (p : ProgId) (s : State) :
    Frame [.splices, .down, .rep, .chans] s (judgeLoad e p s) := by
  unfold judgeLoad
  dsimp only
  split
  · exact .refl s
  · split
    · exact resolve_frame _ _ _ _ _ _
    · split
      · exact (modMachine_frame _ _ _ s).mono
      · exact .refl s
  · split
    · exact resolve_frame _ _ _ _ _ _
    · exact .refl s

theorem cancelAll_frame (e : EdId) (c : SpliceCause) (s : State) : Frame [.splices, .down, .rep] s (cancelAll e c s) :=
  .foldl (fun s p => by
    split
    · exact resolveOnly_frame _ _ _ _ _ _
    · exact .refl s) _ s

theorem judgeWait_frame (e : EdId) (t : HouseTime) (s : State) :
    Frame [.splices, .down, .rep, .chans] s (judgeWait e t s) := by
  unfold judgeWait
  split
  · exact goOn_frame e s
  · exact (modChan_frame _ _ s).mono

theorem runWord_frame (e : EdId) (a : Addr) (w : SchedWord) (s : State) :
    Frame [.splices, .down, .rep, .chans] s (runWord e a w s) := by
  unfold runWord
  split
  · exact armFromChannel_frame _ _ _
  · dsimp only
    split
    · exact endChain_frame _ _ _ _ _ _
    · exact (modChan_frame _ _ s).andThen (issue_frame _ _ _)
  · exact judgeWait_frame _ _ _
  · exact (modChan_frame _ _ s).andThen (goOn_frame _ _)
  · exact endChain_frame _ _ _ _ _ _

theorem wordCurrent_frame (e : EdId) (a : Addr) (w : SchedWord) (s : State) :
    Frame [.chans, .down, .rep] s (wordCurrent e a w s) := by
  unfold wordCurrent
  dsimp only
  split
  · exact (modChan_frame _ _ s).andThen (handOver_frame _ _)
  · exact (modChan_frame _ _ s).mono

theorem wordReturned_frame (e : EdId) (rsp : Response) (s : State) :
    Frame [.splices, .down, .rep, .chans] s (wordReturned e rsp s) := by
  unfold wordReturned
  dsimp only
  split
  · exact endChain_frame _ _ _ _ _ _
  · split
    · exact endChain_frame _ _ _ _ _ _
    · split
      · exact endChain_frame _ _ _ _ _ _
      · exact (wordCurrent_frame _ _ _ s).andThen (runWord_frame _ _ _ _)

/-! ## Composition and delivery -/

theorem receiveFrame_frame (e : EdId) (f : List Position) (s : State) : Frame [.comp] s (receiveFrame e f s).1 := by
  unfold receiveFrame
  split
  · exact modComp_frame _ _ s
  · exact modComp_frame _ _ s

theorem clearQueue_frame (e : EdId) (p : ProgId) (t : HouseTime) (fuel : Nat) (s : State) :
    Frame [.refs, .comp, .down, .rep] s (clearQueue e p t fuel s) := by
  induction fuel generalizing s with
  | zero => exact .refl s
  | succ fuel ih =>
    unfold clearQueue
    split
    · exact .refl s
    · rename_i n _ _
      have h := readRef_frame e p n s
      split <;> rename_i heq <;> rw [heq] at h
      · exact h.trans (ih _)
      · split
        · exact h.trans (((discardStale_frame e p n _ _).mono).trans (ih _))
        · exact h

theorem clearAll_frame (e : EdId) (t : HouseTime) (s : State) : Frame [.refs, .comp, .down, .rep] s (clearAll e t s) :=
  .foldl (fun s p => clearQueue_frame e p t _ s) _ s

theorem takeHead_frame (e : EdId) (q : ProgId) (s : State) : Frame [.refs] s (takeHead e q s).1 := by
  unfold takeHead
  split
  · exact .refl s
  · exact frame_refs s _

theorem chooseOpen_frame (e : EdId) (s : State) : Frame [.refs, .comp] s (chooseOpen e s).1 := by
  unfold chooseOpen
  split
  · exact .refl s
  · exact (modComp_frame _ _ s).andThen (takeHead_frame _ _ _)

theorem choosePlace_frame (e : EdId) (s : State) : Frame [.refs, .comp] s (choosePlace e s).1 := by
  unfold choosePlace
  split
  · split
    · exact chooseOpen_frame e s
    · exact (takeHead_frame _ _ s).mono
  · exact chooseOpen_frame e s

theorem chooseOne_frame (e : EdId) (t : HouseTime) (s : State) :
    Frame [.refs, .comp, .down, .rep] s (chooseOne e t s).1 :=
  (((clearAll_frame e t s).andThen (choosePlace_frame e _) : Frame [.refs, .comp, .down, .rep] _ _)).andThen
    (modComp_frame _ _ _)

theorem composeRead_frame (e : EdId) (t : HouseTime) (n : Nat) (s : State) :
    Frame [.refs, .comp, .down, .rep] s (composeRead e t n s).1 := by
  induction n generalizing s with
  | zero => exact .refl s
  | succ n ih => exact (chooseOne_frame e t s).trans (ih _)

theorem issueDelivery_frame (e : EdId) (ref : Reference) (s : State) : Frame [.rings, .down] s (issueDelivery e ref s) :=
  (modRing_frame _ _ s).andThen (issue_frame _ _ _)

theorem joinRead_frame (e : EdId) (xs : List InFlight) (s : State) : Frame [.dlv, .rings, .down] s (joinRead e xs s) :=
  (modFeed_frame _ _ s).andThen (.foldl (fun s ref => issueDelivery_frame e ref s) _ _)

theorem finish_frame (e : EdId) (s : State) : Frame [.dlv, .path] s (finish e s) :=
  (modFeed_frame _ _ s).andThen (.foldl (fun s cells => readyFeed_frame e cells s) _ _)

theorem deliveryReturned_frame (e : EdId) (rsp : Response) (s : State) :
    Frame [.dlv, .path] s (deliveryReturned e rsp s) := by
  unfold deliveryReturned
  split
  · exact .refl s
  · split
    · exact .refl s
    · exact (modFeed_frame _ _ s).andThen (finish_frame _ _)

theorem restartDelivery_frame (s : State) : Frame [.dlv, .path] s (restartDelivery s) :=
  (.foldl (fun s e => .foldl (fun s xs => readyFeed_frame e _ s) _ s) _ s : Frame [.path] _ _).andThen (frame_dlv _ _)

/-! ## Admission and editions -/

theorem lookup_frame (l : Label) (s : State) : Frame [.stream, .down, .rep] s (lookup l s).1 := by
  unfold lookup
  dsimp only
  split
  · exact .refl s
  · exact (frame_stream s _).andThen (countStream_frame _ _)
  · exact (frame_stream s _).andThen (handOver_frame _ _)

theorem entryPoint_frame (e : EdId) (p : ProgId) (v : Variant) (ef : Bool) (s : State) :
    Frame [.splices, .down, .rep, .chans] s (entryPoint e p v ef s) := by
  unfold entryPoint
  split
  · split
    · exact resolve_frame _ _ _ _ _ _
    · exact .refl s
  · exact .refl s

theorem storeCell_frame (e : EdId) (c : IngestKept) (x : StreamEntry) (s : State) :
    Frame [.refs, .splices] s (storeCell e c x s) := by
  unfold storeCell
  dsimp only
  split
  · exact (frame_refs s _).andThen (modMachine_frame _ _ _ _)
  · exact (frame_refs s _).mono

theorem admitLimits_frame (e : EdId) (c : IngestKept) (x : StreamEntry) (s : State) :
    Frame [.refs, .splices] s (admitLimits e c x s) := by
  unfold admitLimits
  split
  · exact (modAdm_frame _ _ s).mono
  split
  · exact (modAdm_frame _ _ s).mono
  split
  · exact (modAdm_frame _ _ s).mono
  split
  · exact (modAdm_frame _ _ s).mono
  · exact storeCell_frame _ _ _ _

theorem admitEdition_frame (c : IngestKept) (x : StreamEntry) (s : State) (e : EdId) :
    Frame [.refs, .splices, .down, .rep, .chans] s (admitEdition c x s e) := by
  unfold admitEdition
  split
  · exact .refl s
  · have h := entryPoint_frame e x.prog x.variant c.e s
    dsimp only
    split
    · exact h.mono
    · split
      · exact h.mono
      · exact h.andThen (admitLimits_frame _ _ _ _)

theorem admit_frame (c : IngestKept) (s : State) :
    Frame [.stream, .rings, .refs, .splices, .down, .rep, .chans] s (admitCell c s) := by
  unfold admitCell
  split
  · exact .refl s
  · have h := lookup_frame c.label s
    split <;> rename_i heq <;> rw [heq] at h
    · exact h.andThen (modRing_frame _ _ _)
    · split
      · exact h.andThen (modRing_frame _ _ _)
      · exact h.andThen (.foldl (fun s e => admitEdition_frame c _ s e) _ _)

theorem ingestReturned_frame (c : IngestKept) (rsp : Response) (s : State) :
    Frame [.stream, .rings, .refs, .splices, .down, .rep, .chans] s (ingestReturned c rsp s) := by
  unfold ingestReturned
  split
  · exact .refl s
  · split
    · exact admit_frame c s
    · exact (modRing_frame _ _ s).mono

theorem releaseAll_frame (e : EdId) (f : Nat → AdmCounters → AdmCounters) (s : State) :
    Frame [.refs] s (releaseAll e f s) := (frame_refs s _).andThen (modAdm_frame _ _ _)

theorem watchExpires_frame (e : EdId) (s : State) :
    Frame [.eds, .comp, .refs, .down, .rep] s (watchExpires e s) := by
  unfold watchExpires
  exact ((((modEd_frame _ _ s).andThen (modComp_frame _ _ _) : Frame [.eds, .comp] _ _).andThen (releaseAll_frame _ _ _)
    : Frame [.eds, .comp, .refs] _ _).andThen (handOver_frame _ _))

theorem turnOn_frame (e : EdId) (s : State) : Frame [.eds, .comp, .dlv] s (turnOn e s) := by
  unfold turnOn
  split
  · exact .refl s
  · exact (modEd_frame _ _ s).mono
  · exact ((modEd_frame _ _ s).andThen (modComp_frame _ _ _) : Frame [.eds, .comp] _ _).andThen (modFeed_frame _ _ _)

theorem turnOff_frame (e : EdId) (s : State) :
    Frame [.eds, .comp, .refs, .splices, .down, .rep, .chans] s (turnOff e s) := by
  have rest : ∀ u : State, Frame [.refs, .splices, .down, .rep, .chans] u
      (stopChain e .off (cancelAll e .off (dropWait e (releaseAll e addOff u)))) := fun u =>
    ((releaseAll_frame e _ u).andThen (dropWait_frame _ _) : Frame [.refs, .splices] _ _).andThen
      ((cancelAll_frame _ _ _).andThen (stopChain_frame _ _ _) : Frame [.splices, .down, .rep, .chans] _ _)
  unfold turnOff
  dsimp only
  split
  · exact ((modEd_frame _ _ s).andThen (modComp_frame _ _ _) : Frame [.eds, .comp] _ _).andThen (rest _)
  · exact (modEd_frame _ _ s).andThen (rest _)

theorem feedReadTaken_frame (e : EdId) (s : State) : Frame [.eds, .down, .rep] s (feedReadTaken e s) := by
  unfold feedReadTaken
  split
  · exact (modEd_frame _ _ s).mono
  · split
    · exact (modEd_frame _ _ s).andThen (handOver_frame _ _)
    · exact .refl s
  · exact .refl s

theorem readChoices_frame (e : EdId) (n : Nat) (s : State) :
    Frame [.refs, .comp, .down, .rep] s (readChoices e n s).1 := by
  unfold readChoices
  split
  · exact composeRead_frame _ _ _ _
  · exact .refl s

theorem takeFeedRead_frame (e : EdId) (n : Nat) (s : State) :
    Frame [.eds, .down, .rep, .refs, .comp, .dlv, .rings, .path] s (takeFeedRead e n s) :=
  (((feedReadTaken_frame e s).andThen (readChoices_frame e n _) : Frame [.eds, .down, .rep, .refs, .comp] _ _).andThen
    (joinRead_frame e _ _) : Frame [.eds, .down, .rep, .refs, .comp, .dlv, .rings] _ _).andThen (finish_frame _ _)

end Sys2Proof.Machine
end

