-- ==== Sys2Proof/Laws/Exec.lean ====
section
/-! SUPPORT. Frames of the commands, of the command unit, of the two ports and of `exec`: what each owning block's command
may touch, and that no command touches the model's own queue. -/

set_option Elab.async false

namespace Sys2Proof.Machine

/-- The state after running a command at its owning block. -/
@[reducible] def Act.state : Act → State
  | .done _ s => s
  | .inFlight _ s => s

@[simp] theorem Act.state_done (o : CmdOutcome) (s : State) : (Act.done o s).state = s := rfl

@[simp] theorem Act.state_inFlight (op : InFlightOp) (s : State) : (Act.inFlight op s).state = s := rfl

/-- Every block of the part: all of the state but the model's own queue. -/
def partBlocks : List Block :=
  [.path, .down, .rings, .stream, .refs, .splices, .comp, .dlv, .chans, .eds, .time, .cmd, .rep]

/-- Every block that an owning block's command may touch: the part without the command unit. -/
def ownBlocks : List Block := [.path, .down, .rings, .stream, .refs, .splices, .comp, .dlv, .chans, .eds, .time, .rep]

/-! ## Owning blocks -/

theorem doSetStreamEntry_frame (l : Label) (w : StreamWord) (s : State) :
    Frame [.stream] s (doSetStreamEntry l w s).state := by
  unfold doSetStreamEntry
  split
  · exact .refl s
  · split
    · exact .refl s
    · exact frame_stream s _

theorem doLoadStreamEntries_frame (f : Label) (n : BitVec 16) (a : Addr) (s : State) :
    Frame [.down] s (doLoadStreamEntries f n a s).state := by
  unfold doLoadStreamEntries
  split
  · exact .refl s
  · exact issue_frame _ _ s

theorem doSetEccThreshold_frame (st : BitVec 8) (t : BitVec 16) (s : State) :
    Frame [.stream, .refs] s (doSetEccThreshold st t s).state := by
  unfold doSetEccThreshold
  split
  · exact (frame_stream s _).mono
  · split
    · exact (frame_refs s _).mono
    · exact .refl s

theorem doSetRing_frame (r : BitVec 8) (si : BitVec 16) (re : BitVec 8) (b : Addr) (n : BitVec 32) (s : State) :
    Frame [.rings] s (doSetRing r si re b n s).state := by
  unfold doSetRing
  split
  · exact .refl s
  · dsimp only
    repeat' split
    all_goals first | with_reducible exact .refl s | exact modRing_frame _ _ s

theorem silenceChange_frame (i : RingId) (st : Silence) (s : State) :
    Frame [.rings, .down, .rep] s (silenceChange i st s) := (modRing_frame _ _ s).andThen (handOver_frame _ _)

theorem applyTiming_frame (i : RingId) (s : State) : Frame [.rings, .down, .rep] s (applyTiming i s) := by
  unfold applyTiming
  dsimp only
  repeat' split
  · exact silenceChange_frame _ _ s
  · exact (modRing_frame _ _ s).mono
  · exact silenceChange_frame _ _ s
  · exact .refl s

theorem doSetRingTimingOnly_frame (r : BitVec 8) (si : BitVec 16) (re : BitVec 8) (s : State) :
    Frame [.rings, .down, .rep] s (doSetRingTimingOnly r si re s).state := by
  unfold doSetRingTimingOnly
  repeat' split
  · exact .refl s
  · exact .refl s
  · exact .refl s
  · exact (modRing_frame _ _ s).andThen (applyTiming_frame _ _)

theorem doDisableRing_frame (r : BitVec 8) (s : State) : Frame [.rings, .down, .refs] s (doDisableRing r s).state := by
  unfold doDisableRing
  repeat' split
  · exact .refl s
  · exact .refl s
  · exact ((frame_down s _).andThen (modRing_frame _ _ _) : Frame [.rings, .down] _ _).andThen (frame_refs _ _)

theorem doSetProtection_frame (p v m b : BitVec 8) (s : State) : Frame [.rings] s (doSetProtection p v m b s).state := by
  unfold doSetProtection
  repeat' split
  all_goals first | with_reducible exact .refl s | exact frame_rings s _

theorem doClearProtection_frame (p v : BitVec 8) (s : State) : Frame [.rings] s (doClearProtection p v s).state := by
  unfold doClearProtection
  split
  · exact frame_rings s _
  · exact .refl s

theorem doSetProgramme_frame (e p pr c : BitVec 8) (d : BitVec 16) (s : State) :
    Frame [.refs, .comp] s (doSetProgramme e p pr c d s).state := by
  unfold doSetProgramme
  repeat' split
  all_goals first | with_reducible exact .refl s | exact (frame_refs s _).andThen (modComp_frame _ _ _)

theorem doSetCarriage_frame (e n : BitVec 8) (a : Addr) (s : State) : Frame [.down] s (doSetCarriage e n a s).state := by
  unfold doSetCarriage
  dsimp only
  repeat' split
  all_goals first | with_reducible exact .refl s | exact issue_frame _ _ s

theorem doArmSplice_frame (tag : Tag16) (e p v : BitVec 8) (f : Bool) (w : BitVec 16) (t : HouseTime) (s : State) :
    Frame [.splices, .down, .rep] s (doArmSplice tag e p v f w t s).state := by
  unfold doArmSplice
  repeat' split
  all_goals first | with_reducible exact .refl s | exact judgeArming_frame _ _ _ s

theorem doCancelSplice_frame (e p : BitVec 8) (s : State) :
    Frame [.splices, .down, .rep, .chans] s (doCancelSplice e p s).state := by
  unfold doCancelSplice
  repeat' split
  all_goals first | with_reducible exact .refl s | exact resolve_frame _ _ _ _ _ s

theorem doSetVariantNow_frame (e p v : BitVec 8) (s : State) : Frame [.splices] s (doSetVariantNow e p v s).state := by
  unfold doSetVariantNow
  repeat' split
  all_goals first | with_reducible exact .refl s | exact modMachine_frame _ _ _ s

theorem doStartSchedule_frame (e : BitVec 8) (a : Addr) (s : State) :
    Frame [.splices, .down, .rep, .chans] s (doStartSchedule e a s).state := by
  unfold doStartSchedule
  repeat' split
  all_goals first | with_reducible exact .refl s | exact (modChan_frame _ _ s).andThen (fetchWord_frame _ _)

theorem doHaltSchedule_frame (e : BitVec 8) (s : State) :
    Frame [.splices, .down, .rep, .chans] s (doHaltSchedule e s).state := by
  unfold doHaltSchedule
  repeat' split
  all_goals first | with_reducible exact .refl s | exact stopChain_frame _ _ s

theorem doClearSchedule_frame (e : BitVec 8) (s : State) :
    Frame [.splices, .down, .rep, .chans, .comp] s (doClearSchedule e s).state := by
  unfold doClearSchedule
  split
  · exact .refl s
  · exact ((((dropWait_frame _ s).andThen (cancelAll_frame _ _ _) : Frame [.splices, .down, .rep] _ _).andThen
      (modComp_frame _ _ _) : Frame [.splices, .down, .rep, .comp] _ _)).andThen (stopChain_frame _ _ _)

theorem doResumeSchedule_frame (e : BitVec 8) (s : State) :
    Frame [.splices, .down, .rep, .chans] s (doResumeSchedule e s).state := by
  unfold doResumeSchedule
  repeat' split
  all_goals first | with_reducible exact .refl s | exact fetchWord_frame _ s

theorem doSetEdition_frame (e : BitVec 8) (au : Bool) (w m q : BitVec 16) (b : Addr) (o : BitVec 24) (s : State) :
    Frame [.eds, .comp, .refs, .down, .rep] s (doSetEdition e au w m q b o s).state := by
  unfold doSetEdition
  dsimp only
  repeat' split
  all_goals first
    | with_reducible exact .refl s
    | exact (modEd_frame _ _ s).andThen (watchExpires_frame _ _)
    | exact (modEd_frame _ _ s).mono

theorem doEditionOn_frame (e : BitVec 8) (s : State) : Frame [.eds, .comp, .dlv] s (doEditionOn e s).state := by
  unfold doEditionOn
  split
  · exact .refl s
  · exact turnOn_frame _ s

theorem doEditionOff_frame (e : BitVec 8) (s : State) :
    Frame [.eds, .comp, .refs, .splices, .down, .rep, .chans] s (doEditionOff e s).state := by
  unfold doEditionOff
  split
  · exact .refl s
  · exact turnOff_frame _ s

theorem doTimeLoad_frame (v : HouseTime) (s : State) : Frame [.time] s (doTimeLoad v s).state := frame_time s _

theorem doRelocateControl_frame (b c : Addr) (s : State) : Frame [.path] s (doRelocateControl b c s).state := by
  unfold doRelocateControl
  repeat' split
  all_goals first | with_reducible exact .refl s | exact frame_path s _

theorem doSetMemoryLimit_frame (m : BitVec 64) (s : State) : Frame [.path] s (doSetMemoryLimit m s).state := by
  unfold doSetMemoryLimit
  split
  · exact .refl s
  · exact frame_path s _

theorem doSetReportRing_frame (n : BitVec 16) (i : Bool) (b : Addr) (s : State) :
    Frame [.down, .rep] s (doSetReportRing n i b s).state := by
  unfold doSetReportRing
  repeat' split
  all_goals first | with_reducible exact .refl s | exact setRingAct_frame _ _ _ s

theorem doReportAck_frame (a : BitVec 16) (s : State) : Frame [.rep] s (doReportAck a s).state := by
  unfold doReportAck
  repeat' split
  all_goals first | with_reducible exact .refl s | exact frame_rep s _

theorem doStatistics_frame (sc n : BitVec 8) (s : State) : Frame [.down, .rep] s (doStatistics sc n s).state := by
  unfold doStatistics
  repeat' split
  all_goals first | with_reducible exact .refl s | exact handOverAll_frame _ s

/-- RESTART touches no part of the command unit or of the report writer (R201). -/
theorem restartAct_frame (s : State) :
    Frame [.path, .down, .rings, .stream, .refs, .splices, .comp, .dlv, .chans, .eds, .time] s (restartAct s) := by
  have h : ∀ (u : State) d r st rf sp c ch ed tm, Frame
      [.down, .rings, .stream, .refs, .splices, .comp, .chans, .eds, .time] u
      { u with
        down := d, rings := r, stream := st, refs := rf, splices := sp, comp := c, chans := ch, eds := ed, time := tm } := by
    intro u d r st rf sp c ch ed tm
    constructor <;> first | exact .inr rfl | exact .inl (by decide)
  exact (restartDelivery_frame s).andThen (h _ _ _ _ _ _ _ _ _ _)

theorem runAct_frame (tag : Tag16) (c : Command) (s : State) : Frame ownBlocks s (runAct tag c s).state := by
  cases c
  · exact (doSetStreamEntry_frame _ _ s).mono
  · exact (doLoadStreamEntries_frame _ _ _ s).mono
  · exact (doSetEccThreshold_frame _ _ s).mono
  · exact (doSetRing_frame _ _ _ _ _ s).mono
  · exact (doSetRingTimingOnly_frame _ _ _ s).mono
  · exact (doDisableRing_frame _ s).mono
  · exact (doSetProtection_frame _ _ _ _ s).mono
  · exact (doClearProtection_frame _ _ s).mono
  · exact (doSetProgramme_frame _ _ _ _ _ s).mono
  · exact (doSetCarriage_frame _ _ _ s).mono
  · exact (doArmSplice_frame _ _ _ _ _ _ _ s).mono
  · exact (doCancelSplice_frame _ _ s).mono
  · exact (doSetVariantNow_frame _ _ _ s).mono
  · exact (doStartSchedule_frame _ _ s).mono
  · exact (doHaltSchedule_frame _ s).mono
  · exact (doClearSchedule_frame _ s).mono
  · exact (doResumeSchedule_frame _ s).mono
  · exact (doSetEdition_frame _ _ _ _ _ _ _ s).mono
  · exact (doEditionOn_frame _ s).mono
  · exact (doEditionOff_frame _ s).mono
  · exact (doTimeLoad_frame _ s).mono
  · exact (doRelocateControl_frame _ _ s).mono
  · exact (doSetMemoryLimit_frame _ s).mono
  · exact (doSetReportRing_frame _ _ _ s).mono
  · exact (doReportAck_frame _ s).mono
  · exact (doStatistics_frame _ _ s).mono
  · exact (restartAct_frame s).mono

/-! ## The command unit -/

theorem startCommand_frame (c : TakenCommand) (s : State) : Frame partBlocks s (startCommand c s) := by
  unfold startCommand
  split
  · exact (handOver_frame _ s).mono
  · exact (handOver_frame _ s).mono
  · have h : ∀ (u : State) (x : CommandUnit) (r : Report) (q : List TakenCommand), Frame [.cmd, .down, .rep] u
        (q.foldl refuseWaiting (handOver r { u with cmd := x })) := fun u x r q =>
      ((frame_cmd u x).andThen (handOver_frame r _) : Frame [.cmd, .down, .rep] _ _).andThen
        (Frame.foldl (fun s c => handOver_frame _ s) q _ : Frame [.down, .rep] _ _)
    exact (restartAct_frame s).andThen (h _ _ _ _)
  · rename_i k _ _
    have h := runAct_frame c.tag k s
    split <;> rename_i heq <;> rw [heq] at h
    · exact h.andThen (handOver_frame _ _)
    · exact h.andThen (frame_cmd _ _)

theorem endRunning_frame (o : CmdOutcome) (s : State) : Frame [.cmd, .down, .rep] s (endRunning o s) := by
  unfold endRunning
  split
  · exact (frame_cmd s _).andThen (handOver_frame _ _)
  · exact .refl s

theorem advanceScan_frame (s : State) : Frame [.refs] s (advanceScan s) := by
  unfold advanceScan
  split
  · exact .refl s
  · exact frame_refs s _

theorem endPurge_frame (s : State) : Frame [.refs, .cmd, .down, .rep] s (endPurge s) := by
  unfold endPurge
  dsimp only
  split
  · exact (advanceScan_frame s).andThen (endRunning_frame _ _)
  · exact (advanceScan_frame s).mono

theorem drain_frame (fuel : Nat) (s : State) : Frame partBlocks s (drain fuel s) := by
  induction fuel generalizing s with
  | zero => exact .refl s
  | succ fuel ih =>
    unfold drain
    split
    · exact ((frame_cmd s _).mono.trans ((startCommand_frame _ _).andThen (endPurge_frame _))).trans (ih _)
    · exact .refl s

theorem finishRunning_frame (o : CmdOutcome) (s : State) : Frame partBlocks s (finishRunning o s) :=
  (endRunning_frame o s).andThen (drain_frame _ _)

theorem settlePurge_frame (s : State) : Frame partBlocks s (settlePurge s) := by
  unfold settlePurge
  dsimp only
  split
  · exact (advanceScan_frame s).andThen (finishRunning_frame _ _)
  · exact (advanceScan_frame s).mono

theorem takeCommand_frame (c : TakenCommand) (s : State) : Frame partBlocks s (takeCommand c s) := by
  unfold takeCommand
  split
  · exact (startCommand_frame c s).andThen (endPurge_frame _)
  · split
    · exact (frame_cmd s _).mono
    · exact (handOver_frame _ s).mono

theorem scanStep_frame (s : State) : Frame [.refs, .comp, .down, .rep] s (scanStep s) := by
  unfold scanStep
  split
  · exact .refl s
  · split
    · rename_i e p n rest _ _ _
      dsimp only
      have h := fun u => readRef_frame e p n u
      split <;> rename_i heq
      · have h := (frame_refs s _).andThen (ds := [.refs, .comp, .down, .rep]) (heq ▸ h _)
        split
        · exact h.andThen (frame_refs _ _)
        · exact h
      · exact (frame_refs s _).andThen (ds := [.refs, .comp, .down, .rep]) (heq ▸ h _)
    · exact .refl s

theorem streamListReturned_frame (rsp : Response) (s : State) : Frame partBlocks s (streamListReturned rsp s) := by
  unfold streamListReturned
  split
  · split
    · exact finishRunning_frame _ s
    · dsimp only
      split
      · exact (frame_stream s _).andThen (finishRunning_frame _ _)
      · have h : ∀ x y k r, Frame [.stream, .cmd, .down] s (issue k r { s with stream := x, cmd := y }) := fun x y k r =>
          ((frame_stream s x).andThen (frame_cmd _ y) : Frame [.stream, .cmd] _ _).andThen (issue_frame k r _)
        exact (h _ _ _ _).mono
  · exact .refl s

theorem carriageListReturned_frame (rsp : Response) (s : State) : Frame partBlocks s (carriageListReturned rsp s) := by
  unfold carriageListReturned
  split
  · split
    · exact finishRunning_frame _ s
    · split
      · exact finishRunning_frame _ s
      · exact (receiveFrame_frame _ _ s).andThen (finishRunning_frame _ _)
  · exact .refl s

theorem dataReturned_frame (e : EdId) (rsp : Response) (s : State) :
    Frame [.comp, .splices, .down, .rep, .chans] s (dataReturned e rsp s) := by
  unfold dataReturned
  split
  · split
    · exact (endChain_frame _ _ _ _ _ s).mono
    · split
      · exact (endChain_frame _ _ _ _ _ s).mono
      · exact ((receiveFrame_frame _ _ s).andThen (modChan_frame _ _ _) : Frame [.comp, .chans] _ _).andThen
          (goOn_frame _ _)
    · exact .refl s
  · exact .refl s

theorem recordReturned_frame (rsp : Response) (s : State) : Frame [.down, .rep] s (recordReturned rsp s) := by
  unfold recordReturned
  split
  · exact (frame_rep s _).andThen (issueIndex_frame _)
  · exact .refl s

theorem indexReturned_frame (s : State) : Frame partBlocks s (indexReturned s) := by
  unfold indexReturned
  split
  · dsimp only
    split
    · exact ((frame_rep s _).andThen (setRingAct_frame _ _ _ _) : Frame [.down, .rep] _ _).andThen
        (finishRunning_frame _ _)
    · exact (frame_rep s _).andThen (startWrite_frame _)
  · exact .refl s

theorem readReturned_frame (i : RingId) (s : State) : Frame [.rings] s (readReturned i s) := modRing_frame _ _ s

theorem respond_frame (tag : PortTag) (rsp : Response) (s : State) : Frame partBlocks s (respond tag rsp s) := by
  unfold respond
  split
  · exact .refl s
  · rename_i d rest _
    have h : Frame partBlocks s { s with down := rest } := (frame_down s rest).mono
    dsimp only
    split
    · exact h.andThen (readyForwarded_frame _ _ _)
    · exact (h.andThen (readyForwarded_frame _ _ _) : Frame partBlocks _ _).andThen (ingestReturned_frame _ _ _)
    · rename_i r _ _
      have k : Frame partBlocks s (readReturned r { s with down := rest }) := h.andThen (readReturned_frame r _)
      split
      · exact (k.andThen (deliveryReturned_frame _ _ _) : Frame partBlocks _ _).trans (settlePurge_frame _)
      · exact k.trans (settlePurge_frame _)
    · exact h.trans (streamListReturned_frame _ _)
    · exact h.trans (carriageListReturned_frame _ _)
    · split
      · exact h.andThen (wordReturned_frame _ _ _)
      · exact h
    · split
      · exact h.andThen (dataReturned_frame _ _ _)
      · exact h
    · exact h.andThen (recordReturned_frame _ _)
    · exact h.trans (indexReturned_frame _)

/-! ## The upstream port -/

theorem takeIngest_frame (i : RingId) (slot : Nat) (r : Request) (s : State) :
    Frame [.path, .down, .rings, .rep] s (takeIngest i slot r s) := by
  have h : ∀ u, Frame [.rings, .down, .rep] u (silentRun i u) := by
    intro u
    unfold silentRun
    dsimp only
    repeat' split
    · exact .refl u
    · exact silenceChange_frame _ _ u
    · exact (modRing_frame _ _ u).mono
  exact (((forward_frame _ _ s).andThen (modRing_frame _ _ _) : Frame [.path, .down, .rings] _ _)).andThen (h _)

theorem takeRequest_frame (r : Request) (s : State) : Frame partBlocks s (takeRequest r s) := by
  unfold takeRequest
  split
  · exact (openReq_frame _ _ _ s).mono
  · exact ((openReq_frame _ _ _ s).andThen (takeFeedRead_frame _ _ _) : Frame partBlocks _ _).trans
      (settlePurge_frame _)
  · exact (((openReq_frame _ _ _ s).andThen (modFeed_frame _ _ _)) : Frame [.path, .dlv] _ _).andThen
      (feedReadTaken_frame _ _)
  · exact (openReq_frame _ _ _ s).andThen (modFeed_frame _ _ _)
  · exact (takeIngest_frame _ _ _ s).mono
  · exact (forward_frame _ _ s).andThen (modRing_frame _ _ _)
  · exact (forward_frame _ _ s).mono
  · exact (forward_frame _ _ s).andThen (takeCommand_frame _ _)
  · exact (forward_frame _ _ s).mono
  · exact (forward_frame _ _ s).mono

theorem present_frame (r : Request) (s : State) : Frame partBlocks s (present r s) := by
  unfold present
  split
  · exact takeRequest_frame r s
  · exact (frame_path s _).mono

theorem idleStep_frame (s : State) : Frame partBlocks s (idleStep s) := by
  unfold idleStep
  split
  · exact .refl s
  · exact (frame_path s _).andThen (takeRequest_frame _ _)

/-! ## Events -/

theorem watchRow_frame (e : EdId) (s : State) : Frame partBlocks s (settlePurge (watchExpires e s)) :=
  (watchExpires_frame e s).andThen (settlePurge_frame _)

theorem silenceExpires_frame (i : RingId) (s : State) : Frame [.rings, .down, .rep] s (silenceExpires i s) := by
  unfold silenceExpires
  split
  · exact silenceChange_frame _ _ s
  · exact (modRing_frame _ _ s).mono

theorem judgeWaiting_frame (s : State) (e : EdId) : Frame [.splices, .down, .rep, .chans] s (judgeWaiting s e) := by
  unfold judgeWaiting
  dsimp only
  repeat' split
  all_goals first | with_reducible exact .refl s | exact judgeWait_frame _ _ s

theorem referenceEdge_frame (s : State) : Frame [.time, .rings, .eds, .down, .rep] s (referenceEdge s) := by
  unfold referenceEdge
  split
  · exact (frame_time s _).andThen (elapse_frame _ _)
  · exact ((frame_time s _).andThen (elapse_frame _ _) : Frame [.time, .rings, .eds] _ _).andThen (handOver_frame _ _)

theorem loseReference_frame (s : State) : Frame [.time, .rings, .eds, .down, .rep] s (loseReference s) :=
  ((frame_time s _).andThen (elapse_frame _ _) : Frame [.time, .rings, .eds] _ _).andThen (handOver_frame _ _)

theorem judgeMachines_frame (s : State) : Frame [.splices, .down, .rep, .chans] s (judgeMachines s) :=
  .foldl (fun s e => .foldl (fun s p => judgeLoad_frame e p s) _ s) _ s

theorem applyLoad_frame (v : HouseTime) (s : State) : Frame [.time, .splices, .down, .rep, .chans] s (applyLoad v s) :=
  (((frame_time s _).andThen (handOver_frame _ _) : Frame [.time, .down, .rep] _ _).andThen (judgeMachines_frame _)
    : Frame [.time, .splices, .down, .rep, .chans] _ _).andThen (.foldl judgeWaiting_frame _ _)

end Sys2Proof.Machine
end

