-- ==== Sys2Proof/Laws/Ops.lean ====
section
/-! SUPPORT. What the shared operations do, said once each: the hand-over of a report and the writer's write, the release
and the store of a reference, the start of a command on an idle command unit. -/

set_option Elab.async false

namespace Sys2Proof.Machine

/-! ## The report writer -/

/-- Everything a start of a write can do (R193). -/
theorem startWrite_cases (s : State) :
    (∃ p ps, s.rep.writer = .idle ∧ s.rep.pend = p :: ps ∧
      startWrite s = issue .recordWrite
        (ownWrite Config.reportTag (s.rep.base.toNat + 32 + 32 * s.rep.writeIdx) (encodeReport p s.rep.lost s.rep.seq))
        { s with rep := { s.rep with lost := 0, writer := .record s.rep.lost } }) ∨
    ((s.rep.writer ≠ .idle ∨ s.rep.pend = []) ∧ startWrite s = s) := by
  unfold startWrite
  split
  · exact .inl ⟨_, _, ‹_›, ‹_›, rfl⟩
  · rename_i h
    refine .inr ⟨?_, rfl⟩
    by_cases hw : s.rep.writer = .idle
    · right
      cases hp : s.rep.pend with
      | nil => rfl
      | cons p ps => exact absurd hp (h p ps hw)
    · exact .inl hw

/-- A dropped report only counts as lost (R192). -/
theorem handOver_dropped {b : Report} {s : State} (h : accepts s.rep = false) :
    handOver b s = { s with rep := { s.rep with lost := satAdd s.rep.lost 1 } } := by
  simp [handOver, h]

/-- An accepted report joins the tail of the pending list, and the writer goes on (R192, R193). -/
theorem handOver_accepted {b : Report} {s : State} (h : accepts s.rep = true) :
    handOver b s = startWrite { s with rep := { s.rep with pend := s.rep.pend ++ [⟨b, s.time.now⟩] } } := by
  simp [handOver, h]

theorem accepts_iff (r : ReportWriter) : accepts r = true ↔ r.isSet = true ∧ unread r + r.pend.length + 1 < r.places := by
  unfold accepts
  rw [Bool.and_eq_true, decide_eq_true_iff]
  exact Iff.rfl

/-- What the hand-over of a report leaves as it is in the writer: the ring, its indices, the sequence and INT. -/
theorem handOver_ring (b : Report) (s : State) :
    (handOver b s).rep.isSet = s.rep.isSet ∧ (handOver b s).rep.base = s.rep.base ∧
    (handOver b s).rep.places = s.rep.places ∧ (handOver b s).rep.intEnable = s.rep.intEnable ∧
    (handOver b s).rep.writeIdx = s.rep.writeIdx ∧ (handOver b s).rep.readIdx = s.rep.readIdx ∧
    (handOver b s).rep.seq = s.rep.seq ∧ (handOver b s).rep.intLine = s.rep.intLine := by
  unfold handOver
  split
  · rcases startWrite_cases { s with rep := { s.rep with pend := s.rep.pend ++ [⟨b, s.time.now⟩] } } with
      ⟨p, ps, _, _, h⟩ | ⟨_, h⟩ <;> rw [h] <;> simp
  · simp

/-- The pending list after a hand-over. -/
theorem handOver_pend (b : Report) (s : State) :
    (handOver b s).rep.pend = if accepts s.rep then s.rep.pend ++ [⟨b, s.time.now⟩] else s.rep.pend := by
  unfold handOver
  split
  · rcases startWrite_cases { s with rep := { s.rep with pend := s.rep.pend ++ [⟨b, s.time.now⟩] } } with
      ⟨p, ps, _, _, h⟩ | ⟨_, h⟩ <;> rw [h]
    rfl
  · rfl

/-- A hand-over leaves every block but the report writer and the list of downstream requests as it is. -/
@[simp] theorem handOver_path (b : Report) (s : State) : (handOver b s).path = s.path := (handOver_frame b s).path_eq
@[simp] theorem handOver_rings (b : Report) (s : State) : (handOver b s).rings = s.rings := (handOver_frame b s).rings_eq
@[simp] theorem handOver_stream (b : Report) (s : State) : (handOver b s).stream = s.stream :=
  (handOver_frame b s).stream_eq
@[simp] theorem handOver_refs (b : Report) (s : State) : (handOver b s).refs = s.refs := (handOver_frame b s).refs_eq
@[simp] theorem handOver_splices (b : Report) (s : State) : (handOver b s).splices = s.splices :=
  (handOver_frame b s).splices_eq
@[simp] theorem handOver_comp (b : Report) (s : State) : (handOver b s).comp = s.comp := (handOver_frame b s).comp_eq
@[simp] theorem handOver_dlv (b : Report) (s : State) : (handOver b s).dlv = s.dlv := (handOver_frame b s).dlv_eq
@[simp] theorem handOver_chans (b : Report) (s : State) : (handOver b s).chans = s.chans := (handOver_frame b s).chans_eq
@[simp] theorem handOver_eds (b : Report) (s : State) : (handOver b s).eds = s.eds := (handOver_frame b s).eds_eq
@[simp] theorem handOver_time (b : Report) (s : State) : (handOver b s).time = s.time := (handOver_frame b s).time_eq
@[simp] theorem handOver_cmd (b : Report) (s : State) : (handOver b s).cmd = s.cmd := (handOver_frame b s).cmd_eq
@[simp] theorem handOver_pending (b : Report) (s : State) : (handOver b s).pending = s.pending :=
  (handOver_frame b s).pending_eq

/-! ## The reference store -/

@[simp] theorem releaseRef_scan_none (e : EdId) (p : ProgId) (n : EntryNo) (r : RefStore) :
    (releaseRef e p n r).scan = none ↔ r.scan = none := by simp [releaseRef]

@[simp] theorem releaseEdition_scan_none (e : EdId) (r : RefStore) :
    (releaseEdition e r).scan = none ↔ r.scan = none := by simp [releaseEdition]

/-- What a release does to the queues: the reference leaves its own queue, and no other changes (R56). -/
theorem releaseRef_queue (e a : EdId) (p b : ProgId) (n : EntryNo) (r : RefStore) :
    tget2 (releaseRef e p n r).queues a b =
      if a = e ∧ b = p then (tget2 r.queues e p).erase n else tget2 r.queues a b := tget2_tmodify2 _ _ _ _ _ _

/-- Everything a store can do: nothing when the free list is empty, else the head of the free list takes the reference and
joins the tail of the queue (R49, R52). -/
theorem storeRef_cases (e : EdId) (p : ProgId) (ref : Reference) (r : RefStore) :
    (r.free = [] ∧ storeRef e p ref r = r) ∨
    ∃ n rest, r.free = n :: rest ∧ storeRef e p ref r =
      { r with
        slots := tput r.slots n { ref := ref, check := .clean }, free := rest, queues := tmodify2 r.queues e p (· ++ [n]),
        edCount := tmodify r.edCount e (· + 1), pool := r.pool + 1 } := by
  unfold storeRef
  split
  · exact .inl ⟨‹_›, rfl⟩
  · exact .inr ⟨_, _, ‹_›, rfl⟩

/-! ## The command unit -/

theorem advanceScan_of_none {s : State} (h : s.refs.scan = none) : advanceScan s = s := by
  unfold advanceScan
  rw [h]
  simp only [Option.bind_none]
  rw [← h]

/-- With no scan and no purge in flight nothing ends a purge. -/
theorem endPurge_of_noPurge {s : State} (h : NoPurge s) : endPurge s = s := by
  unfold endPurge
  rw [advanceScan_of_none h.1]
  have : purgeOver s = false := by
    unfold purgeOver
    split
    · rename_i c i hr
      exact absurd hr (h.2 c i)
    · rfl
  simp [this]

theorem settlePurge_of_noPurge {s : State} (h : NoPurge s) : settlePurge s = s := by
  unfold settlePurge
  rw [advanceScan_of_none h.1]
  have : purgeOver s = false := by
    unfold purgeOver
    split
    · rename_i c i hr
      exact absurd hr (h.2 c i)
    · rfl
  simp [this]

theorem CmdIdle.noPurge {s : State} (h : CmdIdle s) : NoPurge s := ⟨h.2, fun c i => by simp [h.1]⟩

/-- A command row on an idle command unit, where the owning block is done with it: its effect and its COMMAND report
(R188, R190). -/
theorem takeRow_done {h : CmdHeader} {c : Command} {o : CmdOutcome} {s u : State} (hs : CmdIdle s)
    (hr : c ≠ .restart) (ha : runAct h.tag c s = .done o u) (hu : u.refs.scan = none) :
    takeRow h c s = .next (handOver (ended h (commandCode c) o) u) := by
  have hc : u.cmd = s.cmd := by
    have := (runAct_frame h.tag c s).cmd_eq
    rwa [ha] at this
  have hp : NoPurge (handOver (ended h (commandCode c) o) u) := by
    refine ⟨by simpa using hu, fun c' i => ?_⟩
    simp [hc, hs.1]
  have : startCommand (takenRow h c) s = handOver (ended h (commandCode c) o) u := by
    unfold startCommand
    cases c <;> first | exact absurd rfl hr | (simp only [takenRow] at ha ⊢; rw [ha]; rfl)
  unfold takeRow takeCommand
  rw [hs.1]
  simp only [this, endPurge_of_noPurge hp]

/-- A command row on an idle command unit, where the owning block starts an operation in flight that is no purge (R190). -/
theorem takeRow_inFlight {h : CmdHeader} {c : Command} {op : InFlightOp} {s u : State} (hs : CmdIdle s)
    (ha : runAct h.tag c s = .inFlight op u) (hu : u.refs.scan = none) (hp : ∀ i, op ≠ .purge i) :
    takeRow h c s = .next { u with cmd := { u.cmd with running := some ⟨takenRow h c, op⟩ } } := by
  have hn : NoPurge { u with cmd := { u.cmd with running := some ⟨takenRow h c, op⟩ } } := by
    refine ⟨hu, fun c' i => ?_⟩
    simp only [ne_eq, Option.some.injEq, Running.mk.injEq, not_and]
    exact fun _ => hp i
  have : startCommand (takenRow h c) s = { u with cmd := { u.cmd with running := some ⟨takenRow h c, op⟩ } } := by
    unfold startCommand
    cases c <;> first | (exfalso; simp [runAct] at ha; done) | (simp only [takenRow] at ha ⊢; rw [ha])
  unfold takeRow takeCommand
  rw [hs.1]
  simp only [this, endPurge_of_noPurge hn]

end Sys2Proof.Machine
end

