-- ==== Sys2Proof/Laws/Reports.lean ====
section
/-! SUPPORT. The hand-over of reports as one equation: what becomes of the report writer, and which record writes join the
downstream requests. Both depend on the writer and house time alone, so a hand-over commutes with every change of another
block, and with a change of the downstream requests that leaves record writes as they are. -/

set_option Elab.async false

namespace Sys2Proof.Machine

/-- The writer after the hand-over of a report at a house time, and the record write it issues, if any (R192, R193). -/
def handed (b : Report) (r : ReportWriter) (t : HouseTime) : ReportWriter × List DownReq :=
  if accepts r then
    match r.writer, r.pend ++ [⟨b, t⟩] with
    | .idle, p :: _ =>
      ({ r with pend := r.pend ++ [⟨b, t⟩], lost := 0, writer := .record r.lost },
        [⟨.recordWrite, ownWrite Config.reportTag (r.base.toNat + 32 + 32 * r.writeIdx) (encodeReport p r.lost r.seq)⟩])
    | _, _ => ({ r with pend := r.pend ++ [⟨b, t⟩] }, [])
  else ({ r with lost := satAdd r.lost 1 }, [])

/-- The hand-over of a report changes the writer and the downstream requests only, by `handed`. -/
theorem handOver_eq (b : Report) (s : State) :
    handOver b s =
      { s with rep := (handed b s.rep s.time.now).1, down := s.down ++ (handed b s.rep s.time.now).2 } := by
  unfold handOver handed
  split
  · cases hw : s.rep.writer with
    | idle =>
      cases hp : s.rep.pend ++ [⟨b, s.time.now⟩] with
      | nil => simp at hp
      | cons p ps => simp only [startWrite, hw]; rfl
    | record c => simp only [startWrite, hw, List.append_nil]
    | index => simp only [startWrite, hw, List.append_nil]
  · simp

/-- Every request that a hand-over issues is a record write. -/
theorem handed_kind (b : Report) (r : ReportWriter) (t : HouseTime) {d : DownReq} (h : d ∈ (handed b r t).2) :
    d.kind = .recordWrite := by
  unfold handed at h
  split at h
  · split at h
    · simp only [List.mem_singleton] at h
      rw [h]
    · cases h
  · cases h

/-- The writer after the hand-over of reports in order, and the record writes issued. -/
def handedAll (bs : List Report) (r : ReportWriter) (t : HouseTime) : ReportWriter × List DownReq :=
  match bs with
  | [] => (r, [])
  | b :: bs =>
    let x := handed b r t
    let y := handedAll bs x.1 t
    (y.1, x.2 ++ y.2)

/-- The hand-over of reports in order changes the writer and the downstream requests only, by `handedAll`. -/
theorem handOverAll_eq (bs : List Report) (s : State) :
    handOverAll bs s =
      { s with rep := (handedAll bs s.rep s.time.now).1, down := s.down ++ (handedAll bs s.rep s.time.now).2 } := by
  induction bs generalizing s with
  | nil => simp [handOverAll, handedAll]
  | cons b bs ih =>
    show handOverAll bs (handOver b s) = _
    rw [ih, handOver_eq]
    simp [handedAll, List.append_assoc]

theorem handedAll_kind (bs : List Report) (r : ReportWriter) (t : HouseTime) {d : DownReq} (h : d ∈ (handedAll bs r t).2) :
    d.kind = .recordWrite := by
  induction bs generalizing r with
  | nil => cases h
  | cons b bs ih =>
    simp only [handedAll, List.mem_append] at h
    exact h.elim (handed_kind b r t) (ih _)

theorem handOverAll_nil (s : State) : handOverAll [] s = s := rfl
theorem handOverAll_cons (b : Report) (bs : List Report) (s : State) :
    handOverAll (b :: bs) s = handOverAll bs (handOver b s) := rfl
theorem handOverAll_append (as bs : List Report) (s : State) :
    handOverAll (as ++ bs) s = handOverAll bs (handOverAll as s) := List.foldl_append ..

/-- Giving up the fetches of a channel leaves record writes as they are. -/
theorem killFetches_of_recordWrites (e : EdId) {ds : List DownReq} (h : ∀ d ∈ ds, d.kind = .recordWrite) :
    killFetches e ds = ds := by
  unfold killFetches
  conv => rhs; rw [← List.map_id ds]
  refine List.map_congr_left fun d hd => ?_
  rw [h d hd]
  rfl

theorem killFetches_append (e : EdId) (as bs : List DownReq) :
    killFetches e (as ++ bs) = killFetches e as ++ killFetches e bs := List.map_append ..

end Sys2Proof.Machine
end

