-- ==== Sys2Proof/Laws/Chains.lean ====
section
/-! SUPPORT. The ends of chains and the cancels of splices: what they do besides their reports, and the reports they hand
over. -/

set_option Elab.async false

namespace Sys2Proof.Machine

/-- The fetches given up are those that `givenUp` names. -/
theorem killFetches_eq (e : EdId) (ds : List DownReq) : killFetches e ds = ds.map (givenUp e) := by
  unfold killFetches
  apply List.map_congr_left
  intro d _
  unfold givenUp
  rcases d with ⟨k, r⟩
  cases k with
  | wordFetch f live =>
    by_cases h : f = e <;> cases live <;> simp [h]
  | dataFetch f live =>
    by_cases h : f = e <;> cases live <;> simp [h]
  | _ => simp

/-- The end of a chain of channel e without its report. -/
def quietEnd (e : EdId) (s : State) : State := modChan e stopped (dropWait e { s with down := killFetches e s.down })

/-- The end of a chain is its report over the silent end (R131, R147). -/
theorem endChain_eq (e status code addr tag) (s : State) :
    endChain e status code addr tag s =
      handOver (.schedEnd e status code (chanOf s e).words (endAddress addr) tag) (quietEnd e s) := by
  unfold endChain quietEnd
  simp only [handOver_eq]
  rfl

/-- What dropping the wait of channel e does to every machine (R108). -/
theorem machineOf_dropWait (e : EdId) (s : State) (x p) :
    machineOf (dropWait e s) x p = if x = e then { machineOf s x p with waiting := false } else machineOf s x p := by
  simp only [machineOf, dropWait, tget2, tget_tmodify]
  split
  · subst_vars; simp
  · rfl

/-- An address below 2^40 is its own end address. -/
theorem endAddress_toNat (a : Addr) : endAddress a.toNat = a := by
  unfold endAddress
  have : a.toNat < Config.addressTop := a.isLt
  simp [this]

/-- The silent end touches the channels, the machines and the downstream requests. -/
theorem quietEnd_frame (e) (s : State) : Frame [.down, .splices, .chans] s (quietEnd e s) := by
  constructor <;> first | (left; decide) | (right; rfl)

theorem quietEnd_machine (e : EdId) (s : State) (x p) :
    machineOf (quietEnd e s) x p = if x = e then { machineOf s x p with waiting := false } else machineOf s x p :=
  machineOf_dropWait e _ x p

theorem quietEnd_chan (e : EdId) (s : State) (x) :
    chanOf (quietEnd e s) x = if x = e then stopped (chanOf s x) else chanOf s x := by
  show tget (tmodify s.chans e stopped) x = _
  rw [tget_tmodify]; split
  · subst_vars; rfl
  · rfl

theorem quietEnd_stops (e : EdId) (s : State) (h : (chanOf s e).state ≠ .idle) : Stops e s (quietEnd e s) where
  chan := by rw [quietEnd_chan]; simp [h]
  others := fun a ha => by rw [quietEnd_chan]; simp [ha]
  down := by simp only [h, if_false]; exact killFetches_eq e _

/-- Stopping a running channel hands over its SCHEDULE END report over the silent end (R142, R143, R148). -/
theorem stopChain_eq (e status) (s : State) (h : (chanOf s e).state ≠ .idle) :
    stopChain e status s = handOverAll (stopReports e status s) (quietEnd e s) := by
  unfold stopChain stopReports stopPlace
  simp only [h, if_false]
  rw [endChain_eq]
  split <;> simp_all [handOverAll, endAddress_toNat]

/-- The cancels of the pending splices of e at some programmes, without their reports. -/
def quietCancels (e : EdId) (l : List ProgId) (s : State) : State :=
  l.foldl (fun s p =>
    match pendingOf (machineOf s e p).phase with
    | some _ => modMachine e p (fun m => { m with phase := .steady }) s
    | none => s) s

/-- The SPLICE reports of the cancels of the pending splices of e at some programmes. -/
def cancelReportsAt (e : EdId) (cause : SpliceCause) (s : State) (l : List ProgId) : List Report :=
  l.filterMap fun p =>
    (pendingOf (machineOf s e p).phase).map fun sp =>
      .splice e p .cancelled cause sp.late sp.source sp.target (machineOf s e p).admitted sp.tag

/-- The silent cancels commute with the hand-over of a report. -/
theorem quietCancels_handOver (e : EdId) (r : Report) (l : List ProgId) (u : State) :
    quietCancels e l (handOver r u) = handOver r (quietCancels e l u) := by
  induction l generalizing u with
  | nil => rfl
  | cons q l ih =>
    simp only [quietCancels, List.foldl_cons] at ih ⊢
    have hm : machineOf (handOver r u) e q = machineOf u e q := by rw [handOver_eq]; rfl
    rw [hm]
    cases pendingOf (machineOf u e q).phase with
    | none => exact ih u
    | some sp =>
      rw [← ih]
      simp only [handOver_eq]; rfl

/-- The cancels hand over their reports over the silent cancels. -/
theorem cancels_eq (e cause) (f : State → ProgId → State)
    (hf : ∀ s p, f s p = match pendingOf (machineOf s e p).phase with
      | some sp => resolveOnly e p sp .cancelled cause s
      | none => s)
    (l : List ProgId) (hl : l.Nodup) (s : State) :
    l.foldl f s = handOverAll (cancelReportsAt e cause s l) (quietCancels e l s) := by
  induction l generalizing s with
  | nil => rfl
  | cons p l ih =>
    have hp := (List.nodup_cons.1 hl).1
    simp only [List.foldl_cons]
    rw [ih (List.nodup_cons.1 hl).2, hf]
    cases hh : pendingOf (machineOf s e p).phase with
    | none =>
      simp only [cancelReportsAt, List.filterMap_cons, hh, Option.map_none, quietCancels, List.foldl_cons]
    | some sp =>
      have hc : cancelReportsAt e cause (resolveOnly e p sp .cancelled cause s) l = cancelReportsAt e cause s l := by
        unfold cancelReportsAt
        apply List.filterMap_congr
        intro q hq
        have : q ≠ p := fun h => hp (h ▸ hq)
        have : machineOf (resolveOnly e p sp .cancelled cause s) e q = machineOf s e q := by
          unfold resolveOnly spliceReport
          rw [handOver_eq]
          exact (machineOf_modMachine ..).trans (by simp [this])
        rw [this]
      simp only [hc]
      have h2 : cancelReportsAt e cause s (p :: l) =
          .splice e p .cancelled cause sp.late sp.source sp.target (machineOf s e p).admitted sp.tag ::
            cancelReportsAt e cause s l := by
        simp [cancelReportsAt, hh]
      rw [h2, handOverAll_cons]
      have h4 : quietCancels e (p :: l) s =
          quietCancels e l (modMachine e p (fun m => { m with phase := .steady }) s) := by
        simp [quietCancels, hh]
      rw [h4, ← quietCancels_handOver]
      unfold resolveOnly spliceReport
      congr 2
      simp [settleMachine, outcomeSwitches]
      rfl

theorem quietCancels_frame (e l) (s : State) : Frame [.splices] s (quietCancels e l s) := by
  unfold quietCancels
  apply Frame.foldl
  intro s p
  split
  · exact modMachine_frame ..
  · exact Frame.refl _

theorem quietCancels_machine (e) (l : List ProgId) (s : State) (a p) :
    machineOf (quietCancels e l s) a p =
      if a = e ∧ p ∈ l then { machineOf s a p with phase := .steady } else machineOf s a p := by
  induction l generalizing s with
  | nil => simp [quietCancels]
  | cons q l ih =>
    simp only [quietCancels, List.foldl_cons] at ih ⊢
    rw [ih]
    have key : machineOf (match pendingOf (machineOf s e q).phase with
        | some _ => modMachine e q (fun m => { m with phase := .steady }) s
        | none => s) a p
        = if a = e ∧ p = q then { machineOf s a p with phase := .steady } else machineOf s a p := by
      cases hh : (machineOf s e q).phase <;> simp only [pendingOf, machineOf_modMachine]
      · split
        · rename_i h; obtain ⟨rfl, rfl⟩ := h; cases hm : machineOf s a p; simp_all
        · rfl
      · split
        · rename_i h; obtain ⟨rfl, rfl⟩ := h; rfl
        · rfl
      · split
        · rename_i h; obtain ⟨rfl, rfl⟩ := h; rfl
        · rfl
    rw [key]
    by_cases h1 : a = e <;> by_cases h2 : p = q <;> by_cases h3 : p ∈ l <;> simp [h1, h2, h3]

/-- The silent end of a chain commutes with the hand-over of reports. -/
theorem quietEnd_handOverAll (e : EdId) (bs) (v : State) :
    quietEnd e (handOverAll bs v) = handOverAll bs (quietEnd e v) := by
  simp only [handOverAll_eq]
  unfold quietEnd
  simp only [killFetches_append]
  rw [killFetches_of_recordWrites e (ds := (handedAll bs v.rep v.time.now).2) (fun d hd => handedAll_kind _ _ _ hd)]
  rfl

/-- Everything the cancel of the pending splices of e does: the machines become STEADY, and the reports are handed over in
ascending programme order (R121, R122). -/
theorem cancelAll_says (e : EdId) (cause : SpliceCause) (s : State) :
    ∃ v : State, Frame [.splices] s v ∧
      (∀ x p, machineOf v x p = if x = e then { machineOf s x p with phase := .steady } else machineOf s x p) ∧
      cancelAll e cause s = handOverAll (cancelReports e cause s) v :=
  ⟨quietCancels e (List.finRange 48) s, quietCancels_frame .., fun x p => by rw [quietCancels_machine]; simp,
    cancels_eq e cause _ (fun _ _ => rfl) _ (List.nodup_finRange 48) s⟩

/-! ## Resolutions -/

/-- What a resolution does at its machine, with its report (R111, R112, R114, R123). -/
theorem resolveOnly_says (e : EdId) (p : ProgId) (sp : PendingSplice) (o : SpliceOutcome) (cause : SpliceCause) (s : State) :
    resolveOnly e p sp o cause s =
      (let m := machineOf s e p
       let v := if outcomeSwitches o then sp.target else m.admitted
       handOver (.splice e p o cause sp.late sp.source sp.target v sp.tag)
        (modMachine e p (fun m => { m with
          phase := .steady, admitted := v, markPending := m.markPending || outcomeSwitches o }) s)) := by
  have h : modMachine e p (settleMachine (outcomeSwitches o) sp) s =
      (let m := machineOf s e p
       let v := if outcomeSwitches o then sp.target else m.admitted
       modMachine e p (fun m => { m with
          phase := .steady, admitted := v, markPending := m.markPending || outcomeSwitches o }) s) := by
    simp only [modMachine, tmodify2, machineOf]
    congr 2
    cases o <;> simp [settleMachine, outcomeSwitches]
  unfold resolveOnly spliceReport
  rw [h]
  simp

/-- With no arming that waits, the return of a machine to STEADY takes none (R108). -/
theorem takeWaiting_of_not {e : EdId} {p : ProgId} {s : State} (h : (machineOf s e p).waiting = false) :
    takeWaiting e p s = s := by
  unfold takeWaiting
  simp [h]

end Sys2Proof.Machine
end

