-- ==== Sys2Proof/Laws/Commands.lean ====
section
/-! SUPPORT. The queue of waiting commands: what one start leaves of it, and that draining it needs no more fuel than it holds
commands (R188, R190, R202). -/

set_option Elab.async false

namespace Sys2Proof.Machine

/-- Refusing the commands that waited behind a RESTART leaves the command unit as it is. -/
theorem refuseWaiting_foldl_cmd (l : List TakenCommand) (s : State) : (l.foldl refuseWaiting s).cmd = s.cmd := by
  induction l generalizing s with
  | nil => rfl
  | cons c l ih => rw [List.foldl_cons, ih]; simp [refuseWaiting]

/-- The act of a command leaves the command unit to the command unit. -/
theorem runAct_cmd (tag : Tag16) (c : Command) (s : State) : (runAct tag c s).state.cmd = s.cmd :=
  (runAct_frame tag c s).cmd_eq

/-- A command that starts adds none to the waiting commands. -/
theorem startCommand_queue_le (c : TakenCommand) (s : State) :
    (startCommand c s).cmd.queue.length ≤ s.cmd.queue.length := by
  unfold startCommand
  split
  · simp
  · simp
  · rw [refuseWaiting_foldl_cmd]; simp
  · have h := runAct_cmd c.tag (by assumption) s
    split <;> simp_all

theorem endRunning_queue (o : CmdOutcome) (s : State) : (endRunning o s).cmd.queue = s.cmd.queue := by
  unfold endRunning
  split <;> simp

/-- The end of a purge leaves the waiting commands as they are. -/
theorem endPurge_queue (s : State) : (endPurge s).cmd.queue = s.cmd.queue := by
  have h : (advanceScan s).cmd = s.cmd := (advanceScan_frame s).cmd_eq
  unfold endPurge
  simp only
  split
  · rw [endRunning_queue, h]
  · rw [h]

/-- Draining with more fuel than there are waiting commands is draining with as much as there are. -/
theorem drain_add (k j : Nat) (s : State) (h : s.cmd.queue.length ≤ k) : drain (k + j) s = drain k s := by
  induction k generalizing s with
  | zero =>
    have hq : s.cmd.queue = [] := List.length_eq_zero_iff.1 (by omega)
    cases j with
    | zero => rfl
    | succ j => simp [drain, hq]
  | succ k ih =>
    rw [Nat.succ_add]
    simp only [drain]
    split
    · rename_i c rest h1 h2
      apply ih
      rw [endPurge_queue]
      have := startCommand_queue_le c { s with cmd := { s.cmd with queue := rest } }
      rw [h2] at h
      simp at h this ⊢
      omega
    · rfl

end Sys2Proof.Machine
end

