-- ==== Sys2Proof/WellFormed.lean ====
section
/-! DEFINITION. The commands that a sender can really send: a request has the shape its port carries and the direction its
row names, and a STATISTICS command of scope ALL has no number. `exec` is total on the others too. -/

namespace Sys2Proof

/-- A write carries one byte and one strobe for each byte of its length; a read carries no data (R174). That a read carries
no strobes is a DESIGN CHOICE (log entry 26): R85 says only that the strobes of a read do not enter into its class, and
`classify` and `exec` ignore them. -/
def Request.shapely (r : Request) : Bool :=
  match r.dir with
  | .write => r.data.length == r.len && r.strobes.length == r.len
  | .read => r.data.isEmpty && r.strobes.isEmpty

/-- A write of the shape its port carries. -/
def Request.isWrite (r : Request) : Bool := r.dir == .write && r.shapely

/-- A read of the shape its port carries. -/
def Request.isRead (r : Request) : Bool := r.dir == .read && r.shapely

/-- The shape that each row gives its operands (R27, R85, R182, R208). -/
def Instr.wellFormed : Instr → Bool
  | .ingestWrite r => r.isWrite && r.len == 224
  | .malformedWrite r => r.isWrite
  | .ringRead r => r.isRead
  | .passThroughRequest r => r.shapely
  | .controlPassThrough r => r.shapely
  | .requestBeyondLimit r => r.shapely && decide (2 ^ 40 < r.addr + r.len)
  | .wholeCellRead r _ => r.isRead && r.len % 224 == 0 && decide (r.len ≤ 896)
  | .lengthFault r => r.isRead
  | .feedWrite r => r.isWrite
  | .commandWrite r => r.isWrite && r.len == 64
  | .statistics _ scope number => scope != 3 || number == 0
  | .downstreamCompletion .. => true
  | .ingestWriteCompletion .. => true
  | .deliveryReadCompletion .. => true
  | .responseLeaves .. => true
  | .streamListReadCompletion .. => true
  | .carriageListReadCompletion .. => true
  | .wordFetchCompletion .. => true
  | .dataFetchCompletion .. => true
  | .reportWriteCompletion .. => true
  | .indexBlockWriteCompletion .. => true
  | .purgeScanStep .. => true
  | .silenceExpiry .. => true
  | .feedWatchExpiry .. => true
  | .spliceTReached .. => true
  | .windowEnd .. => true
  | .waitReached .. => true
  | .referenceLost => true
  | .referenceRestored => true
  | .ppsEdge => true
  | .ppsTimeout => true
  | .hardwareReset .. => true
  | .staleResponseDiscard .. => true
  | .setStreamEntry .. => true
  | .loadStreamEntries .. => true
  | .setEccThreshold .. => true
  | .setRing .. => true
  | .setRingTimingOnly .. => true
  | .disableRing .. => true
  | .setProtection .. => true
  | .clearProtection .. => true
  | .setProgramme .. => true
  | .setCarriage .. => true
  | .armSplice .. => true
  | .cancelSplice .. => true
  | .setVariantNow .. => true
  | .startSchedule .. => true
  | .haltSchedule .. => true
  | .clearSchedule .. => true
  | .resumeSchedule .. => true
  | .setEdition .. => true
  | .editionOn .. => true
  | .editionOff .. => true
  | .timeLoad .. => true
  | .relocateControl .. => true
  | .setMemoryLimit .. => true
  | .setReportRing .. => true
  | .reportAck .. => true
  | .restart .. => true
  | .stationReferenceEdge => true
  | .oscillatorPeriodEnd => true

end Sys2Proof
end

