-- ==== Sys2Proof/Tests/Slice0.lean ====
section
/-! SUPPORT. Tests: an ill-formed term for each check of WellFormed; records and cells written out byte by byte from the
manual; and for every obligation with hypotheses a concrete state and operands that meet them, clause by clause. -/

-- One theorem at a time: elaborating the many small theorems below at once takes more threads than the sandbox allows.
set_option Elab.async false

namespace Sys2Proof.Tests

open Sys2Proof.Machine

/-! ## WellFormed refuses -/

theorem test_write_with_short_data_is_refused :
    (Instr.malformedWrite ⟨.write, 1, 0, 0, List.replicate 32 true, [0]⟩).wellFormed = false := by decide

theorem test_write_with_short_strobes_is_refused :
    (Instr.feedWrite ⟨.write, 1, 0, 0, [true], List.replicate 32 0⟩).wellFormed = false := by decide

theorem test_read_with_data_is_refused :
    (Instr.passThroughRequest ⟨.read, 1, 0, 0, [], [0]⟩).wellFormed = false := by decide

theorem test_read_with_strobes_is_refused :
    (Instr.controlPassThrough ⟨.read, 1, 0, 0, [true], []⟩).wellFormed = false := by decide

theorem test_ingest_read_is_refused : (Instr.ingestWrite (ownRead 1 0 224)).wellFormed = false := by decide

theorem test_short_ingest_write_is_refused :
    (Instr.ingestWrite (ownWrite 1 0 (List.replicate 64 0))).wellFormed = false := by decide

theorem test_ring_write_as_read_is_refused :
    (Instr.ringRead (ownWrite 1 0 (List.replicate 32 0))).wellFormed = false := by decide

theorem test_request_inside_the_limit_is_refused :
    (Instr.requestBeyondLimit (ownRead 1 0 32)).wellFormed = false := by decide

theorem test_whole_cell_read_of_half_a_cell_is_refused :
    (Instr.wholeCellRead (ownRead 1 0 96) []).wellFormed = false := by decide

theorem test_whole_cell_read_of_five_cells_is_refused :
    (Instr.wholeCellRead (ownRead 1 0 1120) []).wellFormed = false := by decide

theorem test_length_fault_write_is_refused :
    (Instr.lengthFault (ownWrite 1 0 (List.replicate 32 0))).wellFormed = false := by decide

theorem test_long_command_write_is_refused :
    (Instr.commandWrite (ownWrite 1 0 (List.replicate 96 0))).wellFormed = false := by decide

theorem test_statistics_of_all_with_a_number_is_refused :
    (Instr.statistics ⟨0, 0⟩ 3 1).wellFormed = false := by decide

/-! ## Records written out from chapter 12 -/

/-- R205: label ABC with continuity 5 is bytes BC 5A; E and X are bits 0 and 2 of byte 2; the stamp is bytes 4 to 8. -/
theorem test_cell_header :
    let c : List Byte := [0xBC, 0x5A, 0x05, 0x00, 0x01, 0x02, 0x03, 0x04, 0x05, 0x11, 0x22, 0x33, 0x44, 0x55, 0x66, 0x77]
    cellLabel c = 0xABC ∧ cellE c = true ∧ cellK c = false ∧ cellX c = true ∧ cellStamp c = 0x0504030201 ∧
      cellTime c = 0x77665544332211 := by decide

/-- R206: VALID and RESTAMP, programme 47, variant 7, mask 8001, output label FFE. -/
theorem test_stream_entry :
    streamWordAt [0x03, 0x2F, 0x07, 0x00, 0x01, 0x80, 0xFE, 0x0F] 0 =
      { valid := true, restamp := true, prog := 47, variant := 7, mask := 0x8001, outLabel := 0xFFE } := by decide

/-- R12: a list entry with programme 48, or with output label 4095, is written invalid. -/
theorem test_list_entry_out_of_range :
    listEntry (streamWordAt [0x01, 0x30, 0, 0, 0, 0, 0, 0] 0) = .invalid ∧
      listEntry (streamWordAt [0x01, 0x2F, 0, 0, 0, 0, 0xFF, 0x0F] 0) = .invalid := by decide

/-- R207: a WAIT word with NOTE, tag 0201 and T = 258. -/
theorem test_wait_word :
    parseWord ([3, 1, 1, 2] ++ List.replicate 12 0 ++ [2, 1] ++ List.replicate 14 0) =
      .inl { kind := .wait 258, note := true, hold := false, tag := 0x0201 } := by decide

/-- R207: a JUMP word with HOLD to address 0x40. -/
theorem test_jump_word :
    parseWord ([4, 2, 9, 0, 0, 0, 0, 0, 0x40] ++ List.replicate 23 0) =
      .inl { kind := .jump 0x40, note := false, hold := true, tag := 9 } := by decide

/-- R207: a SPLICE word for programme 1, variant 2, window 3, FORCE and STOP-ON-FAIL, T = 5. -/
theorem test_splice_word :
    parseWord ([1, 0, 9, 0, 1, 2, 5, 0, 3, 0] ++ List.replicate 6 0 ++ [5] ++ List.replicate 15 0) =
      .inl { kind := .splice 1 2 5 3 true false true, note := false, hold := false, tag := 9 } := by decide

/-- R129: kind 6 fails KIND; a reserved bit, a count of 15 or an unaligned data address fails FIELD. -/
theorem test_bad_words :
    parseWord (6 :: List.replicate 31 0) = .inr .kind ∧ parseWord ([5, 4] ++ List.replicate 30 0) = .inr .field ∧
      parseWord ([2, 0, 0, 0, 15, 15] ++ List.replicate 26 0) = .inr .field ∧
      parseWord ([2, 0, 0, 0, 16, 16, 0, 0, 1] ++ List.replicate 23 0) = .inr .field := by decide

/-- R208: HALT SCHEDULE (kind 13) of edition 3 with tag 1234; a bit in a reserved byte; an unknown kind. -/
theorem test_command_records :
    takenRecord ([13, 0, 0x34, 0x12, 0, 0, 0, 0, 3] ++ List.replicate 55 0) 5 =
        { code := 13, tag := 0x1234, slot := 5, body := .known (.haltSchedule 3) } ∧
      (takenRecord ([13, 0, 0x34, 0x12, 1, 0, 0, 0, 3] ++ List.replicate 55 0) 5).body = .reserved ∧
      (takenRecord (26 :: List.replicate 63 0) 5).body = .unknown := by decide

/-- R208: SET RING of ring 2, silence 100, restore 8, base 100000, 16 slots; with TIMING ONLY its base is ignored (R23). -/
theorem test_set_ring_record :
    (takenRecord ([4, 0, 1, 0, 0, 0, 0, 0, 2, 0, 100, 0, 8, 0, 0, 0, 0, 0, 0x10, 0, 0, 0, 0, 0, 16] ++
        List.replicate 39 0) 0).body = .known (.setRing 2 100 8 0x100000 16) ∧
      (takenRecord ([4, 0, 1, 0, 0, 0, 0, 0, 2, 1, 100, 0, 8, 0, 0, 0, 0, 0, 0x10] ++ List.replicate 45 0) 0).body =
        .known (.setRingTimingOnly 2 100 8) := by decide

/-- R209: a COMMAND report for kind 13 in slot 5 with tag 1234 and outcome STATE (3), lost 2, sequence 7, house time 258. -/
theorem test_report_record :
    encodeReport ⟨.command 13 5 0x1234 .state, 258⟩ 2 7 =
      [1, 0, 2, 0, 7, 0, 0, 0, 2, 1, 0, 0, 0, 0, 0, 0, 13, 5, 0x34, 0x12, 3] ++ List.replicate 11 0 := by decide

/-- R210: an index block with write index 3, lost 2 and sequence 7. -/
theorem test_index_block : encodeIndex 3 2 7 = [3, 0, 2, 0, 7] ++ List.replicate 27 0 := by decide

/-! ## States for the witnesses -/

/-- Edition 3 LIVE at 0x10000 with quota 8 and watch time 1 ms; ring 2 ACTIVE at 0x100000 with 16 slots and W = 5; house
time 1000. -/
def studio : State :=
  let s := modEd 3 (fun r => { r with state := .live, base := some 0x10000, quota := 8, watch := 1 }) State.reset
  let s := modRing 2 (fun r => { r with enabled := true, base := 0x100000, w := 5, silence := .active }) s
  { s with time := { s.time with now := 1000 } }

/-- A cell of ring 2 in slot 4, admitted under label 16 and carried under label 32. -/
def cellRef : Reference :=
  { Reference.blank with ring := 2, seq := 4, inLabel := 16, outLabel := 32, arrival := 900 }

/-- The studio with one cell waiting in queue (3,7), whose ceiling in force is 2 with priority HIGH. -/
def withCell : State :=
  modComp 3 (fun c => { c with inForce := tput c.inForce 7 ⟨2, .high⟩ })
    { studio with refs := storeRef 3 7 cellRef studio.refs }

/-- A state whose command unit runs a command that waits for the writer, with n commands behind it. -/
def busyUnit (n : Nat) (s : State) : State :=
  let c : TakenCommand := ⟨22, 0, 0, .known (.setReportRing 64 false 0)⟩
  { s with cmd := { running := some ⟨c, .reportRing 64 false 0⟩, queue := List.replicate n c } }

/-- A state whose command in flight waits for an operation. -/
def waitingFor (op : InFlightOp) (s : State) : State :=
  { s with cmd := { running := some ⟨⟨0, 0, 0, .unknown⟩, op⟩, queue := [] } }

/-- A state with one downstream request in flight. -/
def sent (k : DownKind) (r : Request) (s : State) : State := { s with down := [⟨k, r⟩] }

/-- A request of any class but a whole-cell read is taken when no request of its tag waits and the table has room. -/
theorem takes_of_class {s : State} {r : Request} {c : ReqClass} (h : classify s r = c) (hc : ∀ e n, c ≠ .feedRead e n)
    (hw : s.path.waiting = []) (ho : s.path.openReqs.length < 128) : Takes s r :=
  ⟨by simp [hw], ho, fun e n h' => absurd (h.symm.trans h') (hc e n)⟩

/-- A whole-cell read is taken when, besides, the list has room. -/
theorem takes_of_feedRead {s : State} {r : Request} {e : EdId} {n : Nat} (h : classify s r = .feedRead e n)
    (hr : entriesUsed (feedOf s e) + n ≤ 32) (hw : s.path.waiting = []) (ho : s.path.openReqs.length < 128) : Takes s r :=
  ⟨by simp [hw], ho, fun e' n' h' => by rw [h] at h'; cases h'; exact hr⟩

theorem noPurge_of_idle {s : State} (h : CmdIdle s) : NoPurge s := h.noPurge

/-! ## Witnesses: the machine and the laws -/

theorem witness_front : ({ studio with pending := [.ppsEdge] } : State).pending = .ppsEdge :: [] := rfl

theorem witness_restart : studio.cmd.running = none := rfl

/-- The state of the law witnesses: reset with one command in the queue. -/
def early : State := { State.reset with pending := [.stationReferenceEdge] }

theorem witness_early_steps : ∃ t, step early = .next t := ⟨_, rfl⟩

theorem witness_intLaw : IntLaw early := by decide

theorem witness_writerLaw : WriterLaw early where
  places := by decide
  writeIdx := by decide
  readIdx := by decide
  held := by decide
  unset := by decide
  head := nofun
  waiting := nofun

theorem witness_carriageLaw : CarriageLaw early := by
  have h : ∀ e, compOf early e = CompRecord.reset := fun e => by simp [compOf, early, State.reset, State.afterReset, Composer.reset]
  have hc : ∀ e, (chanOf early e).current = none := fun e => by
    simp [chanOf, early, State.reset, State.afterReset, Channel.reset]
  constructor
  · intro e; rw [h]; decide
  · intro e; rw [h]; decide
  · intro e f; rw [h]; nofun
  · intro e q; rw [h]; simp [CompRecord.reset]
  · intro e _; rw [h]; simp [CompRecord.reset]
  · nofun
  · intro e a w n k d b h'; rw [hc] at h'; cases h'

theorem witness_capacityLaw : CapacityLaw early := ⟨by decide +kernel, by decide, by decide⟩

theorem witness_spliceLaw : SpliceLaw early := by
  intro e p sp
  simp [machineOf, early, State.reset, State.afterReset, SpliceUnit.reset, SpliceMachine.reset, pendingOf]

theorem witness_channelLaw : ChannelLaw early := by
  intro e _
  simp [chanOf, early, State.reset, State.afterReset, Channel.reset]

theorem witness_regionLaw : RegionLaw early where
  rings := fun i h => by simp [ringOf, early, State.reset, State.afterReset, RingUnit.reset, RingRecord.reset] at h
  feeds := fun e b h => by simp [edOf, early, State.reset, State.afterReset, EditionRecord.reset] at h

theorem entriesFrom_eq (fuel n : Nat) (h : fuel + n = 8192) : entriesFrom fuel n = (List.finRange 8192).drop n := by
  induction fuel generalizing n with
  | zero => rw [entriesFrom, List.drop_eq_nil_of_le (by simp; omega)]
  | succ k ih =>
    have hn : n < 8192 := by omega
    have hd := List.drop_eq_getElem_cons (l := List.finRange 8192) (i := n) (by simpa using hn)
    rw [entriesFrom, dif_pos hn, ih (n + 1) (by omega), hd]
    simp

theorem witness_storeLaw : StoreLaw early := by
  have hq : ∀ e, refsOfEdition e early.refs = [] := fun e => by
    simp [refsOfEdition, early, State.reset, State.afterReset, RefStore.reset]
  have hz : queued early.refs = [] := by simp [queued, hq]
  refine ⟨?_, fun e => ?_, ?_, nofun⟩
  · rw [hz, List.append_nil]
    have := entriesFrom_eq 8192 0 rfl
    rw [List.drop_zero] at this
    exact this ▸ .refl _
  · rw [hq]
    simp [early, State.reset, State.afterReset, RefStore.reset]
  · rw [hz]
    rfl

theorem witness_commandRecord : ∀ n, Command.statistics 3 0 = .statistics 3 n → n = 0 := by
  intro n h; cases h; rfl

/-! ## Witnesses: the upstream port -/

/-- A command write to control slot k of the aperture after reset. -/
def commandReq (k : Nat) : Request := ownWrite 7 (0x0FFFF000 + 64 * k) (encodeCommand 0x1234 (.haltSchedule 3))

theorem class_command : classify studio (commandReq 0) = .command 0 ∧ classify studio (commandReq 63) = .command 63 := by
  decide +kernel

theorem witness_commandWrite :
    (classify studio (commandReq 63) = .command 63 ∧ Takes studio (commandReq 63) ∧ studio.cmd.running = none ∧
      (∀ n, Command.haltSchedule 3 = .statistics 3 n → n = 0) ∧
      (commandReq 63).data = encodeCommand 0x1234 (.haltSchedule 3)) ∧
    (classify (busyUnit 7 studio) (commandReq 63) = .command 63 ∧ Takes (busyUnit 7 studio) (commandReq 63) ∧
      (busyUnit 7 studio).cmd.running ≠ none ∧ (busyUnit 7 studio).cmd.queue.length < 8) ∧
    (classify (busyUnit 8 studio) (commandReq 63) = .command 63 ∧ Takes (busyUnit 8 studio) (commandReq 63) ∧
      (busyUnit 8 studio).cmd.running ≠ none ∧ 8 ≤ (busyUnit 8 studio).cmd.queue.length) := by
  have h := class_command.2
  refine ⟨⟨h, takes_of_class h nofun rfl (by decide), rfl, nofun, rfl⟩,
    ⟨h, takes_of_class (c := .command 63) h nofun rfl (by decide), nofun, by decide⟩,
    ⟨h, takes_of_class (c := .command 63) h nofun rfl (by decide), nofun, by decide⟩⟩

theorem witness_class_beyond : 2 ^ 40 < (ownRead 1 (2 ^ 40 - 32) 64).addr + (ownRead 1 (2 ^ 40 - 32) 64).len := by decide

/-- Only edition 3 has a feed aperture in the studio. -/
theorem studio_feeds (e : EdId) (b : Addr) (h : (edOf studio e).base = some b) : e = 3 ∧ b = 0x10000 := by
  by_cases he : e = 3
  · subst he
    refine ⟨rfl, ?_⟩
    have : (edOf studio 3).base = some 0x10000 := by decide +kernel
    rw [this] at h
    cases h
    rfl
  · exfalso
    have : (edOf studio e).base = none := by
      show (tget (tmodify State.reset.eds 3 _) e).base = none
      rw [tget_tmodify_ne _ he]
      simp [State.reset, State.afterReset, EditionRecord.reset]
    rw [this] at h
    cases h

/-- Only ring 2 is enabled in the studio. -/
theorem studio_rings (i : RingId) (h : (ringOf studio i).enabled = true) : i = 2 := by
  by_cases hi : i = 2
  · exact hi
  · exfalso
    have : (ringOf studio i).enabled = false := by
      show (tget (tmodify State.reset.rings.recs 2 _) i).enabled = false
      rw [tget_tmodify_ne _ hi]
      simp [State.reset, State.afterReset, RingUnit.reset, RingRecord.reset]
    rw [this] at h
    cases h

/-- A whole-cell read of n cells from slot k of the aperture of edition 3. -/
def feedReq (k n : Nat) : Request := ownRead 9 (0x10000 + k * 224) (n * 224)

/-- The feed requests of the class map: the last four slots, a write, and a length fault. -/
theorem witness_class_feed :
    (feedReq 252 4).addr + (feedReq 252 4).len ≤ 2 ^ 40 ∧ (edOf studio 3).base = some 0x10000 ∧
    (∀ e' b', e' ≠ 3 → (edOf studio e').base = some b' → ¬Shares (feedReq 252 4) b'.toNat 57344) ∧
    (Shares (feedReq 252 4) 0x10000 57344 ∧ (feedReq 252 4).dir = .read ∧ WholeCells (feedReq 252 4) 0x10000 4) ∧
    (Shares (ownWrite 9 0x10000 [0]) 0x10000 57344 ∧ (ownWrite 9 0x10000 [0]).dir = .write) ∧
    (Shares (ownRead 9 0x1DFE0 32) 0x10000 57344 ∧ (ownRead 9 0x1DFE0 32).dir = .read ∧
      ∀ n, ¬WholeCells (ownRead 9 0x1DFE0 32) 0x10000 n) := by
  refine ⟨by decide, by decide +kernel, fun e' b' he h => absurd (studio_feeds e' b' h).1 he,
    ⟨by decide, rfl, by decide, by decide, by decide, 252, by decide, by decide⟩, ⟨by decide, rfl⟩,
    ⟨by decide, rfl, fun n h => ?_⟩⟩
  have hl : (ownRead 9 0x1DFE0 32).len = 32 := by decide
  have := h.2.2.1
  rw [hl] at this
  omega

/-- An ingest write to slot k of ring 2, with label 16. -/
def ingestReq (k : Nat) : Request := ownWrite 5 (0x100000 + k * 224) ([16, 0, 0, 0] ++ List.replicate 220 0)

/-- No feed aperture of the studio meets a request that lies at or beyond its ring. -/
theorem studio_beside_feeds {r : Request} (h : 0x100000 ≤ r.addr) (e : EdId) (b : Addr) (hb : (edOf studio e).base = some b) :
    ¬Shares r b.toNat 57344 := by
  obtain ⟨_, rfl⟩ := studio_feeds e b hb
  intro hs
  have : r.addr < 0x10000 + 57344 := hs.1
  omega

/-- The ring requests of the class map: a read of the first byte, writes of the first and the last slot, a short write. -/
theorem witness_class_ring :
    (ringOf studio 2).enabled = true ∧ (ringOf studio 2).base.toNat = 0x100000 ∧ (ringOf studio 2).size = 16 ∧
    (∀ j, j ≠ 2 → (ringOf studio j).enabled = true →
      ¬((ringOf studio j).base.toNat ≤ 0x100000 ∧ 0x100000 < (ringOf studio j).base.toNat + (ringOf studio j).size * 224)) ∧
    (∀ e b, (edOf studio e).base = some b → ¬Shares (ingestReq 15) b.toNat 57344) ∧
    ((ownRead 5 0x100000 32).addr = 0x100000 ∧ (ownRead 5 0x100000 32).dir = .read) ∧
    ((ingestReq 0).addr = 0x100000 ∧ (ingestReq 0).len = 224 ∧ (ingestReq 0).strobes = List.replicate 224 true) ∧
    ((ingestReq 15).addr = 0x100000 + 15 * 224 ∧ 15 < 16 ∧ (ingestReq 15).len = 224) ∧
    ((ownWrite 5 0x100000 [0]).dir = .write ∧ ¬((ownWrite 5 0x100000 [0]).len = 224)) := by
  refine ⟨by decide +kernel, by decide +kernel, by decide +kernel, fun j hj h => absurd (studio_rings j h) hj,
    studio_beside_feeds (by decide), by decide, by decide +kernel, by decide +kernel, by decide⟩

/-- The control requests of the class map: command writes of the first and the last slot, a read, and a request beside the
aperture. -/
theorem witness_class_control :
    (∀ e b, (edOf studio e).base = some b → ¬Shares (commandReq 63) b.toNat 57344) ∧
    (∀ i, (ringOf studio i).enabled = true →
      ¬Shares (commandReq 63) (ringOf studio i).base.toNat ((ringOf studio i).size * 224)) ∧
    ((commandReq 0).addr = studio.path.control.toNat + 64 * (0 : BitVec 6).toNat ∧
      (commandReq 63).addr = studio.path.control.toNat + 64 * (63 : BitVec 6).toNat ∧ (commandReq 63).dir = .write ∧
      (commandReq 63).len = 64 ∧ (commandReq 63).strobes = List.replicate 64 true) ∧
    (Shares (ownRead 7 0x0FFFF000 64) studio.path.control.toNat 4096 ∧ ¬((ownRead 7 0x0FFFF000 64).dir = .write)) ∧
    ¬Shares (ownRead 7 0x10000000 64) studio.path.control.toNat 4096 := by
  refine ⟨studio_beside_feeds (by decide), fun i h => ?_, by decide, by decide, by decide⟩
  obtain rfl := studio_rings i h
  decide +kernel

theorem witness_forwarded :
    (classify studio (ownRead 7 0 32) = .passThrough ∧ Takes studio (ownRead 7 0 32)) ∧
    (classify studio (ownRead 7 0x0FFFF000 32) = .controlOther ∧ Takes studio (ownRead 7 0x0FFFF000 32)) ∧
    (classify studio (ownRead 7 0x100000 32) = .ringRead 2 ∧ Takes studio (ownRead 7 0x100000 32)) ∧
    (classify studio (ownWrite 7 0x100000 [0]) = .malformed 2 ∧ Takes studio (ownWrite 7 0x100000 [0])) := by
  have h1 : classify studio (ownRead 7 0 32) = .passThrough := by decide +kernel
  have h2 : classify studio (ownRead 7 0x0FFFF000 32) = .controlOther := by decide +kernel
  have h3 : classify studio (ownRead 7 0x100000 32) = .ringRead 2 := by decide +kernel
  have h4 : classify studio (ownWrite 7 0x100000 [0]) = .malformed 2 := by decide +kernel
  exact ⟨⟨h1, takes_of_class h1 nofun rfl (by decide)⟩, ⟨h2, takes_of_class h2 nofun rfl (by decide)⟩,
    ⟨h3, takes_of_class h3 nofun rfl (by decide)⟩, ⟨h4, takes_of_class h4 nofun rfl (by decide)⟩⟩

/-- The studio with edition 3 in another state and AUTO-RESUME as given. -/
def studioIn (st : EdState) (auto : Bool) : State := modEd 3 (fun r => { r with state := st, autoResume := auto }) studio

theorem witness_answered :
    (classify studio (ownRead 7 (2 ^ 40 - 32) 64) = .beyond ∧ Takes studio (ownRead 7 (2 ^ 40 - 32) 64)) ∧
    (classify studio (ownWrite 7 0x10000 [0]) = .feedWrite 3 ∧ Takes studio (ownWrite 7 0x10000 [0])) ∧
    (∀ st auto, st = .live ∨ st = .dormant ∨ st = .off →
      classify (studioIn st auto) (ownRead 7 0x10000 32) = .lengthFault 3 ∧ Takes (studioIn st auto) (ownRead 7 0x10000 32) ∧
      (edOf (studioIn st auto) 3).state = st ∧ (edOf (studioIn st auto) 3).autoResume = auto) := by
  have h1 : classify studio (ownRead 7 (2 ^ 40 - 32) 64) = .beyond := by decide +kernel
  have h2 : classify studio (ownWrite 7 0x10000 [0]) = .feedWrite 3 := by decide +kernel
  refine ⟨⟨h1, takes_of_class h1 nofun rfl (by decide)⟩, ⟨h2, takes_of_class h2 nofun rfl (by decide)⟩, fun st auto _ => ?_⟩
  have h3 : classify (studioIn st auto) (ownRead 7 0x10000 32) = .lengthFault 3 := by
    cases st <;> cases auto <;> decide +kernel
  exact ⟨h3, takes_of_class h3 nofun rfl (by show (0 : Nat) < 128; decide), by simp [studioIn, edOf, modEd],
    by simp [studioIn, edOf, modEd]⟩

/-- The studio with ring 2 in a silence state and with a run count. -/
def studioRing (st : Silence) (run : Nat) : State := modRing 2 (fun r => { r with silence := st, run := run }) studio

theorem witness_ingest :
    (classify studio (ingestReq 15) = .ingest 2 15 ∧ Takes studio (ingestReq 15) ∧ (ringOf studio 2).silence = .active ∧
      (ringOf studio 2).w.toNat + (ringOf studio 2).size < 2 ^ 48) ∧
    (classify (studioRing .silent 6) (ingestReq 0) = .ingest 2 0 ∧ Takes (studioRing .silent 6) (ingestReq 0) ∧
      (ringOf (studioRing .silent 6) 2).silence = .silent ∧
      (ringOf (studioRing .silent 6) 2).run + 1 < (ringOf (studioRing .silent 6) 2).restore) ∧
    (classify (studioRing .silent 7) (ingestReq 0) = .ingest 2 0 ∧ Takes (studioRing .silent 7) (ingestReq 0) ∧
      (ringOf (studioRing .silent 7) 2).silence = .silent ∧
      (ringOf (studioRing .silent 7) 2).restore ≤ (ringOf (studioRing .silent 7) 2).run + 1) := by
  have h1 : classify studio (ingestReq 15) = .ingest 2 15 := by decide +kernel
  have h2 : classify (studioRing .silent 6) (ingestReq 0) = .ingest 2 0 := by decide +kernel
  have h3 : classify (studioRing .silent 7) (ingestReq 0) = .ingest 2 0 := by decide +kernel
  exact ⟨⟨h1, takes_of_class h1 nofun rfl (by decide), by decide +kernel, by decide +kernel⟩,
    ⟨h2, takes_of_class h2 nofun rfl (by decide), by decide +kernel, by decide +kernel⟩,
    ⟨h3, takes_of_class h3 nofun rfl (by decide), by decide +kernel, by decide +kernel⟩⟩

theorem witness_sleeping (st : EdState) (h : st = .off ∨ st = .dormant) :
    classify (studioIn st false) (feedReq 0 4) = .feedRead 3 4 ∧ Takes (studioIn st false) (feedReq 0 4) ∧
    NoPurge (studioIn st false) ∧
    ((edOf (studioIn st false) 3).state = .off ∨
      ((edOf (studioIn st false) 3).state = .dormant ∧ (edOf (studioIn st false) 3).autoResume = false)) ∧
    (feedOf (studioIn st false) 3).reads = [] ∧
    (∀ o ∈ (studioIn st false).path.openReqs, o.cls = .feedRead 3 → o.response ≠ none) := by
  have hc : classify (studioIn st false) (feedReq 0 4) = .feedRead 3 4 := by cases st <;> decide +kernel
  have hs : (edOf (studioIn st false) 3).state = st := by simp [studioIn, edOf, modEd]
  have ha : (edOf (studioIn st false) 3).autoResume = false := by simp [studioIn, edOf, modEd]
  refine ⟨hc, takes_of_feedRead hc (by cases st <;> decide +kernel) rfl (by show (0 : Nat) < 128; decide),
    noPurge_of_idle ⟨rfl, rfl⟩, ?_, by cases st <;> decide +kernel, nofun⟩
  rcases h with h | h
  · exact .inl (hs.trans h)
  · exact .inr ⟨hs.trans h, ha⟩

theorem witness_composed :
    (classify withCell (feedReq 252 4) = .feedRead 3 4 ∧ Takes withCell (feedReq 252 4) ∧ NoPurge withCell ∧
      (edOf withCell 3).state = .live) ∧
    (classify (studioIn .dormant true) (feedReq 0 1) = .feedRead 3 1 ∧ Takes (studioIn .dormant true) (feedReq 0 1) ∧
      NoPurge (studioIn .dormant true) ∧ (edOf (studioIn .dormant true) 3).state = .dormant ∧
      (edOf (studioIn .dormant true) 3).autoResume = true) := by
  have h1 : classify withCell (feedReq 252 4) = .feedRead 3 4 := by decide +kernel
  have h2 : classify (studioIn .dormant true) (feedReq 0 1) = .feedRead 3 1 := by decide +kernel
  exact ⟨⟨h1, takes_of_feedRead h1 (by decide +kernel) rfl (by decide), noPurge_of_idle ⟨rfl, by decide +kernel⟩,
      by decide +kernel⟩,
    ⟨h2, takes_of_feedRead h2 (by decide +kernel) rfl (by decide), noPurge_of_idle ⟨rfl, rfl⟩, by decide +kernel,
      by decide +kernel⟩⟩

/-- Open requests: a ready one of tag 4, and whole-cell reads of edition 3 with tags 5 (not ready) and 6 (ready). -/
def openThree : State :=
  { studio with path := { studio.path with openReqs :=
      [⟨4, .forwarded, some ⟨.okay, []⟩⟩, ⟨5, .feedRead 3, none⟩, ⟨6, .feedRead 3, some ⟨.okay, []⟩⟩] } }

theorem witness_responseLeaves :
    (openThree.path.openReqs = [] ++ ⟨4, .forwarded, some ⟨.okay, []⟩⟩ :: openThree.path.openReqs.drop 1) ∧
    (openThree.path.openReqs = openThree.path.openReqs.take 1 ++ ⟨5, .feedRead 3, none⟩ :: openThree.path.openReqs.drop 2 ∧
      ∀ b ∈ openThree.path.openReqs.take 1, b.tag ≠ 5) ∧
    (openThree.path.openReqs = openThree.path.openReqs.take 2 ++ ⟨6, .feedRead 3, some ⟨.okay, []⟩⟩ :: [] ∧
      (∀ b ∈ openThree.path.openReqs.take 2, b.tag ≠ 6) ∧
      (⟨5, .feedRead 3, none⟩ : OpenReq) ∈ openThree.path.openReqs.take 2) := by
  decide

/-! ## Witnesses: composition -/

theorem witness_staleClearing : queueOf (clearAll 3 1000 withCell) 3 7 = 0 :: [] := by decide +kernel

/-- The studio's cell with a frame whose first position names programme 7, or with the position at a place. -/
def framed (pos : Nat) : State :=
  modComp 3 (fun c => { c with frame := .prog 7 :: List.replicate 15 .openPool, pos := pos }) withCell

theorem witness_places :
    ((compOf (framed 0) 3).frame[(compOf (framed 0) 3).pos]? = some (.prog 7) ∧ queueOf (framed 0) 3 7 = 0 :: []) ∧
    ((compOf studio 3).frame[(compOf studio 3).pos]? = some .openPool ∧ queueOf studio 3 7 = []) ∧
    (compOf (framed 14) 3).pos + 1 < (compOf (framed 14) 3).frame.length ∧
    (compOf (framed 15) 3).frame.length ≤ (compOf (framed 15) 3).pos + 1 := by
  decide +kernel

/-- A named position without a cell, for the fall to the open pool. -/
theorem witness_places_empty :
    let s := modComp 3 (fun c => { c with frame := List.replicate 16 (.prog 9) }) withCell
    (compOf s 3).frame[(compOf s 3).pos]? = some (.prog 9) ∧ queueOf s 3 9 = [] := by
  decide +kernel

/-- The open pool: no candidate in the studio; programme 7 the only candidate, HIGH, with one cell waiting. -/
theorem witness_openPool :
    (∀ q, queueOf studio 3 q = []) ∧
    (queueOf withCell 3 7 = 0 :: [] ∧
      tget (compOf withCell 3).openCount 7 < (tget (compOf withCell 3).inForce 7).ceiling ∧
      (tget (compOf withCell 3).inForce 7).priority = .high) ∧
    (∀ q', queueOf withCell 3 q' ≠ [] → q' = 7) := by
  decide +kernel

/-- The same candidate LOW, with no HIGH candidate. -/
theorem witness_openPool_low :
    let s := modComp 3 (fun c => { c with inForce := tput c.inForce 7 ⟨2, .low⟩ }) withCell
    queueOf s 3 7 = 0 :: [] ∧ (tget (compOf s 3).inForce 7).priority = .low ∧
      ∀ q', ¬(queueOf s 3 q' ≠ [] ∧ tget (compOf s 3).openCount q' < (tget (compOf s 3).inForce q').ceiling ∧
        (tget (compOf s 3).inForce q').priority = .high) := by
  decide +kernel

/-! ## Witnesses: admission -/

/-- What ring 2 keeps of an ingest write with a label. -/
def kept (label : Label) (valid : Bool) : IngestKept :=
  { ring := 2, seq := 4, label := label, e := true, k := true, x := false, arrival := 900, valid := valid }

/-- The stream entry of label 16: programme 7, variant 0, editions 3 and 5. -/
def entry16 : StreamEntry :=
  { valid := true, restamp := true, prog := 7, variant := 0, mask := 0x28, outLabel := 32 }

/-- The studio with entry 16 written. -/
def withEntry : State := { withCell with stream := writeStream 16 entry16 studio.stream }

theorem witness_completion :
    takeOldest 5 (sent (.ingest (kept 16 true)) (ingestReq 4) withEntry).down =
      some (⟨.ingest (kept 16 true), ingestReq 4⟩, []) ∧
    takeOldest 5 (sent (.ingest (kept 4095 true)) (ingestReq 4) withEntry).down =
      some (⟨.ingest (kept 4095 true), ingestReq 4⟩, []) ∧
    takeOldest 5 (sent (.ingest (kept 16 false)) (ingestReq 4) withEntry).down =
      some (⟨.ingest (kept 16 false), ingestReq 4⟩, []) ∧
    (kept 16 true).valid = true ∧ (kept 16 false).valid = false ∧ (kept 4095 true).label = 4095 ∧
    ((kept 16 true).label ≠ 4095 ∧ (streamSlot withEntry.stream 16).check = .clean ∧
      (streamSlot withEntry.stream 16).entry.valid = true) ∧
    (streamSlot withEntry.stream 17).check = .clean ∧ (streamSlot withEntry.stream 17).entry.valid = false ∧
    (streamSlot withEntry.stream 4094).entry.valid = false := by
  decide +kernel

/-- Protection: without a setting a cell of ring 2 passes; with main ring 1 and backup ring 4 it does not. -/
theorem witness_completion_protection :
    protectionPasses withEntry.rings 7 0 2 = true ∧
    protectionPasses { withEntry.rings with protection := tput2 withEntry.rings.protection 7 0 (some ⟨1, 4⟩) } 7 0 2 =
      false := by
  decide +kernel

/-- The edition steps: edition 5 is OFF; edition 3 is LIVE, carries programme 7, has room in its depth and its quota, and
the store has room and a free entry. -/
theorem witness_editionSteps :
    (edOf withEntry 5).state = .off ∧ (edOf withEntry 3).state = .live ∧ (machineOf withEntry 3 7).phase = .steady ∧
    entry16.variant = (machineOf withEntry 3 7).admitted ∧ { entry16 with variant := 1 }.variant ≠
      (machineOf withEntry 3 7).admitted ∧
    (edOf (studioIn .dormant false) 3).state = .dormant ∧
    0 < (tget (compOf withEntry 3).inForce 7).ceiling ∧
    ¬(Position.prog 8 ∈ (compOf withEntry 3).frame ∨ 0 < (tget (compOf withEntry 3).inForce 8).ceiling) ∧
    (queueOf withEntry 3 7).length < tget2 withEntry.refs.depth 3 7 ∧ tget withEntry.refs.edCount 3 < (edOf withEntry 3).quota ∧
    withEntry.refs.pool < 8192 := by
  decide +kernel

theorem witness_editionSteps_free : withEntry.refs.free = 1 :: withEntry.refs.free.tail := by
  have h : withEntry.refs.free.head? = some 1 := by decide +kernel
  exact (List.cons_head?_tail h).symm

/-- The limits of the edition steps at their boundaries: depth 1 with one cell, quota 1 with one reference, a full pool. -/
theorem witness_editionSteps_limits :
    (let s := { withEntry with refs := { withEntry.refs with depth := tput2 withEntry.refs.depth 3 7 1 } };
      tget2 s.refs.depth 3 7 ≤ (queueOf s 3 7).length) ∧
    (let s := modEd 3 (fun r => { r with quota := 1 }) withEntry;
      (queueOf s 3 7).length < tget2 s.refs.depth 3 7 ∧ (edOf s 3).quota ≤ tget s.refs.edCount 3) ∧
    (let s := { withEntry with refs := { withEntry.refs with pool := 8192 } };
      (queueOf s 3 7).length < tget2 s.refs.depth 3 7 ∧ tget s.refs.edCount 3 < (edOf s 3).quota ∧ 8192 ≤ s.refs.pool) := by
  decide +kernel

/-! ## Witnesses: the downstream port -/

/-- A forwarded request of tag 4, open and in flight. -/
def forwardedOne : State :=
  { studio with
    down := [⟨.forwarded, ownRead 4 0 32⟩], path := { studio.path with openReqs := [⟨4, .forwarded, none⟩] } }

theorem witness_downstream :
    (forwardedOne.down = [] ++ ⟨.forwarded, ownRead 4 0 32⟩ :: [] ∧ (ownRead 4 0 32).tag = 4 ∧
      forwardedOne.path.openReqs = [] ++ ⟨4, .forwarded, none⟩ :: []) ∧
    (∀ d ∈ forwardedOne.down, d.req.tag ≠ 5) := by
  decide

/-- A delivery read of edition 3 in flight for the only entry of its list. -/
def reading (ref : Reference) : State :=
  let x : InFlight := { ref := some ref, t := 1000, offset := 0, state := .issued }
  let s := modFeed 3 (fun f => { f with reads := [[x]] }) (sent (.delivery 3 2 true) (ownRead 227 0x100380 224) studio)
  { s with path := { s.path with openReqs := [⟨9, .feedRead 3, none⟩] } }

theorem witness_delivery :
    (takeOldest (Config.deliveryTag 3) (reading cellRef).down = some (⟨.delivery 3 2 true, ownRead 227 0x100380 224⟩, []) ∧
      NoPurge (reading cellRef) ∧
      (feedOf (reading cellRef) 3).reads = [[{ ref := some cellRef, t := 1000, offset := 0, state := .issued }]] ∧
      cellRef.ring = 2 ∧ (reading cellRef).path.openReqs = [] ++ ⟨9, .feedRead 3, none⟩ :: []) ∧
    (¬((ringOf (reading cellRef) 2).enabled = false ∨
        (ringOf (reading cellRef) 2).size < ((ringOf (reading cellRef) 2).w - cellRef.seq).toNat) ∧
      cellLabel (fit 224 [16, 0]) = cellRef.inLabel ∧ cellLabel (fit 224 [17, 0]) ≠ cellRef.inLabel) ∧
    (let s := modRing 2 (fun r => { r with w := 21 }) (reading cellRef);
      (ringOf s 2).size < ((ringOf s 2).w - cellRef.seq).toNat) ∧
    (let s := modRing 2 (fun r => { r with w := 20 }) (reading cellRef);
      ¬((ringOf s 2).size < ((ringOf s 2).w - cellRef.seq).toNat)) := by
  refine ⟨⟨by decide +kernel, noPurge_of_idle ⟨rfl, rfl⟩, by decide +kernel, rfl, rfl⟩, by decide +kernel, by decide +kernel,
    by decide +kernel⟩

theorem witness_header : (List.replicate 224 (0xAB : Byte)).length = 224 ∧
    (cellRef.k && cellRef.restamp) = false ∧
    ({ cellRef with k := true, restamp := true }.k && { cellRef with k := true, restamp := true }.restamp) = true := by
  decide +kernel

/-! ## Witnesses: the report writer -/

/-- A report ring of 64 places at 0x200000 with interrupts, the record of a REPORT ACK pending and its write in flight. -/
def writing (b : Report) : State :=
  let s := sent .recordWrite (ownWrite 222 0x200020 (List.replicate 32 0)) studio
  { s with rep := { s.rep with
      isSet := true, base := 0x200000, intEnable := true, pend := [⟨b, 900⟩], writer := .record 0 } }

/-- The writer's index block write in flight, with pending records. -/
def indexing (ps : List PendingRecord) (s : State) : State :=
  let s := sent .indexWrite (ownWrite 222 0x200000 (List.replicate 32 0)) s
  { s with rep := { s.rep with isSet := true, base := 0x200000, pend := ps, writer := .index } }

theorem witness_recordWrite :
    (takeOldest 222 (writing (.command 23 1 2 .done)).down =
        some (⟨.recordWrite, ownWrite 222 0x200020 (List.replicate 32 0)⟩, []) ∧
      (writing (.command 23 1 2 .done)).rep.writer = .record 0 ∧
      (writing (.command 23 1 2 .done)).rep.pend = ⟨.command 23 1 2 .done, 900⟩ :: [] ∧
      (∃ slot tag, Report.command 23 1 2 .done = .command 23 slot tag .done) ∧
      (writing (.command 23 1 2 .done)).rep.readIdx = (writing (.command 23 1 2 .done)).rep.writeIdx) ∧
    ((writing (.time .referenceLost)).rep.pend = ⟨.time .referenceLost, 900⟩ :: [] ∧
      ¬∃ slot tag, Report.time .referenceLost = .command 23 slot tag .done) := by
  refine ⟨⟨by decide, rfl, rfl, ⟨1, 2, rfl⟩, rfl⟩, rfl, nofun⟩

theorem witness_indexWrite :
    (takeOldest 222 (indexing [] studio).down = some (⟨.indexWrite, ownWrite 222 0x200000 (List.replicate 32 0)⟩, []) ∧
      (indexing [] studio).rep.writer = .index ∧ (indexing [] studio).rep.pend = [] ∧
      ∀ c n i b, (indexing [] studio).cmd.running ≠ some ⟨c, .reportRing n i b⟩) ∧
    ((indexing [⟨.time .referenceLost, 900⟩] studio).rep.pend = ⟨.time .referenceLost, 900⟩ :: [] ∧
      ∀ c n i b, (indexing [⟨.time .referenceLost, 900⟩] studio).cmd.running ≠ some ⟨c, .reportRing n i b⟩) ∧
    ((indexing [] (waitingFor (.reportRing 64 true 0) studio)).cmd.running =
        some ⟨⟨0, 0, 0, .unknown⟩, .reportRing 64 true 0⟩ ∧
      (indexing [] (waitingFor (.reportRing 64 true 0) studio)).cmd.queue = []) := by
  refine ⟨⟨by decide, rfl, rfl, nofun⟩, ⟨rfl, nofun⟩, rfl, rfl⟩

/-- Held records at the boundary: with 61 unread and one pending a record is accepted, with 62 unread it is dropped. -/
theorem witness_handOver :
    let s61 : State := { writing (.time .referenceLost) with
      rep := { (writing (.time .referenceLost)).rep with writeIdx := 61 } }
    let s62 : State := { writing (.time .referenceLost) with
      rep := { (writing (.time .referenceLost)).rep with writeIdx := 62 } }
    (s61.rep.isSet = true ∧ s61.rep.writer ≠ .idle ∧
      (s61.rep.writeIdx + s61.rep.places - s61.rep.readIdx % s61.rep.places) % s61.rep.places + s61.rep.pend.length <
        s61.rep.places - 1) ∧
    s62.rep.places - 1 ≤
      (s62.rep.writeIdx + s62.rep.places - s62.rep.readIdx % s62.rep.places) % s62.rep.places + s62.rep.pend.length ∧
    studio.rep.isSet = false ∧
    (let s : State := { studio with rep := { studio.rep with isSet := true } };
      s.rep.writer = .idle ∧ s.rep.pend = []) := by
  refine ⟨⟨rfl, nofun, by decide⟩, by decide, rfl, rfl, rfl⟩

/-! ## Witnesses: lists read by commands -/

theorem cmdIdle_studio : CmdIdle studio := ⟨rfl, rfl⟩

theorem witness_load :
    (CmdIdle studio ∧ (4094 : Label).toNat + (2 : BitVec 16).toNat - 1 ≤ 4095 ∧
      4095 < (4094 : Label).toNat + (3 : BitVec 16).toNat - 1 ∧
      (0x1000 : Addr).toNat + 32 * (((2 : BitVec 16).toNat + 3) / 4) ≤ studio.path.limit) ∧
    (let s := sent .streamList (ownRead 223 0x1000 4096) (waitingFor (.load 0 513 0x1000) studio);
      s.cmd = { running := some ⟨⟨0, 0, 0, .unknown⟩, .load 0 513 0x1000⟩, queue := [] } ∧
      takeOldest 223 s.down = some (⟨.streamList, ownRead 223 0x1000 4096⟩, []) ∧ 512 < 513) := by
  refine ⟨⟨cmdIdle_studio, by decide, by decide, by decide⟩, rfl, by decide, by decide⟩

theorem witness_carriage :
    (CmdIdle studio ∧ ¬(16 ≤ (3 : BitVec 8).toNat ∨ (16 : BitVec 8).toNat < 16 ∨ 128 < (128 : BitVec 8).toNat ∨
      (0x1000 : Addr).toNat % 32 ≠ 0 ∨
      studio.path.limit < (0x1000 : Addr).toNat + 32 * (((128 : BitVec 8).toNat + 31) / 32)) ∧
      (15 : BitVec 8).toNat < 16 ∧ 128 < (129 : BitVec 8).toNat) ∧
    (let s := sent .carriageList (ownRead 223 0x1000 32) (waitingFor (.carriage 3 16) studio);
      s.cmd = { running := some ⟨⟨0, 0, 0, .unknown⟩, .carriage 3 16⟩, queue := [] } ∧
      takeOldest 223 s.down = some (⟨.carriageList, ownRead 223 0x1000 32⟩, []) ∧ (edOf s 3).state = .live ∧
      (edOf s 4).state ≠ .live) ∧
    (positionOf (byteAt [48] 0) = none ∧ positionOf (byteAt [47] 0) = some (.prog 47) ∧
      positionOf (byteAt [255] 0) = some .openPool) := by
  refine ⟨⟨cmdIdle_studio, by decide, by decide, by decide⟩, ⟨rfl, by decide, by decide +kernel, by decide +kernel⟩, by decide⟩

/-- A frame of 16 positions read from its bytes. -/
theorem witness_carriage_frame :
    (List.replicate 16 (Position.prog 7)).length = 16 ∧
    ∀ i, i < 16 → positionOf (byteAt (List.replicate 16 7) i) = (List.replicate 16 (Position.prog 7))[i]? := by
  decide

/-! ## Witnesses: schedule channels -/

/-- Channel 3 with a state, a current word at 0x40 and the next address 0x60. -/
def channel (st : ChanState) (w : Option SchedWord) : State :=
  modChan 3 (fun c => { c with state := st, current := w.map (⟨0x40, ·⟩), next := 0x60 }) studio

/-- A word fetch of channel 3 in flight, still wanted or given up. -/
def fetching (live : Bool) : State := sent (.wordFetch 3 live) (ownRead 243 0x60 32) (channel .fetching none)

/-- A word that JUMPs to 0x80. -/
def jumpWord : List Byte := [4, 0, 0, 0, 0, 0, 0, 0, 0x80] ++ List.replicate 23 0

/-- A SPLICE word with SYNC for programme 7, variant 1, T = 1001, window 3. -/
def spliceWord : List Byte :=
  [1, 0, 9, 0, 7, 1, 2, 0, 3, 0] ++ List.replicate 6 0 ++ [0xE9, 3] ++ List.replicate 14 0

/-- A CARRIAGE word of length 128 and count 128 with its data at 0x1000. -/
def carriageWord : List Byte := [2, 0, 0, 0, 128, 128, 0, 0, 0, 0x10] ++ List.replicate 22 0

theorem witness_wordFetch :
    takeOldest (Config.channelTag 3) (fetching true).down = some (⟨.wordFetch 3 true, ownRead 243 0x60 32⟩, []) ∧
    takeOldest (Config.channelTag 3) (fetching false).down = some (⟨.wordFetch 3 false, ownRead 243 0x60 32⟩, []) ∧
    (chanOf (fetching true) 3).next < 2 ^ 40 ∧ (chanOf (fetching true) 3).jumped = false ∧
    (chanOf (fetching true) 3).progress < 255 := by
  decide +kernel

/-- The words of the clauses: an unknown kind, END, a WAIT ahead of house time. -/
theorem witness_words :
    (parseWord (List.replicate 32 0) = .inr .kind ∧ (List.replicate 32 (0 : Byte)).length = 32) ∧
    parseWord (5 :: List.replicate 31 0) = .inl ⟨.endWord, false, false, 0⟩ ∧
    (parseWord (3 :: List.replicate 15 0 ++ [0xE9, 3] ++ List.replicate 14 0) = .inl ⟨.wait 1001, false, false, 0⟩ ∧
      (fetching true).time.now.toNat < (1001 : HouseTime).toNat) := by
  decide +kernel

/-- A JUMP word with its aligned target, and the jumped flag set. -/
theorem witness_words_jump :
    (jumpWord.length = 32 ∧ parseWord jumpWord = .inl ⟨.jump 0x80, false, false, 0⟩ ∧ (0x80 : Addr).toNat % 32 = 0 ∧
      (0x80 : Addr).toNat + 32 ≤ (fetching true).path.limit) ∧
    (chanOf (modChan 3 (fun c => { c with jumped := true }) (fetching true)) 3).jumped = true := by
  decide +kernel

/-- A SPLICE word for a STEADY machine, and a CARRIAGE word whose data fits. -/
theorem witness_words_splice :
    (spliceWord.length = 32 ∧ parseWord spliceWord = .inl ⟨.splice 7 1 1001 3 false true false, false, false, 9⟩ ∧
      (machineOf (fetching true) 3 7).phase = .steady ∧ 1 ≠ (machineOf (fetching true) 3 7).admitted ∧
      (fetching true).time.now.toNat < (1001 : HouseTime).toNat) ∧
    (carriageWord.length = 32 ∧ parseWord carriageWord = .inl ⟨.carriage 128 128 0x1000 false, false, false, 0⟩ ∧
      (0x1000 : Addr).toNat + 32 * ((128 + 31) / 32) ≤ (fetching true).path.limit) := by
  decide +kernel

/-- A CARRIAGE word of length 16 and count 2. -/
def shortCarriage : SchedWord := ⟨.carriage 16 2 0x1000 true, false, false, 9⟩

theorem witness_dataFetch :
    let s := sent (.dataFetch 3 true) (ownRead 243 0x1000 32) (channel .fetching (some shortCarriage))
    takeOldest (Config.channelTag 3) s.down = some (⟨.dataFetch 3 true, ownRead 243 0x1000 32⟩, []) ∧
      (chanOf s 3).current = some ⟨0x40, shortCarriage⟩ ∧ shortCarriage.kind = .carriage 16 2 0x1000 true ∧
      (1 < min 16 2 ∧ positionOf (byteAt [7, 48] 1) = none) ∧
      ([.prog 7, .openPool] : List Position).length = min 16 2 ∧
      ∀ i, i < min 16 2 → positionOf (byteAt [7, 255] i) = ([.prog 7, .openPool] : List Position)[i]? := by
  decide +kernel

/-- A WAIT word that has reached its time, with and without HOLD. -/
def waitWord (hold : Bool) : SchedWord := ⟨.wait 1000, false, hold, 9⟩

theorem witness_channels :
    (CmdIdle studio ∧ (3 : EdId).val = (3 : BitVec 8).toNat ∧ (chanOf studio 3).state = .idle ∧
      (0x40 : Addr).toNat % 32 = 0 ∧ (0x40 : Addr).toNat + 32 ≤ studio.path.limit ∧ (0x41 : Addr).toNat % 32 ≠ 0) ∧
    (CmdIdle (channel .suspended none) ∧ (chanOf (channel .suspended none) 3).state = .suspended ∧
      (chanOf (channel .suspended none) 3).next % 32 = 0 ∧
      (chanOf (channel .suspended none) 3).next + 32 ≤ (channel .suspended none).path.limit) ∧
    (let s : State := modChan 3 (fun c => { c with next := 2 ^ 40 }) (channel .suspended none);
      CmdIdle s ∧ (chanOf s 3).state = .suspended ∧ (chanOf s 3).next % 32 = 0 ∧ s.path.limit < (chanOf s 3).next + 32) ∧
    ((chanOf (channel .waiting (some (waitWord true))) 3).state = .waiting ∧
      (chanOf (channel .waiting (some (waitWord true))) 3).current = some ⟨0x40, waitWord true⟩ ∧
      (waitWord true).kind = .wait 1000 ∧ (1000 : HouseTime).toNat ≤ studio.time.now.toNat ∧ (waitWord true).hold = true ∧
      (waitWord false).hold = false ∧
      (chanOf (channel .waiting (some (waitWord false))) 3).current = some ⟨0x40, waitWord false⟩) := by
  decide +kernel

theorem witness_haltAndClear :
    (CmdIdle studio ∧ (3 : EdId).val = (3 : BitVec 8).toNat ∧ (chanOf studio 3).state = .idle) ∧
    CmdIdle (channel .syncing (some shortCarriage)) ∧ (chanOf (channel .syncing (some shortCarriage)) 3).state ≠ .idle := by
  decide +kernel

/-! ## Witnesses: splices and house time -/

/-- A splice of the host to variant 1 with its T, window and FORCE flag. -/
def hostSplice (t : HouseTime) (window : BitVec 16) (force : Bool) : PendingSplice := ⟨1, t, window, force, 9, .command, false⟩

/-- Machine (3,7) in a phase. -/
def machine (ph : SplicePhase) : State := modMachine 3 7 (fun m => { m with phase := ph }) studio

theorem witness_splices :
    ((machineOf (machine (.armed (hostSplice 1000 1 true))) 3 7).phase = .armed (hostSplice 1000 1 true) ∧
      (machineOf (machine (.armed (hostSplice 1000 1 true))) 3 7).waiting = false ∧
      (hostSplice 1000 1 true).source = .command ∧ (1000 : HouseTime).toNat ≤ studio.time.now.toNat ∧ (1 : BitVec 16) ≠ 0) ∧
    ((machineOf (machine (.armed (hostSplice 1000 0 false))) 3 7).phase = .armed (hostSplice 1000 0 false) ∧
      (hostSplice 1000 0 false).window = 0) ∧
    (let s : State := { machine (.seeking (hostSplice 1000 1 false)) with time := { studio.time with now := 21000 } };
      (machineOf s 3 7).phase = .seeking (hostSplice 1000 1 false) ∧
      (hostSplice 1000 1 false).t.toNat + (hostSplice 1000 1 false).window.toNat * 20000 ≤ s.time.now.toNat) := by
  decide +kernel

theorem witness_arming :
    (CmdIdle studio ∧ (3 : EdId).val = (3 : BitVec 8).toNat ∧ (7 : ProgId).val = (7 : BitVec 8).toNat ∧
      (1 : Variant).val = (1 : BitVec 8).toNat ∧ (machineOf studio 3 7).phase = .steady ∧
      (1 : Variant) ≠ (machineOf studio 3 7).admitted ∧ (0 : Variant) = (machineOf studio 3 7).admitted) ∧
    ((1000 : HouseTime).toNat + (0 : BitVec 16).toNat * 20000 ≤ studio.time.now.toNat ∧
      studio.time.now.toNat < (1000 : HouseTime).toNat + (1 : BitVec 16).toNat * 20000 ∧
      (1000 : HouseTime).toNat ≤ studio.time.now.toNat ∧ studio.time.now.toNat < (1001 : HouseTime).toNat) ∧
    (let s := machine (.armed (hostSplice 2000 1 true));
      CmdIdle s ∧ (machineOf s 3 7).phase ≠ .steady ∧ pendingOf (machineOf s 3 7).phase = some (hostSplice 2000 1 true) ∧
      (machineOf s 3 7).waiting = false) := by
  decide +kernel

theorem witness_setVariantNow :
    CmdIdle studio ∧ (16 ≤ (16 : BitVec 8).toNat ∧ 48 ≤ (48 : BitVec 8).toNat ∧ 8 ≤ (8 : BitVec 8).toNat) ∧
    (15 : EdId).val = (15 : BitVec 8).toNat ∧ (47 : ProgId).val = (47 : BitVec 8).toNat ∧
    (7 : Variant).val = (7 : BitVec 8).toNat ∧ (machineOf studio 15 47).phase = .steady ∧
    (7 : Variant) ≠ (machineOf studio 15 47).admitted := by
  decide +kernel

/-- The studio in HOLDOVER, and with 20 oscillator periods since the latest edge. -/
def holdover : State := { studio with time := { studio.time with ref := .holdover } }

theorem witness_ticks :
    studio.time.ref = .locked ∧ holdover.time.ref = .holdover ∧
    (let s : State := { studio with time := { studio.time with periods := 20 } };
      s.time.ref = .locked ∧ 20 ≤ s.time.periods) := by
  decide

/-- The studio with a load pending that has waited. -/
def loaded (wait : Nat) : State := { studio with time := { studio.time with load := some ⟨5000, wait⟩ } }

theorem witness_timeLoad :
    CmdIdle studio ∧ studio.time.load = none ∧ CmdIdle (loaded 7) ∧ (loaded 7).time.load = some ⟨5000, 7⟩ := by
  refine ⟨cmdIdle_studio, rfl, ⟨rfl, rfl⟩, rfl⟩

theorem witness_pulse :
    ((loaded 7).time.load = some ⟨5000, 7⟩ ∧ (∀ e p, (machineOf (loaded 7) e p).phase = .steady) ∧
      ∀ e, (chanOf (loaded 7) e).state ≠ .waiting) ∧
    ((loaded 40000000).time.load = some ⟨5000, 40000000⟩ ∧ 40000000 ≤ (⟨5000, 40000000⟩ : PendingLoad).wait) ∧
    ((machineOf (machine (.armed (hostSplice 1000 0 true))) 3 7).phase = .armed (hostSplice 1000 0 true) ∧
      (machineOf (machine (.seeking (hostSplice 900 1 true))) 3 7).phase = .seeking (hostSplice 900 1 true)) := by
  refine ⟨⟨rfl, fun e p => ?_, fun e => ?_⟩, ⟨rfl, by decide⟩, by decide +kernel⟩
  · show (machineOf State.reset e p).phase = .steady
    simp [machineOf, State.reset, State.afterReset, SpliceUnit.reset, SpliceMachine.reset]
  · show (chanOf State.reset e).state ≠ .waiting
    simp [chanOf, State.reset, State.afterReset, Channel.reset]

/-! ## Witnesses: rings and the stream table -/

theorem witness_setStreamEntry :
    CmdIdle studio ∧ 48 ≤ (48 : BitVec 8).toNat ∧ (47 : ProgId).val = (47 : BitVec 8).toNat ∧ (4094 : Label) ≠ 4095 := by
  decide

theorem witness_setEccThreshold : CmdIdle studio ∧ (3 : BitVec 8) ≠ 1 ∧ (3 : BitVec 8) ≠ 2 := by decide

/-- SET RING of ring 1 with 16 slots at 0x300000 meets nothing, at 0x100000 it meets ring 2, and ring 2 is enabled. -/
theorem witness_setRing :
    (CmdIdle studio ∧ (1 : RingId).val = (1 : BitVec 8).toNat ∧
      ¬(32 ≤ (1 : BitVec 8).toNat ∨ (16 : BitVec 32).toNat < 16 ∨ 65536 < (65536 : BitVec 32).toNat ∨
        (0x300000 : Addr).toNat % 4096 ≠ 0 ∨ 2 ^ 40 < (0x300000 : Addr).toNat + (65536 : BitVec 32).toNat * 224 ∨
        (1 : BitVec 16).toNat = 0 ∨ 1000 < (1000 : BitVec 16).toNat ∨ (1 : BitVec 8).toNat = 0) ∧
      (ringOf studio 1).enabled = false) ∧
    (meetsRing studio 0x300000 (16 * 224) (some 1) = false ∧ meetsFeed studio 0x300000 (16 * 224) none = false ∧
      meetsControl studio 0x300000 (16 * 224) = false ∧ meetsRing studio 0x100000 (16 * 224) (some 1) = true) ∧
    (ringOf studio 2).enabled = true := by
  decide +kernel

/-- TIMING ONLY at a quiet time of exactly 5 ms, and at a run of exactly the new restore count. -/
theorem witness_setRingTimingOnly :
    (let s := modRing 2 (fun r => { r with quiet := 100000 }) studio;
      CmdIdle s ∧ (ringOf s 2).enabled = true ∧ (ringOf s 2).silence = .active ∧
      (5 : BitVec 16).toNat * 20000 ≤ (ringOf s 2).quiet ∧ ¬((6 : BitVec 16).toNat * 20000 ≤ (ringOf s 2).quiet)) ∧
    (let s := modRing 2 (fun r => { r with quiet := 100000 }) (studioRing .silent 4);
      CmdIdle s ∧ (ringOf s 2).silence = .silent ∧ 0 < (ringOf s 2).run ∧ (5 : BitVec 16).toNat * 20000 ≤ (ringOf s 2).quiet) ∧
    (CmdIdle (studioRing .silent 4) ∧ (ringOf (studioRing .silent 4) 2).silence = .silent ∧
      ¬(0 < (ringOf (studioRing .silent 4) 2).run ∧ (5 : BitVec 16).toNat * 20000 ≤ (ringOf (studioRing .silent 4) 2).quiet) ∧
      (4 : BitVec 8).toNat ≤ (ringOf (studioRing .silent 4) 2).run ∧
      (ringOf (studioRing .silent 4) 2).run < (5 : BitVec 8).toNat) := by
  decide +kernel

theorem witness_silence :
    (let s := modRing 2 (fun r => { r with quiet := 2000000 }) studio;
      (ringOf s 2).enabled = true ∧ (ringOf s 2).silenceMs * 20000 ≤ (ringOf s 2).quiet ∧ (ringOf s 2).silence = .active) ∧
    (let s := modRing 2 (fun r => { r with quiet := 2000000 }) (studioRing .silent 4);
      (ringOf s 2).enabled = true ∧ (ringOf s 2).silenceMs * 20000 ≤ (ringOf s 2).quiet ∧ (ringOf s 2).silence = .silent) := by
  decide +kernel

theorem witness_protection :
    CmdIdle studio ∧ (48 ≤ (48 : BitVec 8).toNat ∧ 8 ≤ (8 : BitVec 8).toNat ∧ 32 ≤ (32 : BitVec 8).toNat) ∧
    (47 : ProgId).val = (47 : BitVec 8).toNat ∧ (7 : Variant).val = (7 : BitVec 8).toNat ∧
    (31 : RingId).val = (31 : BitVec 8).toNat ∧ (0 : RingId).val = (0 : BitVec 8).toNat ∧ (31 : RingId) ≠ 0 := by
  decide

/-- DISABLE RING with a delivery read in flight, with a queue that holds a reference, of a ring that is disabled. -/
theorem witness_disableRing :
    (CmdIdle studio ∧ 32 ≤ (32 : BitVec 8).toNat ∧ (2 : RingId).val = (2 : BitVec 8).toNat ∧
      (ringOf studio 1).enabled = false ∧ (ringOf studio 2).enabled = true) ∧
    (let s := modRing 2 (fun r => { r with readsInFlight := 1 }) studio;
      CmdIdle s ∧ (ringOf s 2).enabled = true ∧ (ringOf s 2).readsInFlight ≠ 0) ∧
    (CmdIdle withCell ∧ (ringOf withCell 2).enabled = true ∧ ∃ e p, queueOf withCell e p ≠ []) := by
  refine ⟨by decide +kernel, by decide +kernel, by decide +kernel, by decide +kernel, 3, 7, by decide +kernel⟩

/-- A purge scan standing at the only cell of queue (3,7), for its ring and for another. -/
def scanning (ring : RingId) (todo : List EntryNo) : State :=
  let s := waitingFor (.purge ring) withCell
  { s with refs := { s.refs with scan := some { ring := ring, at_ := 48 * 3 + 7, todo := todo } } }

theorem witness_purgeScan (ring : RingId) (h : ring = 2 ∨ ring = 4) :
    (scanning ring [0]).cmd = { running := some ⟨⟨0, 0, 0, .unknown⟩, .purge ring⟩, queue := [] } ∧
    (scanning ring [0]).refs.scan = some { ring := ring, at_ := 48 * (3 : EdId).val + (7 : ProgId).val, todo := 0 :: [] } ∧
    (scanning ring [0, 1]).refs.scan = some { ring := ring, at_ := 48 * (3 : EdId).val + (7 : ProgId).val, todo := 0 :: [1] } ∧
    (tget (scanning ring [0]).refs.slots 0).check = .clean ∧ (0 : EntryNo) ∉ [1] ∧
    (∀ a b, 48 * (3 : EdId).val + (7 : ProgId).val < 48 * a.val + b.val → queueOf (scanning ring [0]) a b = []) ∧
    (ringOf (scanning ring [0]) ring).readsInFlight = 0 := by
  refine ⟨rfl, rfl, rfl, ?_, by decide, ?_, ?_⟩
  · rcases h with rfl | rfl <;> decide +kernel
  · rcases h with rfl | rfl <;> decide +kernel
  · rcases h with rfl | rfl <;> decide +kernel

/-! ## Witnesses: editions and programmes -/

theorem witness_setProgramme :
    CmdIdle studio ∧
    ¬(16 ≤ (3 : BitVec 8).toNat ∨ 48 ≤ (47 : BitVec 8).toNat ∨ ((1 : BitVec 8) ≠ 0 ∧ (1 : BitVec 8) ≠ 1) ∨
      128 < (128 : BitVec 8).toNat ∨ (1 : BitVec 16).toNat = 0 ∨ 1024 < (1024 : BitVec 16).toNat) ∧
    (((2 : BitVec 8) ≠ 0 ∧ (2 : BitVec 8) ≠ 1) ∧ 128 < (129 : BitVec 8).toNat ∧ 1024 < (1025 : BitVec 16).toNat) ∧
    (3 : EdId).val = (3 : BitVec 8).toNat ∧ (47 : ProgId).val = (47 : BitVec 8).toNat ∧ (edOf studio 3).state = .live ∧
    (edOf studio 4).state ≠ .live := by
  decide +kernel

/-- SET EDITION of edition 3 at its own base with a watch that has just run out, of edition 4 at a free base and at one that
meets ring 2, of edition 3 at another base. -/
theorem witness_setEdition :
    (CmdIdle studio ∧
      ¬(16 ≤ (3 : BitVec 8).toNat ∨ (0x10000 : Addr).toNat % 65536 ≠ 0 ∨ 2 ^ 40 < (0x10000 : Addr).toNat + 57344 ∨
        8192 < (8192 : BitVec 16).toNat ∨ (2000 : BitVec 16).toNat = 0 ∨ 2000 < (2000 : BitVec 16).toNat ∨
        1000 < (1000 : BitVec 16).toNat)) ∧
    ((3 : EdId).val = (3 : BitVec 8).toNat ∧ (edOf studio 3).base = some 0x10000 ∧ (edOf studio 3).base ≠ some 0x20000 ∧
      (edOf studio 3).state ≠ .off) ∧
    (let s := modEd 3 (fun r => { r with idle := 40000 }) studio;
      CmdIdle s ∧ (edOf s 3).state = .live ∧ (2 : BitVec 16).toNat ≠ 0 ∧ (2 : BitVec 16).toNat * 20000 ≤ (edOf s 3).idle ∧
      ¬((3 : BitVec 16).toNat * 20000 ≤ (edOf s 3).idle)) ∧
    ((edOf studio 4).base ≠ some 0x20000 ∧ (edOf studio 4).state = .off ∧
      meetsRing studio 0x20000 57344 none = false ∧ meetsFeed studio 0x20000 57344 (some 4) = false ∧
      meetsControl studio 0x20000 57344 = false ∧ meetsRing studio 0x100000 57344 none = true) := by
  decide +kernel

theorem witness_editions :
    CmdIdle studio ∧ 16 ≤ (16 : BitVec 8).toNat ∧ (3 : EdId).val = (3 : BitVec 8).toNat ∧ (edOf studio 3).state = .live ∧
    (edOf (studioIn .dormant true) 3).state = .dormant ∧ (edOf (studioIn .off true) 3).state = .off ∧
    CmdIdle (studioIn .dormant true) ∧ CmdIdle (studioIn .off true) := by
  decide +kernel

theorem witness_feedWatch :
    let s := modEd 3 (fun r => { r with idle := 20000 }) withCell
    (edOf s 3).state = .live ∧ (edOf s 3).watch ≠ 0 ∧ (edOf s 3).watch * 20000 ≤ (edOf s 3).idle ∧ NoPurge s := by
  refine ⟨by decide +kernel, by decide +kernel, by decide +kernel, noPurge_of_idle ?_⟩
  decide +kernel

/-! ## Witnesses: placing and reporting commands -/

theorem witness_relocate :
    (CmdIdle studio ∧ ¬((0xFFFFFFCFFF : Addr) ≠ ~~~(0x3000 : Addr) ∨ (0x3000 : Addr).toNat % 4096 ≠ 0 ∨
      2 ^ 40 < (0x3000 : Addr).toNat + 4096)) ∧
    (meetsRing studio 0x3000 4096 none = false ∧ meetsFeed studio 0x3000 4096 none = false) ∧
    (meetsRing studio 0x100000 4096 none = true ∧ (0xFFFFEFFFFF : Addr) = ~~~(0x100000 : Addr)) := by
  decide +kernel

theorem witness_memoryLimit :
    CmdIdle studio ∧ (4096 ≤ (4096 : BitVec 64).toNat ∧ (2 ^ 40 : BitVec 64).toNat ≤ 2 ^ 40 ∧
      (2 ^ 40 : BitVec 64).toNat % 4096 = 0) ∧ ¬(4096 ≤ (4095 : BitVec 64).toNat) := by
  decide

theorem witness_reportRing :
    (CmdIdle studio ∧ ¬((0x2000 : Addr).toNat % 4096 ≠ 0 ∨ (64 : BitVec 16).toNat < 64 ∨ 16384 < (16384 : BitVec 16).toNat ∨
      2 ^ 40 < (0x2000 : Addr).toNat + 32 * ((16384 : BitVec 16).toNat + 1)) ∧ studio.rep.writer = .idle) ∧
    (CmdIdle (writing (.time .referenceLost)) ∧ (writing (.time .referenceLost)).rep.writer ≠ .idle) := by
  decide

/-- The read index may move to the write index and no further. -/
theorem witness_reportAck :
    let s : State := { studio with rep := { studio.rep with isSet := true, writeIdx := 3, readIdx := 60 } }
    CmdIdle s ∧ s.rep.readIdx < s.rep.places ∧ s.rep.writeIdx < s.rep.places ∧ s.rep.isSet = true ∧
      (3 : BitVec 16).toNat < s.rep.places ∧
      ((3 : BitVec 16).toNat + s.rep.places - s.rep.readIdx) % s.rep.places ≤
        (s.rep.writeIdx + s.rep.places - s.rep.readIdx) % s.rep.places ∧
      ¬(((4 : BitVec 16).toNat + s.rep.places - s.rep.readIdx) % s.rep.places ≤
        (s.rep.writeIdx + s.rep.places - s.rep.readIdx) % s.rep.places) ∧
      s.rep.places ≤ (64 : BitVec 16).toNat ∧ studio.rep.isSet = false ∧
      studio.rep.readIdx < studio.rep.places ∧ studio.rep.writeIdx < studio.rep.places := by
  decide

theorem witness_statistics :
    CmdIdle studio ∧ (15 : EdId).val = (15 : BitVec 8).toNat ∧ (31 : RingId).val = (31 : BitVec 8).toNat ∧
    (16 ≤ (16 : BitVec 8).toNat ∧ 32 ≤ (32 : BitVec 8).toNat ∧ (4 : BitVec 8) ≠ 1 ∧ (4 : BitVec 8) ≠ 2 ∧ (4 : BitVec 8) ≠ 3) := by
  decide

/-! ## The manual's worked examples -/

/-- The worked restamps of section 5.6. -/
theorem test_worked_restamps :
    restamp 1099511000000 (residence 5004000000 5000000000) (-300000) = 3072224 ∧
      restamp 1000 2000 (-5000) = 1099511625776 ∧ residence 7190000000 7200000000 = 0 := by
  decide

/-- The worked sequencing of section 2.4: N = 16, W = 35, writes to slots 7, 1 and 2. -/
theorem test_worked_sequencing :
    let r := { RingRecord.reset with enabled := true, w := 35 }
    let r1 := takeSlot 7 r
    let r2 := takeSlot 1 r1
    let r3 := takeSlot 2 r2
    (slotSequence r 7 = 39 ∧ r1.w = 40 ∧ r1.skips = 1 ∧ overwritten r1 20 = true ∧ overwritten r1 24 = false) ∧
      (slotSequence r1 1 = 49 ∧ r2.w = 50 ∧ r2.skips = 2 ∧ overwritten r2 34 = false) ∧
      (slotSequence r2 2 = 50 ∧ r3.w = 51 ∧ r3.skips = 2 ∧ overwritten r3 34 = true) := by
  decide

/-- The worked stale clearing of section 4.5: A is overwritten, B too old, C at exactly the maximum age. -/
theorem test_worked_stale_clearing :
    let u : RingUnit := { RingUnit.reset with
      recs := tmodify RingUnit.reset.recs 4 fun r => { r with enabled := true, size := 1024, w := 50000 } }
    let ref : Sequence → HouseTime → Reference := fun q t => { Reference.blank with ring := 4, seq := q, arrival := t }
    staleCause u 500 9000000000 (ref 48900 8988000000) = some .overwritten ∧
      staleCause u 500 9000000000 (ref 49100 8989500000) = some .age ∧
      staleCause u 500 9000000000 (ref 49200 8990000000) = none := by
  decide +kernel

/-- The worked threshold of section 1.4: threshold 3, corrections counted 1, 2, then 3 with its report, then 1. -/
theorem test_worked_threshold :
    gaugeStep ⟨3, 0⟩ = (⟨3, 1⟩, false) ∧ gaugeStep ⟨3, 1⟩ = (⟨3, 2⟩, false) ∧ gaugeStep ⟨3, 2⟩ = (⟨3, 0⟩, true) := by
  decide

/-- The worked load of section 1.3: 1200 entries are three reads of 4096, 4096 and 1408 bytes. -/
theorem test_worked_load : loadBytes 1200 = 4096 ∧ loadBytes 688 = 4096 ∧ loadBytes 176 = 1408 := by decide

/-- Steps 3 and 9 of the worked full ring of section 11.4. -/
theorem test_worked_full_ring :
    let r := recordWritten { ReportWriter.reset with
      isSet := true, writeIdx := 8, readIdx := 10, lost := 1, seq := 500, pend := [⟨.time .referenceLost, 0⟩] }
    let f := recordWritten { ReportWriter.reset with
      isSet := true, writeIdx := 11, readIdx := 11, seq := 503, pend := [⟨.command 23 0 0 .done, 0⟩] }
    (r.writeIdx = 9 ∧ r.readIdx = 10 ∧ unread r = 63 ∧ r.pend = [] ∧ r.lost = 1 ∧ r.seq = 501) ∧
      (f.writeIdx = 12 ∧ f.readIdx = 12 ∧ unread f = 0 ∧ f.seq = 504) := by
  decide

/-- Cases b to e of the worked arming cases of section 6.2, at house time 1,000,000,000. -/
theorem test_worked_arming :
    let s : State := { State.reset with time := { State.reset.time with now := 1000000000 } }
    let arm : HouseTime → BitVec 16 → PendingSplice := fun t w => ⟨3, t, w, true, 0, .command, false⟩
    let phase : HouseTime → BitVec 16 → SplicePhase := fun t w => (machineOf (judgeArming 3 12 (arm t w) s).1 3 12).phase
    phase 1100000000 1000 = .armed (arm 1100000000 1000) ∧
      phase 990000000 1000 = .seeking { arm 990000000 1000 with late := true } ∧
      (judgeArming 3 12 (arm 970000000 1000) s).2 = some .forced ∧ (judgeArming 3 12 (arm 1000000000 0) s).2 = some .forced := by
  decide +kernel

/-! ## Witnesses: the clauses beside the plain ones -/

/-- A RESTART at the head of the queue with a command behind it; and a whole-cell read in an in-flight list, behind another
open request, beside one that has its response. -/
theorem witness_restart_queue_and_reads :
    (let q : List TakenCommand := [⟨13, 5, 0, .known (.haltSchedule 3)⟩]
     let s : State := { studio with cmd := { running := none, queue := q } }
     let u : State := { studio with cmd := { running := none, queue := takenRow ⟨9, 1⟩ .restart :: q } }
     s.cmd.running = none ∧ u.cmd = { running := none, queue := takenRow ⟨9, 1⟩ .restart :: s.cmd.queue } ∧
       s = { u with cmd := s.cmd }) ∧
    (openThree.cmd.running = none ∧
      openThree.path.openReqs = openThree.path.openReqs.take 1 ++ ⟨5, .feedRead 3, none⟩ :: openThree.path.openReqs.drop 2 ∧
      openThree.path.openReqs = openThree.path.openReqs.take 2 ++ ⟨6, .feedRead 3, some ⟨.okay, []⟩⟩ :: []) := by
  exact ⟨⟨rfl, rfl, rfl⟩, rfl, rfl, rfl⟩

/-- A write of raw bytes to control slot 0. -/
def rawReq (d : List Byte) : Request := ownWrite 7 0x0FFFF000 d

/-- The two boundary kinds that are unknown, and known kinds 1 and 25 with a reserved byte that is not 0. -/
theorem witness_commandWrite_refused :
    (∀ d ∈ [List.replicate 64 0, 26 :: List.replicate 63 0, [25, 1] ++ List.replicate 62 0, 1 :: List.replicate 62 0 ++ [1]],
      classify studio (rawReq d) = .command 0) ∧ CmdIdle studio ∧
    ((byteAt (List.replicate 64 0) 0).toNat = 0 ∧ 25 < (byteAt (26 :: List.replicate 63 0) 0).toNat) ∧
    (let d : List Byte := [25, 1] ++ List.replicate 62 0
     1 ≤ (byteAt d 0).toNat ∧ (byteAt d 0).toNat ≤ 25 ∧ 1 < 64 ∧ byteAt d 1 &&& ~~~commandNamed d 1 ≠ 0) ∧
    (let d : List Byte := 1 :: List.replicate 62 0 ++ [1]
     1 ≤ (byteAt d 0).toNat ∧ (byteAt d 0).toNat ≤ 25 ∧ 63 < 64 ∧ byteAt d 63 &&& ~~~commandNamed d 63 ≠ 0) := by
  decide +kernel

theorem witness_commandWrite_refused_takes (d : List Byte) (h : classify studio (rawReq d) = .command 0) :
    Takes studio (rawReq d) := takes_of_class h nofun rfl (by decide)

/-- A command unit that may start its one waiting command, and one that may not. -/
theorem witness_startWaiting :
    (let s : State := { studio with cmd := { running := none, queue := [takenRow ⟨9, 1⟩ (.haltSchedule 3)] } }
     s.cmd = { running := none, queue := takenRow ⟨9, 1⟩ (.haltSchedule 3) :: [] }) ∧
    (busyUnit 1 studio).cmd.running ≠ none ∧ studio.cmd.queue = [] := ⟨rfl, nofun, rfl⟩

/-- A request whose first byte lies below ring 2 and whose second granule is the ring's first. -/
theorem witness_class_lowest_byte :
    let r := ownRead 5 0xFFFE0 64
    r.addr + r.len ≤ 2 ^ 40 ∧ (∀ e b, (edOf studio e).base = some b → ¬Shares r b.toNat 57344) ∧
    ((ringOf studio 2).enabled = true ∧ 0 < (ringOf studio 2).size ∧ r.addr < (ringOf studio 2).base.toNat ∧
      (ringOf studio 2).base.toNat < r.addr + r.len) ∧
    (∀ j, j ≠ 2 → (ringOf studio j).enabled = true →
      (ringOf studio j).base.toNat + (ringOf studio j).size * 224 ≤ r.addr ∨
        (ringOf studio 2).base.toNat < (ringOf studio j).base.toNat) ∧
    r.dir = .read ∧ (ownWrite 5 0xFFFE0 (List.replicate 64 0)).addr = r.addr := by
  refine ⟨by decide, fun e b hb => ?_, by decide +kernel, fun j hj h => absurd (studio_rings j h) hj, by decide⟩
  obtain ⟨_, rfl⟩ := studio_feeds e b hb
  decide

/-- The studio with requests waiting at the upstream port, or with a full table of open requests. -/
def waitingAt (ws : List Request) : State := { studio with path := { studio.path with waiting := ws } }
def fullTable (ws : List Request) : State :=
  { studio with path := { studio.path with waiting := ws, openReqs := List.replicate 128 ⟨1, .forwarded, none⟩ } }

/-- Requests that cannot be taken: behind one of their tag, with a full table, with a full in-flight list. -/
theorem witness_notTaken :
    ¬Takes (waitingAt [ownRead 7 0 32]) (ownRead 7 64 32) ∧ ¬Takes (fullTable []) (ownRead 7 0 32) ∧
    (let x : InFlight := { ref := none, t := 0, offset := 0, state := .issued }
     ¬Takes (modFeed 3 (fun f => { f with reads := [List.replicate 29 x] }) studio) (feedReq 252 4)) := by
  refine ⟨fun h => h.1 (ownRead 7 0 32) (by decide) (by decide), fun h => ?_, fun h => ?_⟩
  · exact absurd h.2.1 (by simp [fullTable])
  · exact absurd (h.2.2 3 4 (by decide +kernel)) (by decide +kernel)

/-- An empty queue: the first of two waiting requests of a tag can be taken, and with a full table none can. -/
theorem witness_idleStep :
    (let r := ownRead 7 0 32
     (waitingAt [r, r]).pending = [] ∧ (waitingAt [r, r]).path.waiting = [] ++ r :: [r] ∧
       ¬((∃ w ∈ ([] : List Request), w.tag = r.tag) ∨ ¬Room (waitingAt [r, r]) r) ∧
       ∀ p b q, ([] : List Request) ≠ p ++ b :: q) ∧
    (let r := ownRead 7 0 32
     (fullTable [r]).pending = [] ∧ ∀ p b q, (fullTable [r]).path.waiting = p ++ b :: q → ¬Room (fullTable [r]) b) := by
  have hr : classify studio (ownRead 7 0 32) = .passThrough := by decide +kernel
  refine ⟨⟨rfl, rfl, ?_, fun p b q => by simp⟩, rfl, fun p b q _ h => absurd h.1 (by simp [fullTable])⟩
  rintro (h | h)
  · simp at h
  · exact h ⟨by decide, fun e n h' => absurd (hr.symm.trans h') nofun⟩

/-- The waiting cell of queue (3,7) with a storage error, and the gauge of the store. -/
def withFault (f : BitFault) (g : EccGauge) : State :=
  { withCell with refs := { withCell.refs with slots := tmodify withCell.refs.slots 0 (fun sl => { sl with check := f }),
                                               gauge := g } }

/-- A head with each storage error, and the threshold off, not reached and reached. -/
theorem witness_staleHeads_errors :
    (∀ f ∈ [BitFault.clean, .single, .double], queueOf (withFault f ⟨3, 1⟩) 3 7 = 0 :: [] ∧
      (tget (withFault f ⟨3, 1⟩).refs.slots 0).check = f) ∧
    ((withFault .single ⟨0, 0⟩).refs.gauge.threshold = 0 ∧ (1 : BitVec 16).toNat + 1 < (3 : BitVec 16).toNat ∧
      (3 : BitVec 16).toNat ≤ (2 : BitVec 16).toNat + 1) := by
  decide +kernel

/-- A clean head whose ring is disabled, is lapped by exactly one place or not, and whose age is one tick beyond the maximum or
not. -/
theorem witness_staleHeads_causes :
    (tget withCell.refs.slots 0).ref = cellRef ∧ (tget withCell.refs.slots 0).check = .clean ∧
    (ringOf (modRing 2 (fun r => { r with enabled := false }) withCell) 2).enabled = false ∧
    (let R := ringOf (modRing 2 (fun r => { r with w := 21 }) withCell) 2
     R.enabled = true ∧ R.size < (R.w - cellRef.seq).toNat) ∧
    (let R := ringOf (modRing 2 (fun r => { r with w := 20 }) withCell) 2
     R.enabled = true ∧ ¬(R.size < (R.w - cellRef.seq).toNat)) ∧
    (edOf withCell 3).maxAge * 20000 < (10000901 : HouseTime).toNat - cellRef.arrival.toNat ∧
    ¬((edOf withCell 3).maxAge * 20000 < (10000900 : HouseTime).toNat - cellRef.arrival.toNat) := by
  decide +kernel

/-- The gauge of the stream table before a single-bit correction: off, one below the threshold, at it. -/
theorem witness_completion_single :
    withEntry.stream.gauge.threshold = 0 ∧
    (let g : EccGauge := ⟨3, 1⟩; g.threshold ≠ 0 ∧ g.count.toNat + 1 < g.threshold.toNat) ∧
    (let g : EccGauge := ⟨3, 2⟩; g.threshold ≠ 0 ∧ g.threshold.toNat ≤ g.count.toNat + 1) := by
  decide

/-- CARRIAGE words at the progress limit, of unequal length and count, and with data beyond the limit. -/
theorem witness_words_fail :
    (255 ≤ (chanOf (modChan 3 (fun c => { c with progress := 255 }) (fetching true)) 3).progress) ∧
    (let d : List Byte := [2, 0, 0, 0, 16, 2, 0, 0, 0, 0x10] ++ List.replicate 22 0
     d.length = 32 ∧ parseWord d = .inl ⟨.carriage 16 2 0x1000 false, false, false, 0⟩ ∧ 2 ≠ 16) ∧
    (let d : List Byte := [2, 1, 0, 0, 16, 2, 1, 0, 0, 0, 0, 0, 0xFF] ++ List.replicate 19 0
     d.length = 32 ∧ parseWord d = .inl ⟨.carriage 16 2 0xFF00000000 true, true, false, 0⟩ ∧
       0xFF0000001F < (0xFF00000000 : Addr).toNat + 32 * ((2 + 31) / 32)) := by
  decide +kernel

/-- A SPLICE word of channel 3 for programme 7, with SYNC and STOP-ON-FAIL as given. -/
def channelWord (t : HouseTime) (win : BitVec 16) (v : Variant) (force sync stop : Bool) : SchedWord :=
  ⟨.splice 7 v t win force sync stop, false, false, 9⟩

/-- An arming of channel 3 at a pending and at a STEADY machine: for the admitted variant, past its window end with and without
FORCE, within its window, ahead of T. -/
theorem witness_arming_word :
    (let s := channel .fetching (some (channelWord 2000 1 1 true true true))
     (chanOf s 3).current = some ⟨0x40, channelWord 2000 1 1 true true true⟩ ∧
       (channelWord 2000 1 1 true true true).kind = .splice 7 1 2000 1 true true true ∧
       (machineOf s 3 7).phase = .steady ∧ (0 : Variant) = (machineOf s 3 7).admitted ∧
       (1 : Variant) ≠ (machineOf s 3 7).admitted ∧ s.time.now.toNat < (2000 : HouseTime).toNat ∧
       (1000 : HouseTime).toNat + (0 : BitVec 16).toNat * 20000 ≤ s.time.now.toNat ∧
       (s.time.now.toNat < (1000 : HouseTime).toNat + (1 : BitVec 16).toNat * 20000 ∧
         (1000 : HouseTime).toNat ≤ s.time.now.toNat)) ∧
    (let s := modMachine 3 7 (fun m => { m with phase := .armed (hostSplice 2000 1 true) })
       (channel .fetching (some (channelWord 2000 1 1 true false false)))
     (chanOf s 3).current = some ⟨0x40, channelWord 2000 1 1 true false false⟩ ∧ (machineOf s 3 7).phase ≠ .steady) := by
  decide +kernel

/-- Edition 16, a channel that runs, and a channel that is not SUSPENDED, for the refusals of the schedule commands. -/
theorem witness_channels_refused :
    16 ≤ (16 : BitVec 8).toNat ∧ CmdIdle (channel .syncing none) ∧ (chanOf (channel .syncing none) 3).state ≠ .idle ∧
    (chanOf (channel .syncing none) 3).state ≠ .suspended := by
  decide +kernel

/-- A splice of channel 3 whose outcome the channel judges, and a machine on which the arming of the channel waits. -/
theorem witness_splices_judged :
    (let sp : PendingSplice := ⟨1, 1000, 1, false, 9, .channel, false⟩
     let s := modMachine 3 7 (fun m => { m with phase := .seeking sp })
       (modChan 3 (fun c => { c with sync := some 7 }) (channel .syncing (some (channelWord 1000 1 1 false true true))))
     (machineOf s 3 7).waiting = false ∧ sp.source = .channel ∧ (chanOf s 3).state = .syncing ∧ (chanOf s 3).sync = some 7 ∧
       (chanOf s 3).current = some ⟨0x40, channelWord 1000 1 1 false true true⟩) ∧
    (let s := modMachine 3 7 (fun m => { m with phase := .seeking (hostSplice 1000 1 true), waiting := true })
       (channel .blocked (some (channelWord 2000 1 1 true false false)))
     (machineOf s 3 7).waiting = true ∧ (chanOf s 3).state = .blocked ∧
       (chanOf s 3).current = some ⟨0x40, channelWord 2000 1 1 true false false⟩) := by
  decide +kernel

/-- A WAITING channel at its time, and one before it. -/
theorem witness_pulse_waiting :
    (let s := channel .waiting (some (waitWord false))
     (chanOf s 3).state = .waiting ∧ (chanOf s 3).current = some ⟨0x40, waitWord false⟩ ∧
       (1000 : HouseTime).toNat ≤ s.time.now.toNat) ∧
    (let w : SchedWord := ⟨.wait 1001, false, false, 9⟩
     let s := channel .waiting (some w)
     (chanOf s 3).state = .waiting ∧ (chanOf s 3).current = some ⟨0x40, w⟩ ∧ s.time.now.toNat < (1001 : HouseTime).toNat ∧
       (chanOf s 3).fetch = .none) := by
  decide +kernel

/-- The purge of ring 2 past its scan, with one or two delivery reads in flight at a return; and the end of its scan with one
still in flight. -/
theorem witness_purge_return :
    (∀ n ∈ [1, 2],
      let s := modRing 2 (fun r => { r with readsInFlight := n }) (waitingFor (.purge 2) (reading cellRef))
      s.cmd.running = some ⟨⟨0, 0, 0, .unknown⟩, .purge 2⟩ ∧ s.refs.scan = none ∧
      takeOldest (Config.deliveryTag 3) s.down = some (⟨.delivery 3 2 true, ownRead 227 0x100380 224⟩, []) ∧
      (ringOf s 2).readsInFlight - 1 = n - 1) ∧
    (ringOf (modRing 2 (fun r => { r with readsInFlight := 1 }) (scanning 2 [0])) 2).readsInFlight ≠ 0 := by
  decide +kernel

/-- DISABLE RING with nothing to purge. -/
theorem witness_disableRing_empty :
    (ringOf studio 2).enabled = true ∧ (ringOf studio 2).readsInFlight = 0 ∧ ∀ e p, queueOf studio e p = [] := by
  decide +kernel

theorem witness_statistics_all : (3 : BitVec 8) = 3 ∧ (1 : BitVec 8) ≠ 0 := by decide

/-! ## Witnesses: lists of several entries, the layout of a word, and the rest of a purge -/

/-- House time in the time field of a cell of 224 bytes, at its widest value. -/
theorem witness_stampTime :
    let d : List Byte := List.replicate 224 0xA5
    d.length = 224 ∧ cellTime (stampTime d (2 ^ 56 - 1)) = 2 ^ 56 - 1 ∧ byteAt (stampTime d 0) 8 = 0xA5 ∧
      byteAt (stampTime d 0) 16 = 0xA5 := by
  decide +kernel

/-- A SEEKING splice of edition 3 to the variant of a cell with E, LIVE and DORMANT: the cell is admitted as of its variant. -/
theorem witness_entryPoint :
    let sp := hostSplice 1000 1 false
    let x : StreamEntry := { entry16 with variant := 1 }
    let s := machine (.seeking sp)
    (edOf s 3).state ≠ .off ∧ (machineOf s 3 x.prog).phase = .seeking sp ∧ sp.target = x.variant ∧ (kept 16 true).e = true ∧
      x.variant = (machineOf (resolve 3 7 sp .switched .none s) 3 x.prog).admitted ∧
      (machineOf (resolve 3 7 sp .switched .none s) 3 x.prog).markPending = true ∧
      (edOf (modEd 3 (fun r => { r with state := .dormant }) s) 3).state ≠ .off := by
  decide +kernel

/-- An in-flight list of edition 3: a read whose entries are not ISSUED, then one with a FILLED entry, the given one and an
ISSUED one, then another read. -/
def listed (x : InFlight) : State :=
  let filled : InFlight := { ref := none, t := 900, offset := 0, state := .filled }
  let issued : InFlight := { ref := some cellRef, t := 900, offset := 0, state := .issued }
  modFeed 3 (fun f => { f with reads := [[filled], [filled, x, issued], [issued]] })
    (sent (.delivery 3 2 true) (ownRead 227 0x100380 224) studio)

/-- An entry of the studio's cell in a state. -/
def entryIn (st : EntryState) : InFlight := { ref := some cellRef, t := 1000, offset := 0, state := st }

theorem witness_deliveryReturn :
    let filled : InFlight := { ref := none, t := 900, offset := 0, state := .filled }
    let issued : InFlight := { ref := some cellRef, t := 900, offset := 0, state := .issued }
    let s := listed (entryIn .issued)
    takeOldest (Config.deliveryTag 3) s.down = some (⟨.delivery 3 2 true, ownRead 227 0x100380 224⟩, []) ∧ NoPurge s ∧
      (feedOf s 3).reads = [[filled]] ++ ([filled] ++ entryIn .issued :: [issued]) :: [[issued]] ∧
      (∀ y ∈ [[filled]].flatten ++ [filled], y.state ≠ .issued) ∧ (entryIn .issued).state = .issued ∧
      (entryIn .issued).ref = some cellRef ∧ cellRef.ring = 2 := by
  exact ⟨by decide +kernel, noPurge_of_idle ⟨rfl, rfl⟩, by decide +kernel, by decide +kernel, rfl, rfl, rfl⟩

/-- A delivery read that RESTART gave up. -/
theorem witness_deliveryReturn_givenUp :
    let s := sent (.delivery 3 2 false) (ownRead 227 0x100380 224) studio
    takeOldest (Config.deliveryTag 3) s.down = some (⟨.delivery 3 2 false, ownRead 227 0x100380 224⟩, []) ∧ NoPurge s :=
  ⟨by decide +kernel, noPurge_of_idle ⟨rfl, rfl⟩⟩

/-- The front of a list: a finished entry ahead of one in each state; and a finished read ahead of another, with its open
request. -/
theorem witness_finishing :
    let done : InFlight := { ref := none, t := 900, offset := 0, state := .finished [1] false }
    let front : InFlight → State := fun y => modFeed 3 (fun f => { f with reads := [[done, y], [y]] }) studio
    (∀ st ∈ [EntryState.issued, .filled, .returned (List.replicate 224 0)],
      (feedOf (front (entryIn st)) 3).reads = ([done] ++ entryIn st :: []) :: [[entryIn st]]) ∧
    (∃ cell real, done.state = .finished cell real) ∧ (feedOf studio 3).reads = [] ∧
    (let s := modFeed 3 (fun f => { f with reads := [[done], [entryIn .issued]] }) openThree
     (feedOf s 3).reads = [done] :: [[entryIn .issued]] ∧
       [done].map (·.state) = [([1], false)].map (fun c => EntryState.finished c.1 c.2) ∧
       s.path.openReqs = openThree.path.openReqs.take 1 ++ ⟨5, .feedRead 3, none⟩ :: openThree.path.openReqs.drop 2 ∧
       ∀ o ∈ openThree.path.openReqs.take 1, o.cls = .feedRead 3 → o.response ≠ none) :=
  ⟨by decide +kernel, ⟨[1], false, rfl⟩, by decide +kernel, by decide +kernel⟩

/-- A returned data read at the front is finished as a delivered cell and stops at the ISSUED entry behind it (R95, R101). -/
theorem test_finishStopsAtIssued :
    let s := finish 3 (listed (entryIn (.returned (List.replicate 224 0))))
    (feedOf s 3).reads.map List.length = [3, 1] ∧ (feedOf s 3).delivered = 1 ∧ (feedOf s 3).filler = 2 ∧
      tget (feedOf s 3).cont 32 = 1 := by
  decide +kernel

/-- The words of the tests, written out from the layouts, are what the host writes for them (R207). -/
theorem test_encodeWord :
    encodeWord ⟨.splice 7 1 1001 3 false true false, false, false, 9⟩ = spliceWord ∧
    encodeWord ⟨.carriage 128 128 0x1000 false, false, false, 0⟩ = carriageWord ∧
    encodeWord ⟨.jump 0x80, false, false, 0⟩ = jumpWord ∧
    encodeWord ⟨.wait 1001, false, false, 0⟩ = 3 :: List.replicate 15 0 ++ [0xE9, 3] ++ List.replicate 14 0 ∧
    encodeWord ⟨.endWord, true, true, 0x0201⟩ = [5, 3, 1, 2] ++ List.replicate 28 0 := by
  decide +kernel

/-- A word in its layout at the ends of its ranges; and unknown kinds, a reserved byte and fields out of range. -/
theorem witness_wordLayout :
    WordLaidOut ([4, 3, 0xFF, 0xFF] ++ List.replicate 4 0 ++ List.replicate 5 0xFF ++ List.replicate 19 0)
      ⟨.jump 0xFFFFFFFFFF, true, true, 0xFFFF⟩ ∧
    (∀ d ∈ [List.replicate 32 (0 : Byte), 6 :: List.replicate 31 0], (byteAt d 0).toNat = 0 ∨ 5 < (byteAt d 0).toNat) ∧
    (let d : List Byte := 5 :: List.replicate 30 0 ++ [1]
     1 ≤ (byteAt d 0).toNat ∧ (byteAt d 0).toNat ≤ 5 ∧ 31 < 32 ∧ byteAt d 31 &&& ~~~wordNames 5 31 ≠ 0) ∧
    (let d : List Byte := [1, 0, 0, 0, 48, 8]; (byteAt d 0).toNat = 1 ∧ 48 ≤ (byteAt d 4).toNat ∧ 8 ≤ (byteAt d 5).toNat) ∧
    (let d : List Byte := [2, 0, 0, 0, 15, 0, 0, 0, 16]
     (byteAt d 0).toNat = 2 ∧ (byteAt d 4).toNat < 16 ∧ byteAt d 5 = 0 ∧ (byteAt d 8).toNat % 32 ≠ 0) ∧
    128 < (byteAt [2, 0, 0, 0, 129, 1] 4).toNat ∧
    (16 ≤ 16 ∧ 16 ≤ 128 ∧ 1 ≤ 255 ∧ 255 ≤ 255 ∧ (0xFFFFFFFFE0 : Addr).toNat % 32 = 0) := by
  refine ⟨?_, by decide +kernel, by decide +kernel, by decide +kernel, by decide +kernel, by decide +kernel, by decide⟩
  refine ⟨by decide +kernel, by decide +kernel, by decide +kernel, ?_, by decide +kernel, ?_⟩ <;> intro k h1 h2
  · exact (by decide +kernel : ∀ k, k < 8 → 4 ≤ k →
      byteAt ([4, 3, 0xFF, 0xFF] ++ List.replicate 4 0 ++ List.replicate 5 0xFF ++ List.replicate 19 0) k = 0) k h2 h1
  · exact (by decide +kernel : ∀ k, k < 32 → 13 ≤ k →
      byteAt ([4, 3, 0xFF, 0xFF] ++ List.replicate 4 0 ++ List.replicate 5 0xFF ++ List.replicate 19 0) k = 0) k h2 h1

/-- A data fetch of channel 3 that was given up. -/
theorem witness_dataFetch_givenUp :
    let s := sent (.dataFetch 3 false) (ownRead 243 0x1000 32) (channel .idle none)
    takeOldest (Config.channelTag 3) s.down = some (⟨.dataFetch 3 false, ownRead 243 0x1000 32⟩, []) := by
  decide +kernel

/-- Operands one beyond their ranges, and a channel's pending splice on a machine with an arming that waits. -/
theorem witness_cancel :
    (16 ≤ (16 : BitVec 8).toNat ∧ 48 ≤ (48 : BitVec 8).toNat ∧ 8 ≤ (8 : BitVec 8).toNat ∧ CmdIdle studio) ∧
    (let q : PendingSplice := { hostSplice 2000 1 true with source := .channel }
     let s := modMachine 3 7 (fun m => { m with waiting := true }) (machine (.seeking q))
     CmdIdle s ∧ (machineOf s 3 7).phase = .seeking q ∧ (machineOf s 3 7).waiting = true ∧
       (machineOf (machine (.armed q)) 3 7).phase = .armed q) := by
  decide +kernel

/-- A purge scan past the last reference of queue 0, with the next queue that holds one at (3,7); one at an entry with a storage
error; and one with a later queue that is not empty. -/
theorem witness_purgeScan_goesOn :
    (let s : State := { scanning 2 [] with refs := { (scanning 2 []).refs with scan := some ⟨2, 0, []⟩ } }
     s.refs.scan = some { ring := 2, at_ := 0, todo := [] } ∧ 0 < 48 * (3 : EdId).val + (7 : ProgId).val ∧
       (∀ a b, 0 < 48 * a.val + b.val → 48 * a.val + b.val < 48 * (3 : EdId).val + (7 : ProgId).val → queueOf s a b = []) ∧
       queueOf s 3 7 = 0 :: []) ∧
    (∀ f ∈ [BitFault.single, .double],
      let s : State := { scanning 2 [0] with refs := { (withFault f ⟨3, 1⟩).refs with scan := (scanning 2 [0]).refs.scan } }
      s.refs.scan = some { ring := 2, at_ := 48 * (3 : EdId).val + (7 : ProgId).val, todo := 0 :: [] } ∧
        (tget s.refs.slots 0).check = f ∧ s.refs.gauge.threshold ≠ 0 ∧
        s.refs.gauge.count.toNat + 1 < s.refs.gauge.threshold.toNat) ∧
    (let r := (scanning 2 [0]).refs
     let s : State := { scanning 2 [0] with refs := storeRef 3 8 cellRef r }
     s.refs.scan = r.scan ∧ queueOf s 3 8 ≠ []) := by
  decide +kernel

end Sys2Proof.Tests
end

section
/-! SUPPORT. The stream table: what a label reads after a write or a storage error, and what the gauge of a store does at a
correction; then the commands that set an entry and a threshold. -/

namespace Sys2Proof.Machine

/-! ## Banks -/

/-- A change that leaves a place as it is leaves the bank as it is. -/
theorem tmodify_of_fixed {α : Type} {n : Nat} {v : Vector α n} {i : Fin n} {f : α → α} (h : f (tget v i) = tget v i) :
    tmodify v i f = v :=
  table_ext fun j => by
    rw [tget_tmodify, h]
    split
    · subst_vars; rfl
    · rfl

/-- The later of two writes to one place stays. -/
@[simp] theorem tput_tput {α : Type} {n : Nat} (v : Vector α n) (i : Fin n) (x y : α) :
    tput (tput v i x) i y = tput v i y :=
  table_ext fun j => by simp only [tget_tput]; split <;> rfl

/-! ## The stream table (R6, R10, R15, R16) -/

/-- A label other than 4095 has storage (R6). -/
theorem label_lt {l : Label} (h : l ≠ 4095) : l.toNat < 4095 := by
  have : l.toNat ≠ 4095 := fun e => h (BitVec.eq_of_toNat_eq e)
  have := l.isLt
  omega

@[simp] theorem writeStream_gauge (k : Nat) (x : StreamEntry) (t : StreamTable) : (writeStream k x t).gauge = t.gauge := by
  unfold writeStream
  split <;> rfl

/-- What a label reads after the entry numbered k was written. -/
theorem streamSlot_writeStream (k : Nat) (x : StreamEntry) (t : StreamTable) (l : Label) :
    streamSlot (writeStream k x t) l = if l.toNat = k ∧ k < 4095 then ⟨x, .clean⟩ else streamSlot t l := by
  unfold writeStream
  cases hk : index? 4095 k with
  | none =>
    have := index?_eq_none.1 hk
    simp [show ¬k < 4095 by omega]
  | some i =>
    have hi := index?_eq_some.1 hk
    unfold streamSlot
    cases hl : index? 4095 l.toNat with
    | none =>
      have := index?_eq_none.1 hl
      simp [show l.toNat ≠ k by omega]
    | some j =>
      have hj := index?_eq_some.1 hl
      simp [tget_tput, Fin.ext_iff, hi, hj, show k < 4095 by omega]

/-- Without a storage error the table stays. -/
@[simp] theorem upsetStream_clean (l : Label) (t : StreamTable) : upsetStream l .clean t = t := by
  unfold upsetStream
  split
  · rw [tmodify_of_fixed (by simp)]
  · rfl

@[simp] theorem upsetStream_gauge (l : Label) (u : BitFault) (t : StreamTable) : (upsetStream l u t).gauge = t.gauge := by
  unfold upsetStream
  split <;> rfl

/-- The entry that a storage error befalls keeps its contents, and its next check finds the error. -/
theorem streamSlot_upsetStream {l : Label} {u : BitFault} (hl : l ≠ 4095) (hu : u ≠ .clean) (t : StreamTable) :
    streamSlot (upsetStream l u t) l = ⟨(streamSlot t l).entry, u⟩ := by
  have hi : index? 4095 l.toNat = some ⟨l.toNat, label_lt hl⟩ := index?_eq_some.2 rfl
  simp [streamSlot, upsetStream, hi, hu]

/-- A write of an entry leaves nothing of a storage error that befell it. -/
theorem writeStream_upsetStream (l : Label) (u : BitFault) (x : StreamEntry) (t : StreamTable) :
    writeStream l.toNat x (upsetStream l u t) = writeStream l.toNat x t := by
  unfold writeStream upsetStream
  split <;> simp [tmodify]

/-! ## Gauges (R17) -/

theorem gaugeStep_off {g : EccGauge} (h : g.threshold = 0) : gaugeStep g = (g, false) := by
  rw [gaugeStep, if_pos h]

theorem gaugeStep_below {g : EccGauge} (h : g.threshold ≠ 0) (hc : g.count.toNat + 1 < g.threshold.toNat) :
    gaugeStep g = ({ g with count := g.count + 1 }, false) := by
  rw [gaugeStep, if_neg h, if_neg (by omega)]

theorem gaugeStep_reached {g : EccGauge} (h : g.threshold ≠ 0) (hc : g.threshold.toNat ≤ g.count.toNat + 1) :
    gaugeStep g = ({ g with count := 0 }, true) := by
  rw [gaugeStep, if_neg h, if_pos hc]

/-! ## Commands of the stream table and the gauges -/

/-- Settles O47: the entry is written over the one place of its label. -/
theorem setStreamEntryWritesOneEntry : Obligations.SetStreamEntryWritesOneEntry := by
  unfold Obligations.SetStreamEntryWritesOneEntry
  intro s h l w hs
  have row : ∀ {o u}, doSetStreamEntry l w s = .done o u → u.refs.scan = none →
      exec (.setStreamEntry h l w) s = .next (handOver (ended h 1 o) u) :=
    fun ha hu => takeRow_done (c := .setStreamEntry l w) hs nofun ha hu
  refine ⟨fun hbad => row ?_ hs.2, fun p hp hw => ⟨writeStream l.toNat (entryOf w p) s.stream, ?_, by simp, fun l' => ?_⟩⟩
  · unfold doSetStreamEntry
    split
    · rfl
    · rename_i p hp
      have : w.prog.toNat < 48 := index?_eq_some.1 hp ▸ p.isLt
      exact if_pos (hbad.resolve_left (by omega))
  · refine row ?_ hs.2
    unfold doSetStreamEntry
    rw [index?_eq_some.2 hp]
    exact if_neg hw
  · rw [streamSlot_writeStream]
    refine if_congr ?_ rfl rfl
    constructor
    · rintro ⟨hl, hk⟩
      exact ⟨BitVec.eq_of_toNat_eq hl, fun e => by simp [e] at hk⟩
    · rintro ⟨rfl, hl⟩
      exact ⟨rfl, label_lt hl⟩

/-- Settles O48: the branches of the store code. -/
theorem setEccThresholdClearsTheCount : Obligations.SetEccThresholdClearsTheCount := by
  unfold Obligations.SetEccThresholdClearsTheCount
  intro s h store t hs
  have row : ∀ {o u}, doSetEccThreshold store t s = .done o u → u.refs.scan = none →
      exec (.setEccThreshold h store t) s = .next (handOver (ended h 3 o) u) :=
    fun ha hu => takeRow_done (c := .setEccThreshold store t) hs nofun ha hu
  refine ⟨fun h1 => row ?_ hs.2, fun h2 => row ?_ hs.2, fun h1 h2 => row ?_ hs.2⟩
  · exact if_pos h1
  · rw [doSetEccThreshold, if_neg (by simp [h2]), if_pos h2]
  · rw [doSetEccThreshold, if_neg h1, if_neg h2]

end Sys2Proof.Machine
end

section
/-! SUPPORT. The reset values. -/

namespace Sys2Proof.Machine

/-- The entry numbers from n on are the last ones of the list of all. -/
theorem entriesFrom_eq (fuel n : Nat) (h : n + fuel = 8192) : entriesFrom fuel n = (List.finRange 8192).drop n := by
  induction fuel generalizing n with
  | zero => simp [entriesFrom, show 8192 ≤ n by omega]
  | succ fuel ih =>
    have hn : n < 8192 := by omega
    rw [List.drop_eq_getElem_cons (by simpa using hn), entriesFrom, dif_pos hn, ih (n + 1) (by omega)]
    simp

/-- After reset every label reads as invalid (R19). -/
theorem streamSlot_reset (l : Label) : streamSlot StreamTable.reset l = ⟨.invalid, .clean⟩ := by
  unfold streamSlot
  split
  · exact tget_replicate _ _
  · rfl

/-- Settles O3, block by block. -/
theorem resetLeavesTheStatedValues : Obligations.ResetLeavesTheStatedValues := by
  have free : State.reset.refs.free = List.finRange 8192 := (entriesFrom_eq 8192 0 rfl).trans List.drop_zero
  have stream : ∀ l, streamSlot State.reset.stream l = ⟨.invalid, .clean⟩ := streamSlot_reset
  have ring : ∀ i, ringOf State.reset i = .reset := tget_replicate _
  have comp : ∀ e, compOf State.reset e = .reset := tget_replicate _
  have feed : ∀ e, feedOf State.reset e = .reset := tget_replicate _
  have chan : ∀ e, chanOf State.reset e = .reset := tget_replicate _
  unfold Obligations.ResetLeavesTheStatedValues
  refine ⟨fun l => ?_, rfl, rfl, fun i => ?_, tget2_replicate _, free, rfl, rfl,
    fun _ => ⟨tget_replicate _ _, tget_replicate _ _⟩, fun _ _ => ⟨tget2_replicate _ _ _, tget2_replicate _ _ _⟩,
    fun e => ?_, fun e => ?_, tget2_replicate _, fun e => ?_, tget_replicate _, rfl, rfl, rfl, rfl, rfl, rfl, rfl, rfl, rfl⟩
  · simp [stream l, StreamEntry.invalid]
  · simp [ring i, RingRecord.reset]
  · simp [comp e, CompRecord.reset, ProgSetting.reset]
  · simp [feed e, FeedRecord.reset]
  · simp [chan e, Channel.reset]

end Sys2Proof.Machine
end

section
/-! SUPPORT. The take of an ingest write: what `stampTime` makes of a cell, the place of a slot's sequence, the silent run. -/

namespace Sys2Proof.Machine

/-! ## Bytes of a record (R204) -/

@[simp] theorem length_putLE (n v : Nat) : (putLE n v).length = n := by
  induction n generalizing v with
  | zero => rfl
  | succ n ih => simp [putLE, ih]

/-- The number in n bytes depends on those bytes alone. -/
theorem leNat_congr {a b : List Byte} {i j n : Nat} (h : ∀ k < n, byteAt a (i + k) = byteAt b (j + k)) :
    leNat a i n = leNat b j n := by
  induction n generalizing i j with
  | zero => rfl
  | succ n ih =>
    have h0 : byteAt a i = byteAt b j := h 0 (by omega)
    have hs : leNat a (i + 1) n = leNat b (j + 1) n := ih fun k hk => by
      have := h (k + 1) (by omega)
      rwa [show i + (k + 1) = i + 1 + k by omega, show j + (k + 1) = j + 1 + k by omega] at this
    simp only [leNat, h0, hs]

/-- The bytes of a number that fits in them read back as the number. -/
theorem leNat_putLE (n v : Nat) (h : v < 256 ^ n) : leNat (putLE n v) 0 n = v := by
  induction n generalizing v with
  | zero => simp at h; simp [leNat, h]
  | succ n ih =>
    have hd : v / 256 < 256 ^ n := by
      rw [Nat.div_lt_iff_lt_mul (by omega)]
      omega
    have hs : leNat (putLE (n + 1) v) 1 n = leNat (putLE n (v / 256)) 0 n :=
      leNat_congr fun k _ => by simp [byteAt, putLE, Nat.add_comm 1 k]
    have h0 : (byteAt (putLE (n + 1) v) 0).toNat = v % 256 := by simp [byteAt, putLE]
    simp only [leNat, hs, ih _ hd, h0]
    omega

/-- The new bytes read where they were put. -/
theorem byteAt_setBytes_inside {d new : List Byte} {off k : Nat} (hd : off ≤ d.length) (hk : k < new.length) :
    byteAt (setBytes d off new) (off + k) = byteAt new k := by
  simp only [byteAt, setBytes, List.getD_eq_getElem?_getD]
  rw [List.append_assoc, List.getElem?_append_right (by simp), List.getElem?_append_left (by simp; omega)]
  simp [hd]

/-- Every other byte reads as before. -/
theorem byteAt_setBytes_outside {d new : List Byte} {off k : Nat} (hd : off + new.length ≤ d.length)
    (hk : k < off ∨ off + new.length ≤ k) : byteAt (setBytes d off new) k = byteAt d k := by
  simp only [byteAt, setBytes, List.getD_eq_getElem?_getD]
  have hl : (d.take off ++ new).length = off + new.length := by simp; omega
  rcases hk with hk | hk
  · rw [List.append_assoc, List.getElem?_append_left (by simp; omega), List.getElem?_take_of_lt hk]
  · rw [List.getElem?_append_right (by omega), hl, List.getElem?_drop]
    congr 2
    omega

/-! ## Stamping (R30, R205) -/

/-- The time field of a stamped cell holds the time. -/
theorem leNat_stampTime {d : List Byte} (h : d.length = 224) (t : HouseTime) : leNat (stampTime d t) 9 7 = t.toNat := by
  have : leNat (stampTime d t) 9 7 = leNat (putLE 7 t.toNat) 0 7 := leNat_congr fun k hk => by
    rw [Nat.zero_add]
    exact byteAt_setBytes_inside (by omega) (by simpa using hk)
  rw [this]
  exact leNat_putLE 7 _ t.isLt

/-- Stamping a cell replaces its time field alone. -/
theorem stampTime_says {d : List Byte} (t : HouseTime) (h : d.length = 224) :
    (stampTime d t).length = 224 ∧ leNat (stampTime d t) 9 7 = t.toNat ∧ cellTime (stampTime d t) = t ∧
      ∀ k, (k < 9 ∨ 16 ≤ k) → byteAt (stampTime d t) k = byteAt d k := by
  refine ⟨by simp [stampTime, setBytes, h], leNat_stampTime h t, ?_, fun k hk => ?_⟩
  · simp [cellTime, field, leNat_stampTime h]
  · exact byteAt_setBytes_outside (by simp [h]) (by simpa using hk)

/-! ## The sequence of a slot (R28) -/

theorem within_iff {a n b m : Nat} : within a n b m = true ↔ b ≤ a ∧ a + n ≤ b + m := by
  simp [within]

/-- A request classed as an ingest write is to a slot that its ring has (R27). -/
theorem slot_lt_of_classify {s : State} {r : Request} {i : RingId} {slot : Nat} (h : classify s r = .ingest i slot) :
    slot < (ringOf s i).size := by
  have ring : ∀ j, classRing s r j = .ingest i slot → slot < (ringOf s i).size := by
    intro j hj
    unfold classRing at hj
    dsimp only at hj
    split at hj
    · cases hj
    · split at hj
      · rename_i hc
        obtain ⟨hlen, hin, -, -⟩ := hc
        obtain ⟨hbase, hend⟩ := within_iff.1 hin
        cases hj
        simp only [ringBytes, Config.cellBytes, ringOf] at hlen hend ⊢
        omega
      · cases hj
  unfold classify at h
  split at h
  · cases h
  · split at h
    · unfold classFeed at h
      split at h
      · cases h
      · split at h <;> cases h
    · split at h
      · exact ring _ h
      · split at h
        · unfold classControl at h
          dsimp only at h
          split at h <;> cases h
        · cases h

/-- The slot of a sequence that does not wrap: W plus the distance of the slot from the expected one. -/
theorem slotSequence_mod {R : RingRecord} {slot : Nat} (hs : slot < R.size) (hw : R.w.toNat + R.size < 2 ^ 48) :
    (slotSequence R slot).toNat % R.size = slot := by
  have hd : slotSkip R slot < R.size := Nat.mod_lt _ (by omega)
  have hq : (slotSequence R slot).toNat = R.w.toNat + slotSkip R slot := by
    rw [slotSequence, BitVec.toNat_add, BitVec.toNat_ofNat, Nat.mod_eq_of_lt (a := slotSkip R slot) (by omega),
      Nat.mod_eq_of_lt (by omega)]
  have hm : R.w.toNat % R.size < R.size := Nat.mod_lt _ (by omega)
  calc (slotSequence R slot).toNat % R.size
      = (R.w.toNat % R.size + (slot + R.size - R.w.toNat % R.size)) % R.size := by
        rw [hq, slotSkip, Nat.add_mod_mod, Nat.mod_add_mod]
    _ = (slot + R.size) % R.size := by congr 1; omega
    _ = slot := by rw [Nat.add_mod_right, Nat.mod_eq_of_lt hs]

/-! ## The take -/

/-- Two changes of a ring record that agree on it are one change of the state. -/
theorem modRing_congr {i : RingId} {f g : RingRecord → RingRecord} {s : State} (h : f (ringOf s i) = g (ringOf s i)) :
    modRing i f s = modRing i g s := by
  simp only [modRing, tmodify]
  rw [show f (tget s.rings.recs i) = g (tget s.rings.recs i) from h]

/-- A request that meets the conditions of R178 is taken when it is presented. -/
theorem present_of_takes {s : State} {r : Request} (h : Takes s r) : present r s = takeRequest r s := by
  obtain ⟨htag, hopen, hlist⟩ := h
  have hfree : tagFree r.tag s.path.waiting = true := by
    simpa [tagFree] using htag
  have hroom : roomFor s r = true := by
    unfold roomFor
    split
    · rename_i e n hc
      simp [Config.openSize, hopen, hasRoom, Config.listSize, hlist e n hc]
    · simp [Config.openSize, hopen]
  simp [present, hfree, hroom]

theorem silentRun_of_active {i : RingId} {s : State} (h : (ringOf s i).silence = .active) : silentRun i s = s :=
  if_pos h

theorem silentRun_of_short {i : RingId} {s : State} (h : (ringOf s i).silence = .silent)
    (hr : (ringOf s i).run + 1 < (ringOf s i).restore) :
    silentRun i s = modRing i (fun x => { x with run := x.run + 1 }) s := by
  simp [silentRun, h, show ¬(ringOf s i).restore ≤ (ringOf s i).run + 1 by omega]

theorem silentRun_of_reached {i : RingId} {s : State} (h : (ringOf s i).silence = .silent)
    (hr : (ringOf s i).restore ≤ (ringOf s i).run + 1) : silentRun i s = silenceChange i .active s := by
  simp [silentRun, h, hr]

/-- Settles O20: the take is the write of one ring record over the forwarding, then the step of the silent run. -/
theorem ingestWriteIsSequencedAndStamped : Obligations.IngestWriteIsSequencedAndStamped := by
  unfold Obligations.IngestWriteIsSequencedAndStamped
  refine ⟨fun d t h => stampTime_says t h, fun s r i slot hc ht => ?_⟩
  intro R d q kept u
  have hrow : exec (.ingestWrite r) s = .next (silentRun i u) := by
    have hu : modRing i (takeSlot slot) (forward (.ingest (keepIngest i slot r s)) (stamped r s.time.now) s) = u :=
      modRing_congr rfl
    have htake : takeRequest r s = takeIngest i slot r s := by
      unfold takeRequest
      rw [hc]
    calc exec (.ingestWrite r) s = .next (present r s) := rfl
      _ = .next (takeIngest i slot r s) := by rw [present_of_takes ht, htake]
      _ = .next (silentRun i u) := by rw [← hu]; rfl
  have hU : ringOf u i = { R with
      w := q + 1, taken := R.taken + 1, skips := if d = 0 then R.skips else R.skips + 1, quiet := 0 } :=
    ringOf_modRing_same _ _ _
  refine ⟨fun ha => ?_, fun hs hr => ?_, fun hs hr => ?_, slotSequence_mod (slot_lt_of_classify hc)⟩
  · rw [hrow, silentRun_of_active (by rw [hU]; exact ha)]
  · rw [hrow, silentRun_of_short (by rw [hU]; exact hs) (by rw [hU]; exact hr)]
  · rw [hrow, silentRun_of_reached (by rw [hU]; exact hs) (by rw [hU]; exact hr)]
    simp only [silenceChange, ringOf_modRing_same, hU]

end Sys2Proof.Machine
end

section
/-! SUPPORT. LOAD STREAM ENTRIES: the entries of one list read, its pieces and its end. -/

namespace Sys2Proof.Machine

/-! ## The end of a command in flight -/

/-- The command in flight ends: its COMMAND report, and the waiting commands start (R190). -/
theorem finishRunning_eq {s : State} {c : TakenCommand} {op : InFlightOp} (o : CmdOutcome)
    (h : s.cmd.running = some ⟨c, op⟩) :
    finishRunning o s = startWaiting (handOver (.command c.code c.slot c.tag o)
      { s with cmd := { s.cmd with running := none } }) := by
  unfold finishRunning endRunning
  rw [h]
  rfl

/-! ## A list read (R12) -/

@[simp] theorem writeList_gauge (d : List Byte) (first n : Nat) (t : StreamTable) :
    (writeList d first n t).gauge = t.gauge := by
  unfold writeList
  induction n with
  | zero => rfl
  | succ n ih => rw [List.range_succ, List.foldl_append, List.foldl_cons, List.foldl_nil, writeStream_gauge, ih]

/-- A list read writes the entries of its own labels, in order, and no other. -/
theorem streamSlot_writeList (d : List Byte) (first n : Nat) (t : StreamTable) (l : Label) :
    streamSlot (writeList d first n t) l =
      if first ≤ l.toNat ∧ l.toNat < first + n ∧ l ≠ 4095 then
        ⟨listEntry (streamWordAt d (8 * (l.toNat - first))), .clean⟩
      else streamSlot t l := by
  induction n with
  | zero => rw [if_neg (by omega)]; rfl
  | succ n ih =>
    have hstep : writeList d first (n + 1) t =
        writeStream (first + n) (listEntry (streamWordAt d (8 * n))) (writeList d first n t) := by
      simp [writeList, List.range_succ]
    have hlast : l ≠ 4095 ↔ l.toNat < 4095 := ⟨label_lt, fun h e => by simp [e] at h⟩
    rw [hstep, streamSlot_writeStream, ih]
    by_cases hn : l.toNat = first + n
    · simp only [hn, Nat.add_sub_cancel_left, show ¬first + n < first + n by omega, false_and, and_false, if_false, true_and]
      exact if_congr (by rw [hlast, hn]; omega) rfl rfl
    · rw [if_neg (by omega)]
      exact if_congr (by rw [hlast]; omega) rfl rfl

/-- The bytes of the next read with n entries to come (R12). -/
theorem loadBytes_eq (n : Nat) : loadBytes n = min 4096 (32 * ((n + 3) / 4)) := rfl

/-- Settles O34: the four checks, then the branches of a list read's completion. -/
theorem loadReadsTheListInOrder : Obligations.LoadReadsTheListInOrder := by
  unfold Obligations.LoadReadsTheListInOrder
  constructor
  · intro s h f n a hs bad
    have hbad : bad ↔ n.toNat = 0 ∨ 4096 < n.toNat ∨ 4096 < f.toNat + n.toNat ∨ a.toNat % 32 ≠ 0
        ∨ s.path.limit < a.toNat + 32 * ceilDiv n.toNat 4 := by
      show (_ ∨ _ ∨ _ ∨ _ ∨ s.path.limit < a.toNat + 32 * ceilDiv n.toNat 4) ↔ _
      omega
    refine ⟨fun hb => ?_, fun hb => ?_⟩
    · exact takeRow_done (c := .loadStreamEntries f n a) hs nofun (if_pos (hbad.1 hb)) hs.2
    · exact takeRow_inFlight (c := .loadStreamEntries f n a) hs (if_neg (mt hbad.2 hb)) hs.2 nofun
  · intro s c next remaining list q rest hrun hold fin
    have hrow : ∀ rsp, exec (.streamListReadCompletion rsp) s = .next (streamListReturned rsp { s with down := rest }) := by
      intro rsp
      show Host.Outcome.next (respond 223 rsp s) = _
      unfold respond
      rw [hold]
    have hfin : ∀ o tb, finishRunning o { s with down := rest, stream := tb } = fin o tb :=
      fun o tb => finishRunning_eq o hrun
    refine ⟨fun d => ?_, fun d => ⟨writeList d next (min 512 remaining) s.stream, by simp, fun l => ?_, fun hr => ?_,
      fun hr => ?_⟩⟩
    · rw [hrow, ← hfin]
      simp only [streamListReturned, hrun]
    · exact streamSlot_writeList ..
    · rw [hrow, ← hfin]
      simp only [streamListReturned, hrun]
      rw [if_pos (by omega)]
    · rw [hrow]
      simp only [streamListReturned, hrun]
      rw [if_neg (by omega), Nat.min_eq_left (by omega), issueLoad, loadBytes_eq]
      simp only [issue, Config.longRead, Config.listTag]

end Sys2Proof.Machine
end

section
/-! SUPPORT. The completion of an ingest write: what the lookup finds, with a storage error or without, and how the admission of
the cell goes on with it. -/

namespace Sys2Proof.Machine

/-! ## A correction in the stream table (R17) -/

section
variable {s : State} {g : EccGauge} (i : Nat) (hg : s.stream.gauge = g)
include hg

theorem countStream_off (h : g.threshold = 0) : countStream i s = { s with stream := { s.stream with gauge := g } } := by
  simp only [countStream, hg, gaugeStep_off h]
  rfl

theorem countStream_below (h : g.threshold ≠ 0) (hc : g.count.toNat + 1 < g.threshold.toNat) :
    countStream i s = { s with stream := { s.stream with gauge := { g with count := g.count + 1 } } } := by
  simp only [countStream, hg, gaugeStep_below h hc]
  rfl

theorem countStream_reached (h : g.threshold ≠ 0) (hc : g.threshold.toNat ≤ g.count.toNat + 1) :
    countStream i s = handOver (.ecc .stream .threshold i)
      { s with stream := { s.stream with gauge := { g with count := 0 } } } := by
  simp only [countStream, hg, gaugeStep_reached h hc]
  rfl

end

/-! ## The lookup (R7, R15, R16) -/

/-- What a lookup makes of an entry: nothing while it is invalid. -/
def foundIn (x : StreamEntry) : Option StreamEntry := if x.valid then some x else none

theorem lookup_clean {l : Label} {s : State} (h : (streamSlot s.stream l).check = .clean) :
    lookup l s = (s, foundIn (streamSlot s.stream l).entry) := by
  simp only [lookup, h]
  rfl

theorem lookup_single {l : Label} {s : State} (h : (streamSlot s.stream l).check = .single) :
    lookup l s = (countStream l.toNat { s with stream := writeStream l.toNat (streamSlot s.stream l).entry s.stream },
      foundIn (streamSlot s.stream l).entry) := by
  simp only [lookup, h]
  rfl

theorem lookup_double {l : Label} {s : State} (h : (streamSlot s.stream l).check = .double) :
    lookup l s = (handOver (.ecc .stream .uncorrectable l.toNat)
      { s with stream := writeStream l.toNat .invalid s.stream }, none) := by
  simp only [lookup, h]

/-! ## Admission after the lookup (R7, R38, R41, R42) -/

/-- How a cell goes on with the entry that its lookup found. -/
def goOnWith (c : IngestKept) (x : StreamEntry) (v : State) : State :=
  if x.valid = false then modRing c.ring (fun r => { r with labelFaults := r.labelFaults + 1 }) v
  else if protectionPasses v.rings x.prog x.variant c.ring = false then
    modRing c.ring (fun r => { r with duplicates := r.duplicates + 1 }) v
  else (maskEditions x.mask).foldl (admitEdition c x) v

theorem admitCell_of_filler {c : IngestKept} (s : State) (h : c.label = 4095) : admitCell c s = s := if_pos h

/-- A lookup that found no entry ends the cell at the label fault. -/
theorem admitCell_of_none {c : IngestKept} {s v : State} (h : c.label ≠ 4095) (hl : lookup c.label s = (v, none)) :
    admitCell c s = modRing c.ring (fun r => { r with labelFaults := r.labelFaults + 1 }) v := by
  rw [admitCell, if_neg (show ¬c.label = Config.fillerLabel from h), hl]

/-- A lookup that read an entry goes on with that entry. -/
theorem admitCell_of_found {c : IngestKept} {s v : State} {x : StreamEntry} (h : c.label ≠ 4095)
    (hl : lookup c.label s = (v, foundIn x)) : admitCell c s = goOnWith c x v := by
  unfold goOnWith
  cases hx : x.valid with
  | false => rw [admitCell_of_none h (by simpa [foundIn, hx] using hl)]; rfl
  | true =>
    rw [admitCell, if_neg (show ¬c.label = Config.fillerLabel from h), hl]
    simp [foundIn, hx]

/-! ## The row -/

/-- The completion of an ingest write: its response goes upstream, and the ring unit takes the outcome, with the storage error
of the row in the table (R175, R176, R31). -/
theorem exec_ingestWriteCompletion {s : State} {tag : PortTag} {k : IngestKept} {q : Request} {rest : List DownReq}
    (h : takeOldest tag s.down = some (⟨.ingest k, q⟩, rest)) (rsp : Response) (up : BitFault) :
    exec (.ingestWriteCompletion tag rsp up) s = .next (ingestReturned k rsp
      { readyForwarded tag rsp { s with down := rest } with stream := upsetStream k.label up s.stream }) := by
  show execIngestWriteCompletion tag rsp up s = _
  simp only [execIngestWriteCompletion, ingestLabel, h, respond]
  rfl

theorem ingestReturned_givenUp {k : IngestKept} (rsp : Response) (s : State) (h : k.valid = false) :
    ingestReturned k rsp s = s := by
  simp [ingestReturned, h]

theorem ingestReturned_error {k : IngestKept} (d : List Byte) (s : State) (h : k.valid = true) :
    ingestReturned k ⟨.error, d⟩ s = modRing k.ring (fun r => { r with writeErrors := r.writeErrors + 1 }) s := by
  simp [ingestReturned, h]

theorem ingestReturned_okay {k : IngestKept} (d : List Byte) (s : State) (h : k.valid = true) :
    ingestReturned k ⟨.okay, d⟩ s = admitCell k s := by
  simp [ingestReturned, h]

section
variable {s : State} {tag : PortTag} {k : IngestKept} {q : Request} {rest : List DownReq}

/-- The state in which the lookup of the completed cell is made, without a storage error. -/
def completed (tag : PortTag) (rest : List DownReq) (d : List Byte) (s : State) : State :=
  readyForwarded tag ⟨.okay, d⟩ { s with down := rest }

/-- A cell that meets no storage error goes on with the entry as stored. -/
theorem completion_of_clean (h : takeOldest tag s.down = some (⟨.ingest k, q⟩, rest)) (d : List Byte) (hv : k.valid = true)
    (hl : k.label ≠ 4095) (hc : (streamSlot s.stream k.label).check = .clean) :
    exec (.ingestWriteCompletion tag ⟨.okay, d⟩ .clean) s =
      .next (goOnWith k (streamSlot s.stream k.label).entry (completed tag rest d s)) := by
  rw [exec_ingestWriteCompletion h, ingestReturned_okay d _ hv, upsetStream_clean]
  exact congrArg _ (admitCell_of_found hl (lookup_clean hc))

/-- A cell that meets a double-bit error ends there, and its entry is rewritten as invalid and reported (R16). -/
theorem completion_of_double (h : takeOldest tag s.down = some (⟨.ingest k, q⟩, rest)) (d : List Byte) (hv : k.valid = true)
    (hl : k.label ≠ 4095) :
    exec (.ingestWriteCompletion tag ⟨.okay, d⟩ .double) s =
      .next (modRing k.ring (fun r => { r with labelFaults := r.labelFaults + 1 })
        (handOver (.ecc .stream .uncorrectable k.label.toNat)
          { completed tag rest d s with stream := writeStream k.label.toNat .invalid s.stream })) := by
  have hu := streamSlot_upsetStream (u := .double) hl (by decide) s.stream
  rw [exec_ingestWriteCompletion h, ingestReturned_okay d _ hv,
    admitCell_of_none hl (lookup_double (congrArg StreamSlot.check hu))]
  simp only [writeStream_upsetStream]
  rfl

/-- A cell that meets a single-bit error goes on with the corrected entry, after the count of the correction (R15, R17). -/
theorem completion_of_single (h : takeOldest tag s.down = some (⟨.ingest k, q⟩, rest)) (d : List Byte) (hv : k.valid = true)
    (hl : k.label ≠ 4095) :
    let x := (streamSlot s.stream k.label).entry
    exec (.ingestWriteCompletion tag ⟨.okay, d⟩ .single) s =
      .next (goOnWith k x (countStream k.label.toNat
        { completed tag rest d s with stream := writeStream k.label.toNat x s.stream })) := by
  have hu := streamSlot_upsetStream (u := .single) hl (by decide) s.stream
  have hfound := lookup_single
    (s := { completed tag rest d s with stream := upsetStream k.label .single s.stream }) (congrArg StreamSlot.check hu)
  simp only [hu, writeStream_upsetStream] at hfound
  rw [exec_ingestWriteCompletion h, ingestReturned_okay d _ hv]
  exact congrArg _ (admitCell_of_found hl hfound)

end

/-- Settles O26: the ends of a cell in their order. -/
theorem ingestCompletionAdmitsTheCell : Obligations.IngestCompletionAdmitsTheCell := by
  unfold Obligations.IngestCompletionAdmitsTheCell
  intro s tag k q rest hold u slot
  refine ⟨fun rsp hv => ?_, fun d hv => ?_, fun d hv hl => ?_, fun d hv hl hc hx => ?_,
    fun d hv hl => completion_of_double hold d hv hl, fun d hv hl hc hx => ⟨fun hp => ?_, fun hp => ?_⟩, fun d hv hl => ?_⟩
  · rw [exec_ingestWriteCompletion hold, ingestReturned_givenUp _ _ hv, upsetStream_clean]
    rfl
  · rw [exec_ingestWriteCompletion hold, ingestReturned_error _ _ hv, upsetStream_clean]
    rfl
  · rw [exec_ingestWriteCompletion hold, ingestReturned_okay _ _ hv, admitCell_of_filler _ hl, upsetStream_clean]
    rfl
  · rw [completion_of_clean hold d hv hl hc]
    exact congrArg _ (if_pos hx)
  · rw [completion_of_clean hold d hv hl hc, goOnWith, if_neg (by simp [slot, hx])]
    exact congrArg _ (if_pos hp)
  · rw [completion_of_clean hold d hv hl hc, goOnWith, if_neg (by simp [slot, hx])]
    exact congrArg _ (if_neg (Bool.not_eq_false _ ▸ hp))
  · intro g corrected goesOn row
    have hrow := completion_of_single hold d hv hl
    have hgoes : ∀ v : State, v.rings = s.rings → .next (goOnWith k slot.entry v) = goesOn v := by
      intro v hr
      rw [goOnWith, hr]
      rfl
    have tail : ∀ v, countStream k.label.toNat
        { u ⟨.okay, d⟩ with stream := writeStream k.label.toNat slot.entry s.stream } = v →
        v.rings = s.rings → row = goesOn v := by
      intro v hv hr
      rw [← hgoes v hr, ← hv]
      exact hrow
    exact ⟨fun h0 => tail _ (countStream_off _ (writeStream_gauge ..) h0) rfl,
      fun h0 hb => tail _ (countStream_below _ (writeStream_gauge ..) h0 hb) rfl,
      fun h0 hr => tail _ (countStream_reached _ (writeStream_gauge ..) h0 hr) (handOver_rings _ _)⟩

end Sys2Proof.Machine
end

section
/-! SUPPORT. Reads of the reference store with their SECDED check, and stale clearing: one step at the head of a queue, what
clearing a queue leaves of the others, and that it ends at a fresh head. -/

namespace Sys2Proof.Machine

/-! ## A correction in the reference store (R17, R59) -/

section
variable {s : State} {g : EccGauge} (n : EntryNo) (hg : s.refs.gauge = g)
include hg

theorem countRefs_off (h : g.threshold = 0) : countRefs n s = { s with refs := { s.refs with gauge := g } } := by
  simp only [countRefs, hg, gaugeStep_off h]
  rfl

theorem countRefs_below (h : g.threshold ≠ 0) (hc : g.count.toNat + 1 < g.threshold.toNat) :
    countRefs n s = { s with refs := { s.refs with gauge := { g with count := g.count + 1 } } } := by
  simp only [countRefs, hg, gaugeStep_below h hc]
  rfl

theorem countRefs_reached (h : g.threshold ≠ 0) (hc : g.threshold.toNat ≤ g.count.toNat + 1) :
    countRefs n s = handOver (.ecc .refstore .threshold n.val)
      { s with refs := { s.refs with gauge := { g with count := 0 } } } := by
  simp only [countRefs, hg, gaugeStep_reached h hc]
  rfl

end

/-- What a count leaves of the reference store: all but the gauge. -/
theorem countRefs_refs (n : EntryNo) (s : State) :
    (countRefs n s).refs = { s.refs with gauge := (gaugeStep s.refs.gauge).1 } := by
  unfold countRefs
  dsimp only
  split
  · exact handOver_refs _ _
  · rfl

/-- Entry n corrected and written back (R59). -/
def correctRef (n : EntryNo) (s : State) : State :=
  { s with refs := { s.refs with slots := tput s.refs.slots n { tget s.refs.slots n with check := .clean } } }

section
variable {e : EdId} {p : ProgId} {n : EntryNo} {s : State}

theorem readRef_clean (h : (tget s.refs.slots n).check = .clean) :
    readRef e p n s = (s, some (tget s.refs.slots n).ref) := by
  simp only [readRef, h]

theorem readRef_single (h : (tget s.refs.slots n).check = .single) :
    readRef e p n s = (countRefs n (correctRef n s), some (tget s.refs.slots n).ref) := by
  simp only [readRef, h]
  rfl

theorem readRef_double (h : (tget s.refs.slots n).check = .double) :
    readRef e p n s = (handOver (.ecc .refstore .uncorrectable n.val) (discardStale e p n .ecc s), none) := by
  simp only [readRef, h]

/-- The release of the head of a queue leaves the rest of it (R56). -/
theorem queueOf_discardStale_same {rest : List EntryNo} (c : StaleCause) (hq : queueOf s e p = n :: rest) :
    queueOf (discardStale e p n c s) e p = rest := by
  show tget2 (releaseRef e p n s.refs).queues e p = rest
  rw [releaseRef_queue, if_pos ⟨rfl, rfl⟩, show tget2 s.refs.queues e p = n :: rest from hq, List.erase_cons_head]

end

/-! ## Staleness (R76) -/

section
variable {u : RingUnit} {m : Nat} {t : HouseTime} {x : Reference}

theorem staleCause_ring (h : (tget u.recs x.ring).enabled = false) : staleCause u m t x = some .ring := by
  simp [staleCause, h]

theorem staleCause_of_enabled (h : (tget u.recs x.ring).enabled = true) :
    staleCause u m t x =
      if (tget u.recs x.ring).size < ((tget u.recs x.ring).w - x.seq).toNat then some .overwritten
      else if m * 20000 < t.toNat - x.arrival.toNat then some .age else none := by
  simp only [staleCause, h, overwritten, decide_eq_true_eq]
  rfl

theorem staleCause_none_iff :
    staleCause u m t x = none ↔ (tget u.recs x.ring).enabled = true ∧
      ¬(tget u.recs x.ring).size < ((tget u.recs x.ring).w - x.seq).toNat ∧
      ¬m * 20000 < t.toNat - x.arrival.toNat := by
  cases he : (tget u.recs x.ring).enabled with
  | false => simp [staleCause_ring he]
  | true =>
    rw [staleCause_of_enabled he]
    split
    · exact ⟨nofun, fun h => absurd ‹_› h.2.1⟩
    · split
      · exact ⟨nofun, fun h => absurd ‹_› h.2.2⟩
      · exact ⟨fun _ => ⟨rfl, ‹_›, ‹_›⟩, fun _ => rfl⟩

end

/-! ## One step of stale clearing (R75) -/

/-- The clearing of one queue of an edition. -/
def clearOne (e : EdId) (p : ProgId) (t : HouseTime) (s : State) : State :=
  clearQueue e p t (queueOf s e p).length s

theorem clearAll_eq (e : EdId) (t : HouseTime) (s : State) :
    clearAll e t s = (List.finRange 48).foldl (fun s p => clearOne e p t s) s := rfl

section
variable {e : EdId} {p : ProgId} {t : HouseTime} {n : EntryNo} {rest : List EntryNo} {s : State}

theorem clearOne_nil (hq : queueOf s e p = []) : clearOne e p t s = s := by
  simp [clearOne, hq, clearQueue]

/-- An uncorrectable head is discarded and reported, and the clearing goes on (R60). -/
theorem clearOne_double (hq : queueOf s e p = n :: rest) (h : (tget s.refs.slots n).check = .double) :
    clearOne e p t s = clearOne e p t (handOver (.ecc .refstore .uncorrectable n.val) (discardStale e p n .ecc s)) := by
  have hrest : queueOf (handOver (.ecc .refstore .uncorrectable n.val) (discardStale e p n .ecc s)) e p = rest :=
    (queueOf_congr (handOver_refs _ _) e p).trans (queueOf_discardStale_same _ hq)
  rw [clearOne, clearOne, hrest, hq]
  simp only [List.length_cons, clearQueue, hq, readRef_double h]

/-- A correctable head is corrected and counted, and tested then (R59). -/
theorem clearOne_single (hq : queueOf s e p = n :: rest) (h : (tget s.refs.slots n).check = .single) :
    clearOne e p t s = clearOne e p t (countRefs n (correctRef n s)) := by
  have hr := countRefs_refs n (correctRef n s)
  have hq' : queueOf (countRefs n (correctRef n s)) e p = n :: rest := by rw [queueOf, hr]; exact hq
  have hslot : tget (countRefs n (correctRef n s)).refs.slots n = { tget s.refs.slots n with check := .clean } := by
    rw [hr]; exact tget_tput_same _ _ _
  rw [clearOne, clearOne, hq', hq]
  simp only [List.length_cons, clearQueue, hq, hq', readRef_single h, readRef_clean (congrArg RefSlot.check hslot), hslot]

/-- A stale head is discarded, and the clearing goes on (R75, R76). -/
theorem clearOne_stale {c : StaleCause} (hq : queueOf s e p = n :: rest) (h : (tget s.refs.slots n).check = .clean)
    (hc : staleCause s.rings (edOf s e).maxAge t (tget s.refs.slots n).ref = some c) :
    clearOne e p t s = clearOne e p t (discardStale e p n c s) := by
  rw [clearOne, clearOne, queueOf_discardStale_same c hq, hq]
  simp only [List.length_cons, clearQueue, hq, readRef_clean h, hc]

/-- A fresh head ends the clearing (R75). -/
theorem clearOne_fresh (hq : queueOf s e p = n :: rest) (h : (tget s.refs.slots n).check = .clean)
    (hc : staleCause s.rings (edOf s e).maxAge t (tget s.refs.slots n).ref = none) : clearOne e p t s = s := by
  rw [clearOne, hq]
  simp only [List.length_cons, clearQueue, hq, readRef_clean h, hc]

end

/-! ## What clearing a queue leaves (R75) -/

/-- From s to u queue (e,p) may shrink, entries may be corrected, and nothing that the tests of another head look at changes. -/
structure ClearsAt (e : EdId) (p : ProgId) (s u : State) : Prop where
  rings : u.rings = s.rings
  eds : u.eds = s.eds
  queue : ∀ q, q ≠ p → queueOf u e q = queueOf s e q
  ref : ∀ n, (tget u.refs.slots n).ref = (tget s.refs.slots n).ref
  clean : ∀ n, (tget s.refs.slots n).check = .clean → (tget u.refs.slots n).check = .clean

theorem ClearsAt.refl (e : EdId) (p : ProgId) (s : State) : ClearsAt e p s s :=
  ⟨rfl, rfl, fun _ _ => rfl, fun _ => rfl, fun _ h => h⟩

theorem ClearsAt.trans {e : EdId} {p : ProgId} {s u v : State} (h : ClearsAt e p s u) (g : ClearsAt e p u v) :
    ClearsAt e p s v where
  rings := g.rings.trans h.rings
  eds := g.eds.trans h.eds
  queue := fun q hq => (g.queue q hq).trans (h.queue q hq)
  ref := fun n => (g.ref n).trans (h.ref n)
  clean := fun n hn => g.clean n (h.clean n hn)

theorem discardStale_clearsAt (e : EdId) (p : ProgId) (n : EntryNo) (c : StaleCause) (s : State) :
    ClearsAt e p s (discardStale e p n c s) where
  rings := rfl
  eds := rfl
  queue := fun _ hq => (releaseRef_queue ..).trans (if_neg fun h => hq h.2)
  ref := fun _ => rfl
  clean := fun _ h => h

theorem handOver_clearsAt (e : EdId) (p : ProgId) (b : Report) (s : State) : ClearsAt e p s (handOver b s) where
  rings := handOver_rings b s
  eds := handOver_eds b s
  queue := fun q _ => queueOf_congr (handOver_refs b s) e q
  ref := fun n => by rw [handOver_refs]
  clean := fun n h => by rwa [handOver_refs]

theorem correction_clearsAt (e : EdId) (p : ProgId) (n : EntryNo) (s : State) :
    ClearsAt e p s (countRefs n (correctRef n s)) where
  rings := (countRefs_frame n _).rings_eq
  eds := (countRefs_frame n _).eds_eq
  queue := fun q _ => by rw [queueOf, countRefs_refs]; rfl
  ref := fun m => by
    simp only [countRefs_refs, correctRef, tget_tput]
    split
    · subst_vars; rfl
    · rfl
  clean := fun m h => by
    simp only [countRefs_refs, correctRef, tget_tput]
    split
    · rfl
    · exact h

/-- The head of queue (e,p), if it has one, is without storage error and passes the tests of a feed read at t (R75, R76). -/
def FreshAt (e : EdId) (t : HouseTime) (s : State) (p : ProgId) : Prop :=
  ∀ n rest, queueOf s e p = n :: rest →
    (tget s.refs.slots n).check = .clean ∧ staleCause s.rings (edOf s e).maxAge t (tget s.refs.slots n).ref = none

/-- A fresh head stays fresh while another queue is cleared. -/
theorem FreshAt.of_clearsAt {e : EdId} {t : HouseTime} {s u : State} {p q : ProgId} (h : FreshAt e t s q)
    (hc : ClearsAt e p s u) (hq : q ≠ p) : FreshAt e t u q := by
  intro n rest hn
  rw [hc.queue q hq] at hn
  obtain ⟨hclean, hnone⟩ := h n rest hn
  refine ⟨hc.clean n hclean, ?_⟩
  rw [hc.rings, edOf_congr hc.eds, hc.ref]
  exact hnone

/-- Clearing a queue leaves the others, and a fresh head or none. -/
theorem clearOne_says (e : EdId) (p : ProgId) (t : HouseTime) (s : State) :
    ClearsAt e p s (clearOne e p t s) ∧ FreshAt e t (clearOne e p t s) p := by
  induction hl : queueOf s e p generalizing s with
  | nil =>
    rw [clearOne_nil hl]
    exact ⟨.refl _ _ _, fun n rest hn => by simp [hl] at hn⟩
  | cons n rest ih =>
    -- a head without storage error is discarded or stays
    have clean : ∀ u : State, queueOf u e p = n :: rest → (tget u.refs.slots n).check = .clean →
        ClearsAt e p u (clearOne e p t u) ∧ FreshAt e t (clearOne e p t u) p := by
      intro u hu hc
      cases hcause : staleCause u.rings (edOf u e).maxAge t (tget u.refs.slots n).ref with
      | none =>
        rw [clearOne_fresh hu hc hcause]
        refine ⟨.refl _ _ _, fun m ms hm => ?_⟩
        cases hu.symm.trans hm
        exact ⟨hc, hcause⟩
      | some c =>
        rw [clearOne_stale hu hc hcause]
        obtain ⟨hclears, hfresh⟩ := ih _ (queueOf_discardStale_same c hu)
        exact ⟨(discardStale_clearsAt ..).trans hclears, hfresh⟩
    cases hc : (tget s.refs.slots n).check with
    | clean => exact clean s hl hc
    | single =>
      rw [clearOne_single hl hc]
      have hstep := correction_clearsAt e p n s
      have hr := countRefs_refs n (correctRef n s)
      obtain ⟨hclears, hfresh⟩ := clean (countRefs n (correctRef n s)) (by rw [queueOf, hr]; exact hl)
        (by rw [hr]; exact congrArg RefSlot.check (tget_tput_same _ _ _))
      exact ⟨hstep.trans hclears, hfresh⟩
    | double =>
      rw [clearOne_double hl hc]
      obtain ⟨hclears, hfresh⟩ := ih (handOver (.ecc .refstore .uncorrectable n.val) (discardStale e p n .ecc s))
        ((queueOf_congr (handOver_refs _ _) e p).trans (queueOf_discardStale_same _ hl))
      exact ⟨((discardStale_clearsAt ..).trans (handOver_clearsAt ..)).trans hclears, hfresh⟩

/-- Clearing some queues of an edition keeps its rings and records, and leaves a fresh head or none in each queue that is
cleared or had it before. -/
theorem clearing_says (e : EdId) (t : HouseTime) (l : List ProgId) (s : State) :
    let u := l.foldl (fun s p => clearOne e p t s) s
    u.rings = s.rings ∧ u.eds = s.eds ∧ ∀ q, q ∈ l ∨ FreshAt e t s q → FreshAt e t u q := by
  induction l generalizing s with
  | nil => exact ⟨rfl, rfl, fun q h => h.resolve_left (by simp)⟩
  | cons p l ih =>
    obtain ⟨hclears, hfresh⟩ := clearOne_says e p t s
    obtain ⟨hr, he, hq⟩ := ih (clearOne e p t s)
    refine ⟨hr.trans hclears.rings, he.trans hclears.eds, fun q h => hq q ?_⟩
    by_cases hp : q = p
    · exact .inr (hp ▸ hfresh)
    · rcases h with h | h
      · exact .inl ((List.mem_cons.1 h).resolve_left hp)
      · exact .inr (h.of_clearsAt hclears hp)

/-- Stale clearing of an edition leaves a fresh head or none in each of its queues. -/
theorem clearAll_says (e : EdId) (t : HouseTime) (s : State) :
    (clearAll e t s).rings = s.rings ∧ (clearAll e t s).eds = s.eds ∧ ∀ q, FreshAt e t (clearAll e t s) q := by
  obtain ⟨hr, he, hq⟩ := clearing_says e t (List.finRange 48) s
  rw [clearAll_eq]
  exact ⟨hr, he, fun q => hq q (.inl (List.mem_finRange q))⟩

/-- The discard of the head of a queue, with every field that it changes (R56, R82). -/
theorem discardStale_head {e : EdId} {p : ProgId} {n : EntryNo} {rest : List EntryNo} {s : State} (c : StaleCause)
    (hq : queueOf s e p = n :: rest) :
    discardStale e p n c s = modComp e (countStale c) { s with refs := { s.refs with
      queues := tput2 s.refs.queues e p rest, edCount := tput s.refs.edCount e (tget s.refs.edCount e - 1),
      pool := s.refs.pool - 1, free := s.refs.free ++ [n],
      scan := s.refs.scan.map fun sc => { sc with todo := sc.todo.erase n } } } := by
  rw [discardStale, releaseRef, tmodify2, show tget2 s.refs.queues e p = n :: rest from hq, List.erase_cons_head]
  rfl

/-- Settles O24: each head by its cause, and the heads that are left. -/
theorem staleClearingLeavesFreshHeads : Obligations.StaleClearingLeavesFreshHeads := by
  unfold Obligations.StaleClearingLeavesFreshHeads
  constructor
  · intro s e t q n rest u hq x R
    obtain ⟨hr, he, hfresh⟩ : u.rings = s.rings ∧ u.eds = s.eds ∧ ∀ q, FreshAt e t u q := clearAll_says e t s
    obtain ⟨hclean, hnone⟩ := hfresh q n rest hq
    rw [hr, edOf_congr he] at hnone
    obtain ⟨hen, hlap, hage⟩ := staleCause_none_iff.1 hnone
    exact ⟨hclean, hen, Nat.le_of_not_lt hlap, Nat.le_of_not_lt hage⟩
  · intro e t clear
    refine ⟨clearAll_eq e t, fun s p => ⟨clearOne_nil, ?_⟩⟩
    intro n rest hq slot x R gone discard lapped old g corrected
    have stale : ∀ c, slot.check = .clean → staleCause s.rings (edOf s e).maxAge t x = some c →
        clear p s = clear p (discard (countStale c)) :=
      fun c hc hs => (clearOne_stale hq hc hs).trans (congrArg _ (discardStale_head c hq))
    have single : ∀ u, slot.check = .single → countRefs n (correctRef n s) = u → clear p s = clear p u :=
      fun u hc hu => hu ▸ clearOne_single hq hc
    exact ⟨fun hc => (clearOne_double hq hc).trans (congrArg (fun v => clear p (handOver _ v)) (discardStale_head .ecc hq)),
      fun hc h0 => single _ hc (countRefs_off n rfl h0),
      fun hc h0 hb => single _ hc (countRefs_below n rfl h0 hb),
      fun hc h0 hr => single _ hc (countRefs_reached n rfl h0 hr),
      fun hc he => stale .ring hc (staleCause_ring he),
      fun hc he hl => stale .overwritten hc ((staleCause_of_enabled he).trans (if_pos hl)),
      fun hc he hl ho => stale .age hc ((staleCause_of_enabled he).trans ((if_neg hl).trans (if_pos ho))),
      fun hc he hl ho => clearOne_fresh hq hc (staleCause_none_iff.2 ⟨he, hl, ho⟩)⟩

end Sys2Proof.Machine
end

section
/-! SUPPORT. The purge of DISABLE RING: where its scan seeks, when it has passed the last queue, what a step makes of the entry it
reads, and how the purge ends. -/

namespace Sys2Proof.Machine

/-! ## Where a scan seeks (R58) -/

/-- The number of a queue, in which a scan stands (R58). -/
abbrev queueNo (e : EdId) (p : ProgId) : Nat := 48 * e.val + p.val

theorem queueNo_lt (e : EdId) (p : ProgId) : queueNo e p < 768 := by
  simp only [queueNo]
  omega

theorem queueAt_queueNo (r : RefStore) (e : EdId) (p : ProgId) : queueAt r (queueNo e p) = tget2 r.queues e p := by
  have he : (48 * e.val + p.val) / 48 = e.val := by omega
  have hp : (48 * e.val + p.val) % 48 = p.val := by omega
  simp only [queueAt, he, hp, index?_val]

/-- Every number below 768 is that of a queue. -/
theorem exists_queueNo {n : Nat} (h : n < 768) : ∃ e p, queueNo e p = n :=
  ⟨⟨n / 48, by omega⟩, ⟨n % 48, by omega⟩, by simp only [queueNo]; omega⟩

/-- No reference stands in a queue after number k. -/
def NoneAfter (r : RefStore) (k : Nat) : Prop := ∀ e p, k < queueNo e p → tget2 r.queues e p = []

theorem scanSeek_of_todo {r : RefStore} {sc : PurgeScan} (h : sc.todo ≠ []) : scanSeek r sc = some sc := if_pos h

/-- A scan past the last reference of its queue has passed the last queue when every later one is empty. -/
theorem scanSeek_eq_none {r : RefStore} {i : RingId} {k : Nat} :
    scanSeek r ⟨i, k, []⟩ = none ↔ NoneAfter r k := by
  simp only [scanSeek, ne_eq, not_true_eq_false, if_false, Option.map_eq_none_iff, List.find?_eq_none, List.mem_range',
    NoneAfter]
  constructor
  · intro h e p hk
    have hlt := queueNo_lt e p
    have := h (queueNo e p) ⟨queueNo e p - (k + 1), by omega, by omega⟩
    simpa [queueAt_queueNo] using this
  · rintro h n ⟨j, hj, rfl⟩
    obtain ⟨e, p, hn⟩ := exists_queueNo (n := k + 1 + 1 * j) (by omega)
    rw [← hn, queueAt_queueNo, h e p (by omega)]
    simp

/-- A scan past the last reference of its queue moves to the next queue that is not empty. -/
theorem scanSeek_next {r : RefStore} {i : RingId} {k : Nat} {e : EdId} {p : ProgId} (hk : k < queueNo e p)
    (hb : ∀ a b, k < queueNo a b → queueNo a b < queueNo e p → tget2 r.queues a b = [])
    (hq : tget2 r.queues e p ≠ []) :
    scanSeek r ⟨i, k, []⟩ = some ⟨i, queueNo e p, tget2 r.queues e p⟩ := by
  have hlt := queueNo_lt e p
  have hfind : (List.range' (k + 1) (767 - k)).find? (fun n => !(queueAt r n).isEmpty) = some (queueNo e p) := by
    rw [List.find?_range'_eq_some]
    refine ⟨by simpa [queueAt_queueNo] using hq, ?_, fun n hn hn' => ?_⟩
    · simp only [List.mem_range'_1]
      omega
    · obtain ⟨a, b, rfl⟩ := exists_queueNo (n := n) (by omega)
      simp [queueAt_queueNo, hb a b (by omega) hn']
  simp only [scanSeek, ne_eq, not_true_eq_false, if_false, hfind, Option.map_some, queueAt_queueNo]

/-! ## The end of a purge (R25, R94) -/

/-- The state once the scan of a purge has passed the last queue. -/
def scanDone (s : State) : State := { s with refs := { s.refs with scan := none } }

/-- A reference stands ahead of the scan of s, in its queue or in a later one (R58). -/
def ScanAhead (s : State) : Prop :=
  ∃ sc, s.refs.scan = some sc ∧ (sc.todo ≠ [] ∨ ¬NoneAfter s.refs sc.at_)

theorem advanceScan_of_ahead {s : State} (h : ScanAhead s) : advanceScan s = s := by
  obtain ⟨⟨i, k, todo⟩, hs, ha⟩ := h
  have : scanSeek s.refs ⟨i, k, todo⟩ ≠ none := by
    by_cases ht : todo = []
    · subst ht
      rw [ne_eq, scanSeek_eq_none]
      exact ha.resolve_left (by simp)
    · rw [scanSeek_of_todo ht]
      simp
  unfold advanceScan
  rw [hs, Option.bind_some]
  split
  · rfl
  · contradiction

theorem advanceScan_of_passed {s : State} (h : ¬ScanAhead s) : advanceScan s = scanDone s := by
  have : s.refs.scan.bind (scanSeek s.refs) = none := by
    cases hs : s.refs.scan with
    | none => rfl
    | some sc =>
      obtain ⟨i, k, todo⟩ := sc
      have ht : todo = [] := by
        by_contra ht
        exact h ⟨_, hs, .inl ht⟩
      subst ht
      exact scanSeek_eq_none.2 (by_contra fun hn => h ⟨_, hs, .inr hn⟩)
  unfold advanceScan
  rw [this]
  rfl

section
variable {s : State} {c : TakenCommand} {i : RingId} (hrun : s.cmd.running = some ⟨c, .purge i⟩)
include hrun

theorem purgeOver_iff : purgeOver s = true ↔ s.refs.scan = none ∧ (ringOf s i).readsInFlight = 0 := by
  unfold purgeOver
  rw [hrun]
  simp

/-- A purge with a reference ahead of its scan stays in flight. -/
theorem settlePurge_of_ahead (h : ScanAhead s) : settlePurge s = s ∧ endPurge s = s := by
  obtain ⟨sc, hs, -⟩ := id h
  have ho : ¬purgeOver s = true := by simp [purgeOver_iff hrun, hs]
  constructor
  · simp only [settlePurge, advanceScan_of_ahead h, if_neg ho]
  · simp only [endPurge, advanceScan_of_ahead h, if_neg ho]

/-- A purge with a delivery read in flight stays in flight past its scan (R94). -/
theorem settlePurge_of_reads (h : ¬ScanAhead s) (hr : (ringOf s i).readsInFlight ≠ 0) :
    settlePurge s = scanDone s ∧ endPurge s = scanDone s := by
  have ho : ¬purgeOver (scanDone s) = true := by
    rw [purgeOver_iff (s := scanDone s) hrun]
    exact fun h => hr h.2
  constructor
  · simp only [settlePurge, advanceScan_of_passed h, if_neg ho]
  · simp only [endPurge, advanceScan_of_passed h, if_neg ho]

/-- The state in which DISABLE RING has ended with DONE, before the waiting commands start. -/
def purgeEnded (c : TakenCommand) (s : State) : State :=
  handOver (.command c.code c.slot c.tag .done) { scanDone s with cmd := { s.cmd with running := none } }

/-- A purge past its scan without a delivery read in flight ends with DONE. -/
theorem settlePurge_of_over (h : ¬ScanAhead s) (hr : (ringOf s i).readsInFlight = 0) :
    settlePurge s = startWaiting (purgeEnded c s) ∧ endPurge s = purgeEnded c s := by
  have ho : purgeOver (scanDone s) = true := (purgeOver_iff (s := scanDone s) hrun).2 ⟨rfl, hr⟩
  have he : endRunning .done (scanDone s) = purgeEnded c s := by
    unfold endRunning
    rw [show (scanDone s).cmd.running = _ from hrun]
    rfl
  constructor
  · simp only [settlePurge, advanceScan_of_passed h, if_pos ho, finishRunning, he]
  · simp only [endPurge, advanceScan_of_passed h, if_pos ho, he]

end

end Sys2Proof.Machine
end

section
/-! SUPPORT. The pieces of a purge: its start, the steps of its scan, and the returns of its delivery reads. -/

namespace Sys2Proof.Machine

theorem scanDone_of_none {s : State} (h : s.refs.scan = none) : scanDone s = s := by
  unfold scanDone
  rw [← h]

/-! ## The start of a purge (R24, R25, R26) -/

/-- The purge of ring i as it starts, before its scan is judged. -/
def purgeStarts (c : TakenCommand) (i : RingId) (s : State) : State :=
  { modRing i (fun r => { r with enabled := false }) { s with down := killIngest i s.down } with
    refs := { s.refs with scan := some ⟨i, 0, queueOf s 0 0⟩ }, cmd := { s.cmd with running := some ⟨c, .purge i⟩ } }

theorem ringOf_purgeStarts (c : TakenCommand) (i : RingId) (s : State) :
    ringOf (purgeStarts c i s) i = { ringOf s i with enabled := false } :=
  ringOf_modRing_same s i fun r => { r with enabled := false }

/-- DISABLE RING of an enabled ring on an idle command unit starts the purge, and judges at once whether it has ended. -/
theorem exec_disableRing {s : State} {i : RingId} {ring : BitVec 8} (h : CmdHeader) (hs : CmdIdle s)
    (hi : i.val = ring.toNat) (he : (ringOf s i).enabled = true) :
    exec (.disableRing h ring) s = .next (endPurge (purgeStarts (takenRow h (.disableRing ring)) i s)) := by
  have hact : runAct h.tag (.disableRing ring) s = .inFlight (.purge i)
      { modRing i (fun r => { r with enabled := false }) { s with down := killIngest i s.down } with
        refs := { s.refs with scan := some ⟨i, 0, queueOf s 0 0⟩ } } := by
    show doDisableRing ring s = _
    simp only [doDisableRing, index?_eq_some.2 hi, he]
    rfl
  have hstart : startCommand (takenRow h (.disableRing ring)) s = purgeStarts (takenRow h (.disableRing ring)) i s := by
    simp only [startCommand, takenRow, hact]
    rfl
  show takeRow h (.disableRing ring) s = _
  rw [takeRow, takeCommand, hs.1, hstart]

/-- A purge that starts has a reference ahead of its scan when the store holds one. -/
theorem scanAhead_purgeStarts {c : TakenCommand} {i : RingId} {s : State} :
    ScanAhead (purgeStarts c i s) ↔ ∃ e p, queueOf s e p ≠ [] := by
  constructor
  · rintro ⟨sc, hs, hsc⟩
    cases hs
    rcases hsc with h | h
    · exact ⟨0, 0, h⟩
    · simp only [NoneAfter, not_forall] at h
      obtain ⟨e, p, -, h⟩ := h
      exact ⟨e, p, h⟩
  · rintro ⟨e, p, h⟩
    refine ⟨_, rfl, ?_⟩
    by_cases h0 : queueNo e p = 0
    · obtain rfl : e = 0 := Fin.ext (by simp only [queueNo] at h0; simp; omega)
      obtain rfl : p = 0 := Fin.ext (by simp only [queueNo] at h0; simp; omega)
      exact .inl h
    · exact .inr fun hn => h (hn e p (Nat.pos_of_ne_zero h0))

/-! ## A step of the scan (R58, R59, R60) -/

/-- The scan of a purge at a place. -/
def withScan (sc : PurgeScan) (s : State) : State := { s with refs := { s.refs with scan := some sc } }

/-- What a step of the scan does with the entry it has read: a reference of the ring being purged is released. -/
def releaseOwn (i : RingId) (e : EdId) (p : ProgId) (n : EntryNo) : State × Option Reference → State
  | (s, some x) => if x.ring = i then { s with refs := releaseRef e p n s.refs } else s
  | (s, none) => s

/-- A step reads the reference at which the scan stands, and releases its own. -/
theorem scanStep_eq {s : State} {i : RingId} {e : EdId} {p : ProgId} {n : EntryNo} {rest : List EntryNo}
    (h : s.refs.scan.bind (scanSeek s.refs) = some ⟨i, queueNo e p, n :: rest⟩) :
    scanStep s = releaseOwn i e p n (readRef e p n (withScan ⟨i, queueNo e p, rest⟩ s)) := by
  have he : index? 16 ((48 * e.val + p.val) / 48) = some e := index?_eq_some.2 (by omega)
  have hp : index? 48 ((48 * e.val + p.val) % 48) = some p := index?_eq_some.2 (by omega)
  unfold scanStep
  rw [h]
  simp only [he, hp]
  rfl

theorem exec_purgeScanStep (s : State) : exec (.purgeScanStep []) s = .next (settlePurge (scanStep s)) := rfl

/-- A release of a reference that the scan has not still to meet leaves the scan as it is. -/
theorem releaseRef_of_not_mem {e : EdId} {p : ProgId} {n : EntryNo} {r : RefStore} {sc : PurgeScan}
    (hs : r.scan = some sc) (hn : n ∉ sc.todo) :
    releaseRef e p n r =
      { r with
        queues := tput2 r.queues e p ((tget2 r.queues e p).erase n), edCount := tput r.edCount e (tget r.edCount e - 1),
        pool := r.pool - 1, free := r.free ++ [n] } := by
  have : r.scan.map (fun sc => { sc with todo := sc.todo.erase n }) = r.scan := by
    rw [hs, Option.map_some, List.erase_of_not_mem hn]
  unfold releaseRef
  rw [this]
  rfl

/-- From s to u the scan comes to stand at sc, and no queue but (e,p) changes. -/
structure ScansTo (e : EdId) (p : ProgId) (sc : PurgeScan) (s u : State) : Prop where
  scan : u.refs.scan = some sc
  queue : ∀ a b, ¬(a = e ∧ b = p) → queueOf u a b = queueOf s a b

section
variable {e : EdId} {p : ProgId} {sc : PurgeScan} {s u : State}

theorem ScansTo.congr {v : State} (h : ScansTo e p sc s u) (hs : v.refs.scan = u.refs.scan)
    (hq : v.refs.queues = u.refs.queues) : ScansTo e p sc s v where
  scan := hs.trans h.scan
  queue := fun a b hab => by rw [queueOf, hq]; exact h.queue a b hab

theorem ScansTo.release {n : EntryNo} (h : ScansTo e p sc s u) (hn : n ∉ sc.todo) :
    ScansTo e p sc s { u with refs := releaseRef e p n u.refs } where
  scan := by rw [releaseRef_of_not_mem h.scan hn]; exact h.scan
  queue := fun a b hab => ((releaseRef_queue ..).trans (if_neg hab)).trans (h.queue a b hab)

theorem ScansTo.readRef {n : EntryNo} (h : ScansTo e p sc s u) (hn : n ∉ sc.todo) :
    ScansTo e p sc s (readRef e p n u).1 := by
  cases hc : (tget u.refs.slots n).check with
  | clean => rwa [readRef_clean hc]
  | single =>
    rw [readRef_single hc]
    exact h.congr (by rw [countRefs_refs]; rfl) (by rw [countRefs_refs]; rfl)
  | double =>
    rw [readRef_double hc]
    exact (h.release hn).congr (by rw [handOver_refs]; rfl) (by rw [handOver_refs]; rfl)

/-- A step of the scan passes the reference it reads, and changes no other queue. -/
theorem scanStep_scansTo {i : RingId} {n : EntryNo} {rest : List EntryNo}
    (h : s.refs.scan.bind (scanSeek s.refs) = some ⟨i, queueNo e p, n :: rest⟩) (hn : n ∉ rest) :
    ScansTo e p ⟨i, queueNo e p, rest⟩ s (scanStep s) := by
  have hread := ScansTo.readRef (e := e) (p := p) (n := n) (sc := ⟨i, queueNo e p, rest⟩) (s := s)
    (u := withScan ⟨i, queueNo e p, rest⟩ s) ⟨rfl, fun _ _ _ => rfl⟩ hn
  rw [scanStep_eq h]
  generalize Machine.readRef e p n (withScan ⟨i, queueNo e p, rest⟩ s) = r at hread ⊢
  obtain ⟨v, x⟩ := r
  cases x with
  | none => exact hread
  | some x =>
    simp only [releaseOwn]
    split
    · exact hread.release hn
    · exact hread

end

/-! ## The return of a delivery read during a purge (R94) -/

/-- What the return of a delivery read does before the purge is judged. -/
def readBack (e : EdId) (j : RingId) (live : Bool) (rsp : Response) (rest : List DownReq) (s : State) : State :=
  if live then deliveryReturned e rsp (readReturned j { s with down := rest })
  else readReturned j { s with down := rest }

theorem exec_deliveryReadCompletion {s : State} {e : EdId} {j : RingId} {live : Bool} {q : Request} {rest : List DownReq}
    (h : takeOldest (Config.deliveryTag e) s.down = some (⟨.delivery e j live, q⟩, rest)) (rsp : Response) :
    exec (.deliveryReadCompletion e rsp) s = .next (settlePurge (readBack e j live rsp rest s)) := by
  show Host.Outcome.next (respond _ rsp s) = _
  simp only [respond, h, readBack]

theorem readBack_frame (e : EdId) (j : RingId) (live : Bool) (rsp : Response) (rest : List DownReq) (s : State) :
    Frame [.down, .rings, .dlv, .path] s (readBack e j live rsp rest s) := by
  have h : Frame [.down, .rings] s (readReturned j { s with down := rest }) :=
    (frame_down s rest).andThen (readReturned_frame j _)
  unfold readBack
  split
  · exact h.andThen (deliveryReturned_frame _ _ _)
  · exact h.mono

/-- The delivery unit does not look at the command unit. -/
theorem finish_withCmd (e : EdId) (s : State) (x : CommandUnit) :
    finish e { s with cmd := x } = { finish e s with cmd := x } := by
  have hand : ∀ (l : List (List Byte)) (u : State),
      l.foldl (fun s cells => readyFeed e cells s) { u with cmd := x } =
        { l.foldl (fun s cells => readyFeed e cells s) u with cmd := x } := by
    intro l
    induction l with
    | nil => exact fun u => rfl
    | cons cells l ih => exact fun u => ih (readyFeed e cells u)
  exact hand _ (modFeed e _ s)

theorem readBack_withCmd (e : EdId) (j : RingId) (live : Bool) (rsp : Response) (rest : List DownReq) (s : State)
    (x : CommandUnit) :
    readBack e j live rsp rest { s with cmd := x } = { readBack e j live rsp rest s with cmd := x } := by
  have hret : ∀ u : State, deliveryReturned e rsp { u with cmd := x } = { deliveryReturned e rsp u with cmd := x } := by
    intro u
    unfold deliveryReturned
    rw [show feedOf { u with cmd := x } e = feedOf u e from rfl]
    split
    · rfl
    · split
      · rfl
      · exact finish_withCmd e (modFeed e _ u) x
  cases live with
  | false => rfl
  | true => exact hret (readReturned j { s with down := rest })

end Sys2Proof.Machine
end

section
/-! SUPPORT. DISABLE RING as a whole: its start, the returns and the scan steps while its purge is in flight. -/

namespace Sys2Proof.Machine

/-- A command row that ends at a check changes nothing but its COMMAND report. -/
theorem exec_disableRing_refused {s : State} {ring : BitVec 8} {o : CmdOutcome} (h : CmdHeader) (hs : CmdIdle s)
    (ha : doDisableRing ring s = .done o s) : exec (.disableRing h ring) s = .next (handOver (ended h 5 o) s) :=
  takeRow_done (c := .disableRing ring) hs nofun ha hs.2

theorem doDisableRing_of_range {s : State} {ring : BitVec 8} (h : 32 ≤ ring.toNat) :
    doDisableRing ring s = .done .range s := by
  rw [doDisableRing, index?_eq_none.2 h]

theorem doDisableRing_of_disabled {s : State} {ring : BitVec 8} {i : RingId} (hi : i.val = ring.toNat)
    (he : (ringOf s i).enabled = false) : doDisableRing ring s = .done .state s := by
  simp [doDisableRing, index?_eq_some.2 hi, he]

/-- A purge with nothing to do ends as it starts, and leaves the store and the command unit as they were. -/
theorem purgeEnded_purgeStarts {s : State} (h : CmdHeader) (c : Command) (i : RingId) (hs : CmdIdle s) :
    purgeEnded (takenRow h c) (purgeStarts (takenRow h c) i s) = handOver (ended h (commandCode c) .done)
      (modRing i (fun r => { r with enabled := false }) { s with down := killIngest i s.down }) := by
  have hrefs : { s.refs with scan := none } = s.refs := by rw [← hs.2]
  have hcmd : { s.cmd with running := none } = s.cmd := by rw [← hs.1]
  unfold purgeEnded
  congr 1
  show { purgeStarts (takenRow h c) i s with refs := { s.refs with scan := none }, cmd := { s.cmd with running := none } } = _
  rw [hrefs, hcmd]
  rfl

/-- What the start of a purge leaves while it stays in flight, whether its scan has passed the store or not. -/
theorem purgeStarts_says {s : State} {c : TakenCommand} {i : RingId} (hs : s.refs.scan = none) (sc : Option PurgeScan) :
    let t : State := { purgeStarts c i s with refs := { s.refs with scan := sc } }
    t.rings = (modRing i (fun r => { r with enabled := false }) s).rings ∧ t.down = killIngest i s.down ∧
      t.cmd.queue = s.cmd.queue ∧ t.cmd.running = some ⟨c, .purge i⟩ ∧ { t.refs with scan := none } = s.refs ∧
      t.refs.scan = sc ∧ Frame [.rings, .down, .refs, .cmd] s t := by
  refine ⟨rfl, rfl, rfl, rfl, ?_, rfl, ?_⟩
  · show { s.refs with scan := none } = s.refs
    rw [← hs]
  · constructor <;> first | exact .inr rfl | exact .inl (by decide)

/-- The row of DISABLE RING on an idle command unit (R24, R25, R26). -/
theorem disableRing_starts {s : State} (h : CmdHeader) {ring : BitVec 8} {i : RingId} (hs : CmdIdle s)
    (hi : i.val = ring.toNat) (he : (ringOf s i).enabled = true) :
    let row := exec (.disableRing h ring) s
    (((ringOf s i).readsInFlight ≠ 0 ∨ ∃ e p, queueOf s e p ≠ []) →
        ∃ t, row = .next t ∧ t.rings = (modRing i (fun r => { r with enabled := false }) s).rings ∧
          t.down = killIngest i s.down ∧ t.cmd.queue = s.cmd.queue ∧
          t.cmd.running = some ⟨takenRow h (.disableRing ring), .purge i⟩ ∧ { t.refs with scan := none } = s.refs ∧
          ((∀ e p, queueOf s e p = []) → t.refs.scan = none) ∧
          ((∃ e p, queueOf s e p ≠ []) → t.refs.scan = some { ring := i, at_ := 0, todo := queueOf s 0 0 }) ∧
          Frame [.rings, .down, .refs, .cmd] s t) ∧
      ((ringOf s i).readsInFlight = 0 → (∀ e p, queueOf s e p = []) →
        row = .next (handOver (ended h 5 .done)
          (modRing i (fun r => { r with enabled := false }) { s with down := killIngest i s.down }))) := by
  intro row
  let c := takenRow h (.disableRing ring)
  let u := purgeStarts c i s
  have hrow : row = .next (endPurge u) := exec_disableRing h hs hi he
  have hrun : u.cmd.running = some ⟨c, .purge i⟩ := rfl
  have hreads : (ringOf u i).readsInFlight = (ringOf s i).readsInFlight := by
    simp only [u, ringOf_purgeStarts]
  refine ⟨fun hbusy => ?_, fun hr hq => ?_⟩
  · by_cases hq : ∃ e p, queueOf s e p ≠ []
    · have hrow := hrow.trans (congrArg _ (settlePurge_of_ahead hrun (scanAhead_purgeStarts.2 hq)).2)
      obtain ⟨h1, h2, h3, h4, h5, hscan, hf⟩ := purgeStarts_says (c := c) (i := i) hs.2 u.refs.scan
      exact ⟨u, hrow, h1, h2, h3, h4, h5, fun hn => absurd hq (by simpa using hn), fun _ => hscan, hf⟩
    · have hr : (ringOf u i).readsInFlight ≠ 0 := hreads ▸ hbusy.resolve_right hq
      have hrow := hrow.trans (congrArg _ (settlePurge_of_reads hrun (mt scanAhead_purgeStarts.1 hq) hr).2)
      obtain ⟨h1, h2, h3, h4, h5, hscan, hf⟩ := purgeStarts_says (c := c) (i := i) hs.2 none
      exact ⟨scanDone u, hrow, h1, h2, h3, h4, h5, fun _ => hscan, fun h => absurd h hq, hf⟩
  · have hq : ¬ScanAhead u := mt scanAhead_purgeStarts.1 (by simpa using hq)
    rw [hrow, (settlePurge_of_over hrun hq (hreads.trans hr)).2]
    exact congrArg _ (purgeEnded_purgeStarts h (.disableRing ring) i hs)

/-- The return of a delivery read after the scan of a purge: the delivery unit first, then the end of the purge if it was the
last one (R94). -/
theorem deliveryReturn_settles {s : State} {c : TakenCommand} {i j : RingId} {e : EdId} {live : Bool} {rsp : Response}
    {q : Request} {rest : List DownReq} (hrun : s.cmd.running = some ⟨c, .purge i⟩) (hscan : s.refs.scan = none)
    (hold : takeOldest (Config.deliveryTag e) s.down = some (⟨.delivery e j live, q⟩, rest)) :
    ∃ t, exec (.deliveryReadCompletion e rsp) { s with cmd := { running := none, queue := [] } } = .next t ∧
      ((ringOf t i).readsInFlight ≠ 0 → exec (.deliveryReadCompletion e rsp) s = .next { t with cmd := s.cmd }) ∧
      ((ringOf t i).readsInFlight = 0 → exec (.deliveryReadCompletion e rsp) s = .next
        (startWaiting (handOver (.command c.code c.slot c.tag .done)
          { t with cmd := { running := none, queue := s.cmd.queue } }))) := by
  let v := readBack e j live rsp rest s
  have hv : Frame [.down, .rings, .dlv, .path] s v := readBack_frame ..
  have hcmd : v.cmd = s.cmd := hv.cmd_eq
  have hvscan : v.refs.scan = none := hv.refs_eq ▸ hscan
  have hvrun : v.cmd.running = some ⟨c, .purge i⟩ := hcmd ▸ hrun
  have hrow : exec (.deliveryReadCompletion e rsp) s = .next (settlePurge v) := exec_deliveryReadCompletion hold rsp
  have hpassed : ¬ScanAhead v := by
    rintro ⟨sc, hs, -⟩
    rw [hvscan] at hs
    cases hs
  refine ⟨{ v with cmd := { running := none, queue := [] } }, ?_, fun hr => ?_, fun hr => ?_⟩
  · rw [exec_deliveryReadCompletion (s := { s with cmd := { running := none, queue := [] } }) hold, readBack_withCmd]
    exact congrArg _ (settlePurge_of_noPurge ⟨hvscan, fun _ _ => nofun⟩)
  · rw [hrow, (settlePurge_of_reads hvrun hpassed hr).1, scanDone_of_none hvscan, ← hcmd]
  · rw [hrow, (settlePurge_of_over hvrun hpassed hr).1, purgeEnded, scanDone_of_none hvscan, hcmd]

/-- A step of the scan past the last reference of its queue is the step at the head of the next queue that is not empty. -/
theorem scanStep_next {s : State} {i : RingId} {k : Nat} {e : EdId} {p : ProgId} {n : EntryNo} {rest : List EntryNo}
    (hs : s.refs.scan = some ⟨i, k, []⟩) (hk : k < queueNo e p)
    (hb : ∀ a b, k < queueNo a b → queueNo a b < queueNo e p → queueOf s a b = []) (hq : queueOf s e p = n :: rest) :
    scanStep s = scanStep (withScan ⟨i, queueNo e p, n :: rest⟩ s) := by
  have hseek : s.refs.scan.bind (scanSeek s.refs) = some ⟨i, queueNo e p, n :: rest⟩ := by
    have hq : tget2 s.refs.queues e p = n :: rest := hq
    rw [hs, Option.bind_some, scanSeek_next hk hb (by simp [hq]), hq]
  rw [scanStep_eq hseek, scanStep_eq (s := withScan ⟨i, queueNo e p, n :: rest⟩ s) (scanSeek_of_todo (by simp))]
  rfl

/-- The end of a scan step of a purge: the purge goes on, or ends with the last reference scanned and no delivery read in flight
(R25, R58). -/
theorem scanStep_settles {s u : State} {c : TakenCommand} {i : RingId} {e : EdId} {p : ProgId} {n : EntryNo}
    {rest : List EntryNo} (hrun : s.cmd.running = some ⟨c, .purge i⟩)
    (hs : s.refs.scan = some ⟨i, queueNo e p, n :: rest⟩) (hn : n ∉ rest) (hu : scanStep s = u) :
    let passed := rest = [] ∧ ∀ a b, queueNo e p < queueNo a b → queueOf s a b = []
    (¬passed → exec (.purgeScanStep []) s = .next u) ∧
      (passed → (ringOf s i).readsInFlight = 0 → exec (.purgeScanStep []) s = .next
        (startWaiting (handOver (.command c.code c.slot c.tag .done)
          { u with refs := { u.refs with scan := none }, cmd := { running := none, queue := s.cmd.queue } }))) ∧
      (passed → (ringOf s i).readsInFlight ≠ 0 →
        exec (.purgeScanStep []) s = .next { u with refs := { u.refs with scan := none } }) := by
  intro passed
  have hseek : s.refs.scan.bind (scanSeek s.refs) = some ⟨i, queueNo e p, n :: rest⟩ := by
    rw [hs]
    exact scanSeek_of_todo (by simp)
  obtain ⟨hscan, hqueue⟩ := hu ▸ scanStep_scansTo hseek hn
  have hframe : Frame [.refs, .comp, .down, .rep] s u := hu ▸ scanStep_frame s
  have hring : ringOf u i = ringOf s i := ringOf_congr hframe.rings_eq i
  have hurun : u.cmd.running = some ⟨c, .purge i⟩ := hframe.cmd_eq ▸ hrun
  have hrow : exec (.purgeScanStep []) s = .next (settlePurge u) := hu ▸ exec_purgeScanStep s
  have hafter : NoneAfter u.refs (queueNo e p) ↔ ∀ a b, queueNo e p < queueNo a b → queueOf s a b = [] := by
    refine forall_congr' fun a => forall_congr' fun b => imp_congr_right fun hab => ?_
    rw [← hqueue a b (by rintro ⟨rfl, rfl⟩; omega)]
    rfl
  have hahead : ScanAhead u ↔ ¬passed := by
    have : ScanAhead u ↔ rest ≠ [] ∨ ¬NoneAfter u.refs (queueNo e p) := by simp [ScanAhead, hscan]
    rw [this, hafter, ← not_and_or]
  refine ⟨fun h => ?_, fun h hr => ?_, fun h hr => ?_⟩
  · rw [hrow, (settlePurge_of_ahead hurun (hahead.2 h)).1]
  · rw [hrow, (settlePurge_of_over hurun (fun ha => hahead.1 ha h) (hring ▸ hr)).1, purgeEnded, hframe.cmd_eq]
    rfl
  · rw [hrow, (settlePurge_of_reads hurun (fun ha => hahead.1 ha h) (hring ▸ hr)).1]
    rfl

/-- Settles O51: the start, the returns, the scan's way to the next queue, and its steps by what the check of the entry finds. -/
theorem disableRingPurges : Obligations.DisableRingPurges := by
  unfold Obligations.DisableRingPurges
  refine ⟨fun s h ring hs => ⟨fun hr => exec_disableRing_refused h hs (doDisableRing_of_range hr), fun i hi => ⟨fun he =>
      exec_disableRing_refused h hs (doDisableRing_of_disabled hi he), fun he => (disableRing_starts h hs hi he).1,
      fun he => (disableRing_starts h hs hi he).2⟩⟩,
    fun s c i j e live rsp q rest hrun hscan hold => deliveryReturn_settles hrun hscan hold,
    fun s us => rfl,
    fun s i k e p n rest hs hk hb hq => congrArg (fun u => Host.Outcome.next (settlePurge u)) (scanStep_next hs hk hb hq),
    ?_⟩
  intro s c i e p n rest hrun hs hn slot r gone compared g corrected passed becomes
  have settles : ∀ u, scanStep s = u → becomes u := fun u hu => scanStep_settles hrun hs hn hu
  have step : scanStep s = releaseOwn i e p n (readRef e p n { s with refs := r }) :=
    scanStep_eq (by rw [hs]; exact scanSeek_of_todo (by simp))
  have compares : ∀ v : State, v.refs.scan = r.scan → releaseOwn i e p n (v, some slot.ref) = compared v := by
    intro v hv
    simp only [releaseOwn, compared]
    rw [releaseRef_of_not_mem hv hn]
  have single : ∀ v : State, slot.check = .single → countRefs n (correctRef n { s with refs := r }) = v →
      v.refs.scan = r.scan → becomes (compared v) := by
    intro v hc hv hscan
    refine settles _ ?_
    rw [step, readRef_single (s := { s with refs := r }) hc, hv]
    exact compares v hscan
  refine ⟨fun hc => settles _ ?_, fun hc h0 => single _ hc (countRefs_off n rfl h0) rfl,
    fun hc h0 hb => single _ hc (countRefs_below n rfl h0 hb) rfl,
    fun hc h0 hr => single _ hc (countRefs_reached n rfl h0 hr) (by rw [handOver_refs]), fun hc => settles _ ?_⟩
  · rw [step, readRef_clean (s := { s with refs := r }) hc]
    exact compares _ rfl
  · rw [step, readRef_double (s := { s with refs := r }) hc]
    simp only [releaseOwn, discardStale]
    rw [releaseRef_of_not_mem (r := r) rfl hn]
    rfl

end Sys2Proof.Machine
end

section
/-! SUPPORT. House time: what elapsed ticks make of a ring record and of an edition record (R32, R156, R165). -/

namespace Sys2Proof.Machine

/-- Elapsed ticks count in the quiet time of an enabled ring (R32). -/
@[simp] theorem ringOf_elapse (n : Nat) (s : State) (i : RingId) :
    ringOf (elapse n s) i =
      if (ringOf s i).enabled then { ringOf s i with quiet := (ringOf s i).quiet + n } else ringOf s i :=
  tget_tmap ..

/-- Elapsed ticks count in the idle time of a LIVE edition (R156). -/
@[simp] theorem edOf_elapse (n : Nat) (s : State) (e : EdId) :
    edOf (elapse n s) e =
      if (edOf s e).state = .live then { edOf s e with idle := (edOf s e).idle + n } else edOf s e :=
  tget_tmap ..

theorem referenceEdge_of_locked {s : State} (h : s.time.ref = .locked) :
    referenceEdge s = elapse 1 { s with time := { s.time with periods := 0 } } := by
  simp only [referenceEdge, h]

theorem referenceEdge_of_holdover {s : State} (h : s.time.ref = .holdover) :
    referenceEdge s =
      handOver (.time .referenceRestored) (elapse 1 { s with time := { s.time with ref := .locked, periods := 0 } }) := by
  simp only [referenceEdge, h]

/-- Ticks that elapse after a change of the time unit touch the time unit, the rings and the editions only. -/
theorem elapse_withTime_frame (n : Nat) (u : TimeUnit) (s : State) :
    Frame [.time, .rings, .eds] s (elapse n { s with time := u }) :=
  (frame_time s u).andThen (elapse_frame n _)

/-- Settles O43: an edge in LOCKED and a period in HOLDOVER are each one elapsed tick. -/
theorem ticksElapse : Obligations.TicksElapse := by
  unfold Obligations.TicksElapse
  intro s ticked
  refine ⟨fun h => ⟨_, congrArg Host.Outcome.next (referenceEdge_of_locked h), ?_⟩, fun h => ⟨elapse 1 s, ?_, ?_⟩, fun h => ?_⟩
  · exact ⟨rfl, rfl, rfl, rfl, rfl, fun i => ringOf_elapse .., fun e => edOf_elapse .., elapse_withTime_frame ..⟩
  · show execOscillatorPeriodEnd s = _
    simp only [execOscillatorPeriodEnd, h]
  · exact ⟨rfl, rfl, rfl, rfl, rfl, fun i => ringOf_elapse .., fun e => edOf_elapse .., elapse_frame ..⟩
  · show execOscillatorPeriodEnd s = _
    simp only [execOscillatorPeriodEnd, h, Config.lossPeriods]

/-- Settles O44: the state before each report is that of the elapsed ticks. -/
theorem referenceIsLostAndRestored : Obligations.ReferenceIsLostAndRestored := by
  unfold Obligations.ReferenceIsLostAndRestored
  intro s after
  have ticks : ∀ n u, after n (elapse n { s with time := u }).time (elapse n { s with time := u }) := fun n u =>
    ⟨rfl, rfl, fun i => ringOf_elapse .., fun e => edOf_elapse .., rfl⟩
  refine ⟨fun h hp => ⟨elapse 20 { s with time := { s.time with ref := .holdover } }, ticks .., elapse_withTime_frame .., ?_⟩,
    fun h => ⟨_, ticks .., elapse_withTime_frame .., congrArg Host.Outcome.next (referenceEdge_of_holdover h)⟩⟩
  exact if_pos ⟨h, hp⟩

end Sys2Proof.Machine
end

section
/-! SUPPORT. Ingest rings and source protection: the checks of SET RING, the changes of a ring's silence state, and the
protection settings. -/

namespace Sys2Proof.Machine

/-! ## Source protection (R36) -/

/-- Settles O50: the setting is written where every index names something and the rings differ. -/
theorem protectionIsSetAndCleared : Obligations.ProtectionIsSetAndCleared := by
  unfold Obligations.ProtectionIsSetAndCleared
  intro s h pr vr mn bk hs put
  have set : ∀ {o u}, doSetProtection pr vr mn bk s = .done o u → u.refs.scan = none →
      exec (.setProtection h pr vr mn bk) s = .next (handOver (ended h 6 o) u) :=
    fun ha hu => takeRow_done (c := .setProtection pr vr mn bk) hs nofun ha hu
  have clear : ∀ {o u}, doClearProtection pr vr s = .done o u → u.refs.scan = none →
      exec (.clearProtection h pr vr) s = .next (handOver (ended h 6 o) u) :=
    fun ha hu => takeRow_done (c := .clearProtection pr vr) hs nofun ha hu
  refine ⟨fun hbad => set ?_ hs.2, fun hbad => clear ?_ hs.2, fun p v hp hv => ⟨clear ?_ hs.2, fun m b hm hb hmb =>
    set ?_ hs.2⟩⟩
  · unfold doSetProtection
    split
    · rename_i p v m b hp hv hm hb
      rw [index?_eq_some] at hp hv hm hb
      have hsame : mn = bk := by
        rcases hbad with h | h | h | h | hsame
        iterate 4 omega
        exact hsame
      exact if_pos (Fin.ext (by rw [hm, hb, hsame]))
    · rfl
  · unfold doClearProtection
    split
    · rename_i p v hp hv
      rw [index?_eq_some] at hp hv
      omega
    · rfl
  · simp only [doClearProtection, index?_eq_some.2 hp, index?_eq_some.2 hv]
    rfl
  · simp only [doSetProtection, index?_eq_some.2 hp, index?_eq_some.2 hv, index?_eq_some.2 hm, index?_eq_some.2 hb,
      if_neg hmb]
    rfl

/-! ## The silence state (R33, R34, R35) -/

/-- Two changes of a ring record are one change of it. -/
theorem modRing_modRing (i : RingId) (f g : RingRecord → RingRecord) (s : State) :
    modRing i g (modRing i f s) = modRing i (fun r => g (f r)) s := by
  simp [modRing, tmodify]

/-- A change of the silence state ends the run and is reported with W. -/
theorem silenceChange_eq (i : RingId) (st : Silence) (s : State) :
    silenceChange i st s =
      handOver (.ring i st (ringOf s i).w) (modRing i (fun r => { r with silence := st, run := 0 }) s) := by
  simp [silenceChange]

theorem silenceTicks_eq (r : RingRecord) : silenceTicks r = r.silenceMs * 20000 := rfl

section
variable {i : RingId} {s : State}

/-- The quiet time of an enabled ring has run out (R32). -/
theorem execSilenceExpiry_of_due (he : (ringOf s i).enabled = true)
    (hd : (ringOf s i).silenceMs * 20000 ≤ (ringOf s i).quiet) : exec (.silenceExpiry i) s = .next (silenceExpires i s) :=
  if_pos (by simp [silenceDue, he, silenceTicks_eq, hd])

theorem applyTiming_of_active (ha : (ringOf s i).silence = .active) :
    applyTiming i s =
      if (ringOf s i).silenceMs * 20000 ≤ (ringOf s i).quiet then silenceChange i .silent s else s := by
  simp [applyTiming, ha, silenceTicks_eq]

theorem applyTiming_of_silent (ha : (ringOf s i).silence = .silent) :
    applyTiming i s =
      if 0 < (ringOf s i).run ∧ (ringOf s i).silenceMs * 20000 ≤ (ringOf s i).quiet then
        modRing i (fun r => { r with run := 0 }) s
      else if (ringOf s i).restore ≤ (ringOf s i).run then silenceChange i .active s
      else s := by
  simp [applyTiming, ha, silenceTicks_eq]

end

/-! ## SET RING (R22, R23) -/

/-- A silence time or a restore count out of its range (R22, R23). -/
abbrev BadTiming (sil : BitVec 16) (res : BitVec 8) : Prop := sil.toNat = 0 ∨ 1000 < sil.toNat ∨ res.toNat = 0

theorem not_timingInRange_iff {sil : BitVec 16} {res : BitVec 8} : ¬timingInRange sil res = true ↔ BadTiming sil res := by
  simp only [timingInRange, decide_eq_true_iff, BadTiming]
  omega

/-- Everything SET RING can come to for a ring that exists, by its checks in their order. -/
theorem doSetRing_eq {ring : BitVec 8} {i : RingId} (hi : i.val = ring.toNat) (sil : BitVec 16) (res : BitVec 8) (b : Addr)
    (n : BitVec 32) (s : State) :
    doSetRing ring sil res b n s =
      if n.toNat < 16 ∨ 65536 < n.toNat ∨ b.toNat % 4096 ≠ 0 ∨ 2 ^ 40 < b.toNat + n.toNat * 224 ∨ BadTiming sil res then
        .done .range s
      else if (ringOf s i).enabled = true then .done .state s
      else if meetsRing s b.toNat (n.toNat * 224) (some i) = true ∨ meetsFeed s b.toNat (n.toNat * 224) none = true ∨
          meetsControl s b.toNat (n.toNat * 224) = true then .done .overlap s
      else .done .done (modRing i (enableRing sil res b n) s) := by
  unfold doSetRing
  rw [index?_eq_some.2 hi]
  exact if_congr (by rw [not_timingInRange_iff]; rfl) rfl rfl

/-- Everything SET RING with TIMING ONLY can come to for a ring that exists. -/
theorem doSetRingTimingOnly_eq {ring : BitVec 8} {i : RingId} (hi : i.val = ring.toNat) (sil : BitVec 16) (res : BitVec 8)
    (s : State) :
    doSetRingTimingOnly ring sil res s =
      if BadTiming sil res then .done .range s
      else if ¬(ringOf s i).enabled = true then .done .state s
      else .done .done (applyTiming i
        (modRing i (fun r => { r with silenceMs := sil.toNat, restore := res.toNat }) s)) := by
  unfold doSetRingTimingOnly
  rw [index?_eq_some.2 hi]
  exact if_congr not_timingInRange_iff rfl rfl

/-- SET RING on an idle command unit ends at once with the outcome of its checks. -/
theorem exec_setRing {s u : State} {h : CmdHeader} {ring : BitVec 8} {sil : BitVec 16} {res : BitVec 8} {b : Addr}
    {n : BitVec 32} {o : CmdOutcome} (hs : CmdIdle s) (ha : doSetRing ring sil res b n s = .done o u)
    (hu : u.refs = s.refs) : exec (.setRing h ring sil res b n) s = .next (handOver (ended h 4 o) u) :=
  takeRow_done (c := .setRing ring sil res b n) hs nofun ha (hu ▸ hs.2)

/-- SET RING with TIMING ONLY on an idle command unit ends at once with the outcome of its checks. -/
theorem exec_setRingTimingOnly {s u : State} {h : CmdHeader} {ring : BitVec 8} {sil : BitVec 16} {res : BitVec 8}
    {o : CmdOutcome} (hs : CmdIdle s) (ha : doSetRingTimingOnly ring sil res s = .done o u) (hu : u.refs = s.refs) :
    exec (.setRingTimingOnly h ring sil res) s = .next (handOver (ended h 4 o) u) :=
  takeRow_done (c := .setRingTimingOnly ring sil res) hs nofun ha (hu ▸ hs.2)

/-- What TIMING ONLY does to an enabled ring: the new times, then what they make of the present state. -/
theorem exec_retime {s : State} {ring : BitVec 8} {i : RingId} {sil : BitVec 16} {res : BitVec 8} (h : CmdHeader)
    (hs : CmdIdle s) (hi : i.val = ring.toNat) (ht : ¬BadTiming sil res) (he : (ringOf s i).enabled = true) :
    exec (.setRingTimingOnly h ring sil res) s = .next (handOver (ended h 4 .done)
      (applyTiming i (modRing i (fun r => { r with silenceMs := sil.toNat, restore := res.toNat }) s))) := by
  refine exec_setRingTimingOnly hs ?_ (applyTiming_frame ..).refs_eq
  rw [doSetRingTimingOnly_eq hi, if_neg ht, if_neg (not_not.2 he)]

/-- Settles O49: the checks in their order, then the branches of the silence state under the new times. -/
theorem setRingEnablesOrRetimes : Obligations.SetRingEnablesOrRetimes := by
  unfold Obligations.SetRingEnablesOrRetimes
  refine ⟨fun s h ring sil res hs => ?_, fun s i he hd => ⟨fun ha => ?_, fun ha => ?_⟩⟩
  · intro badTime retime
    refine ⟨?_, ?_, ?_⟩
    · intro b n row bad
      refine ⟨fun hbad => exec_setRing hs ?_ rfl, fun i hi hok => ?_⟩
      · cases hi : index? 32 ring.toNat with
        | none => simp only [doSetRing, hi]
        | some i =>
          have hi := index?_eq_some.1 hi
          rw [doSetRing_eq hi, if_pos (hbad.resolve_left (by omega))]
      · have hact := doSetRing_eq hi sil res b n s
        rw [if_neg (fun hc => hok (.inr hc))] at hact
        refine ⟨fun he => exec_setRing hs ?_ rfl, fun he hm => exec_setRing hs ?_ rfl, fun he hm => exec_setRing hs ?_ rfl⟩
        · rw [hact, if_pos he]
        · rw [hact, if_neg (by simp [he]), if_pos hm]
        · rw [hact, if_neg (by simp [he]), if_neg hm]
          rfl
    · intro hbad
      refine exec_setRingTimingOnly hs ?_ rfl
      cases hi : index? 32 ring.toNat with
      | none => simp only [doSetRingTimingOnly, hi]
      | some i =>
        have hi := index?_eq_some.1 hi
        rw [doSetRingTimingOnly_eq hi, if_pos (hbad.resolve_left (by omega))]
    · intro i hi hok R f due finished report
      have retimed := exec_retime h hs hi hok
      have hU : ringOf (modRing i f s) i = f R := ringOf_modRing_same ..
      have changes : ∀ st, silenceChange i st (modRing i f s) =
          handOver (.ring i st R.w) (modRing i (fun r => { f r with silence := st, run := 0 }) s) := fun st => by
        rw [silenceChange_eq, modRing_modRing, hU]
      have active := fun ha => applyTiming_of_active (i := i) (s := modRing i f s) (hU ▸ ha)
      have silent := fun ha => applyTiming_of_silent (i := i) (s := modRing i f s) (hU ▸ ha)
      rw [hU] at active silent
      refine ⟨fun he => exec_setRingTimingOnly hs ?_ rfl, fun he ha hd => (retimed he).trans ?_,
        fun he ha hd => (retimed he).trans ?_, fun he ha hr hd => (retimed he).trans ?_,
        fun he ha hx hr => (retimed he).trans ?_, fun he ha hx hr => (retimed he).trans ?_⟩
      · rw [doSetRingTimingOnly_eq hi, if_neg hok, if_pos (by simp [R, he])]
      · rw [active ha, if_pos hd, changes]
      · rw [active ha, if_neg hd]
      · rw [silent ha, if_pos ⟨hr, hd⟩, modRing_modRing]
      · rw [silent ha, if_neg hx, if_pos hr, changes]
      · rw [silent ha, if_neg hx, if_neg (Nat.not_le.2 hr)]
  · rw [execSilenceExpiry_of_due he hd]
    simp only [silenceExpires, ha, silenceChange_eq]
  · rw [execSilenceExpiry_of_due he hd]
    simp only [silenceExpires, ha]

end Sys2Proof.Machine
end

section
/-! SUPPORT. The upstream port: when a request is taken, what a presented request comes to, and which waiting request a step on
an empty queue takes (R178). -/

namespace Sys2Proof.Machine

/-! ## The conditions of the take -/

theorem tagFree_iff {tag : PortTag} {ws : List Request} : tagFree tag ws = true ↔ ∀ w ∈ ws, w.tag ≠ tag := by
  simp [tagFree]

theorem roomFor_iff {s : State} {r : Request} : roomFor s r = true ↔ Room s r := by
  unfold roomFor Room
  rw [Bool.and_eq_true, decide_eq_true_iff]
  refine and_congr_right fun _ => ?_
  split
  · rename_i e n hc
    rw [hasRoom, decide_eq_true_iff, hc]
    exact ⟨fun h e' n' he => by cases he; exact h, fun h => h e n rfl⟩
  · rename_i hc
    exact ⟨fun _ e n he => absurd he (hc e n), fun _ => rfl⟩

/-- A request that does not meet the conditions of R178 waits behind those that wait already. -/
theorem present_of_not_takes {s : State} {r : Request} (h : ¬Takes s r) :
    present r s = { s with path := { s.path with waiting := s.path.waiting ++ [r] } } :=
  if_neg (by rwa [Bool.and_eq_true, tagFree_iff, roomFor_iff])

/-- Every presenting row presents its request, whatever class it names (log entry 9). -/
theorem exec_presenting {row : Request → Instr} (h : row ∈ presenting) (r : Request) (s : State) :
    exec (row r) s = .next (present r s) := by
  simp only [presenting, List.mem_cons, List.not_mem_nil, or_false] at h
  rcases h with rfl | rfl | rfl | rfl | rfl | rfl | rfl | rfl | rfl | rfl <;> rfl

/-- Storage errors in the reference store do not enter into the take of a request. -/
theorem takes_upsetRefs (us : List Upset) (s : State) (r : Request) : Takes (upsetRefs us s) r ↔ Takes s r := Iff.rfl

/-! ## A waiting request -/

/-- A waiting request cannot be taken yet: one of its tag waits before it, or it finds no room (R178). -/
def HeldUp (s : State) (before : List Request) (b : Request) : Prop := (∃ w ∈ before, w.tag = b.tag) ∨ ¬Room s b

theorem heldUp_iff {s : State} {before : List Request} {b : Request} :
    HeldUp s before b ↔ ¬(tagFree b.tag before && roomFor s b) = true := by
  rw [Bool.and_eq_true, tagFree_iff, roomFor_iff, not_and_or]
  simp [HeldUp]

theorem nextTake_cons_of_heldUp {s : State} {before : List Request} {w : Request} (h : HeldUp s before w)
    (ws : List Request) : nextTake s before (w :: ws) = nextTake s (before ++ [w]) ws :=
  if_neg (heldUp_iff.1 h)

/-- Waiting requests that are all held up are passed over. -/
theorem nextTake_append_of_heldUp {s : State} (pre before ws : List Request)
    (h : ∀ p b q, pre = p ++ b :: q → HeldUp s (before ++ p) b) :
    nextTake s before (pre ++ ws) = nextTake s (before ++ pre) ws := by
  induction pre generalizing before with
  | nil => rw [List.append_nil, List.nil_append]
  | cons w pre ih =>
    have hw : HeldUp s before w := by simpa using h [] w pre rfl
    rw [List.cons_append, nextTake_cons_of_heldUp hw, ih, List.append_assoc, List.singleton_append]
    intro p b q hp
    rw [List.append_assoc, List.singleton_append]
    exact h (w :: p) b q (by rw [hp, List.cons_append])

/-- The first waiting request that is not held up is the next to be taken (log entry 2). -/
theorem nextTake_of_first {s : State} {pre : List Request} {r : Request} (post : List Request)
    (hpre : ∀ p b q, pre = p ++ b :: q → HeldUp s p b) (hr : ¬HeldUp s pre r) :
    nextTake s [] (pre ++ r :: post) = some (r, pre ++ post) := by
  rw [nextTake_append_of_heldUp pre [] _ hpre, List.nil_append]
  exact if_pos (not_not.1 (mt heldUp_iff.2 hr))

/-- With every waiting request held up none is taken. -/
theorem nextTake_of_none {s : State} {ws : List Request} (h : ∀ p b q, ws = p ++ b :: q → HeldUp s p b) :
    nextTake s [] ws = none := by
  have := nextTake_append_of_heldUp ws [] [] h
  rwa [List.append_nil] at this

theorem step_of_empty {s : State} (h : s.pending = []) : step s = .next (idleStep s) := by
  unfold step
  rw [h]

/-- Settles O18: the take by class, the wait, and the choice of the idle step. -/
theorem otherRequestsAreForwarded : Obligations.OtherRequestsAreForwarded := by
  unfold Obligations.OtherRequestsAreForwarded
  refine ⟨fun s r ht => ?_, fun s r ht => ?_, fun s hs => ?_⟩
  · intro u
    have taken : ∀ row ∈ presenting, exec (row r) s = .next (takeRequest r s) := fun row hrow => by
      rw [exec_presenting hrow, present_of_takes ht]
    have row : ∀ row ∈ presenting, ∀ {v}, takeRequest r s = v → exec (row r) s = .next v := fun row hrow v hv =>
      (taken row hrow).trans (congrArg _ hv)
    refine ⟨fun hc => row .passThroughRequest ?_ ?_, fun hc => row .controlPassThrough ?_ ?_,
      fun i hc => row .ringRead ?_ ?_, fun i hc => row .malformedWrite ?_ ?_, taken⟩
    iterate 4
      · simp [presenting]
      · simp only [takeRequest, hc]
        rfl
  · intro waits
    refine ⟨fun row hrow => ?_, fun us => ?_⟩
    · rw [exec_presenting hrow, present_of_not_takes ht]
    · exact congrArg Host.Outcome.next (present_of_not_takes (mt (takes_upsetRefs us s r).1 ht))
  · intro held
    rw [step_of_empty hs]
    refine ⟨fun pre r post hw hr hpre => ?_, fun hall => ?_⟩
    · rw [idleStep, hw, nextTake_of_first post hpre hr]
    · rw [idleStep, nextTake_of_none hall]

end Sys2Proof.Machine
end

section
/-! SUPPORT. The class of a request: which region of the map it belongs to, and its shape there (R27, R85, R173, R174, R182). -/

namespace Sys2Proof.Machine

/-! ## Ranges -/

theorem meets_iff {a n b m : Nat} : meets a n b m = true ↔ a < b + m ∧ b < a + n ∧ 0 < n ∧ 0 < m := by
  simp [meets, and_assoc]

theorem request_len_pos (r : Request) : 0 < r.len := by
  unfold Request.len
  omega

/-- A request touches a range when it shares a byte with it (R173). -/
theorem touches_iff {r : Request} {b m : Nat} (hm : 0 < m) : touches r b m = true ↔ Shares r b m := by
  simp [touches, meets_iff, request_len_pos, hm]

theorem ringMeets_iff {s : State} {a n : Nat} {i : RingId} : ringMeets s a n i = true ↔
    (ringOf s i).enabled = true ∧ a < (ringOf s i).base.toNat + (ringOf s i).size * 224 ∧ (ringOf s i).base.toNat < a + n ∧
      0 < n ∧ 0 < (ringOf s i).size * 224 := by
  rw [ringMeets, Bool.and_eq_true, meets_iff]
  rfl

/-! ## The region of a request -/

/-- A search through every index finds the only one that fits. -/
theorem find?_finRange_of_unique {n : Nat} {p : Fin n → Bool} {i : Fin n} (hi : p i = true) (h : ∀ j, p j = true → j = i) :
    (List.finRange n).find? p = some i := by
  cases hf : (List.finRange n).find? p with
  | none => exact absurd hi (List.find?_eq_none.1 hf i (List.mem_finRange i))
  | some j => rw [h j (List.find?_some hf)]

/-- The request touches the feed aperture of e. -/
def touchesFeed (s : State) (r : Request) (e : EdId) : Bool :=
  match feedBase s e with
  | some b => touches r b Config.feedBytes
  | none => false

theorem feedTouched_eq (s : State) (r : Request) : feedTouched s r = (List.finRange 16).find? (touchesFeed s r) := rfl

section
variable {s : State} {r : Request}

theorem feedBase_eq {e : EdId} {b : Addr} (h : (edOf s e).base = some b) : feedBase s e = some b.toNat :=
  congrArg (Option.map _) h

theorem touchesFeed_iff {e : EdId} :
    touchesFeed s r e = true ↔ ∃ b, (edOf s e).base = some b ∧ Shares r b.toNat 57344 := by
  unfold touchesFeed
  cases hb : (edOf s e).base with
  | none =>
    have : feedBase s e = none := congrArg (Option.map _) hb
    simp [this]
  | some b =>
    rw [feedBase_eq hb]
    simp only [touches_iff (show 0 < Config.feedBytes by decide), Option.some.injEq, exists_eq_left']
    rfl

/-- The request touches the feed aperture of e alone. -/
theorem feedTouched_of_unique {e : EdId} {b : Addr} (hb : (edOf s e).base = some b) (ht : Shares r b.toNat 57344)
    (h : ∀ e' b', e' ≠ e → (edOf s e').base = some b' → ¬Shares r b'.toNat 57344) : feedTouched s r = some e := by
  rw [feedTouched_eq]
  refine find?_finRange_of_unique (touchesFeed_iff.2 ⟨b, hb, ht⟩) fun e' he' => by_contra fun hne => ?_
  obtain ⟨b', hb', ht'⟩ := touchesFeed_iff.1 he'
  exact h e' b' hne hb' ht'

theorem feedTouched_of_none (h : ∀ (e : EdId) (b : Addr), (edOf s e).base = some b → ¬Shares r b.toNat 57344) :
    feedTouched s r = none := by
  rw [feedTouched_eq]
  refine List.find?_eq_none.2 fun e _ he => ?_
  obtain ⟨b, hb, ht⟩ := touchesFeed_iff.1 he
  exact h e b hb ht

/-- The ring region of i is the only one that holds the first byte of the request (R27). -/
theorem ringTouched_of_first {i : RingId} (hi : ringMeets s r.addr 1 i = true)
    (h : ∀ j, ringMeets s r.addr 1 j = true → j = i) : ringTouched s r = some i := by
  rw [ringTouched, find?_finRange_of_unique hi h]

theorem ringTouched_of_none (h : ∀ i, ringMeets s r.addr r.len i = false) (h1 : ∀ i, ringMeets s r.addr 1 i = false) :
    ringTouched s r = none := by
  have hfind : (List.finRange 32).find? (ringMeets s r.addr 1) = none := List.find?_eq_none.2 fun i _ => by simp [h1 i]
  have hfilter : (List.finRange 32).filter (ringMeets s r.addr r.len) = [] := List.filter_eq_nil_iff.2 fun i _ => by simp [h i]
  rw [ringTouched, hfind, hfilter]
  rfl

end

/-- The better of the best place so far and one more: the one with the lower key, the earlier at equal keys. -/
def keepLower {α : Type} (key : α → Nat) (best : Option α) (x : α) : Option α :=
  match best with
  | none => some x
  | some j => if key x < key j then some x else some j

/-- The one place with the lowest key is kept. -/
theorem foldl_keepLower {α : Type} {key : α → Nat} {i : α} {l : List α} {best : Option α}
    (hl : ∀ j ∈ l, j ≠ i → key i < key j) (hb : best = some i ∨ i ∈ l ∧ ∀ j, best = some j → key i < key j) :
    l.foldl (keepLower key) best = some i := by
  induction l generalizing best with
  | nil => simpa using hb
  | cons x l ih =>
    have hl' : ∀ j ∈ l, j ≠ i → key i < key j := fun j hj => hl j (List.mem_cons_of_mem _ hj)
    refine ih hl' ?_
    by_cases hx : x = i
    · subst hx
      left
      rcases hb with rfl | ⟨-, hb⟩
      · simp [keepLower]
      · cases best with
        | none => rfl
        | some j => exact if_pos (hb j rfl)
    · have hlt := hl x List.mem_cons_self hx
      rcases hb with rfl | ⟨hi, hb⟩
      · exact .inl (if_neg (by omega))
      · refine .inr ⟨(List.mem_cons.1 hi).resolve_left (Ne.symm hx), fun j hj => ?_⟩
        cases best with
        | none =>
          cases hj
          exact hlt
        | some k =>
          have hk := hb k rfl
          simp only [keepLower] at hj
          split at hj <;> cases hj <;> assumption

/-- No ring region holds the first byte of the request, and that of i begins before every other that the request meets
(R27). -/
theorem ringTouched_of_lowest {s : State} {r : Request} {i : RingId} (h1 : ∀ j, ringMeets s r.addr 1 j = false)
    (hi : ringMeets s r.addr r.len i = true)
    (h : ∀ j, j ≠ i → ringMeets s r.addr r.len j = true → (ringOf s i).base.toNat < (ringOf s j).base.toNat) :
    ringTouched s r = some i := by
  have hfind : (List.finRange 32).find? (ringMeets s r.addr 1) = none := List.find?_eq_none.2 fun i _ => by simp [h1 i]
  have hfold : ringTouched s r = ((List.finRange 32).filter (ringMeets s r.addr r.len)).foldl
      (keepLower fun j => (ringOf s j).base.toNat) none := by
    rw [ringTouched, hfind]
    exact List.foldl_ext _ _ _ fun best j _ => by cases best <;> rfl
  rw [hfold]
  exact foldl_keepLower (fun j hj hne => h j hne (List.mem_filter.1 hj).2)
    (.inr ⟨List.mem_filter.2 ⟨List.mem_finRange i, hi⟩, nofun⟩)

/-! ## The class in a region -/

section
variable {s : State} {r : Request}

theorem classify_of_beyond (h : 2 ^ 40 < r.addr + r.len) : classify s r = .beyond := if_pos h

theorem classify_of_feed {e : EdId} {b : Addr} (hin : r.addr + r.len ≤ 2 ^ 40) (he : feedTouched s r = some e)
    (hb : (edOf s e).base = some b) : classify s r = classFeed r e b.toNat := by
  rw [classify, if_neg (show ¬Config.addressTop < _ from Nat.not_lt.2 hin), he]
  simp only [feedBase_eq hb, Option.getD_some]

theorem classify_of_ring {i : RingId} (hin : r.addr + r.len ≤ 2 ^ 40) (he : feedTouched s r = none)
    (hi : ringTouched s r = some i) : classify s r = classRing s r i := by
  rw [classify, if_neg (show ¬Config.addressTop < _ from Nat.not_lt.2 hin), he, hi]

theorem classify_of_control (hin : r.addr + r.len ≤ 2 ^ 40) (he : feedTouched s r = none) (hi : ringTouched s r = none) :
    classify s r = if touches r s.path.control.toNat 4096 then classControl s r else .passThrough := by
  rw [classify, if_neg (show ¬Config.addressTop < _ from Nat.not_lt.2 hin), he, hi]
  rfl

theorem wholeCells_eq_some {b n : Nat} : wholeCells r b = some n ↔ WholeCells r b n := by
  unfold wholeCells WholeCells
  rw [Option.ite_none_right_eq_some, Option.some.injEq]
  simp only [Config.cellBytes]
  constructor
  · rintro ⟨⟨hb, hlen, hn1, hn4, hmod, hend⟩, rfl⟩
    exact ⟨hn1, hn4, hlen, (r.addr - b) / 224, by omega, hend⟩
  · rintro ⟨hn1, hn4, hlen, slot, ha, hend⟩
    omega

theorem classFeed_write {e : EdId} {b : Nat} (h : r.dir = .write) : classFeed r e b = .feedWrite e := by
  simp only [classFeed, h]

theorem classFeed_cells {e : EdId} {b n : Nat} (h : r.dir = .read) (hn : WholeCells r b n) :
    classFeed r e b = .feedRead e n := by
  simp only [classFeed, h, wholeCells_eq_some.2 hn]

theorem classFeed_fault {e : EdId} {b : Nat} (h : r.dir = .read) (hn : ∀ n, ¬WholeCells r b n) :
    classFeed r e b = .lengthFault e := by
  have : wholeCells r b = none := Option.eq_none_iff_forall_ne_some.2 fun n h => hn n (wholeCells_eq_some.1 h)
  simp only [classFeed, h, this]

theorem classRing_read {i : RingId} (h : r.dir = .read) : classRing s r i = .ringRead i := by
  simp only [classRing, h]

theorem fullStrobes_iff : fullStrobes r = true ↔ r.strobes = List.replicate r.len true := by
  simp [fullStrobes]

theorem classRing_write {i : RingId} (h : r.dir = .write) : classRing s r i =
    if r.len = 224 ∧ ((ringOf s i).base.toNat ≤ r.addr ∧ r.addr + r.len ≤ (ringOf s i).base.toNat + (ringOf s i).size * 224) ∧
        (r.addr - (ringOf s i).base.toNat) % 224 = 0 ∧ r.strobes = List.replicate r.len true then
      .ingest i ((r.addr - (ringOf s i).base.toNat) / 224)
    else .malformed i := by
  simp only [classRing, h]
  exact if_congr (by rw [within_iff, fullStrobes_iff]; rfl) rfl rfl

theorem classControl_eq : classControl s r =
    if r.dir = .write ∧ r.len = 64 ∧ (s.path.control.toNat ≤ r.addr ∧ r.addr + r.len ≤ s.path.control.toNat + 4096) ∧
        (r.addr - s.path.control.toNat) % 64 = 0 ∧ r.strobes = List.replicate r.len true then
      .command (BitVec.ofNat 6 ((r.addr - s.path.control.toNat) / 64))
    else .controlOther :=
  if_congr (by rw [within_iff, fullStrobes_iff]; rfl) rfl rfl

end

/-- Settles O17: the region first, then the shape of the request there. -/
theorem requestClassFollowsTheMap : Obligations.RequestClassFollowsTheMap := by
  unfold Obligations.RequestClassFollowsTheMap
  refine fun s r => ⟨classify_of_beyond, fun hin => ⟨fun e b hb ht hu => ?_, fun hf => ?_⟩⟩
  · have hc := classify_of_feed hin (feedTouched_of_unique hb ht hu) hb
    exact ⟨fun hw => hc.trans (classFeed_write hw), fun n hr hn => hc.trans (classFeed_cells hr hn),
      fun hr hn => hc.trans (classFeed_fault hr hn)⟩
  have hf := feedTouched_of_none hf
  refine ⟨fun i => ?_, fun i => ?_, fun hn => ?_⟩
  · dsimp only
    intro he hb ha hu
    have hi : ringTouched s r = some i := by
      refine ringTouched_of_first (ringMeets_iff.2 ⟨he, ha, by omega, by omega, by omega⟩) fun j hj => by_contra fun hne => ?_
      obtain ⟨hj, ha, hb, -⟩ := ringMeets_iff.1 hj
      exact hu j hne hj ⟨by omega, ha⟩
    have hc := classify_of_ring hin hf hi
    refine ⟨fun hr => hc.trans (classRing_read hr), fun slot hw hlen hslot hlt hst => ?_, fun hw hbad => ?_⟩
    · rw [hc, classRing_write hw, if_pos ⟨hlen, ⟨by omega, by omega⟩, by omega, by rw [hlen]; exact hst⟩]
      congr 1
      omega
    · rw [hc, classRing_write hw, if_neg]
      rintro ⟨hlen, -, hmod, hst⟩
      exact hbad ⟨hlen, hmod, hlen ▸ hst⟩
  · dsimp only
    intro he hsize hb ha hu
    have hi : ringTouched s r = some i := by
      refine ringTouched_of_lowest (fun j => ?_) (ringMeets_iff.2 ⟨he, by omega, ha, by omega, by omega⟩) fun j hne hj => ?_
      · rw [Bool.eq_false_iff, ne_eq, ringMeets_iff]
        rintro ⟨hj, hja, hjb, -⟩
        by_cases hne : j = i
        · subst hne
          omega
        · have := hu j hne hj
          omega
      · obtain ⟨hj, hja, -⟩ := ringMeets_iff.1 hj
        exact (hu j hne hj).resolve_left (by omega)
    have hc := classify_of_ring hin hf hi
    refine ⟨fun hr => hc.trans (classRing_read hr), fun hw => ?_⟩
    rw [hc, classRing_write hw, if_neg]
    rintro ⟨-, ⟨hbase, -⟩, -⟩
    omega
  · have hi : ringTouched s r = none := by
      refine ringTouched_of_none (fun i => ?_) fun i => ?_ <;> rw [Bool.eq_false_iff, ne_eq, ringMeets_iff] <;>
        rintro ⟨he, ha, hb, -⟩
      · exact hn i he ⟨ha, hb⟩
      · exact hn i he ⟨ha, by have := request_len_pos r; omega⟩
    have hc := classify_of_control hin hf hi
    refine ⟨fun k hw hlen ha hst => ?_, fun ht hbad => ?_, fun ht => ?_⟩
    · have hk := k.isLt
      rw [hc, if_pos ((touches_iff (by decide)).2 ⟨by omega, by omega⟩), classControl_eq,
        if_pos ⟨hw, hlen, ⟨by omega, by omega⟩, by omega, by rw [hlen]; exact hst⟩]
      congr 1
      apply BitVec.eq_of_toNat_eq
      rw [BitVec.toNat_ofNat]
      omega
    · rw [hc, if_pos ((touches_iff (by decide)).2 ht), classControl_eq, if_neg]
      rintro ⟨hw, hlen, ⟨hb, hend⟩, hmod, hst⟩
      refine hbad ⟨hw, hlen, hlen ▸ hst, BitVec.ofNat 6 ((r.addr - s.path.control.toNat) / 64), ?_⟩
      rw [BitVec.toNat_ofNat]
      omega
    · rw [hc, if_neg (mt (touches_iff (by decide)).1 ht)]

end Sys2Proof.Machine
end

section
/-! SUPPORT. RESTART: which open request each filler answer goes to, the state of the blocks after the act, and the reports it
hands over (R103, R201, R202). -/

namespace Sys2Proof.Machine

/-! ## The answers to the feed reads (R103) -/

/-- An open whole-cell read of edition e still without a response. -/
def awaits (e : EdId) (o : OpenReq) : Bool := o.cls == .feedRead e && o.response.isNone

theorem awaits_iff {e : EdId} {o : OpenReq} : awaits e o = true ↔ o.cls = .feedRead e ∧ o.response = none := by
  simp [awaits]

theorem awaits_unique {e e' : EdId} {o : OpenReq} (h : awaits e o = true) (h' : awaits e' o = true) : e' = e := by
  have := (awaits_iff.1 h').1.symm.trans (awaits_iff.1 h).1
  cases this
  rfl

/-- The open requests once each edition has handed over its answers in order: each open whole-cell read without a response
takes the next answer of its edition, as far as there is one (R95, R103, R179). -/
def answered (rs : EdId → List (List Byte)) : List OpenReq → List OpenReq
  | [] => []
  | o :: os =>
    match o.cls, o.response with
    | .feedRead e, none =>
      { o with response := (rs e).head?.map fun d => ⟨.okay, d⟩ } :: answered (Function.update rs e (rs e).tail) os
    | _, _ => o :: answered rs os

theorem answered_cons_of_awaits {rs : EdId → List (List Byte)} {e : EdId} {o : OpenReq} (h : awaits e o = true)
    (os : List OpenReq) : answered rs (o :: os) =
      { o with response := (rs e).head?.map fun d => ⟨.okay, d⟩ } :: answered (Function.update rs e (rs e).tail) os := by
  obtain ⟨hc, hr⟩ := awaits_iff.1 h
  simp only [answered, hc, hr]

theorem answered_cons_of_not_awaits {rs : EdId → List (List Byte)} {o : OpenReq} (h : ∀ e, awaits e o = false)
    (os : List OpenReq) : answered rs (o :: os) = o :: answered rs os := by
  simp only [answered]
  split
  · rename_i e hc hr
    exact absurd (awaits_iff.2 ⟨hc, hr⟩) (by simp [h e])
  · rfl

/-- A request either awaits the answer of one edition or of none. -/
theorem awaits_cases (o : OpenReq) : (∃ e, awaits e o = true) ∨ ∀ e, awaits e o = false := by
  by_cases h : ∃ e, awaits e o = true
  · exact .inl h
  · exact .inr fun e => Bool.eq_false_iff.2 fun he => h ⟨e, he⟩

theorem answered_nil (os : List OpenReq) : answered (fun _ => []) os = os := by
  induction os with
  | nil => rfl
  | cons o os ih =>
    rcases awaits_cases o with ⟨e, he⟩ | hn
    · have hr := (awaits_iff.1 he).2
      rw [answered_cons_of_awaits he, List.tail_nil, Function.update_eq_self_iff.2 rfl, ih, List.head?_nil, Option.map_none,
        ← hr]
    · rw [answered_cons_of_not_awaits hn, ih]

/-- A hand-over comes before the later answers of its edition. -/
theorem answered_readyFirst (rs : EdId → List (List Byte)) (e : EdId) (d : List Byte) (os : List OpenReq) :
    answered rs (readyFirst (fun o => o.cls == .feedRead e) ⟨.okay, d⟩ os) =
      answered (Function.update rs e (d :: rs e)) os := by
  induction os generalizing rs with
  | nil => rfl
  | cons o os ih =>
    rcases awaits_cases o with ⟨e', he'⟩ | hn
    · by_cases hee : e' = e
      · subst hee
        have hready : readyFirst (fun o => o.cls == .feedRead e') ⟨.okay, d⟩ (o :: os) =
            { o with response := some ⟨.okay, d⟩ } :: os := if_pos he'
        rw [hready, answered_cons_of_awaits he', answered_cons_of_not_awaits fun a => by simp [awaits]]
        simp
      · have hready : readyFirst (fun o => o.cls == .feedRead e) ⟨.okay, d⟩ (o :: os) =
            o :: readyFirst (fun o => o.cls == .feedRead e) ⟨.okay, d⟩ os :=
          if_neg fun h => hee (awaits_unique h he')
        rw [hready, answered_cons_of_awaits he', answered_cons_of_awaits he', ih, Function.update_of_ne hee,
          Function.update_of_ne (Ne.symm hee), Function.update_comm hee]
    · have hready : readyFirst (fun o => o.cls == .feedRead e) ⟨.okay, d⟩ (o :: os) =
          o :: readyFirst (fun o => o.cls == .feedRead e) ⟨.okay, d⟩ os :=
        if_neg fun h => by simpa [hn e] using (show awaits e o = true from h)
      rw [hready, answered_cons_of_not_awaits hn, answered_cons_of_not_awaits hn, ih]

/-- What becomes of one open request: it takes the answer of its edition that is left by those ahead of it. -/
theorem getElem?_answered (rs : EdId → List (List Byte)) (pre : List OpenReq) (o : OpenReq) (post : List OpenReq) :
    (∀ e, awaits e o = true → (answered rs (pre ++ o :: post))[pre.length]? =
      some { o with response := (rs e)[(pre.filter (awaits e)).length]?.map fun d => ⟨.okay, d⟩ }) ∧
    ((∀ e, awaits e o = false) → (answered rs (pre ++ o :: post))[pre.length]? = some o) := by
  induction pre generalizing rs with
  | nil =>
    refine ⟨fun e he => ?_, fun hn => ?_⟩
    · rw [List.nil_append, answered_cons_of_awaits he, List.head?_eq_getElem?]
      rfl
    · rw [List.nil_append, answered_cons_of_not_awaits hn]
      rfl
  | cons b pre ih =>
    rw [List.cons_append, List.length_cons]
    rcases awaits_cases b with ⟨e', hb⟩ | hb
    · obtain ⟨ih, ih'⟩ := ih (Function.update rs e' (rs e').tail)
      rw [answered_cons_of_awaits hb, List.getElem?_cons_succ]
      refine ⟨fun e he => ?_, ih'⟩
      rw [ih e he]
      by_cases hee : e = e'
      · subst hee
        simp [hb]
      · have hb' : ¬awaits e b = true := fun h => hee (awaits_unique hb h)
        rw [Function.update_of_ne hee, List.filter_cons_of_neg hb']
    · rw [answered_cons_of_not_awaits hb, List.getElem?_cons_succ]
      refine ⟨fun e he => ?_, (ih rs).2⟩
      rw [(ih rs).1 e he, List.filter_cons_of_neg (by simp [hb e])]

/-- The answers leave every open request in its place, with its tag. -/
theorem map_tag_answered (rs : EdId → List (List Byte)) (os : List OpenReq) :
    (answered rs os).map OpenReq.tag = os.map OpenReq.tag := by
  induction os generalizing rs with
  | nil => rfl
  | cons o os ih =>
    rcases awaits_cases o with ⟨e, he⟩ | hn
    · rw [answered_cons_of_awaits he, List.map_cons, List.map_cons, ih]
    · rw [answered_cons_of_not_awaits hn, List.map_cons, List.map_cons, ih]

theorem length_answered (rs : EdId → List (List Byte)) (os : List OpenReq) : (answered rs os).length = os.length := by
  simpa using congrArg List.length (map_tag_answered rs os)

/-! ## The hand-overs of the delivery unit at RESTART -/

/-- The open requests replaced. -/
def withOpen (os : List OpenReq) (s : State) : State := { s with path := { s.path with openReqs := os } }

/-- The answers of an edition at RESTART: the filler of each read in its in-flight list, in list order (R103). -/
def fillers (s : State) (e : EdId) : List (List Byte) := (feedOf s e).reads.map fillerData

/-- The hand-over of one read after another touches the open requests alone, and is followed by any further answers. -/
theorem readyFeed_foldl (e : EdId) (xss : List (List InFlight)) (s : State) :
    ∃ os, xss.foldl (fun s xs => readyFeed e (fillerData xs) s) s = withOpen os s ∧
      ∀ rs, answered rs os = answered (Function.update rs e (xss.map fillerData ++ rs e)) s.path.openReqs := by
  induction xss generalizing s with
  | nil => exact ⟨s.path.openReqs, rfl, fun rs => by simp⟩
  | cons xs xss ih =>
    obtain ⟨os, hfold, hos⟩ := ih (readyFeed e (fillerData xs) s)
    refine ⟨os, by rw [List.foldl_cons, hfold]; rfl, fun rs => ?_⟩
    rw [hos]
    show answered _ (readyFirst _ _ _) = _
    rw [answered_readyFirst]
    simp

/-- One edition after another: each read that waits takes the answer of its own edition. -/
theorem fillers_foldl (es : List EdId) (hes : es.Nodup) (s : State) :
    ∃ os, es.foldl (fun s e => (feedOf s e).reads.foldl (fun s xs => readyFeed e (fillerData xs) s) s) s = withOpen os s ∧
      ∀ rs, answered rs os = answered (fun e => if e ∈ es then fillers s e ++ rs e else rs e) s.path.openReqs := by
  induction es generalizing s with
  | nil => exact ⟨s.path.openReqs, rfl, fun rs => by simp⟩
  | cons e es ih =>
    obtain ⟨hne, hes⟩ := List.nodup_cons.1 hes
    obtain ⟨os, hfold, hos⟩ := readyFeed_foldl e (feedOf s e).reads s
    obtain ⟨os', hfold', hos'⟩ := ih hes (withOpen os s)
    refine ⟨os', by rw [List.foldl_cons, hfold, hfold']; rfl, fun rs => ?_⟩
    rw [hos']
    show answered _ os = _
    rw [hos]
    congr 1
    funext a
    by_cases ha : a = e
    · subst ha
      simp [hne, fillers]
    · simp only [Function.update_of_ne ha, List.mem_cons, ha, false_or]
      rfl

theorem restartDelivery_eq (s : State) :
    restartDelivery s = { withOpen (answered (fillers s) s.path.openReqs) s with dlv := .reset } := by
  obtain ⟨os, hfold, hos⟩ := fillers_foldl (List.finRange 16) (List.nodup_finRange 16) s
  have : os = answered (fillers s) s.path.openReqs := by
    rw [← answered_nil os, hos]
    simp
  rw [restartDelivery, hfold, this]

/-! ## The act (R201, R202) -/

/-- The state after the act of RESTART with no command waiting, before its reports are handed over. -/
def restarted (s : State) : State :=
  { path := { s.path with openReqs := answered (fillers s) s.path.openReqs }, down := s.down.map restartDown,
    rings := { recs := tmap restartRing s.rings.recs, protection := RingUnit.reset.protection },
    stream := .reset, refs := .reset, splices := .reset, comp := .reset, dlv := .reset,
    chans := Vector.replicate 16 .reset, eds := Vector.replicate 16 .reset, time := { s.time with load := none },
    cmd := { running := none, queue := [] }, rep := s.rep, pending := s.pending }

/-- The reports of a RESTART: its own, then the refusal of each waiting command (R190, R202). -/
def restartReports (h : CmdHeader) (s : State) : List Report :=
  ended h 25 .done :: s.cmd.queue.map fun c => .command c.code c.slot c.tag .state

theorem startCommand_restart {s : State} (h : CmdHeader) (hs : s.cmd.running = none) :
    startCommand (takenRow h .restart) s = handOverAll (restartReports h s) (restarted s) := by
  have hact : { restartAct s with cmd := { s.cmd with queue := [] } } = restarted s := by
    show { restartAct s with cmd := ⟨s.cmd.running, []⟩ } = restarted s
    rw [hs, restartAct, restartDelivery_eq]
    rfl
  have hstart : startCommand (takenRow h .restart) s = s.cmd.queue.foldl refuseWaiting
      (handOver (ended h 25 .done) { restartAct s with cmd := { s.cmd with queue := [] } }) := rfl
  rw [hstart, hact, restartReports, handOverAll_cons, handOverAll, List.foldl_map]
  rfl

theorem handOverAll_restarted_noPurge (bs : List Report) (s : State) : NoPurge (handOverAll bs (restarted s)) := by
  have hf := handOverAll_frame bs (restarted s)
  refine ⟨by rw [hf.refs_eq]; rfl, fun c i => ?_⟩
  rw [hf.cmd_eq]
  nofun

/-- RESTART taken with no command in flight runs and ends at once. -/
theorem endPurge_startCommand_restart {s : State} (h : CmdHeader) (hs : s.cmd.running = none) :
    endPurge (startCommand (takenRow h .restart) s) = handOverAll (restartReports h s) (restarted s) := by
  rw [startCommand_restart h hs, endPurge_of_noPurge (handOverAll_restarted_noPurge _ s)]

theorem exec_restart {s : State} (h : CmdHeader) (hs : s.cmd.running = none) :
    exec (.restart h) s = .next (handOverAll (restartReports h s) (restarted s)) := by
  show takeRow h .restart s = _
  rw [takeRow, takeCommand, hs, ← endPurge_startCommand_restart h hs]

/-- With no command in flight the head of the queue starts (R190). -/
theorem startWaiting_cons {u : State} {c : TakenCommand} {rest : List TakenCommand}
    (hu : u.cmd = { running := none, queue := c :: rest }) : startWaiting u =
      drain rest.length (endPurge (startCommand c { u with cmd := { running := none, queue := rest } })) := by
  rw [startWaiting, show u.cmd.queue.length = rest.length + 1 by rw [hu]; rfl]
  simp only [drain, hu]

/-- A RESTART at the head of the queue runs as it does when it is taken at once. -/
theorem startWaiting_restart {s u : State} (h : CmdHeader) (hs : s.cmd.running = none)
    (hu : u.cmd = { running := none, queue := takenRow h .restart :: s.cmd.queue }) (hsu : s = { u with cmd := s.cmd }) :
    startWaiting u = handOverAll (restartReports h s) (restarted s) := by
  have hpop : { u with cmd := { running := none, queue := s.cmd.queue } } = s := by
    rw [← hs]
    exact hsu.symm
  have hdrain := startWaiting_cons hu
  rw [hpop] at hdrain
  rw [hdrain, endPurge_startCommand_restart h hs]
  have hq : (handOverAll (restartReports h s) (restarted s)).cmd.queue = [] := by
    rw [(handOverAll_frame _ _).cmd_eq]
    rfl
  have := drain_add 0 s.cmd.queue.length _ (Nat.le_of_eq (congrArg List.length hq))
  rwa [Nat.zero_add] at this

theorem ringOf_restarted (s : State) (i : RingId) : ringOf (restarted s) i = restartRing (ringOf s i) := tget_tmap ..

/-- Settles O6: the act and the answers, then reports that touch the writer alone. -/
theorem restartResetsTheBlocks : Obligations.RestartResetsTheBlocks := by
  unfold Obligations.RestartResetsTheBlocks
  intro s h hs
  have hf := handOverAll_frame (restartReports h s) (restarted s)
  have hall := handOverAll_eq (restartReports h s) (restarted s)
  refine ⟨_, exec_restart h hs, fun u hu hsu => startWaiting_restart h hs hu hsu, ?_, fun pre o post hos => ?_,
    hf.stream_eq, hf.refs_eq, hf.splices_eq, hf.comp_eq, hf.dlv_eq, hf.chans_eq, hf.eds_eq,
    (congrArg RingUnit.protection hf.rings_eq :), fun i => ?_, hf.time_eq, (congrArg PathUnit.control hf.path_eq :),
    (congrArg PathUnit.limit hf.path_eq :), (congrArg PathUnit.waiting hf.path_eq :), ?_, hf.cmd_eq,
    ⟨_, congrArg State.down hall, fun d hd => handedAll_kind _ _ _ hd⟩, ?_, hf.pending_eq⟩
  · rw [hf.path_eq]
    exact length_answered ..
  · rw [hf.path_eq]
    obtain ⟨hwaits, hothers⟩ := getElem?_answered (fillers s) pre o post
    rw [← hos] at hwaits hothers
    refine ⟨fun e hc hr => ?_, fun hno => hothers fun e => ?_⟩
    · refine (hwaits e (awaits_iff.2 ⟨hc, hr⟩)).trans ?_
      rw [fillers, List.getElem?_map, Option.map_map]
      rfl
    · rw [Bool.eq_false_iff, ne_eq, awaits_iff]
      rintro ⟨hc, hr⟩
      exact hno.elim (fun h => h hr) fun h => h e hc
  · have hreset : ringOf State.reset i = .reset := tget_replicate ..
    rw [ringOf_congr hf.rings_eq, ringOf_restarted, hreset]
    rfl
  · rw [hf.path_eq]
    exact map_tag_answered ..
  · rw [hall, handOverAll_eq]
    rfl

end Sys2Proof.Machine
end

section
/-! SUPPORT. The entries of the reference store as one partition: the law of the store, and what the moves of entries between the
free list and the queues of one edition leave of it (R52, R53, R55, R56, R58). -/

set_option Elab.async false

namespace Sys2Proof.Machine

/-! ## The entries of the queues -/

theorem toList_eq_map_tget {α : Type} {n : Nat} (v : Vector α n) : v.toList = (List.finRange n).map (tget v) := by
  apply List.ext_getElem
  · simp
  · simp [tget]

/-- The references of an edition stand in its queues, in ascending programme order. -/
theorem refsOfEdition_eq (e : EdId) (r : RefStore) : refsOfEdition e r = (List.finRange 48).flatMap (tget2 r.queues e) := by
  unfold refsOfEdition
  rw [toList_eq_map_tget, List.flatMap_def]
  rfl

theorem refsOfEdition_congr {e : EdId} {r r' : RefStore} (h : ∀ p, tget2 r'.queues e p = tget2 r.queues e p) :
    refsOfEdition e r' = refsOfEdition e r := by
  rw [refsOfEdition_eq, refsOfEdition_eq, funext h]

theorem mem_refsOfEdition {e : EdId} {r : RefStore} {n : EntryNo} : n ∈ refsOfEdition e r ↔ ∃ p, n ∈ tget2 r.queues e p := by
  simp [refsOfEdition_eq]

/-- The references of an edition are among those of the store. -/
theorem refsOfEdition_sublist_queued (e : EdId) (r : RefStore) : (refsOfEdition e r).Sublist (queued r) := by
  unfold queued
  rw [List.flatMap_def]
  exact List.sublist_flatten_of_mem (List.mem_map_of_mem (List.mem_finRange e))

open scoped List in
/-- Where two families of lists differ at one index, and a list beside them makes up for the difference there, it makes up for
it in the whole. -/
theorem perm_append_flatMap {α β : Type} [DecidableEq α] {l : List α} {i : α} (hi : i ∈ l) (hl : l.Nodup)
    {f g : α → List β} {x y : List β} (here : (x ++ f i).Perm (y ++ g i)) (off : ∀ j, j ≠ i → f j = g j) :
    (x ++ l.flatMap f).Perm (y ++ l.flatMap g) := by
  have split : ∀ (h : α → List β), (l.flatMap h).Perm (h i ++ (l.erase i).flatMap h) := fun h => by
    simpa using (List.perm_cons_erase hi).flatMap_right h
  have rest : (l.erase i).flatMap f = (l.erase i).flatMap g :=
    List.flatMap_congr fun j hj => off j fun e => hl.not_mem_erase (e ▸ hj)
  calc x ++ l.flatMap f
      _ ~ x ++ (f i ++ (l.erase i).flatMap f) := (split f).append_left x
      _ = (x ++ f i) ++ (l.erase i).flatMap g := by rw [rest, List.append_assoc]
      _ ~ (y ++ g i) ++ (l.erase i).flatMap g := here.append_right _
      _ = y ++ (g i ++ (l.erase i).flatMap g) := List.append_assoc ..
      _ ~ y ++ l.flatMap g := (split g).symm.append_left y

/-- No queue has a number from 768 on. -/
theorem queueAt_of_le {r : RefStore} {k : Nat} (h : 768 ≤ k) : queueAt r k = [] := by
  have : index? 16 (k / 48) = none := index?_eq_none.2 (by omega)
  simp only [queueAt, this]

/-- References of the queue numbered k go over into references of that queue in another store, if they do for the queue that has
the number. -/
theorem sublist_queueAt {r r' : RefStore} {k : Nat} {l l' : List EntryNo} (h : l.Sublist (queueAt r k)) (hl : l'.Sublist l)
    (queue : ∀ e p, k = queueNo e p → l.Sublist (tget2 r.queues e p) → l'.Sublist (tget2 r'.queues e p)) :
    l'.Sublist (queueAt r' k) := by
  by_cases hk : k < 768
  · obtain ⟨e, p, rfl⟩ := exists_queueNo hk
    rw [queueAt_queueNo] at h ⊢
    exact queue e p rfl h
  · rw [queueAt_of_le (by omega)] at h ⊢
    exact hl.trans h

/-! ## The law and its moves -/

/-- The law looks at the free list, the queues, the counts and the scan alone. -/
theorem StoreLaw.of_same {s t : State} (h : StoreLaw s) (free : t.refs.free = s.refs.free)
    (queues : t.refs.queues = s.refs.queues) (count : t.refs.edCount = s.refs.edCount) (pool : t.refs.pool = s.refs.pool)
    (scan : ∀ sc, t.refs.scan = some sc → sc.todo.Sublist (queueAt s.refs sc.at_)) : StoreLaw t := by
  have hed : ∀ e, refsOfEdition e t.refs = refsOfEdition e s.refs := fun e => refsOfEdition_congr fun p => by rw [queues]
  have hall : queued t.refs = queued s.refs := by simp only [queued, hed]
  refine ⟨?_, fun e => ?_, ?_, fun sc hsc => ?_⟩
  · rw [free, hall]; exact h.parts
  · rw [count, hed]; exact h.edition e
  · rw [pool, hall]; exact h.pool
  · rw [queueAt, queues]; exact scan sc hsc

theorem StoreLaw.of_refs {s t : State} (h : StoreLaw s) (he : t.refs = s.refs) : StoreLaw t :=
  h.of_same (by rw [he]) (by rw [he]) (by rw [he]) (by rw [he]) fun sc hsc => h.scan sc (he ▸ hsc)

/-- What leaves the reference store as it is keeps its law. -/
theorem StoreLaw.frame {bs : List Block} {s t : State} (h : StoreLaw s) (f : Frame bs s t)
    (n : .refs ∉ bs := by decide) : StoreLaw t := h.of_refs (f.refs_eq n)

/-- From one store to another, entries only move between the free list and the queues of edition e, and the counts follow. -/
structure Moves (e : EdId) (r r' : RefStore) : Prop where
  here : (r'.free ++ refsOfEdition e r').Perm (r.free ++ refsOfEdition e r)
  others : ∀ a, a ≠ e → refsOfEdition a r' = refsOfEdition a r
  count : tget r'.edCount e + r'.free.length = tget r.edCount e + r.free.length
  counts : ∀ a, a ≠ e → tget r'.edCount a = tget r.edCount a
  pool : r'.pool + r'.free.length = r.pool + r.free.length

/-- A move keeps the law where the scan still reads its queue. -/
theorem StoreLaw.of_moves {e : EdId} {s t : State} (h : StoreLaw s) (m : Moves e s.refs t.refs)
    (scan : ∀ sc, t.refs.scan = some sc → sc.todo.Sublist (queueAt t.refs sc.at_)) : StoreLaw t := by
  have parts : (t.refs.free ++ queued t.refs).Perm (s.refs.free ++ queued s.refs) :=
    perm_append_flatMap (List.mem_finRange e) (List.nodup_finRange 16) m.here m.others
  refine ⟨parts.trans h.parts, fun a => ?_, ?_, scan⟩
  · by_cases ha : a = e
    · subst ha
      have hlen := m.here.length_eq
      have := m.count
      have := h.edition a
      simp only [List.length_append] at hlen
      omega
    · rw [m.counts a ha, m.others a ha]
      exact h.edition a
  · have hlen := parts.length_eq
    have := m.pool
    have := h.pool
    simp only [List.length_append] at hlen
    omega

section
variable {s : State} {e : EdId} {p : ProgId} {n : EntryNo}

/-- An edition counts no more references than the store (R53, R55). -/
theorem StoreLaw.length_le_pool (h : StoreLaw s) (e : EdId) : (refsOfEdition e s.refs).length ≤ s.refs.pool :=
  h.pool ▸ (refsOfEdition_sublist_queued e s.refs).length_le

/-- A change of one queue of edition e moves entries where the free list makes up for it. -/
theorem perm_of_queue {r r' : RefStore} (here : (r'.free ++ tget2 r'.queues e p).Perm (r.free ++ tget2 r.queues e p))
    (off : ∀ q, q ≠ p → tget2 r'.queues e q = tget2 r.queues e q) :
    (r'.free ++ refsOfEdition e r').Perm (r.free ++ refsOfEdition e r) := by
  rw [refsOfEdition_eq, refsOfEdition_eq]
  exact perm_append_flatMap (List.mem_finRange p) (List.nodup_finRange 48) here off

/-! ## Release and store (R49, R52, R56, R57) -/

theorem releaseRef_moves (h : StoreLaw s) (hn : n ∈ queueOf s e p) : Moves e s.refs (releaseRef e p n s.refs) := by
  have hpos : 0 < (refsOfEdition e s.refs).length := List.length_pos_of_mem (mem_refsOfEdition.2 ⟨p, hn⟩)
  have hcount := h.edition e
  have hpool := h.length_le_pool e
  refine ⟨perm_of_queue (p := p) ?_ fun q hq => ?_, fun a ha => refsOfEdition_congr fun q => ?_, ?_, fun a ha => ?_, ?_⟩
  · rw [releaseRef_queue, if_pos ⟨rfl, rfl⟩]
    show ((s.refs.free ++ [n]) ++ (queueOf s e p).erase n).Perm (s.refs.free ++ queueOf s e p)
    rw [List.append_assoc]
    exact (List.perm_cons_erase hn).symm.append_left _
  · rw [releaseRef_queue, if_neg (fun c => hq c.2)]
  · rw [releaseRef_queue, if_neg (fun c => ha c.1)]
  · simp only [releaseRef, tget_tmodify_same, List.length_append, List.length_singleton]
    omega
  · exact tget_tmodify_ne _ ha _
  · simp only [releaseRef, List.length_append, List.length_singleton]
    omega

/-- The release of a reference of a queue keeps the law; a scan that had still to meet it loses it (R56, R58). -/
theorem releaseRef_storeLaw (h : StoreLaw s) (hn : n ∈ queueOf s e p) :
    StoreLaw { s with refs := releaseRef e p n s.refs } := by
  refine h.of_moves (e := e) (releaseRef_moves h hn) fun sc hsc => ?_
  obtain ⟨old, hold, rfl⟩ := Option.map_eq_some_iff.1 hsc
  refine sublist_queueAt (h.scan old hold) List.erase_sublist fun a b _ hab => ?_
  rw [releaseRef_queue]
  split
  · rename_i hsame
    obtain ⟨rfl, rfl⟩ := hsame
    exact hab.erase n
  · exact List.erase_sublist.trans hab

/-- What the release of an edition does to the queues (R57). -/
theorem releaseEdition_queue (e a : EdId) (p : ProgId) (r : RefStore) :
    tget2 (releaseEdition e r).queues a p = if a = e then [] else tget2 r.queues a p := by
  simp only [releaseEdition, tget2, tget_tput]
  split
  · exact tget_replicate _ _
  · rfl

theorem releaseEdition_moves (h : StoreLaw s) (e : EdId) : Moves e s.refs (releaseEdition e s.refs) := by
  have hcount := h.edition e
  have hpool := h.length_le_pool e
  have hgone : refsOfEdition e (releaseEdition e s.refs) = [] := by simp [refsOfEdition_eq, releaseEdition_queue]
  refine ⟨?_, fun a ha => refsOfEdition_congr fun q => ?_, ?_, fun a ha => tget_tput_ne _ ha _, ?_⟩
  · rw [hgone, List.append_nil]
    exact .refl _
  · rw [releaseEdition_queue, if_neg ha]
  · simp only [releaseEdition, tget_tput_same, List.length_append]
    omega
  · simp only [releaseEdition, List.length_append]
    omega

/-- The release of every reference of an edition keeps the law; a scan that stands in the edition loses what it had to read
there (R57, R58). -/
theorem releaseEdition_storeLaw (h : StoreLaw s) (e : EdId) : StoreLaw { s with refs := releaseEdition e s.refs } := by
  refine h.of_moves (e := e) (releaseEdition_moves h e) fun sc hsc => ?_
  obtain ⟨old, hold, rfl⟩ := Option.map_eq_some_iff.1 hsc
  split
  · exact List.nil_sublist _
  · rename_i hat
    refine sublist_queueAt (h.scan old hold) (.refl _) fun a b hk hab => ?_
    rw [releaseEdition_queue, if_neg]
    · exact hab
    · rintro rfl
      exact hat (by rw [hk]; simp only [queueNo]; omega)

/-- The store of a reference takes the head of the free list to the tail of its queue, and keeps the law (R49, R52). -/
theorem storeRef_storeLaw (h : StoreLaw s) (e : EdId) (p : ProgId) (ref : Reference) :
    StoreLaw { s with refs := storeRef e p ref s.refs } := by
  rcases storeRef_cases e p ref s.refs with ⟨-, hsame⟩ | ⟨n, rest, hfree, hstore⟩
  · exact h.of_refs hsame
  · rw [hstore]
    have queue : ∀ a b, tget2 (tmodify2 s.refs.queues e p (· ++ [n])) a b =
        if a = e ∧ b = p then tget2 s.refs.queues e p ++ [n] else tget2 s.refs.queues a b := fun a b => tget2_tmodify2 ..
    refine h.of_moves (e := e) ⟨perm_of_queue (p := p) ?_ fun q hq => ?_, fun a ha => refsOfEdition_congr fun q => ?_, ?_,
      fun a ha => ?_, ?_⟩ fun sc hsc => ?_
    · rw [queue, if_pos ⟨rfl, rfl⟩, hfree, ← List.append_assoc]
      exact List.perm_append_singleton ..
    · exact (queue e q).trans (if_neg fun c => hq c.2)
    · exact (queue a q).trans (if_neg fun c => ha c.1)
    · simp only [tget_tmodify_same, hfree, List.length_cons]
      omega
    · exact tget_tmodify_ne _ ha _
    · simp only [hfree, List.length_cons]
      omega
    · refine sublist_queueAt (h.scan sc hsc) (.refl _) fun a b _ hab => ?_
      rw [queue]
      split
      · rename_i hsame
        obtain ⟨rfl, rfl⟩ := hsame
        exact hab.trans (List.sublist_append_left _ _)
      · exact hab

end

end Sys2Proof.Machine
end

section
/-! SUPPORT. Which operations touch the reference store, and that each keeps its law: reads and stale clearing, admission, the
release of an edition, the purge scan, the command unit and the rows. -/

set_option Elab.async false

namespace Sys2Proof.Machine

/-! ## Reads and stale clearing (R59, R60, R75) -/

section
variable {s : State} {e : EdId} {p : ProgId} {n : EntryNo}

/-- A change of the slots and the gauge keeps the law. -/
theorem StoreLaw.slots (h : StoreLaw s) (v : Vector RefSlot 8192) (g : EccGauge) :
    StoreLaw { s with refs := { s.refs with slots := v, gauge := g } } := h.of_same rfl rfl rfl rfl h.scan

theorem modAdm_storeLaw (h : StoreLaw s) (f : AdmCounters → AdmCounters) : StoreLaw (modAdm e f s) :=
  h.of_same rfl rfl rfl rfl h.scan

theorem upsetRefs_storeLaw (h : StoreLaw s) (us : List Upset) : StoreLaw (upsetRefs us s) := h.slots _ _

theorem correction_storeLaw (h : StoreLaw s) (n : EntryNo) : StoreLaw (countRefs n (correctRef n s)) :=
  (h.slots _ _).of_refs (countRefs_refs n (correctRef n s))

theorem discardStale_storeLaw (h : StoreLaw s) (hn : n ∈ queueOf s e p) (c : StaleCause) :
    StoreLaw (discardStale e p n c s) := (releaseRef_storeLaw h hn).frame (modComp_frame ..)

theorem readRef_storeLaw (h : StoreLaw s) (hn : n ∈ queueOf s e p) : StoreLaw (readRef e p n s).1 := by
  cases hc : (tget s.refs.slots n).check with
  | clean => rwa [readRef_clean hc]
  | single => rw [readRef_single hc]; exact correction_storeLaw h n
  | double => rw [readRef_double hc]; exact (discardStale_storeLaw h hn _).frame (handOver_frame ..)

/-- A read that finds a reference leaves every queue as it is. -/
theorem queueOf_readRef {u : State} {x : Reference} (h : readRef e p n s = (u, some x)) (a : EdId) (b : ProgId) :
    queueOf u a b = queueOf s a b := by
  cases hc : (tget s.refs.slots n).check with
  | clean => rw [readRef_clean hc] at h; cases h; rfl
  | single => rw [readRef_single hc] at h; cases h; rw [queueOf, countRefs_refs]; rfl
  | double => rw [readRef_double hc] at h; cases h

theorem clearQueue_storeLaw (h : StoreLaw s) (e : EdId) (p : ProgId) (t : HouseTime) (fuel : Nat) :
    StoreLaw (clearQueue e p t fuel s) := by
  induction fuel generalizing s with
  | zero => exact h
  | succ fuel ih =>
    unfold clearQueue
    split
    · exact h
    · rename_i n rest hq
      have hn : n ∈ queueOf s e p := hq ▸ List.mem_cons_self
      have hread := readRef_storeLaw h hn
      split
      · rename_i heq
        rw [heq] at hread
        exact ih hread
      · rename_i heq
        rw [heq] at hread
        split
        · exact ih (discardStale_storeLaw hread (queueOf_readRef heq e p ▸ hn) _)
        · exact hread

theorem foldl_storeLaw {α : Type} {f : State → α → State} (hf : ∀ s a, StoreLaw s → StoreLaw (f s a)) (h : StoreLaw s)
    (l : List α) : StoreLaw (l.foldl f s) := by
  induction l generalizing s with
  | nil => exact h
  | cons a l ih => exact ih (hf s a h)

theorem clearAll_storeLaw (h : StoreLaw s) (e : EdId) (t : HouseTime) : StoreLaw (clearAll e t s) :=
  foldl_storeLaw (fun _ p h => clearQueue_storeLaw h e p t _) h _

/-! ## The choices of a feed read (R74, R81) -/

theorem takeHead_storeLaw (h : StoreLaw s) (e : EdId) (q : ProgId) : StoreLaw (takeHead e q s).1 := by
  unfold takeHead
  split
  · exact h
  · rename_i n rest hq
    exact releaseRef_storeLaw h (hq ▸ List.mem_cons_self)

theorem chooseOpen_storeLaw (h : StoreLaw s) (e : EdId) : StoreLaw (chooseOpen e s).1 := by
  unfold chooseOpen
  split
  · exact h
  · exact takeHead_storeLaw (h.frame (modComp_frame ..)) _ _

theorem choosePlace_storeLaw (h : StoreLaw s) (e : EdId) : StoreLaw (choosePlace e s).1 := by
  unfold choosePlace
  split
  · split
    · exact chooseOpen_storeLaw h e
    · exact takeHead_storeLaw h e _
  · exact chooseOpen_storeLaw h e

theorem chooseOne_storeLaw (h : StoreLaw s) (e : EdId) (t : HouseTime) : StoreLaw (chooseOne e t s).1 :=
  (choosePlace_storeLaw (clearAll_storeLaw h e t) e).frame (modComp_frame ..)

theorem composeRead_storeLaw (h : StoreLaw s) (e : EdId) (t : HouseTime) (n : Nat) : StoreLaw (composeRead e t n s).1 := by
  induction n generalizing s with
  | zero => exact h
  | succ n ih => exact ih (chooseOne_storeLaw h e t)

theorem readChoices_storeLaw (h : StoreLaw s) (e : EdId) (n : Nat) : StoreLaw (readChoices e n s).1 := by
  unfold readChoices
  split
  · exact composeRead_storeLaw h _ _ _
  · exact h

theorem takeFeedRead_storeLaw (h : StoreLaw s) (e : EdId) (n : Nat) : StoreLaw (takeFeedRead e n s) :=
  (readChoices_storeLaw (h.frame (feedReadTaken_frame e s)) e n).frame
    ((joinRead_frame ..).andThen (finish_frame ..) : Frame [.dlv, .rings, .down, .path] _ _)

/-! ## Admission (R42, R49) -/

theorem storeCell_storeLaw (h : StoreLaw s) (e : EdId) (c : IngestKept) (x : StreamEntry) : StoreLaw (storeCell e c x s) := by
  unfold storeCell
  dsimp only
  split
  · exact (storeRef_storeLaw h ..).frame (modMachine_frame ..)
  · exact storeRef_storeLaw h ..

theorem admitLimits_storeLaw (h : StoreLaw s) (e : EdId) (c : IngestKept) (x : StreamEntry) :
    StoreLaw (admitLimits e c x s) := by
  unfold admitLimits
  split
  · exact modAdm_storeLaw h _
  split
  · exact modAdm_storeLaw h _
  split
  · exact modAdm_storeLaw h _
  split
  · exact modAdm_storeLaw h _
  · exact storeCell_storeLaw h ..

theorem admitEdition_storeLaw (h : StoreLaw s) (c : IngestKept) (x : StreamEntry) (e : EdId) :
    StoreLaw (admitEdition c x s e) := by
  have hentry := h.frame (entryPoint_frame e x.prog x.variant c.e s)
  unfold admitEdition
  split
  · exact h
  · dsimp only
    split
    · exact hentry
    · split
      · exact hentry
      · exact admitLimits_storeLaw hentry ..

theorem admitCell_storeLaw (h : StoreLaw s) (c : IngestKept) : StoreLaw (admitCell c s) := by
  unfold admitCell
  split
  · exact h
  · have hfound := h.frame (lookup_frame c.label s)
    split <;> rename_i heq <;> rw [heq] at hfound
    · exact hfound.frame (modRing_frame ..)
    · split
      · exact hfound.frame (modRing_frame ..)
      · exact foldl_storeLaw (fun _ e h => admitEdition_storeLaw h c _ e) hfound _

theorem ingestReturned_storeLaw (h : StoreLaw s) (c : IngestKept) (rsp : Response) : StoreLaw (ingestReturned c rsp s) := by
  unfold ingestReturned
  split
  · exact h
  · split
    · exact admitCell_storeLaw h c
    · exact h.frame (modRing_frame ..)

/-! ## The release of an edition (R57) -/

theorem releaseAll_storeLaw (h : StoreLaw s) (e : EdId) (count : Nat → AdmCounters → AdmCounters) :
    StoreLaw (releaseAll e count s) := modAdm_storeLaw (releaseEdition_storeLaw h e) _

theorem watchExpires_storeLaw (h : StoreLaw s) (e : EdId) : StoreLaw (watchExpires e s) :=
  (releaseAll_storeLaw (h.frame ((modEd_frame ..).andThen (modComp_frame ..) : Frame [.eds, .comp] s _)) e _).frame
    (handOver_frame ..)

theorem turnOff_storeLaw (h : StoreLaw s) (e : EdId) : StoreLaw (turnOff e s) := by
  have rest : ∀ u : State, StoreLaw u → StoreLaw (stopChain e .off (cancelAll e .off (dropWait e (releaseAll e addOff u)))) :=
    fun u hu => (((releaseAll_storeLaw hu e _).frame (dropWait_frame ..)).frame (cancelAll_frame ..)).frame (stopChain_frame ..)
  have hoff := h.frame (modEd_frame e (fun r => { r with state := .off }) s)
  unfold turnOff
  dsimp only
  split
  · exact rest _ (hoff.frame (modComp_frame ..))
  · exact rest _ hoff

/-! ## The purge scan (R58) -/

/-- A scan that reads references of its queue may stand there. -/
theorem withScan_storeLaw (h : StoreLaw s) {sc : PurgeScan} (hsc : sc.todo.Sublist (queueAt s.refs sc.at_)) :
    StoreLaw (withScan sc s) := h.of_same rfl rfl rfl rfl (by rintro _ ⟨⟩; exact hsc)

theorem scanDone_storeLaw (h : StoreLaw s) : StoreLaw (scanDone s) := h.of_same rfl rfl rfl rfl nofun

/-- Where a scan seeks, it reads references of the queue in which it stands. -/
theorem scanSeek_sublist (h : StoreLaw s) {sc : PurgeScan} (hs : s.refs.scan.bind (scanSeek s.refs) = some sc) :
    sc.todo.Sublist (queueAt s.refs sc.at_) := by
  obtain ⟨old, hold, hseek⟩ := Option.bind_eq_some_iff.1 hs
  unfold scanSeek at hseek
  split at hseek
  · cases hseek
    exact h.scan _ hold
  · obtain ⟨k, -, rfl⟩ := Option.map_eq_some_iff.1 hseek
    exact .refl _

/-- A step of the scan reads the first reference of a queue that it has still to read, or does nothing. -/
theorem scanStep_cases (s : State) : scanStep s = s ∨ ∃ i e p n rest,
    s.refs.scan.bind (scanSeek s.refs) = some ⟨i, queueNo e p, n :: rest⟩ := by
  unfold scanStep
  split
  · exact .inl rfl
  · rename_i sc hseek
    split
    · rename_i e p n rest he hp htodo
      have he := index?_eq_some.1 he
      have hp := index?_eq_some.1 hp
      refine .inr ⟨sc.ring, e, p, n, rest, ?_⟩
      rw [hseek, ← htodo, show queueNo e p = sc.at_ by simp only [queueNo]; omega]
    · exact .inl rfl

theorem scanStep_storeLaw (h : StoreLaw s) : StoreLaw (scanStep s) := by
  rcases scanStep_cases s with hsame | ⟨i, e, p, n, rest, hseek⟩
  · rwa [hsame]
  · have hat : (n :: rest).Sublist (queueAt s.refs (queueNo e p)) := scanSeek_sublist h hseek
    have hn : n ∈ queueOf s e p := by
      rw [queueAt_queueNo] at hat
      exact hat.subset List.mem_cons_self
    have hscan : StoreLaw (withScan ⟨i, queueNo e p, rest⟩ s) :=
      withScan_storeLaw h ((List.sublist_cons_self n rest).trans hat)
    have hread : StoreLaw (readRef e p n (withScan ⟨i, queueNo e p, rest⟩ s)).1 := readRef_storeLaw hscan hn
    rw [scanStep_eq hseek]
    generalize hr : readRef e p n (withScan ⟨i, queueNo e p, rest⟩ s) = r at hread ⊢
    obtain ⟨u, x⟩ := r
    cases x with
    | none => exact hread
    | some x =>
      simp only [releaseOwn]
      split
      · exact releaseRef_storeLaw hread (queueOf_readRef hr e p ▸ hn)
      · exact hread

theorem advanceScan_storeLaw (h : StoreLaw s) : StoreLaw (advanceScan s) := by
  by_cases ha : ScanAhead s
  · rwa [advanceScan_of_ahead ha]
  · rw [advanceScan_of_passed ha]
    exact scanDone_storeLaw h

/-! ## The command unit -/

/-- The empty store of a reset keeps the law (R62). -/
theorem StoreLaw.of_reset {t : State} (ht : t.refs = .reset) : StoreLaw t := by
  have hed : ∀ e, refsOfEdition e RefStore.reset = [] := fun e => by
    rw [refsOfEdition_eq]
    simp [RefStore.reset]
  have hall : queued RefStore.reset = [] := by simp [queued, hed]
  refine ⟨?_, fun e => ?_, ?_, ?_⟩ <;> rw [ht]
  · rw [hall, List.append_nil, show RefStore.reset.free = List.finRange 8192 from
      (entriesFrom_eq 8192 0 rfl).trans List.drop_zero]
  · rw [hed]
    exact tget_replicate ..
  · rw [hall]
    rfl
  · exact nofun

theorem doSetEccThreshold_storeLaw (h : StoreLaw s) (st : BitVec 8) (t : BitVec 16) :
    StoreLaw (doSetEccThreshold st t s).state := by
  unfold doSetEccThreshold
  split
  · exact h.frame (frame_stream s _)
  · split
    · exact h.slots _ _
    · exact h

theorem doSetProgramme_storeLaw (h : StoreLaw s) (ed pr prio c : BitVec 8) (d : BitVec 16) :
    StoreLaw (doSetProgramme ed pr prio c d s).state := by
  have limit : ∀ v, StoreLaw { s with refs := { s.refs with depth := v } } := fun v => h.of_same rfl rfl rfl rfl h.scan
  unfold doSetProgramme
  split
  · split
    · exact h
    · exact (limit _).frame (modComp_frame ..)
  · exact h

theorem doDisableRing_storeLaw (h : StoreLaw s) (r : BitVec 8) : StoreLaw (doDisableRing r s).state := by
  unfold doDisableRing
  split
  · exact h
  · rename_i i _
    split
    · exact h
    · have hoff : StoreLaw (modRing i (fun r => { r with enabled := false }) { s with down := killIngest i s.down }) :=
        h.frame ((frame_down s _).andThen (modRing_frame ..) : Frame [.down, .rings] _ _)
      have hfirst : (queueOf s 0 0).Sublist (queueAt s.refs 0) := queueAt_queueNo s.refs 0 0 ▸ .refl _
      exact withScan_storeLaw (sc := ⟨i, 0, _⟩) hoff hfirst

theorem doSetEdition_storeLaw (h : StoreLaw s) (e : BitVec 8) (au : Bool) (w m q : BitVec 16) (b : Addr) (o : BitVec 24) :
    StoreLaw (doSetEdition e au w m q b o s).state := by
  unfold doSetEdition
  split
  · exact h
  · rename_i a _
    have hset := h.frame (modEd_frame a (setEditionRecord au w m q b o) s)
    dsimp only
    split
    · exact h
    split
    · exact h
    split
    · exact h
    · split
      · exact watchExpires_storeLaw hset a
      · exact hset

theorem doEditionOff_storeLaw (h : StoreLaw s) (e : BitVec 8) : StoreLaw (doEditionOff e s).state := by
  unfold doEditionOff
  split
  · exact h
  · exact turnOff_storeLaw h _

theorem runAct_storeLaw (h : StoreLaw s) (tag : Tag16) (c : Command) : StoreLaw (runAct tag c s).state := by
  cases c with
  | setStreamEntry => exact h.frame (doSetStreamEntry_frame ..)
  | loadStreamEntries => exact h.frame (doLoadStreamEntries_frame ..)
  | setEccThreshold => exact doSetEccThreshold_storeLaw h ..
  | setRing => exact h.frame (doSetRing_frame ..)
  | setRingTimingOnly => exact h.frame (doSetRingTimingOnly_frame ..)
  | disableRing => exact doDisableRing_storeLaw h ..
  | setProtection => exact h.frame (doSetProtection_frame ..)
  | clearProtection => exact h.frame (doClearProtection_frame ..)
  | setProgramme => exact doSetProgramme_storeLaw h ..
  | setCarriage => exact h.frame (doSetCarriage_frame ..)
  | armSplice => exact h.frame (doArmSplice_frame ..)
  | cancelSplice => exact h.frame (doCancelSplice_frame ..)
  | setVariantNow => exact h.frame (doSetVariantNow_frame ..)
  | startSchedule => exact h.frame (doStartSchedule_frame ..)
  | haltSchedule => exact h.frame (doHaltSchedule_frame ..)
  | clearSchedule => exact h.frame (doClearSchedule_frame ..)
  | resumeSchedule => exact h.frame (doResumeSchedule_frame ..)
  | setEdition => exact doSetEdition_storeLaw h ..
  | editionOn => exact h.frame (doEditionOn_frame ..)
  | editionOff => exact doEditionOff_storeLaw h ..
  | timeLoad => exact h.frame (doTimeLoad_frame ..)
  | relocateControl => exact h.frame (doRelocateControl_frame ..)
  | setMemoryLimit => exact h.frame (doSetMemoryLimit_frame ..)
  | setReportRing => exact h.frame (doSetReportRing_frame ..)
  | reportAck => exact h.frame (doReportAck_frame ..)
  | statistics => exact h.frame (doStatistics_frame ..)
  | restart => exact .of_reset rfl

theorem startCommand_storeLaw (h : StoreLaw s) (c : TakenCommand) : StoreLaw (startCommand c s) := by
  unfold startCommand
  split
  · exact h.frame (handOver_frame ..)
  · exact h.frame (handOver_frame ..)
  · have hdone : ∀ b x, StoreLaw (handOver b { restartAct s with cmd := x }) := fun b x => .of_reset (by simp; rfl)
    exact foldl_storeLaw (fun s c h => h.frame (handOver_frame (commandReport c .state) s)) (hdone ..) _
  · rename_i k _ _
    have hact := runAct_storeLaw h c.tag k
    split <;> rename_i heq <;> rw [heq] at hact
    · exact hact.frame (handOver_frame ..)
    · exact hact.frame (frame_cmd _ _)

theorem endPurge_storeLaw (h : StoreLaw s) : StoreLaw (endPurge s) := by
  have hscan := advanceScan_storeLaw h
  unfold endPurge
  dsimp only
  split
  · exact hscan.frame (endRunning_frame ..)
  · exact hscan

theorem drain_storeLaw (h : StoreLaw s) (fuel : Nat) : StoreLaw (drain fuel s) := by
  induction fuel generalizing s with
  | zero => exact h
  | succ fuel ih =>
    unfold drain
    split
    · exact ih (endPurge_storeLaw (startCommand_storeLaw (h.frame (frame_cmd s _)) _))
    · exact h

theorem finishRunning_storeLaw (h : StoreLaw s) (o : CmdOutcome) : StoreLaw (finishRunning o s) :=
  drain_storeLaw (h.frame (endRunning_frame o s)) _

theorem settlePurge_storeLaw (h : StoreLaw s) : StoreLaw (settlePurge s) := by
  have hscan := advanceScan_storeLaw h
  unfold settlePurge
  dsimp only
  split
  · exact finishRunning_storeLaw hscan _
  · exact hscan

theorem takeCommand_storeLaw (h : StoreLaw s) (c : TakenCommand) : StoreLaw (takeCommand c s) := by
  unfold takeCommand
  split
  · exact endPurge_storeLaw (startCommand_storeLaw h c)
  · split
    · exact h.frame (frame_cmd s _)
    · exact h.frame (handOver_frame ..)

/-! ## The two ports -/

theorem streamListReturned_storeLaw (h : StoreLaw s) (rsp : Response) : StoreLaw (streamListReturned rsp s) := by
  unfold streamListReturned
  split
  · split
    · exact finishRunning_storeLaw h _
    · dsimp only
      split
      · exact finishRunning_storeLaw (h.frame (frame_stream s _)) _
      · exact h.of_refs rfl
  · exact h

theorem carriageListReturned_storeLaw (h : StoreLaw s) (rsp : Response) : StoreLaw (carriageListReturned rsp s) := by
  unfold carriageListReturned
  split
  · split
    · exact finishRunning_storeLaw h _
    · split
      · exact finishRunning_storeLaw h _
      · exact finishRunning_storeLaw (h.frame (receiveFrame_frame ..)) _
  · exact h

theorem indexReturned_storeLaw (h : StoreLaw s) : StoreLaw (indexReturned s) := by
  unfold indexReturned
  split
  · have hidle := h.frame (frame_rep s { s.rep with writer := .idle })
    dsimp only
    split
    · exact finishRunning_storeLaw (hidle.frame (setRingAct_frame ..)) _
    · exact hidle.frame (startWrite_frame _)
  · exact h

theorem respond_storeLaw (h : StoreLaw s) (tag : PortTag) (rsp : Response) : StoreLaw (respond tag rsp s) := by
  unfold respond
  split
  · exact h
  · rename_i d rest _
    have hdown := h.frame (frame_down s rest)
    dsimp only
    split
    · exact hdown.frame (readyForwarded_frame ..)
    · exact ingestReturned_storeLaw (hdown.frame (readyForwarded_frame ..)) ..
    · rename_i r _ _
      have hback := hdown.frame (readReturned_frame r _)
      refine settlePurge_storeLaw ?_
      split
      · exact hback.frame (deliveryReturned_frame ..)
      · exact hback
    · exact streamListReturned_storeLaw hdown rsp
    · exact carriageListReturned_storeLaw hdown rsp
    · split
      · exact hdown.frame (wordReturned_frame ..)
      · exact hdown
    · split
      · exact hdown.frame (dataReturned_frame ..)
      · exact hdown
    · exact hdown.frame (recordReturned_frame ..)
    · exact indexReturned_storeLaw hdown

theorem takeRequest_storeLaw (h : StoreLaw s) (r : Request) : StoreLaw (takeRequest r s) := by
  have hfwd : ∀ k, StoreLaw (forward k r s) := fun k => h.frame (forward_frame k r s)
  have hopen : ∀ c rsp, StoreLaw (openReq r.tag c rsp s) := fun c rsp => h.frame (openReq_frame r.tag c rsp s)
  unfold takeRequest
  split
  · exact hopen ..
  · exact settlePurge_storeLaw (takeFeedRead_storeLaw (hopen ..) ..)
  · exact ((hopen ..).frame (modFeed_frame ..)).frame (feedReadTaken_frame ..)
  · exact (hopen ..).frame (modFeed_frame ..)
  · exact h.frame (takeIngest_frame ..)
  · exact (hfwd _).frame (modRing_frame ..)
  · exact hfwd _
  · exact takeCommand_storeLaw (hfwd _) _
  · exact hfwd _
  · exact hfwd _

theorem present_storeLaw (h : StoreLaw s) (r : Request) : StoreLaw (present r s) := by
  unfold present
  split
  · exact takeRequest_storeLaw h r
  · exact h.frame (frame_path s _)

theorem idleStep_storeLaw (h : StoreLaw s) : StoreLaw (idleStep s) := by
  unfold idleStep
  split
  · exact h
  · exact takeRequest_storeLaw (h.frame (frame_path s _)) _

end

end Sys2Proof.Machine
end

section
/-! SUPPORT. The law of the reference store over the rows, and the step that keeps it. -/

set_option Elab.async false

namespace Sys2Proof.Machine

/-- The row ends in a next state that keeps the law of the reference store. -/
def EndsLawful (o : Host.Outcome State Fault Refusal) : Prop := ∃ t, o = .next t ∧ StoreLaw t

section
variable {s : State} (h : StoreLaw s)
include h

/-! ## The part's own events and the time inputs -/

theorem execSilenceExpiry_lawful (i : RingId) : EndsLawful (execSilenceExpiry i s) := by
  unfold execSilenceExpiry
  split
  · exact ⟨_, rfl, h.frame (silenceExpires_frame ..)⟩
  · exact ⟨_, rfl, h⟩

theorem execFeedWatchExpiry_lawful (e : EdId) : EndsLawful (execFeedWatchExpiry e s) := by
  unfold execFeedWatchExpiry
  split
  · exact ⟨_, rfl, settlePurge_storeLaw (watchExpires_storeLaw h e)⟩
  · exact ⟨_, rfl, h⟩

theorem execSpliceTReached_lawful (e : EdId) (p : ProgId) : EndsLawful (execSpliceTReached e p s) := by
  unfold execSpliceTReached
  split
  · split
    · exact ⟨_, rfl, h.frame (reachT_frame ..)⟩
    · exact ⟨_, rfl, h⟩
  · exact ⟨_, rfl, h⟩

theorem execWindowEnd_lawful (e : EdId) (p : ProgId) : EndsLawful (execWindowEnd e p s) := by
  unfold execWindowEnd
  split
  · split
    · exact ⟨_, rfl, h.frame (resolve_frame ..)⟩
    · exact ⟨_, rfl, h⟩
  · exact ⟨_, rfl, h⟩

theorem execReferenceLost_lawful : EndsLawful (execReferenceLost s) := by
  unfold execReferenceLost
  split
  · exact ⟨_, rfl, h.frame (loseReference_frame s)⟩
  · exact ⟨_, rfl, h⟩

theorem execOscillatorPeriodEnd_lawful : EndsLawful (execOscillatorPeriodEnd s) := by
  unfold execOscillatorPeriodEnd
  split
  · exact ⟨_, rfl, h.frame (elapse_frame 1 s)⟩
  · exact ⟨_, rfl, h.frame (frame_time s _)⟩

theorem execPpsEdge_lawful : EndsLawful (execPpsEdge s) := by
  unfold execPpsEdge
  split
  · exact ⟨_, rfl, h.frame (applyLoad_frame _ s)⟩
  · exact ⟨_, rfl, h⟩

theorem execPpsTimeout_lawful : EndsLawful (execPpsTimeout s) := by
  unfold execPpsTimeout
  split
  · split
    · exact ⟨_, rfl, (h.frame (frame_time s _)).frame (handOver_frame ..)⟩
    · exact ⟨_, rfl, h⟩
  · exact ⟨_, rfl, h⟩

/-! ## The ports and the command unit -/

theorem execResponseLeaves_lawful (tag : PortTag) : EndsLawful (execResponseLeaves tag s) := by
  unfold execResponseLeaves
  split
  · exact ⟨_, rfl, h.frame (frame_path s _)⟩
  · exact ⟨_, rfl, h⟩

theorem execIngestWriteCompletion_lawful (tag : PortTag) (rsp : Response) (up : BitFault) :
    EndsLawful (execIngestWriteCompletion tag rsp up s) := by
  unfold execIngestWriteCompletion
  split
  · exact ⟨_, rfl, respond_storeLaw (h.frame (frame_stream s _)) ..⟩
  · exact ⟨_, rfl, respond_storeLaw h ..⟩

theorem present_lawful (r : Request) : EndsLawful (.next (present r s)) := ⟨_, rfl, present_storeLaw h r⟩

theorem respond_lawful (tag : PortTag) (rsp : Response) : EndsLawful (.next (respond tag rsp s)) :=
  ⟨_, rfl, respond_storeLaw h tag rsp⟩

theorem takeRow_lawful (hd : CmdHeader) (c : Command) : EndsLawful (takeRow hd c s) := ⟨_, rfl, takeCommand_storeLaw h _⟩

/-! ## Every row -/

/-- Every row keeps the law of the reference store. -/
theorem exec_lawful (c : Instr) : EndsLawful (exec c s) := by
  cases c with
  | ingestWrite r | malformedWrite r | ringRead r | passThroughRequest r | controlPassThrough r | requestBeyondLimit r
  | lengthFault r | feedWrite r | commandWrite r => exact present_lawful h r
  | wholeCellRead r us => exact present_lawful (upsetRefs_storeLaw h us) r
  | downstreamCompletion tag rsp | staleResponseDiscard tag rsp => exact respond_lawful h tag rsp
  | deliveryReadCompletion e rsp | wordFetchCompletion e rsp | dataFetchCompletion e rsp => exact respond_lawful h _ rsp
  | streamListReadCompletion rsp | carriageListReadCompletion rsp | reportWriteCompletion rsp
  | indexBlockWriteCompletion rsp => exact respond_lawful h _ rsp
  | ingestWriteCompletion tag rsp up => exact execIngestWriteCompletion_lawful h tag rsp up
  | responseLeaves tag => exact execResponseLeaves_lawful h tag
  | purgeScanStep us => exact ⟨_, rfl, settlePurge_storeLaw (scanStep_storeLaw (upsetRefs_storeLaw h us))⟩
  | silenceExpiry i => exact execSilenceExpiry_lawful h i
  | feedWatchExpiry e => exact execFeedWatchExpiry_lawful h e
  | spliceTReached e p => exact execSpliceTReached_lawful h e p
  | windowEnd e p => exact execWindowEnd_lawful h e p
  | waitReached e => exact ⟨_, rfl, h.frame (judgeWaiting_frame s e)⟩
  | referenceLost => exact execReferenceLost_lawful h
  | stationReferenceEdge | referenceRestored => exact ⟨_, rfl, h.frame (referenceEdge_frame s)⟩
  | oscillatorPeriodEnd => exact execOscillatorPeriodEnd_lawful h
  | ppsEdge => exact execPpsEdge_lawful h
  | ppsTimeout => exact execPpsTimeout_lawful h
  | hardwareReset strap => exact ⟨_, rfl, .of_reset rfl⟩
  | setStreamEntry | loadStreamEntries | setEccThreshold | setRing | setRingTimingOnly | disableRing | setProtection
  | clearProtection | setProgramme | setCarriage | armSplice | cancelSplice | setVariantNow | startSchedule | haltSchedule
  | clearSchedule | resumeSchedule | setEdition | editionOn | editionOff | timeLoad | relocateControl | setMemoryLimit
  | setReportRing | reportAck | statistics | restart => exact takeRow_lawful h _ _

end

/-- Settles O11: every operation that touches the store is a move of entries between the free list and the queues of one edition,
a change of what the law does not look at, or a reset. -/
theorem stepKeepsTheReferenceStore : Obligations.StepKeepsTheReferenceStore := by
  unfold Obligations.StepKeepsTheReferenceStore
  intro s t h ht
  unfold step at ht
  split at ht
  · cases ht
    exact idleStep_storeLaw h
  · rename_i c rest _
    obtain ⟨u, hu, hlaw⟩ := exec_lawful (h.frame (frame_pending s rest)) c
    rw [hu] at ht
    cases ht
    exact hlaw

end Sys2Proof.Machine
end

section
/-! SUPPORT. The edition steps of a cell: the entry point, and which step ends it (R42 to R50). -/

set_option Elab.async false

namespace Sys2Proof.Machine

/-- A write of what stands at a place already changes nothing. -/
theorem tput2_same {α : Type} {m n : Nat} (v : Vector (Vector α n) m) (i : Fin m) (j : Fin n) :
    tput2 v i j (tget2 v i j) = v :=
  table2_ext fun a b => by
    rw [tget2_tput2]
    split
    · rename_i h
      obtain ⟨rfl, rfl⟩ := h
      rfl
    · rfl

theorem carried_iff {c : CompRecord} {p : ProgId} :
    carried c p = true ↔ .prog p ∈ c.frame ∨ 0 < (tget c.inForce p).ceiling := by
  simp [carried]

/-! ## Steps 5 to 9 (R47, R48, R49) -/

section
variable {s : State} {e : EdId} {c : IngestKept} {x : StreamEntry}

theorem admitLimits_of_not_carried (h : ¬carried (compOf s e) x.prog = true) :
    admitLimits e c x s = modAdm e (fun a => { a with notCarried := a.notCarried + 1 }) s := by
  simp [admitLimits, h]

/-- The limits of a carried cell: depth, quota, pool, then the store. -/
theorem admitLimits_of_carried (h : carried (compOf s e) x.prog = true) :
    admitLimits e c x s =
      if tget2 s.refs.depth e x.prog ≤ (queueOf s e x.prog).length then
        modAdm e (fun a => { a with depthDrop := a.depthDrop + 1 }) s
      else if (edOf s e).quota ≤ tget s.refs.edCount e then modAdm e (fun a => { a with quotaDrop := a.quotaDrop + 1 }) s
      else if 8192 ≤ s.refs.pool then modAdm e (fun a => { a with poolDrop := a.poolDrop + 1 }) s
      else storeCell e c x s := by
  rw [admitLimits, h]
  rfl

/-- The store of a cell where an entry is free: it takes the head of the free list, and the mark if mark-pending is set and the
cell has K, which is then clear (R49, R50). -/
theorem storeCell_of_free {n : EntryNo} {rest : List EntryNo} (hf : s.refs.free = n :: rest) :
    storeCell e c x s =
      let m := machineOf s e x.prog
      { s with
        refs := { s.refs with
          slots := tput s.refs.slots n ⟨referenceOf c x (m.markPending && c.k), .clean⟩, free := rest,
          queues := tmodify2 s.refs.queues e x.prog (· ++ [n]),
          edCount := tput s.refs.edCount e (tget s.refs.edCount e + 1), pool := s.refs.pool + 1 },
        splices := ⟨tput2 s.splices.machines e x.prog { m with markPending := m.markPending && !c.k }⟩ } := by
  have hstore : ∀ ref, storeRef e x.prog ref s.refs = { s.refs with
      slots := tput s.refs.slots n ⟨ref, .clean⟩, free := rest, queues := tmodify2 s.refs.queues e x.prog (· ++ [n]),
      edCount := tput s.refs.edCount e (tget s.refs.edCount e + 1), pool := s.refs.pool + 1 } := fun ref => by
    simp only [storeRef, hf]
    rfl
  unfold storeCell
  simp only [hstore]
  cases hmark : (machineOf s e x.prog).markPending && c.k with
  | true =>
    obtain ⟨hm, hk⟩ := Bool.and_eq_true_iff.1 hmark
    simp only [hm, hk]
    rfl
  | false =>
    -- without a mark to give, mark-pending stays as it is
    have hkeep : ((machineOf s e x.prog).markPending && !c.k) = (machineOf s e x.prog).markPending :=
      (by decide : ∀ a b : Bool, (a && b) = false → (a && !b) = a) _ _ hmark
    simp only [hkeep]
    show _ = { s with refs := _, splices := { machines := tput2 s.splices.machines e x.prog (machineOf s e x.prog) } }
    rw [show machineOf s e x.prog = tget2 s.splices.machines e x.prog from rfl, tput2_same]
    rfl

/-! ## Steps 1 to 4 (R43 to R46) -/

/-- The steps after the entry point, on what that leaves: the variant, DORMANT, and the limits. -/
def laterSteps (e : EdId) (c : IngestKept) (x : StreamEntry) (u : State) : State :=
  if x.variant ≠ (machineOf u e x.prog).admitted then u
  else if (edOf u e).state = .dormant then u
  else admitLimits e c x u

theorem admitEdition_of_off (h : (edOf s e).state = .off) : admitEdition c x s e = s := if_pos h

theorem admitEdition_of_on (h : (edOf s e).state ≠ .off) :
    admitEdition c x s e = laterSteps e c x (entryPoint e x.prog x.variant c.e s) := if_neg h

/-- Only a cell with E of the target variant resolves a SEEKING splice (R44). -/
theorem entryPoint_of_other (h : ∀ sp, (machineOf s e x.prog).phase = .seeking sp → sp.target = x.variant → c.e = false) :
    entryPoint e x.prog x.variant c.e s = s := by
  unfold entryPoint
  split
  · rename_i sp hsp
    refine if_neg fun hc => ?_
    simp only [Bool.and_eq_true, beq_iff_eq] at hc
    exact absurd hc.1 (by simp [h sp hsp hc.2])
  · rfl

theorem entryPoint_of_target {sp : PendingSplice} (h : (machineOf s e x.prog).phase = .seeking sp)
    (ht : sp.target = x.variant) (he : c.e = true) :
    entryPoint e x.prog x.variant c.e s = resolve e x.prog sp .switched .none s := by
  simp [entryPoint, h, ht, he]

end

/-- Settles O27: the entry point first, then the first step that ends the cell. -/
theorem editionStepsEndAtTheFirst : Obligations.EditionStepsEndAtTheFirst := by
  unfold Obligations.EditionStepsEndAtTheFirst
  intro s e c x later
  have steps : ∀ u, later u (laterSteps e c x u) := by
    intro u
    have passes : x.variant = (machineOf u e x.prog).admitted → (edOf u e).state = .live → laterSteps e c x u = admitLimits e c x u :=
      fun hv hl => by rw [laterSteps, if_neg (not_not.2 hv), if_neg (by simp [hl])]
    refine ⟨fun hv => if_pos hv, fun hv hd => ?_, fun hv hl => ?_⟩
    · rw [laterSteps, if_neg (not_not.2 hv), if_pos hd]
    rw [passes hv hl]
    intro isCarried
    refine ⟨fun hc => admitLimits_of_not_carried (mt carried_iff.1 hc), fun hc => ?_⟩
    rw [admitLimits_of_carried (carried_iff.2 hc)]
    refine ⟨fun hd => if_pos hd, fun hd => ?_⟩
    rw [if_neg (Nat.not_le.2 hd)]
    refine ⟨fun hq => if_pos hq, fun hq => ?_⟩
    rw [if_neg (Nat.not_le.2 hq)]
    refine ⟨fun hp => if_pos hp, fun n rest hp hf => ?_⟩
    rw [if_neg (Nat.not_le.2 hp)]
    exact storeCell_of_free hf
  refine ⟨admitEdition_of_off, fun hon => ⟨fun hother => ?_, fun sp hsp ht hE => ?_⟩⟩
  · rw [admitEdition_of_on hon, entryPoint_of_other hother]
    exact steps s
  · rw [admitEdition_of_on hon, entryPoint_of_target hsp ht hE]
    exact ⟨by rw [edOf_congr (resolve_frame ..).eds_eq], steps _⟩

end Sys2Proof.Machine
end

section
/-! SUPPORT. SET PROGRAMME and the lifecycle of an edition: what leaving LIVE releases and changes, EDITION ON and OFF, and the
expiry of the feed watch. -/

set_option Elab.async false

namespace Sys2Proof.Machine

/-! ## SET PROGRAMME (R54, R71) -/

theorem priorityOf_eq_some {b : BitVec 8} (h : b = 0 ∨ b = 1) :
    priorityOf b = some (if b = 1 then .high else .low) := by
  rcases h with rfl | rfl <;> rfl

theorem priorityOf_eq_none {b : BitVec 8} : priorityOf b = none ↔ b ≠ 0 ∧ b ≠ 1 := by
  unfold priorityOf
  split
  · simp_all
  · split <;> simp_all

/-- Settles O52: the checks, then the two ways of a setting. -/
theorem setProgrammeWaitsForTheBoundary : Obligations.SetProgrammeWaitsForTheBoundary := by
  unfold Obligations.SetProgrammeWaitsForTheBoundary
  intro s h ed pr prio ceil depth hs row bad
  have ends : ∀ {o u}, doSetProgramme ed pr prio ceil depth s = .done o u → u.refs.scan = none →
      row = .next (handOver (ended h 7 o) u) :=
    fun ha hu => takeRow_done (c := .setProgramme ed pr prio ceil depth) hs nofun ha hu
  refine ⟨fun hbad => ends ?_ hs.2, fun e p he hp hok => ?_⟩
  · unfold doSetProgramme
    split
    · rename_i e p x he hp hx
      rw [index?_eq_some] at he hp
      have hprio : ¬(prio ≠ 0 ∧ prio ≠ 1) := fun hn => by simp [priorityOf_eq_none.2 hn] at hx
      refine if_pos ?_
      rcases hbad with hb | hb | hb | hb
      · omega
      · omega
      · exact absurd hb hprio
      · exact hb
    · rfl
  · intro x u
    have hlimits : ¬(128 < ceil.toNat ∨ depth.toNat = 0 ∨ 1024 < depth.toNat) := fun hb => hok (.inr (.inr (.inr hb)))
    have hprio : prio = 0 ∨ prio = 1 := by
      by_contra hn
      exact hok (.inr (.inr (.inl (not_or.1 hn))))
    have hact : doSetProgramme ed pr prio ceil depth s =
        .done .done (modComp e (setProgRecord ((edOf s e).state == .live) p x) u) := by
      unfold doSetProgramme
      rw [index?_eq_some.2 he, index?_eq_some.2 hp, priorityOf_eq_some hprio]
      exact if_neg hlimits
    refine ⟨fun hl => ?_, fun hl => ?_⟩
    · rw [ends hact hs.2, hl]
      rfl
    · rw [ends hact hs.2, beq_eq_false_iff_ne.2 hl]
      rfl

/-! ## The release of an edition (R57) -/

/-- Everything the release of every reference of an edition does to the store. -/
theorem releaseAll_says (e : EdId) (count : Nat → AdmCounters → AdmCounters) (s : State) :
    let gone := refsOfEdition e s.refs
    let u := releaseAll e count s
    (∀ a p, queueOf u a p = if a = e then [] else queueOf s a p) ∧
    (∀ a, tget u.refs.edCount a = if a = e then 0 else tget s.refs.edCount a) ∧
    (∀ a, tget u.refs.counters a =
      if a = e then count gone.length (tget s.refs.counters a) else tget s.refs.counters a) ∧
    u.refs.pool = s.refs.pool - gone.length ∧ u.refs.free = s.refs.free ++ gone ∧ u.refs.slots = s.refs.slots ∧
    u.refs.depth = s.refs.depth ∧ u.refs.gauge = s.refs.gauge ∧ (u.refs.scan = none ↔ s.refs.scan = none) := by
  refine ⟨fun a p => releaseEdition_queue e a p s.refs, fun a => tget_tput .., fun a => ?_, rfl, rfl, rfl, rfl, rfl,
    releaseEdition_scan_none e s.refs⟩
  refine (tget_tmodify ..).trans ?_
  split
  · subst_vars
    rfl
  · rfl

/-! ## The feed watch (R156, R157) -/

/-- The state in which the expiry of a feed watch is reported. -/
def watchExpired (e : EdId) (s : State) : State :=
  releaseAll e addDormant (modComp e boundary (modEd e (fun r => { r with state := .dormant }) s))

theorem watchExpires_eq (e : EdId) (s : State) :
    watchExpires e s = handOver (.edition e .dormant (refsOfEdition e s.refs).length) (watchExpired e s) := rfl

theorem watchExpired_frame (e : EdId) (s : State) : Frame [.eds, .comp, .refs] s (watchExpired e s) :=
  ((modEd_frame ..).andThen (modComp_frame ..) : Frame [.eds, .comp] s _).andThen (releaseAll_frame ..)

theorem watchOut_iff {r : EditionRecord} :
    watchOut r = true ↔ r.state = .live ∧ r.watch ≠ 0 ∧ r.watch * 20000 ≤ r.idle := by
  simp only [watchOut, Bool.and_eq_true, beq_iff_eq, decide_eq_true_iff, and_assoc]
  rfl

/-- Without a purge in flight the expiry has nothing to end. -/
theorem noPurge_watchExpires {s : State} (e : EdId) (h : NoPurge s) : NoPurge (watchExpires e s) := by
  refine ⟨?_, fun c i => ?_⟩
  · rw [watchExpires_eq, handOver_refs]
    exact (releaseEdition_scan_none e s.refs).2 h.1
  · rw [(watchExpires_frame e s).cmd_eq]
    exact h.2 c i

/-- Settles O55: the row is the expiry, of which each part is read off. -/
theorem feedWatchExpires : Obligations.FeedWatchExpires := by
  unfold Obligations.FeedWatchExpires
  intro s e hl hw hi hp n
  obtain ⟨hqueue, hcount, hcounters, hpool, hfree, -⟩ := releaseAll_says e addDormant
    (modComp e boundary (modEd e (fun r => { r with state := .dormant }) s))
  refine ⟨watchExpired e s, ?_, rfl, rfl, fun p => (hqueue e p).trans (if_pos rfl), (hcount e).trans (if_pos rfl), hfree,
    (hcounters e).trans (if_pos rfl), hpool,
    fun a ha => ⟨(hcounters a).trans (if_neg ha), fun p => (hqueue a p).trans (if_neg ha)⟩, watchExpired_frame e s⟩
  calc exec (.feedWatchExpiry e) s = .next (settlePurge (watchExpires e s)) := if_pos (watchOut_iff.2 ⟨hl, hw, hi⟩)
    _ = .next (watchExpires e s) := by rw [settlePurge_of_noPurge (noPurge_watchExpires e hp)]

/-! ## EDITION ON and EDITION OFF (R154, R155) -/

/-- The cancels and the end of the chain of an edition whose channel waits on no machine: what they do besides their reports, and
the reports in their order (R121, R148). -/
theorem cancelAndStop_says (e : EdId) (s : State) :
    ∃ v : State, Frame [.splices, .down, .chans] s v ∧ Stops e s v ∧
      (∀ a p, machineOf v a p = if a = e then { machineOf s a p with phase := .steady, waiting := false } else machineOf s a p) ∧
      stopChain e .off (cancelAll e .off (dropWait e s)) = handOverAll (cancelReports e .off s ++ stopReports e .off s) v := by
  obtain ⟨v, hframe, hmach, hcancel⟩ := cancelAll_says e .off (dropWait e s)
  have hv : Frame [.splices] s v := (dropWait_frame e s).trans hframe
  have hchan : ∀ a, chanOf v a = chanOf s a := chanOf_congr hv.chans_eq
  have hdrop := machineOf_dropWait e s
  have hreports : cancelReports e .off (dropWait e s) = cancelReports e .off s := by
    simp only [cancelReports, hdrop, if_pos]
  have hsteady : ∀ a p, machineOf v a p =
      if a = e then { machineOf s a p with phase := .steady, waiting := false } else machineOf s a p := by
    intro a p
    rw [hmach, hdrop]
    split <;> rfl
  have hall : chanOf (handOverAll (cancelReports e .off s) v) e = chanOf s e :=
    (chanOf_congr (handOverAll_frame ..).chans_eq e).trans (hchan e)
  rw [hcancel, hreports]
  by_cases hidle : (chanOf s e).state = .idle
  · refine ⟨v, hv.mono, ⟨?_, fun a _ => hchan a, ?_⟩, hsteady, ?_⟩
    · rw [if_pos hidle, hchan]
    · rw [if_pos hidle, hv.down_eq]
    · simp only [stopChain, hall, stopReports, hidle, if_true, List.append_nil]
  · refine ⟨quietEnd e v, hv.andThen (quietEnd_frame e v), ⟨?_, fun a ha => ?_, ?_⟩, fun a p => ?_, ?_⟩
    · rw [quietEnd_chan, if_pos rfl, hchan, if_neg hidle]
    · rw [quietEnd_chan, if_neg ha, hchan]
    · rw [if_neg hidle, (quietEnd_stops e v (hchan e ▸ hidle)).down, hchan, if_neg hidle, hv.down_eq]
    · rw [quietEnd_machine, hsteady]
      split <;> rfl
    · rw [stopChain_eq e .off _ (hall ▸ hidle), quietEnd_handOverAll, handOverAll_append]
      simp only [stopReports, hall]

/-- The state once the edition is OFF and its references are released, before its splices and its chain end. -/
def releasedOff (e : EdId) (s : State) : State :=
  let u := modEd e (fun r => { r with state := .off }) s
  releaseAll e addOff (if (edOf s e).state = .live then modComp e boundary u else u)

theorem turnOff_eq (e : EdId) (s : State) :
    turnOff e s = stopChain e .off (cancelAll e .off (dropWait e (releasedOff e s))) := rfl

theorem releasedOff_frame (e : EdId) (s : State) : Frame [.eds, .comp, .refs] s (releasedOff e s) := by
  have hoff := modEd_frame e (fun r => { r with state := .off }) s
  unfold releasedOff
  dsimp only
  split
  · exact (hoff.andThen (modComp_frame ..) : Frame [.eds, .comp] s _).andThen (releaseAll_frame ..)
  · exact hoff.andThen (releaseAll_frame ..)

/-- The release looks at the store alone. -/
theorem releasedOff_refs (e : EdId) (s : State) : (releasedOff e s).refs = (releaseAll e addOff s).refs := by
  unfold releasedOff
  dsimp only
  split <;> rfl

theorem edOf_releasedOff (e a : EdId) (s : State) :
    edOf (releasedOff e s) a = if a = e then { edOf s a with state := .off } else edOf s a := by
  have heds : (releasedOff e s).eds = (modEd e (fun r => { r with state := .off }) s).eds := by
    unfold releasedOff
    dsimp only
    split <;> rfl
  rw [edOf_congr heds, edOf_modEd]
  split
  · subst_vars
    rfl
  · rfl

/-- Only leaving LIVE applies what a boundary would have applied (R72). -/
theorem compOf_releasedOff (e a : EdId) (s : State) :
    compOf (releasedOff e s) a = if a = e ∧ (edOf s e).state = .live then boundary (compOf s a) else compOf s a := by
  by_cases hl : (edOf s e).state = .live
  · have hcomp : (releasedOff e s).comp = (modComp e boundary s).comp := by
      simp only [releasedOff, if_pos hl]
      rfl
    rw [compOf_congr hcomp, compOf_modComp]
    by_cases ha : a = e
    · subst ha
      simp [hl]
    · simp [ha]
  · have hcomp : (releasedOff e s).comp = s.comp := by
      simp only [releasedOff, if_neg hl]
      rfl
    rw [compOf_congr hcomp, if_neg (fun h => hl h.2)]

theorem cancelReports_congr {s t : State} (h : t.splices = s.splices) (e : EdId) (cause : SpliceCause) :
    cancelReports e cause t = cancelReports e cause s := by
  simp only [cancelReports, machineOf_congr h]

theorem stopReports_congr {s t : State} (h : t.chans = s.chans) (e : EdId) (status : EndStatus) :
    stopReports e status t = stopReports e status s := by
  simp only [stopReports, chanOf_congr h]

/-- Stopping a chain looks at the channels and the downstream requests alone. -/
theorem Stops.of_congr {e : EdId} {s t u : State} (h : Stops e t u) (chans : t.chans = s.chans) (down : t.down = s.down) :
    Stops e s u where
  chan := by rw [h.chan, chanOf_congr chans]
  others := fun a ha => by rw [h.others a ha, chanOf_congr chans]
  down := by rw [h.down, chanOf_congr chans, down]

/-- EDITION ON by the state of the edition (R154). -/
theorem turnOn_of_live {e : EdId} {s : State} (h : (edOf s e).state = .live) : turnOn e s = s := by
  simp only [turnOn, h]

theorem turnOn_of_dormant {e : EdId} {s : State} (h : (edOf s e).state = .dormant) :
    turnOn e s = modEd e (fun r => { r with state := .live, idle := 0 }) s := by
  simp only [turnOn, h]

theorem turnOn_of_off {e : EdId} {s : State} (h : (edOf s e).state = .off) :
    turnOn e s = modFeed e (fun f => { f with cont := Vector.replicate 4096 0 })
      (modComp e compTurnOn (modEd e (fun r => { r with state := .live, idle := 0 }) s)) := by
  simp only [turnOn, h]

/-- EDITION ON on an idle command unit (R154). -/
theorem exec_editionOn {s : State} {ed : BitVec 8} {e : EdId} (h : CmdHeader) (hs : CmdIdle s) (he : e.val = ed.toNat) :
    exec (.editionOn h ed) s = .next (handOver (ended h 17 .done) (turnOn e s)) := by
  refine takeRow_done (c := .editionOn ed) hs nofun ?_ ?_
  · show doEditionOn ed s = _
    simp only [doEditionOn, index?_eq_some.2 he]
  · rw [(turnOn_frame e s).refs_eq]
    exact hs.2

/-- EDITION OFF on an idle command unit, where it leaves no scan (R155). -/
theorem exec_editionOff {s : State} {ed : BitVec 8} {e : EdId} (h : CmdHeader) (hs : CmdIdle s) (he : e.val = ed.toNat)
    (hscan : (turnOff e s).refs.scan = none) :
    exec (.editionOff h ed) s = .next (handOver (ended h 18 .done) (turnOff e s)) := by
  refine takeRow_done (c := .editionOff ed) hs nofun ?_ hscan
  show doEditionOff ed s = _
  simp only [doEditionOff, index?_eq_some.2 he]

/-- Settles O54: ON by the state of the edition; OFF as the release, then the cancels and the end of the chain. -/
theorem editionsTurnOnAndOff : Obligations.EditionsTurnOnAndOff := by
  unfold Obligations.EditionsTurnOnAndOff
  intro s h ed hs
  refine ⟨fun hr => ⟨takeRow_done (c := .editionOn ed) hs nofun ?_ hs.2, takeRow_done (c := .editionOff ed) hs nofun ?_ hs.2⟩,
    fun e he => ?_⟩
  · show doEditionOn ed s = _
    simp only [doEditionOn, index?_eq_none.2 hr]
  · show doEditionOff ed s = _
    simp only [doEditionOff, index?_eq_none.2 hr]
  intro on watched fresh
  have hon : on = .next (handOver (ended h 17 .done) (turnOn e s)) := exec_editionOn h hs he
  refine ⟨fun hl => by rw [hon, turnOn_of_live hl], fun hd => by rw [hon, turnOn_of_dormant hd],
    fun hoff => by rw [hon, turnOn_of_off hoff]; rfl, ?_⟩
  intro gone
  have hrel : Frame [.eds, .comp, .refs] s (releasedOff e s) := releasedOff_frame e s
  obtain ⟨u, hframe, hstops, hmach, hturn⟩ := cancelAndStop_says e (releasedOff e s)
  rw [← turnOff_eq, cancelReports_congr hrel.splices_eq, stopReports_congr hrel.chans_eq] at hturn
  have hrefs : u.refs = (releaseAll e addOff s).refs := hframe.refs_eq.trans (releasedOff_refs e s)
  obtain ⟨hqueue, hcount, hcounters, hpool, hfree, hslots, hdepth, hgauge, hscan⟩ := releaseAll_says e addOff s
  simp only [queueOf, ← hrefs] at hqueue hcount hcounters hpool hfree hslots hdepth hgauge hscan
  have hoff : (turnOff e s).refs.scan = none := by
    rw [hturn, (handOverAll_frame ..).refs_eq]
    exact hscan.2 hs.2
  refine ⟨u, ?_, hrel.andThen hframe, hstops.of_congr hrel.chans_eq hrel.down_eq, fun a => ?_, fun a => ?_, fun a p => ?_,
    hqueue, hcount, hcounters, hpool, hfree, hslots, hdepth, hgauge, hscan.2 hs.2⟩
  · rw [exec_editionOff h hs he hoff, hturn]
  · rw [edOf_congr hframe.eds_eq, edOf_releasedOff]
  · rw [compOf_congr hframe.comp_eq, compOf_releasedOff]
  · rw [hmach, machineOf_congr hrel.splices_eq]

end Sys2Proof.Machine
end

section
/-! SUPPORT. Carriage frames on their way: the positions that a read's bytes spell, the hand-over of a frame to the composer, and
the completions that bring one (R64, R67, R68, R69, R134). -/

namespace Sys2Proof.Machine

/-! ## Positions (R64) -/

/-- A list is read as a whole when each of its members is. -/
theorem mapM_eq_some_iff {α β : Type} {f : α → Option β} {l : List α} {r : List β} :
    l.mapM f = some r ↔ l.map f = r.map some := by
  induction l generalizing r with
  | nil => cases r <;> simp
  | cons a l ih => cases r <;> simp [Option.bind_eq_some_iff, ih]

/-- The bytes spell a frame when each of them spells its position. -/
theorem positionsOf_eq_some {d : List Byte} {n : Nat} {f : List Position} :
    positionsOf d n = some f ↔ f.length = n ∧ ∀ i, i < n → positionOf (byteAt d i) = f[i]? := by
  rw [positionsOf, mapM_eq_some_iff, List.map_map]
  constructor
  · intro h
    have hlen : f.length = n := by simpa using (congrArg List.length h).symm
    refine ⟨hlen, fun i hi => ?_⟩
    have := congrArg (fun l => l[i]?) h
    simpa [hi, List.getElem?_eq_getElem (hlen ▸ hi : i < f.length)] using this
  · rintro ⟨hlen, h⟩
    refine List.ext_getElem (by simp [hlen]) fun i hi hf => ?_
    have hi : i < n := by simpa using hi
    simpa [List.getElem?_eq_getElem (hlen ▸ hi : i < f.length)] using h i hi

/-- One byte that is no position leaves no frame. -/
theorem positionsOf_eq_none {d : List Byte} {n : Nat} (h : ∃ i, i < n ∧ positionOf (byteAt d i) = none) :
    positionsOf d n = none := by
  obtain ⟨i, hi, hbad⟩ := h
  refine Option.eq_none_iff_forall_ne_some.2 fun f hf => ?_
  obtain ⟨hlen, hpos⟩ := positionsOf_eq_some.1 hf
  have := hpos i hi
  rw [hbad, List.getElem?_eq_getElem (hlen ▸ hi)] at this
  cases this

/-- The frame of a CARRIAGE word has the word's length (R134). -/
theorem length_of_buildFrame {d : List Byte} {len count : Nat} {f : List Position} (h : buildFrame d len count = some f) :
    f.length = len := by
  obtain ⟨g, hg, rfl⟩ := Option.map_eq_some_iff.1 h
  have := (positionsOf_eq_some.1 hg).1
  simp only [List.length_append, List.length_replicate]
  omega

/-! ## The hand-over to the composer (R69) -/

/-- What the composer makes of a frame for an edition: staged in LIVE, current at once otherwise. -/
def frameTo (st : EdState) (f : List Position) (c : CompRecord) : CompRecord :=
  if st = .live then { c with staged := some f } else applyFrame f c

theorem receiveFrame_state (e : EdId) (f : List Position) (s : State) :
    (receiveFrame e f s).1 = modComp e (frameTo (edOf s e).state f) s := by
  unfold receiveFrame frameTo
  split <;> rfl

theorem receiveFrame_of_live {e : EdId} {s : State} (f : List Position) (h : (edOf s e).state = .live) :
    receiveFrame e f s = (modComp e (fun c => { c with staged := some f }) s, (compOf s e).staged.isSome) := if_pos h

theorem receiveFrame_of_not_live {e : EdId} {s : State} (f : List Position) (h : (edOf s e).state ≠ .live) :
    receiveFrame e f s = (modComp e (applyFrame f) s, false) := if_neg h

/-! ## SET CARRIAGE (R67, R68) -/

/-- Everything SET CARRIAGE can come to for an edition that exists. -/
theorem doSetCarriage_eq {ed : BitVec 8} {e : EdId} (he : e.val = ed.toNat) (len : BitVec 8) (a : Addr) (s : State) :
    doSetCarriage ed len a s =
      if len.toNat < 16 ∨ 128 < len.toNat ∨ a.toNat % 32 ≠ 0 ∨ s.path.limit < a.toNat + 32 * ((len.toNat + 31) / 32) then
        .done .range s
      else .inFlight (.carriage e len.toNat)
        (issue .carriageList (ownRead 223 a.toNat (32 * ((len.toNat + 31) / 32))) s) := by
  rw [doSetCarriage, index?_eq_some.2 he]
  rfl

theorem modComp_id (e : EdId) (s : State) : modComp e id s = s := by
  rw [modComp, tmodify_of_fixed rfl]

/-- Settles O35: the checks, then the branches of the completion over the end of the command. -/
theorem setCarriageReadsItsFrame : Obligations.SetCarriageReadsItsFrame := by
  unfold Obligations.SetCarriageReadsItsFrame
  constructor
  · intro s h ed len a hs bad
    refine ⟨fun hb => takeRow_done (c := .setCarriage ed len a) hs nofun ?_ hs.2, fun e he hb =>
      takeRow_inFlight (c := .setCarriage ed len a) hs ((doSetCarriage_eq he len a s).trans (if_neg fun hc => hb (.inr hc)))
        hs.2 nofun⟩
    show doSetCarriage ed len a s = _
    cases hi : index? 16 ed.toNat with
    | none => simp only [doSetCarriage, hi]
    | some e =>
      have he := index?_eq_some.1 hi
      exact (doSetCarriage_eq he len a s).trans (if_pos (hb.resolve_left (by omega)))
  · intro s c e len q rest hrun hold fin
    have hrow : ∀ rsp, exec (.carriageListReadCompletion rsp) s =
        .next (carriageListReturned rsp { s with down := rest }) := by
      intro rsp
      show Host.Outcome.next (respond 223 rsp s) = _
      rw [respond, hold]
    have hfin : ∀ o g, .next (finishRunning o (modComp e g { s with down := rest })) = fin o g := fun o g =>
      congrArg _ (finishRunning_eq o hrun)
    have hsame : ∀ o, .next (finishRunning o { s with down := rest }) = fin o id := fun o => by
      rw [← hfin, modComp_id]
    refine ⟨fun d => ?_, fun d hbad => ?_, fun d f hlen hf => ?_⟩
    · rw [hrow, ← hsame]
      simp only [carriageListReturned, hrun]
    · rw [hrow, ← hsame]
      simp only [carriageListReturned, hrun, positionsOf_eq_none hbad]
    · have hread : exec (.carriageListReadCompletion ⟨.okay, d⟩) s =
          let r := receiveFrame e f { s with down := rest }
          .next (finishRunning (if r.2 then .replaced else .done) r.1) := by
        rw [hrow]
        simp only [carriageListReturned, hrun, positionsOf_eq_some.2 ⟨hlen, hf⟩]
      refine ⟨fun hl => ?_, fun hl => ?_⟩
      · rw [hread, receiveFrame_of_live (s := { s with down := rest }) f hl]
        exact hfin _ _
      · rw [hread, receiveFrame_of_not_live (s := { s with down := rest }) f hl]
        exact hfin _ _

/-! ## The data fetch of a CARRIAGE word (R134, R135) -/

theorem exec_dataFetchCompletion {s : State} {e : EdId} {live : Bool} {q : Request} {rest : List DownReq}
    (h : takeOldest (Config.channelTag e) s.down = some (⟨.dataFetch e live, q⟩, rest)) (rsp : Response) :
    exec (.dataFetchCompletion e rsp) s =
      .next (if live then dataReturned e rsp { s with down := rest } else { s with down := rest }) := by
  show Host.Outcome.next (respond _ rsp s) = _
  rw [respond, h]

/-- Settles O37: the branches of the completion, and the two ways of the hand-over. -/
theorem fetchedFrameIsHandedOver : Obligations.FetchedFrameIsHandedOver := by
  unfold Obligations.FetchedFrameIsHandedOver
  refine ⟨fun s e q rest rsp hold => exec_dataFetchCompletion hold rsp, ?_⟩
  intro s e q rest a w len count da sup hold hcur hk u
  have hcur : (chanOf u e).current = some ⟨a, w⟩ := hcur
  have hrow : ∀ rsp, exec (.dataFetchCompletion e rsp) s = .next (dataReturned e rsp u) := exec_dataFetchCompletion hold
  refine ⟨fun d => ?_, fun d hbad => ?_, fun d f hlen hf => ?_⟩
  · rw [hrow]
    simp only [dataReturned, hcur, hk]
  · have hnone : buildFrame d len count = none := by rw [buildFrame, positionsOf_eq_none hbad, Option.map_none]
    rw [hrow]
    simp only [dataReturned, hcur, hk, hnone]
  · intro whole g
    have hsome : buildFrame d len count = some whole := by
      rw [buildFrame, positionsOf_eq_some.2 ⟨hlen, hf⟩, Option.map_some]
    rw [hrow]
    simp only [dataReturned, hcur, hk, hsome, receiveFrame_state]
    rfl

end Sys2Proof.Machine
end

section
/-! SUPPORT. HALT SCHEDULE and CLEAR SCHEDULE: stopping a chain after other reports, and the changes that reports do not see
(R142, R143). -/

namespace Sys2Proof.Machine

/-- What stopping channel e changes besides its report: nothing if it is IDLE, the silent end of its chain otherwise. -/
def quietStop (e : EdId) (s : State) : State := if (chanOf s e).state = .idle then s else quietEnd e s

section
variable (e : EdId) (s : State)

theorem quietStop_frame : Frame [.down, .splices, .chans] s (quietStop e s) := by
  unfold quietStop
  split
  · exact .refl s
  · exact quietEnd_frame e s

theorem quietStop_stops : Stops e s (quietStop e s) := by
  unfold quietStop
  split
  · rename_i h
    exact ⟨(if_pos h).symm, fun _ _ => rfl, (if_pos h).symm⟩
  · exact quietEnd_stops e s ‹_›

/-- Stopping a channel whose machines record no wait leaves the machines as they are. -/
theorem machineOf_quietStop (h : ∀ p, (machineOf s e p).waiting = false) (x : EdId) (p : ProgId) :
    machineOf (quietStop e s) x p = machineOf s x p := by
  unfold quietStop
  split
  · rfl
  · rw [quietEnd_machine]
    split
    · subst_vars
      rw [← h p]
    · rfl

/-- The stop of a channel after other reports is its own report after them, over what it changes besides (R142, R143). -/
theorem stopChain_handOverAll (status : EndStatus) (bs : List Report) :
    stopChain e status (handOverAll bs s) = handOverAll (bs ++ stopReports e status s) (quietStop e s) := by
  have hc : chanOf (handOverAll bs s) e = chanOf s e := chanOf_congr (handOverAll_frame bs s).chans_eq e
  unfold quietStop
  split
  · rename_i hidle
    simp only [stopChain, hc, stopReports, hidle, if_true, List.append_nil]
  · rename_i hrun
    rw [stopChain_eq e status _ (hc ▸ hrun), quietEnd_handOverAll, handOverAll_append,
      stopReports_congr (handOverAll_frame bs s).chans_eq]

/-- Reports do not see the composer. -/
theorem modComp_handOverAll (f : CompRecord → CompRecord) (bs : List Report) :
    modComp e f (handOverAll bs s) = handOverAll bs (modComp e f s) := by
  rw [handOverAll_eq, handOverAll_eq]
  rfl

end

/-- The effect of CLEAR SCHEDULE at its owning block: the cancels, the staged frame, and the end of the chain (R143). -/
def cleared (e : EdId) (s : State) : State :=
  stopChain e .cleared (modComp e (fun c => { c with staged := none }) (cancelAll e .clear (dropWait e s)))

/-- What CLEAR SCHEDULE changes besides its reports, and the reports in their order. -/
theorem cleared_says (e : EdId) (s : State) :
    ∃ u : State, Frame [.down, .splices, .chans, .comp] s u ∧ Stops e s u ∧
      (∀ x p, machineOf u x p =
        if x = e then { machineOf s x p with phase := .steady, waiting := false } else machineOf s x p) ∧
      (∀ x, compOf u x = if x = e then { compOf s x with staged := none } else compOf s x) ∧
      cleared e s = handOverAll (cancelReports e .clear s ++ stopReports e .cleared s) u := by
  obtain ⟨v, hframe, hmach, hcancel⟩ := cancelAll_says e .clear (dropWait e s)
  have hdrop := machineOf_dropWait e s
  have hreports : cancelReports e .clear (dropWait e s) = cancelReports e .clear s := by
    simp only [cancelReports, hdrop, if_pos]
  have hsteady : ∀ x p, machineOf v x p =
      if x = e then { machineOf s x p with phase := .steady, waiting := false } else machineOf s x p := by
    intro x p
    rw [hmach, hdrop]
    split <;> rfl
  let w := modComp e (fun c => { c with staged := none }) v
  have hw : Frame [.splices, .comp] s w := ((dropWait_frame e s).trans hframe).andThen (modComp_frame ..)
  refine ⟨quietStop e w, hw.andThen (quietStop_frame e w), (quietStop_stops e w).of_congr hw.chans_eq hw.down_eq,
    fun x p => ?_, fun x => ?_, ?_⟩
  · rw [machineOf_quietStop e w fun p => by rw [show machineOf w e p = machineOf v e p from rfl, hsteady, if_pos rfl]]
    exact hsteady x p
  · have hcomp : ∀ a, compOf v a = compOf s a := compOf_congr (hframe.comp_eq.trans (dropWait_frame e s).comp_eq)
    refine (compOf_congr (quietStop_frame e w).comp_eq x).trans ((compOf_modComp v e x _).trans ?_)
    split
    · rename_i hx
      rw [hx, hcomp]
    · exact hcomp x
  · rw [cleared, hcancel, hreports, modComp_handOverAll, stopChain_handOverAll, stopReports_congr hw.chans_eq]

/-- Settles O39: the silent end under its report; HALT and CLEAR as reports over what they change besides. -/
theorem haltAndClearStopTheChain : Obligations.HaltAndClearStopTheChain := by
  unfold Obligations.HaltAndClearStopTheChain
  refine ⟨fun s e status code a tag => ⟨quietEnd e s, quietEnd_frame e s, killFetches_eq e s.down, quietEnd_machine e s,
    quietEnd_chan e s, by rw [endChain_eq, endAddress_toNat]⟩, fun s h ed hs => ?_⟩
  intro halt clear
  have halts : ∀ {o u}, doHaltSchedule ed s = .done o u → u.refs.scan = none → halt = .next (handOver (ended h 13 o) u) :=
    fun ha hu => takeRow_done (c := .haltSchedule ed) hs nofun ha hu
  have clears : ∀ {o u}, doClearSchedule ed s = .done o u → u.refs.scan = none → clear = .next (handOver (ended h 14 o) u) :=
    fun ha hu => takeRow_done (c := .clearSchedule ed) hs nofun ha hu
  refine ⟨fun hr => ⟨halts ?_ hs.2, clears ?_ hs.2⟩, fun e he => ⟨fun hidle => halts ?_ hs.2, fun hrun =>
    ⟨quietEnd e s, quietEnd_frame e s, quietEnd_stops e s hrun, quietEnd_machine e s, ?_⟩, ?_⟩⟩
  · simp only [doHaltSchedule, index?_eq_none.2 hr]
  · simp only [doClearSchedule, index?_eq_none.2 hr]
  · simp only [doHaltSchedule, index?_eq_some.2 he, if_pos hidle]
  · rw [← stopChain_eq e .halted s hrun]
    refine halts ?_ ((stopChain_frame e .halted s).refs_eq ▸ hs.2)
    simp only [doHaltSchedule, index?_eq_some.2 he, if_neg hrun]
  · obtain ⟨u, hframe, hstops, hmach, hcomp, hclear⟩ := cleared_says e s
    refine ⟨u, hframe, hstops, hmach, hcomp, ?_⟩
    rw [← hclear]
    refine clears ?_ ?_
    · simp only [doClearSchedule, index?_eq_some.2 he, cleared]
    · rw [hclear, (handOverAll_frame ..).refs_eq, hframe.refs_eq]
      exact hs.2

end Sys2Proof.Machine
end

section
/-! SUPPORT. The choices of a feed read: what stale clearing leaves of the composition records, the round robin of the open pool,
and the advance (R65, R66, R74, R77 to R82). -/

set_option Elab.async false

namespace Sys2Proof.Machine

/-! ## What a choice for one edition leaves of the others -/

/-- From s to u no other edition than e loses a reference or has its composition record changed, and no purge scan starts. -/
structure Apart (e : EdId) (s u : State) : Prop where
  comp : ∀ a, a ≠ e → compOf u a = compOf s a
  queue : ∀ a, a ≠ e → ∀ p, queueOf u a p = queueOf s a p
  scan : s.refs.scan = none → u.refs.scan = none

theorem Apart.refl (e : EdId) (s : State) : Apart e s s := ⟨fun _ _ => rfl, fun _ _ _ => rfl, id⟩

theorem Apart.trans {e : EdId} {s u v : State} (h : Apart e s u) (g : Apart e u v) : Apart e s v where
  comp := fun a ha => (g.comp a ha).trans (h.comp a ha)
  queue := fun a ha p => (g.queue a ha p).trans (h.queue a ha p)
  scan := fun hs => g.scan (h.scan hs)

/-- What leaves the composer and the reference store as they are sets edition e apart. -/
theorem Apart.of_frame {bs : List Block} {s u : State} (e : EdId) (f : Frame bs s u) (hc : .comp ∉ bs := by decide)
    (hr : .refs ∉ bs := by decide) : Apart e s u where
  comp := fun a _ => compOf_congr (f.comp_eq hc) a
  queue := fun a _ p => queueOf_congr (f.refs_eq hr) a p
  scan := fun hs => f.refs_eq hr ▸ hs

theorem modComp_apart (e : EdId) (f : CompRecord → CompRecord) (s : State) : Apart e s (modComp e f s) where
  comp := fun a ha => (compOf_modComp s e a f).trans (if_neg ha)
  queue := fun _ _ _ => rfl
  scan := id

theorem releaseRef_apart (e : EdId) (p : ProgId) (n : EntryNo) (s : State) :
    Apart e s { s with refs := releaseRef e p n s.refs } where
  comp := fun _ _ => rfl
  queue := fun _ ha _ => (releaseRef_queue ..).trans (if_neg fun h => ha h.1)
  scan := (releaseRef_scan_none ..).2

/-! ## Stale clearing (R75, R82) -/

/-- From c to d only the four stale counters may have changed. -/
def StaleOnly (c d : CompRecord) : Prop :=
  d = { c with
    staleRing := d.staleRing, staleOverwritten := d.staleOverwritten, staleAge := d.staleAge, staleEcc := d.staleEcc }

theorem StaleOnly.trans {c d f : CompRecord} (h : StaleOnly c d) (g : StaleOnly d f) : StaleOnly c f := by
  unfold StaleOnly at h g ⊢
  rw [g, h]

theorem countStale_staleOnly (x : StaleCause) (c : CompRecord) : StaleOnly c (countStale x c) := by
  cases x <;> rfl

/-- From s to u stale references of edition e may be discarded: its stale counters count, and the other editions are apart. -/
structure Discards (e : EdId) (s u : State) : Prop where
  stale : StaleOnly (compOf s e) (compOf u e)
  apart : Apart e s u

theorem Discards.refl (e : EdId) (s : State) : Discards e s s := ⟨rfl, .refl e s⟩

theorem Discards.trans {e : EdId} {s u v : State} (h : Discards e s u) (g : Discards e u v) : Discards e s v :=
  ⟨h.stale.trans g.stale, h.apart.trans g.apart⟩

theorem Discards.of_frame {bs : List Block} {s u : State} (e : EdId) (f : Frame bs s u) (hc : .comp ∉ bs := by decide)
    (hr : .refs ∉ bs := by decide) : Discards e s u :=
  ⟨by rw [compOf_congr (f.comp_eq hc)]; rfl, .of_frame e f hc hr⟩

theorem discardStale_discards (e : EdId) (p : ProgId) (n : EntryNo) (c : StaleCause) (s : State) :
    Discards e s (discardStale e p n c s) where
  stale := by
    rw [discardStale, compOf_modComp_same]
    exact countStale_staleOnly c _
  apart := (releaseRef_apart e p n s).trans (modComp_apart e _ _)

theorem correction_discards (e : EdId) (n : EntryNo) (s : State) : Discards e s (countRefs n (correctRef n s)) where
  stale := by
    rw [compOf_congr (countRefs_frame n _).comp_eq]
    rfl
  apart :=
    { comp := fun a _ => compOf_congr (countRefs_frame n _).comp_eq a
      queue := fun a _ p => by rw [queueOf, countRefs_refs]; rfl
      scan := fun hs => by rw [countRefs_refs]; exact hs }

/-- A read of an entry may discard it. -/
theorem readRef_discards (e : EdId) (p : ProgId) (n : EntryNo) (s : State) : Discards e s (readRef e p n s).1 := by
  cases hc : (tget s.refs.slots n).check with
  | clean => rw [readRef_clean hc]; exact .refl e s
  | single => rw [readRef_single hc]; exact correction_discards e n s
  | double => rw [readRef_double hc]; exact (discardStale_discards ..).trans (.of_frame e (handOver_frame ..))

theorem clearQueue_discards (e : EdId) (p : ProgId) (t : HouseTime) (fuel : Nat) (s : State) :
    Discards e s (clearQueue e p t fuel s) := by
  induction fuel generalizing s with
  | zero => exact .refl e s
  | succ fuel ih =>
    unfold clearQueue
    split
    · exact .refl e s
    · rename_i n _ _
      have hread := readRef_discards e p n s
      split <;> rename_i heq <;> rw [heq] at hread
      · exact hread.trans (ih _)
      · split
        · exact hread.trans ((discardStale_discards ..).trans (ih _))
        · exact hread

theorem clearAll_discards (e : EdId) (t : HouseTime) (s : State) : Discards e s (clearAll e t s) := by
  unfold clearAll
  generalize List.finRange 48 = l
  induction l generalizing s with
  | nil => exact .refl e s
  | cons p l ih => exact (clearQueue_discards e p t _ s).trans (ih _)

/-! ## Round robin (R79) -/

/-- How far a slot stands behind the last-served one, which comes last. -/
def turn (last q : ProgId) : Nat := (q.val + 47 - last.val) % 48

theorem length_roundRobin (last : ProgId) : (roundRobin last).length = 48 := by simp [roundRobin]

theorem turn_roundRobin (last : ProgId) {i : Nat} (hi : i < (roundRobin last).length) : turn last (roundRobin last)[i] = i := by
  have hi48 : i < 48 := length_roundRobin last ▸ hi
  simp only [roundRobin, List.getElem_map, List.getElem_finRange, turn, Fin.val_add, Fin.val_cast]
  show (((last.val + 1) % 48 + i) % 48 + 47 - last.val) % 48 = i
  omega

/-- A slot is found in its turn. -/
theorem roundRobin_turn (last q : ProgId) : (roundRobin last)[turn last q]? = some q := by
  have hlt : turn last q < 48 := Nat.mod_lt _ (by omega)
  simp only [roundRobin, List.getElem?_map, List.getElem?_eq_getElem (l := List.finRange 48) (by simpa using hlt),
    Option.map_some, List.getElem_finRange]
  congr 1
  apply Fin.ext
  simp only [Fin.val_add, Fin.val_cast, turn]
  show ((last.val + 1) % 48 + (q.val + 47 - last.val) % 48) % 48 = q.val
  omega

/-- The first slot of a kind in round robin order is the one whose turn comes first. -/
theorem find?_roundRobin {last q : ProgId} {P : ProgId → Bool} (hq : P q = true)
    (hmin : ∀ q', P q' = true → turn last q ≤ turn last q') : (roundRobin last).find? P = some q := by
  obtain ⟨hlt, hget⟩ := List.getElem?_eq_some_iff.1 (roundRobin_turn last q)
  refine List.find?_eq_some_iff_getElem.2 ⟨hq, turn last q, hlt, hget, fun j hj => ?_⟩
  rw [Bool.not_eq_true', Bool.eq_false_iff]
  intro hP
  have := hmin _ hP
  rw [turn_roundRobin] at this
  omega

/-! ## The open pool (R78, R79) -/

section
variable {s : State} {e : EdId}

theorem candidateIn_iff {k : Priority} {q : ProgId} : candidateIn s e k q = true ↔
    queueOf s e q ≠ [] ∧ tget (compOf s e).openCount q < (tget (compOf s e).inForce q).ceiling ∧
      (tget (compOf s e).inForce q).priority = k := by
  simp [candidateIn, candidate, and_assoc]

/-- The last-served pointer of a class. -/
def lastOf (c : CompRecord) : Priority → ProgId
  | .high => c.lastHigh
  | .low => c.lastLow

/-- A winner is a candidate of its class (R78). -/
theorem candidateIn_of_openWinner {q : ProgId} {k : Priority} (h : openWinner s e = some (q, k)) :
    candidateIn s e k q = true := by
  unfold openWinner at h
  split at h
  · rename_i hfind
    cases h
    exact List.find?_some hfind
  · obtain ⟨q', hfind, heq⟩ := Option.map_eq_some_iff.1 h
    cases heq
    exact List.find?_some hfind

theorem openWinner_of_none (h : ∀ k q, ¬candidateIn s e k q = true) : openWinner s e = none := by
  have hfind : ∀ k last, (roundRobin last).find? (candidateIn s e k) = none := fun k last =>
    List.find?_eq_none.2 fun q _ => h k q
  simp only [openWinner, hfind, Option.map_none]

/-- The candidate of the competing class whose turn comes first wins (R78, R79). -/
theorem openWinner_of_first {k : Priority} {q : ProgId} (hq : candidateIn s e k q = true)
    (halone : k = .low → ∀ q', ¬candidateIn s e .high q' = true)
    (hmin : ∀ q', candidateIn s e k q' = true → turn (lastOf (compOf s e) k) q ≤ turn (lastOf (compOf s e) k) q') :
    openWinner s e = some (q, k) := by
  have hfind := find?_roundRobin hq hmin
  cases k with
  | high =>
    unfold openWinner
    rw [show (roundRobin (compOf s e).lastHigh).find? (candidateIn s e .high) = some q from hfind]
  | low =>
    have hhigh : (roundRobin (compOf s e).lastHigh).find? (candidateIn s e .high) = none :=
      List.find?_eq_none.2 fun q' _ => halone rfl q'
    unfold openWinner
    rw [hhigh, show (roundRobin (compOf s e).lastLow).find? (candidateIn s e .low) = some q from hfind]
    rfl

theorem takeHead_of_cons {q : ProgId} {n : EntryNo} {rest : List EntryNo} (h : queueOf s e q = n :: rest) :
    takeHead e q s = ({ s with refs := releaseRef e q n s.refs }, some (tget s.refs.slots n).ref) := by
  simp only [takeHead, h]

theorem chooseOpen_of_none (h : openWinner s e = none) : chooseOpen e s = (s, none) := by
  simp only [chooseOpen, h]

theorem chooseOpen_of_some {q : ProgId} {k : Priority} (h : openWinner s e = some (q, k)) :
    chooseOpen e s = takeHead e q (modComp e (serveOpen q k) s) := by
  simp only [chooseOpen, h]

/-! ## One place (R77, R80, R81) -/

theorem choosePlace_of_open (h : (compOf s e).frame[(compOf s e).pos]? = some .openPool) :
    choosePlace e s = chooseOpen e s := by
  simp only [choosePlace, List.getD_eq_getElem?_getD, h, Option.getD_some]

theorem choosePlace_of_prog {p : ProgId} (h : (compOf s e).frame[(compOf s e).pos]? = some (.prog p)) :
    choosePlace e s = if (queueOf s e p).isEmpty then chooseOpen e s else takeHead e p s := by
  simp only [choosePlace, List.getD_eq_getElem?_getD, h, Option.getD_some]

end

theorem takeHead_comp (e : EdId) (q : ProgId) (s : State) : (takeHead e q s).1.comp = s.comp :=
  (takeHead_frame e q s).comp_eq

/-- A choice spends no open place, or that of the winner of the open pool (R77, R79). -/
theorem compOf_choosePlace (e : EdId) (s : State) :
    compOf (choosePlace e s).1 e = compOf s e ∨
      ∃ q k, candidateIn s e k q = true ∧ compOf (choosePlace e s).1 e = serveOpen q k (compOf s e) := by
  have hopen : compOf (chooseOpen e s).1 e = compOf s e ∨
      ∃ q k, candidateIn s e k q = true ∧ compOf (chooseOpen e s).1 e = serveOpen q k (compOf s e) := by
    cases hw : openWinner s e with
    | none => rw [chooseOpen_of_none hw]; exact .inl rfl
    | some w =>
      obtain ⟨q, k⟩ := w
      refine .inr ⟨q, k, candidateIn_of_openWinner hw, ?_⟩
      rw [chooseOpen_of_some hw, compOf_congr (takeHead_comp ..), compOf_modComp_same]
  unfold choosePlace
  split
  · split
    · exact hopen
    · exact .inl (compOf_congr (takeHead_comp ..) e)
  · exact hopen

theorem takeHead_apart (e : EdId) (q : ProgId) (s : State) : Apart e s (takeHead e q s).1 := by
  unfold takeHead
  split
  · exact .refl e s
  · exact releaseRef_apart ..

theorem chooseOpen_apart (e : EdId) (s : State) : Apart e s (chooseOpen e s).1 := by
  unfold chooseOpen
  split
  · exact .refl e s
  · exact (modComp_apart ..).trans (takeHead_apart ..)

theorem choosePlace_apart (e : EdId) (s : State) : Apart e s (choosePlace e s).1 := by
  unfold choosePlace
  split
  · split
    · exact chooseOpen_apart e s
    · exact takeHead_apart ..
  · exact chooseOpen_apart e s

theorem chooseOne_apart (e : EdId) (t : HouseTime) (s : State) : Apart e s (chooseOne e t s).1 :=
  ((clearAll_discards e t s).apart.trans (choosePlace_apart e _)).trans (modComp_apart ..)

theorem composeRead_apart (e : EdId) (t : HouseTime) (n : Nat) (s : State) : Apart e s (composeRead e t n s).1 := by
  induction n generalizing s with
  | zero => exact .refl e s
  | succ n ih => exact (chooseOne_apart e t s).trans (ih _)

theorem length_composeRead (e : EdId) (t : HouseTime) (n : Nat) (s : State) : (composeRead e t n s).2.length = n := by
  induction n generalizing s with
  | zero => rfl
  | succ n ih => exact congrArg (· + 1) (ih _)

/-! ## The advance (R65, R66) -/

/-- The fields of a composition record that an advance looks at. -/
def timing (c : CompRecord) :
    Nat × List Position × Option (List Position) × PerProgramme ProgSetting × PerProgramme ProgSetting :=
  (c.pos, c.frame, c.staged, c.inForce, c.pending)

theorem timing_serveOpen (q : ProgId) (k : Priority) (c : CompRecord) : timing (serveOpen q k c) = timing c := by
  cases k <;> rfl

theorem timing_of_staleOnly {c d : CompRecord} (h : StaleOnly c d) : timing d = timing c := by
  rw [h]
  rfl

/-- Until its advance a choice leaves the position, the frames and the settings as they are. -/
theorem timing_choosePlace (e : EdId) (t : HouseTime) (s : State) :
    timing (compOf (choosePlace e (clearAll e t s)).1 e) = timing (compOf s e) := by
  rw [← timing_of_staleOnly (clearAll_discards e t s).stale]
  rcases compOf_choosePlace e (clearAll e t s) with h | ⟨q, k, -, h⟩ <;> rw [h]
  exact timing_serveOpen q k _

theorem compOf_chooseOne (e : EdId) (t : HouseTime) (s : State) :
    compOf (chooseOne e t s).1 e = advance (compOf (choosePlace e (clearAll e t s)).1 e) := compOf_modComp_same ..

theorem advance_of_inside {c : CompRecord} (h : c.pos + 1 < c.frame.length) : advance c = { c with pos := c.pos + 1 } :=
  if_pos h

theorem advance_of_last {c : CompRecord} (h : c.frame.length ≤ c.pos + 1) : advance c = boundary c :=
  if_neg (Nat.not_lt.2 h)

/-- Settles O25: the place by its position, the open pool by the round robin, and the advance over what a choice leaves. -/
theorem placesAreServedInTurn : Obligations.PlacesAreServedInTurn := by
  unfold Obligations.PlacesAreServedInTurn
  refine ⟨fun s e p hp => ⟨fun n rest hq => ?_, fun hq => ?_⟩, fun s e hp => choosePlace_of_open hp,
    fun s e t => ⟨rfl, rfl, fun n => rfl⟩, fun s e => ?_, fun s e t => ?_⟩
  · rw [choosePlace_of_prog hp, hq]
    exact takeHead_of_cons hq
  · rw [choosePlace_of_prog hp, hq]
    rfl
  · intro c cand
    have hcand : ∀ k q, candidateIn s e k q = true ↔ cand k q := fun k q => candidateIn_iff
    refine ⟨fun hn => chooseOpen_of_none (openWinner_of_none fun k q => mt (hcand k q).1 (hn k q)), ?_⟩
    intro k q n rest hq halone last hmin hqueue c' c''
    have hlast : lastOf c k = last := by cases k <;> rfl
    have hserve : serveOpen q k c = c'' := by cases k <;> rfl
    have hwin : openWinner s e = some (q, k) :=
      openWinner_of_first ((hcand k q).2 hq) (fun hk q' => mt (hcand .high q').1 (halone hk q')) fun q' hq' => by
        rw [show lastOf (compOf s e) k = last from hlast]
        exact hmin q' ((hcand k q').1 hq')
    rw [chooseOpen_of_some hwin, takeHead_of_cons (s := modComp e (serveOpen q k) s) hqueue, ← hserve]
    rfl
  · intro c d
    have ht : timing (compOf (choosePlace e (clearAll e t s)).1 e) = timing c := timing_choosePlace e t s
    have hd : d = advance (compOf (choosePlace e (clearAll e t s)).1 e) := compOf_chooseOne e t s
    generalize compOf (choosePlace e (clearAll e t s)).1 e = x at ht hd
    simp only [timing, Prod.mk.injEq] at ht
    obtain ⟨hpos, hframe, hstaged, hforce, hpending⟩ := ht
    rw [hd, ← hpos, ← hframe, ← hstaged, ← hforce, ← hpending]
    refine ⟨fun h => ?_, fun h => ?_⟩
    · rw [advance_of_inside h]
      exact ⟨rfl, rfl, rfl, rfl, rfl⟩
    · rw [advance_of_last h]
      exact ⟨rfl, rfl, rfl, rfl, rfl, tget_replicate 0⟩

end Sys2Proof.Machine
end

section
/-! SUPPORT. A whole-cell read that the part composes: the issue of its delivery reads, the account of owed cells over finishing,
and the take (R74, R89, R90, R95, R101, R158). -/

set_option Elab.async false

namespace Sys2Proof.Machine

/-! ## The issue of delivery reads (R90) -/

/-- The delivery read of a chosen reference of edition e. -/
def deliveryRead (e : EdId) (s : State) (x : Reference) : DownReq :=
  ⟨.delivery e x.ring true, ownRead (Config.deliveryTag e) (slotAddr (ringOf s x.ring) x.seq) 224⟩

theorem ringOf_issueDelivery (e : EdId) (x : Reference) (s : State) (i : RingId) :
    ringOf (issueDelivery e x s) i =
      { ringOf s i with readsInFlight := (ringOf s i).readsInFlight + if x.ring = i then 1 else 0 } := by
  show ringOf (modRing _ _ s) i = _
  rw [ringOf_modRing]
  by_cases h : x.ring = i
  · subst h
    simp
  · rw [if_neg (Ne.symm h), if_neg h]
    rfl

/-- A delivery read in flight does not move the slots of its ring. -/
theorem deliveryRead_issueDelivery (e : EdId) (x : Reference) (s : State) :
    deliveryRead e (issueDelivery e x s) = deliveryRead e s := by
  funext y
  simp only [deliveryRead, ringOf_issueDelivery, slotAddr]

/-- The delivery reads of some references: one request for each in their order, each counted in flight for its ring. -/
theorem issueDeliveries_says (e : EdId) (l : List Reference) (s : State) :
    let u := l.foldl (fun s x => issueDelivery e x s) s
    u.down = s.down ++ l.map (deliveryRead e s) ∧
      (∀ i, ringOf u i = { ringOf s i with
        readsInFlight := (ringOf s i).readsInFlight + (l.filter fun x => x.ring == i).length }) ∧
      u.rings.protection = s.rings.protection := by
  induction l generalizing s with
  | nil => simp
  | cons x l ih =>
    obtain ⟨hdown, hring, hprot⟩ := ih (issueDelivery e x s)
    refine ⟨?_, fun i => ?_, hprot⟩
    · rw [List.foldl_cons, hdown, deliveryRead_issueDelivery, List.map_cons, List.append_cons]
      rfl
    · rw [List.foldl_cons, hring, ringOf_issueDelivery]
      by_cases h : x.ring = i
      · simp only [h, beq_self_eq_true, List.filter_cons_of_pos, List.length_cons, if_true, Nat.add_assoc, Nat.add_comm 1]
      · simp [h]

/-! ## Finishing (R95, R97, R101) -/

/-- An entry whose final cell is not made yet. -/
def unfinished (x : InFlight) : Bool :=
  match x.state with
  | .finished .. => false
  | _ => true

/-- The entries of a list whose cells are still owed. -/
def owing (l : List InFlight) : Nat := l.countP unfinished

theorem owed_eq (f : FeedRecord) : owed f = owing f.reads.flatten := List.countP_eq_length_filter.symm

/-- The cells that a delivery record has counted as delivered or filler, with those that a list of entries still owes. -/
def account (f : FeedRecord) (l : List InFlight) : BitVec 32 := f.delivered + f.filler + BitVec.ofNat 32 (owing l)

theorem account_append (f : FeedRecord) (l m : List InFlight) :
    account f (l ++ m) = account f l + BitVec.ofNat 32 (owing m) := by
  simp only [account, owing, List.countP_append, BitVec.ofNat_add, BitVec.add_assoc]

theorem account_cons (f : FeedRecord) (x : InFlight) (l : List InFlight) :
    account f (x :: l) = account f [x] + BitVec.ofNat 32 (owing l) := account_append f [x] l

/-- An entry is finished once, and counted then. -/
theorem finishEntry_account {f g : FeedRecord} {x y : InFlight} (h : finishEntry f x = some (g, y)) :
    unfinished y = false ∧ account g [y] = account f [x] := by
  unfold finishEntry at h
  split at h
  · cases h
  · rename_i hs
    cases h
    exact ⟨by simp [unfinished, hs], rfl⟩
  · rename_i hs
    cases h
    refine ⟨rfl, ?_⟩
    simp [account, owing, unfinished, hs, BitVec.add_assoc]
  · rename_i hs
    split at h
    · cases h
    · cases h
      refine ⟨rfl, ?_⟩
      simpa [account, owing, unfinished, hs] using add_right_comm f.delivered 1 f.filler

/-- Finishing over the entries of a read keeps the account; a read whose every entry is finished owes nothing. -/
theorem finishEntries_account (f : FeedRecord) (l : List InFlight) :
    account (finishEntries f l).1 (finishEntries f l).2.1 = account f l ∧
      ((finishEntries f l).2.2 = true → owing (finishEntries f l).2.1 = 0) := by
  induction l generalizing f with
  | nil => exact ⟨rfl, fun _ => rfl⟩
  | cons x l ih =>
    cases hx : finishEntry f x with
    | none => simp only [finishEntries, hx, true_and, Bool.false_eq_true, false_implies]
    | some r =>
      obtain ⟨g, y⟩ := r
      obtain ⟨hdone, hone⟩ := finishEntry_account hx
      obtain ⟨hrest, hall⟩ := ih g
      simp only [finishEntries, hx]
      refine ⟨?_, fun h => ?_⟩
      · have hy : owing (y :: (finishEntries g l).2.1) = owing (finishEntries g l).2.1 := by simp [owing, hdone]
        have hg : account g [y] = g.delivered + g.filler := by simp [account, owing, hdone]
        rw [account_cons f, ← hone, hg, account, hy]
        exact hrest
      · simpa [owing, hdone] using hall h

/-- Finishing over the reads of a list keeps the account, and loses no owed cell with the reads handed over. -/
theorem finishReads_account (f : FeedRecord) (ls : List (List InFlight)) :
    account (finishReads f ls).1 (finishReads f ls).2.1.flatten = account f ls.flatten := by
  induction ls generalizing f with
  | nil => rfl
  | cons l ls ih =>
    obtain ⟨hkeep, hall⟩ := finishEntries_account f l
    obtain ⟨⟨g, l', done⟩, hl⟩ : ∃ r, finishEntries f l = r := ⟨_, rfl⟩
    rw [hl] at hkeep hall
    rw [List.flatten_cons, account_append, ← hkeep]
    cases done with
    | false => simp only [finishReads, hl, List.flatten_cons, account_append]
    | true =>
      simp only [finishReads, hl, ih]
      simp [account, show owing l' = 0 from hall rfl]

theorem length_readyFirst (sel : OpenReq → Bool) (rsp : Response) (os : List OpenReq) :
    (readyFirst sel rsp os).length = os.length := by
  induction os with
  | nil => rfl
  | cons o os ih =>
    unfold readyFirst
    split
    · rfl
    · exact congrArg (· + 1) ih

/-- What finishing of edition e does to the delivery records and to the number of open requests. -/
theorem finish_says (e : EdId) (s : State) :
    account (feedOf (finish e s) e) (feedOf (finish e s) e).reads.flatten = account (feedOf s e) (feedOf s e).reads.flatten ∧
      (∀ a, a ≠ e → feedOf (finish e s) a = feedOf s a) ∧
      (finish e s).path.openReqs.length = s.path.openReqs.length := by
  have hand : ∀ (l : List (List Byte)) (u : State),
      (l.foldl (fun s cells => readyFeed e cells s) u).dlv = u.dlv ∧
        (l.foldl (fun s cells => readyFeed e cells s) u).path.openReqs.length = u.path.openReqs.length := by
    intro l
    induction l with
    | nil => exact fun u => ⟨rfl, rfl⟩
    | cons cells l ih =>
      intro u
      obtain ⟨hdlv, hlen⟩ := ih (readyFeed e cells u)
      exact ⟨hdlv, hlen.trans (length_readyFirst ..)⟩
  let r := finishReads (feedOf s e) (feedOf s e).reads
  let u := modFeed e (fun _ => { r.1 with reads := r.2.1 }) s
  obtain ⟨hdlv, hlen⟩ := hand r.2.2 u
  have hfeed : ∀ a, feedOf (finish e s) a = feedOf u a := feedOf_congr hdlv
  refine ⟨?_, fun a ha => ?_, hlen⟩
  · rw [hfeed, show feedOf u e = { r.1 with reads := r.2.1 } from feedOf_modFeed_same ..]
    exact finishReads_account ..
  · rw [hfeed]
    exact (feedOf_modFeed ..).trans (if_neg ha)

/-! ## The entries of a read (R81, R89) -/

theorem owing_entries (t : HouseTime) (offset : BitVec 24) (l : List (Option Reference)) :
    owing (l.map (entryFor t offset)) = l.length := by
  have : ∀ x ∈ l.map (entryFor t offset), unfinished x = true := by
    intro x hx
    obtain ⟨c, -, rfl⟩ := List.mem_map.1 hx
    cases c <;> rfl
  rw [owing, List.countP_eq_length.2 this, List.length_map]

theorem filterMap_ref_entries (t : HouseTime) (offset : BitVec 24) (l : List (Option Reference)) :
    (l.map (entryFor t offset)).filterMap (·.ref) = l.filterMap id := by
  rw [List.filterMap_map]
  refine List.filterMap_congr fun c _ => ?_
  cases c <;> rfl

/-- What the join of a read does: its entries at the end of the list, and the delivery reads of its references. -/
theorem joinRead_says (e : EdId) (xs : List InFlight) (s : State) :
    let u := joinRead e xs s
    u.down = s.down ++ (xs.filterMap (·.ref)).map (deliveryRead e s) ∧
      (∀ i, ringOf u i = { ringOf s i with
        readsInFlight := (ringOf s i).readsInFlight + ((xs.filterMap (·.ref)).filter fun x => x.ring == i).length }) ∧
      u.rings.protection = s.rings.protection ∧
      feedOf u e = { feedOf s e with reads := (feedOf s e).reads ++ [xs] } ∧
      ∀ a, a ≠ e → feedOf u a = feedOf s a := by
  let v := modFeed e (fun f => { f with reads := f.reads ++ [xs] }) s
  obtain ⟨hdown, hring, hprot⟩ := issueDeliveries_says e (xs.filterMap (·.ref)) v
  have hfeed : ∀ a, feedOf (joinRead e xs s) a = feedOf v a := feedOf_congr
    (Frame.foldl (bs := [.rings, .down]) (fun s x => issueDelivery_frame e x s) _ v).dlv_eq
  refine ⟨hdown, hring, hprot, ?_, fun a ha => ?_⟩
  · rw [hfeed]
    exact feedOf_modFeed_same ..
  · rw [hfeed]
    exact (feedOf_modFeed ..).trans (if_neg ha)

/-! ## The take (R156, R158) -/

/-- An edition that a feed read finds LIVE, or DORMANT with AUTO-RESUME set (R158). -/
abbrev Answers (r : EditionRecord) : Prop := r.state = .live ∨ (r.state = .dormant ∧ r.autoResume = true)

/-- The edition as a feed read that it answers leaves it. -/
def woken (e : EdId) (s : State) : State := modEd e (fun x => { x with state := .live, idle := 0 }) s

theorem feedReadTaken_of_answers {e : EdId} {s : State} (h : Answers (edOf s e)) :
    feedReadTaken e s =
      if (edOf s e).state = .live then woken e s else handOver (.edition e .resumed 0) (woken e s) := by
  rcases h with hl | ⟨hd, hauto⟩
  · have hsame : modEd e (fun x => { x with idle := 0 }) s = woken e s := by
      simp only [woken, modEd, tmodify]
      rw [← hl]
      rfl
    simp only [feedReadTaken, hl, if_true, hsame]
  · simp only [feedReadTaken, hd, hauto, if_true]
    rfl

theorem edOf_woken (e a : EdId) (s : State) :
    edOf (woken e s) a = if a = e then { edOf s e with state := .live, idle := 0 } else edOf s a := edOf_modEd ..

/-- The take of a feed read that the edition answers, before its choices. -/
theorem feedReadTaken_says {e : EdId} {s : State} (h : Answers (edOf s e)) :
    edOf (feedReadTaken e s) e = { edOf s e with state := .live, idle := 0 } ∧
      ∀ a, a ≠ e → edOf (feedReadTaken e s) a = edOf s a := by
  have heds : ∀ a, edOf (feedReadTaken e s) a = edOf (woken e s) a := by
    intro a
    rw [feedReadTaken_of_answers h]
    split
    · rfl
    · exact edOf_congr (handOver_eds ..) a
  refine ⟨?_, fun a ha => ?_⟩
  · rw [heds, edOf_woken, if_pos rfl]
  · rw [heds, edOf_woken, if_neg ha]

/-- The presented read opens, and its edition takes it; then a purge is judged. -/
theorem exec_wholeCellRead {s : State} {r : Request} {us : List Upset} {e : EdId} {n : Nat}
    (hc : classify s r = .feedRead e n) (ht : Takes s r) : exec (.wholeCellRead r us) s =
      .next (settlePurge (takeFeedRead e n (openReq r.tag (.feedRead e) none (upsetRefs us s)))) := by
  show Host.Outcome.next (present r (upsetRefs us s)) = _
  rw [present_of_takes ((takes_upsetRefs us s r).2 ht), takeRequest, show classify (upsetRefs us s) r = _ from hc]

/-- A read that its edition answers is composed, joins the in-flight list, and finishing runs (R74, R89, R158). -/
theorem takeFeedRead_of_answers {e : EdId} {s : State} (h : Answers (edOf s e)) (n : Nat) :
    takeFeedRead e n s =
      let composed := composeRead e s.time.now n (feedReadTaken e s)
      finish e (joinRead e (composed.2.map (entryFor s.time.now (edOf s e).offset)) composed.1) := by
  have hlive : (edOf (feedReadTaken e s) e).state = .live := by rw [(feedReadTaken_says h).1]
  have htime : (feedReadTaken e s).time = s.time := (feedReadTaken_frame e s).time_eq
  simp only [takeFeedRead, readChoices, if_pos hlive, htime]

/-- Settles O22: the take wakes the edition, the choices leave the delivery unit and the rings as they are, the join is read off,
and finishing keeps the account of owed cells. -/
theorem composedReadOwesEveryCell : Obligations.ComposedReadOwesEveryCell := by
  unfold Obligations.ComposedReadOwesEveryCell
  intro s r us e n hc ht hp hans wake start composed entry read chosen
  have hentry : entry = entryFor s.time.now (edOf s e).offset := by
    funext c
    cases c <;> rfl
  let opened := openReq r.tag (.feedRead e) none (upsetRefs us s)
  have hopened : Frame [.path, .refs] s opened := (upsetRefs_frame us s).andThen (openReq_frame ..)
  have hansOpened : Answers (edOf opened e) := hans
  have hstart : feedReadTaken e opened = start := feedReadTaken_of_answers hansOpened
  have hfstart : Frame [.path, .refs, .eds, .down, .rep] s start := hstart ▸ hopened.andThen (feedReadTaken_frame ..)
  have hfcomposed : Frame [.path, .refs, .eds, .down, .rep, .comp] s composed.1 :=
    hfstart.andThen (composeRead_frame e s.time.now n start)
  have hapart : Apart e start composed.1 := composeRead_apart ..
  have hstartRefs : start.refs = (upsetRefs us s).refs := by rw [← hstart, (feedReadTaken_frame e opened).refs_eq]; rfl
  have hlength : composed.2.length = n := length_composeRead ..
  let u := joinRead e (composed.2.map entry) composed.1
  obtain ⟨hdown, hring, hprot, hfeed, hothers⟩ := joinRead_says e (composed.2.map entry) composed.1
  have hchosen : (composed.2.map entry).filterMap (·.ref) = chosen := by rw [hentry, filterMap_ref_entries]
  rw [hchosen] at hdown hring
  have hfu : Frame [.down, .rings, .dlv] composed.1 u := (joinRead_frame ..).mono
  have hrings : composed.1.rings = s.rings := hfcomposed.rings_eq
  have hreadEq : deliveryRead e composed.1 = read := by
    funext x
    simp only [deliveryRead, ringOf_congr hrings]
    rfl
  have hfeeds : ∀ a, feedOf composed.1 a = feedOf s a := feedOf_congr hfcomposed.dlv_eq
  obtain ⟨haccount, hfinOthers, hopen⟩ := finish_says e u
  have hft : Frame [.dlv, .path] u (finish e u) := finish_frame e u
  have heds : (finish e u).eds = start.eds :=
    hft.eds_eq.trans (hfu.eds_eq.trans (composeRead_frame e s.time.now n start).eds_eq)
  obtain ⟨hedHere, hedOthers⟩ := feedReadTaken_says hansOpened
  rw [hstart] at hedHere hedOthers
  have hall : Frame [.path, .down, .rings, .refs, .comp, .dlv, .eds, .rep] s (finish e u) :=
    (hfcomposed.andThen hfu : Frame [.path, .refs, .eds, .down, .rep, .comp, .rings, .dlv] s u).andThen hft
  have hpurge : NoPurge (finish e u) := by
    refine ⟨?_, fun c i => hall.cmd_eq ▸ hp.2 c i⟩
    rw [hft.refs_eq, hfu.refs_eq]
    exact hapart.scan (hstartRefs ▸ hp.1)
  have hrow : exec (.wholeCellRead r us) s = .next (finish e u) := by
    have hcompose : takeFeedRead e n opened = finish e u := by
      rw [takeFeedRead_of_answers hansOpened, hstart]
      exact congrArg (fun x => finish e (joinRead e (composed.2.map x) composed.1)) hentry.symm
    rw [exec_wholeCellRead hc ht, show takeFeedRead e n (openReq _ _ _ _) = _ from hcompose, settlePurge_of_noPurge hpurge]
  refine ⟨hlength, u, finish e u, hrow, rfl, hfu, hreadEq ▸ hdown, fun i => ?_, ?_, ?_, fun a ha => ?_, ?_, ?_, ?_, fun a ha => ?_,
    hall⟩
  · rw [hring, ringOf_congr hrings]
  · rw [hprot, hrings]
  · rw [hfeed, hfeeds]
  · rw [hothers a ha, hfeeds]
  · rw [edOf_congr heds, hedHere]
    rfl
  · rw [owed_eq, owed_eq]
    show account _ _ = _
    rw [haccount, hfeed, hfeeds, List.flatten_append, account_append, List.flatten_singleton, hentry, owing_entries, hlength,
      BitVec.ofNat_add, ← BitVec.add_assoc]
    rfl
  · have hpath : u.path = opened.path := hfu.path_eq.trans
      ((composeRead_frame e s.time.now n start).path_eq.trans (hstart ▸ (feedReadTaken_frame e opened).path_eq))
    rw [hopen, hpath]
    simp [opened, openReq, upsetRefs]
  · refine ⟨?_, ?_, ?_, fun p => ?_⟩
    · rw [edOf_congr heds, hedOthers a ha]
      rfl
    · rw [compOf_congr (hft.comp_eq.trans hfu.comp_eq), hapart.comp a ha, compOf_congr hfstart.comp_eq]
    · rw [hfinOthers a ha, hothers a ha, hfeeds]
    · rw [queueOf_congr (hft.refs_eq.trans hfu.refs_eq), hapart.queue a ha, queueOf_congr hstartRefs]
      rfl

end Sys2Proof.Machine
end

section
/-! SUPPORT. The laws of the carriage records: what they ask of one composition record, of the frames on their way, and what each
change of a record leaves of them (R64, R65, R66, R69, R72, R78). -/

set_option Elab.async false

namespace Sys2Proof.Machine

/-! ## One composition record -/

theorem FrameLength.pos {n : Nat} (h : FrameLength n) : 0 < n := Nat.lt_of_lt_of_le (by decide) h.1

/-- The laws of the composition record of an edition in a lifecycle state. -/
structure Sound (st : EdState) (c : CompRecord) : Prop where
  pos : c.pos < c.frame.length
  frame : FrameLength c.frame.length
  staged : ∀ f, c.staged = some f → FrameLength f.length
  opened : ∀ q, tget c.openCount q ≤ (tget c.inForce q).ceiling
  asleep : st ≠ .live → c.staged = none ∧ ∀ q, tget c.openCount q = 0

@[simp] theorem tget_zeroCounts (q : ProgId) : tget zeroCounts q = 0 := tget_replicate 0 q

section
variable {st : EdState} {c : CompRecord}

theorem Sound.reset (st : EdState) : Sound st .reset where
  pos := by decide
  frame := by decide
  staged := nofun
  opened := by simp [CompRecord.reset]
  asleep := by simp [CompRecord.reset]

/-- A record of an edition that sleeps suits every lifecycle state. -/
theorem Sound.of_asleep (h : Sound st c) (hs : st ≠ .live) (st' : EdState) : Sound st' c :=
  { h with asleep := fun _ => h.asleep hs }

theorem Sound.wake (h : Sound st c) : Sound .live c := { h with asleep := fun hn => absurd rfl hn }

/-- A frame boundary brings a legal frame into force and zeroes the open counts, so that the edition may sleep (R66, R72). -/
theorem Sound.boundary (h : Sound st c) (st' : EdState) : Sound st' (boundary c) := by
  have hlen : FrameLength (c.staged.getD c.frame).length := by
    cases hc : c.staged with
    | none => exact h.frame
    | some f => exact h.staged f hc
  exact ⟨FrameLength.pos hlen, hlen, nofun, fun q => by simp [Machine.boundary],
    fun _ => ⟨rfl, tget_zeroCounts⟩⟩

theorem Sound.advance (h : Sound st c) : Sound st (advance c) := by
  unfold Machine.advance
  split
  · exact { h with pos := ‹_› }
  · exact h.boundary st

/-- A legal frame is staged in LIVE and current at once otherwise (R69). -/
theorem Sound.frameTo (h : Sound st c) {f : List Position} (hf : FrameLength f.length) : Sound st (frameTo st f c) := by
  unfold Machine.frameTo
  split
  · exact { h with
      staged := fun g hg => by cases hg; exact hf
      asleep := fun hn => absurd ‹_› hn }
  · exact ⟨FrameLength.pos hf, hf, h.staged, fun q => by simp [applyFrame],
      fun hn => ⟨(h.asleep hn).1, tget_zeroCounts⟩⟩

theorem Sound.unstage (h : Sound st c) : Sound st { c with staged := none } :=
  { h with
    staged := nofun
    asleep := fun hn => ⟨rfl, (h.asleep hn).2⟩ }

theorem Sound.turnOn (h : Sound st c) : Sound .live (compTurnOn c) where
  pos := FrameLength.pos h.frame
  frame := h.frame
  staged := h.staged
  opened := fun q => by simp [compTurnOn]
  asleep := fun hn => absurd rfl hn

/-- A setting comes into force at once only where every open count is 0 (R71). -/
theorem Sound.setProg (h : Sound st c) (p : ProgId) (x : ProgSetting) : Sound st (setProgRecord (st == .live) p x c) := by
  unfold setProgRecord
  split
  · exact { h with }
  · rename_i hn
    have hn : st ≠ .live := by simpa using hn
    exact { h with opened := fun q => by rw [(h.asleep hn).2 q]; exact Nat.zero_le _ }

/-- A win in LIVE of a programme below its ceiling (R78, R79). -/
theorem Sound.serveOpen (h : Sound .live c) {q : ProgId} (hq : tget c.openCount q < (tget c.inForce q).ceiling) (k : Priority) :
    Sound .live (serveOpen q k c) := by
  have hopened : ∀ a, tget (tmodify c.openCount q (· + 1)) a ≤ (tget c.inForce a).ceiling := by
    intro a
    rw [tget_tmodify]
    split
    · subst_vars
      exact hq
    · exact h.opened a
  cases k <;> exact { h with
    opened := hopened
    asleep := fun hn => absurd rfl hn }

theorem Sound.staleOnly (h : Sound st c) {d : CompRecord} (hd : StaleOnly c d) : Sound st d := by
  rw [hd]
  exact { h with }

end

/-! ## The law of the part -/

/-- The list read of a SET CARRIAGE in flight has a legal length (R67). -/
def ListLegal (u : CommandUnit) : Prop := ∀ c e n, u.running = some ⟨c, .carriage e n⟩ → FrameLength n

/-- A CARRIAGE word has a legal length (R129). -/
def WordLegal (w : SchedWord) : Prop := ∀ n k d b, w.kind = .carriage n k d b → FrameLength n

theorem carriageLaw_iff {s : State} : CarriageLaw s ↔
    (∀ e, Sound (edOf s e).state (compOf s e)) ∧ ListLegal s.cmd ∧
      ∀ e w, (chanOf s e).current = some w → WordLegal w.word :=
  ⟨fun h => ⟨fun e => ⟨h.pos e, h.frame e, h.staged e, h.opened e, h.asleep e⟩, h.command,
      fun e ⟨a, w⟩ hw n k d b hk => h.word e a w n k d b hw hk⟩,
    fun ⟨hs, hl, hw⟩ => ⟨fun e => (hs e).pos, fun e => (hs e).frame, fun e => (hs e).staged, fun e => (hs e).opened,
      fun e => (hs e).asleep, hl, fun e a w n k d b hc hk => hw e ⟨a, w⟩ hc n k d b hk⟩⟩

/-- From s to t no channel has a current word that it did not have. -/
structure Words (s t : State) : Prop where
  kept : ∀ e w, (chanOf t e).current = some w → (chanOf s e).current = some w

theorem Words.refl (s : State) : Words s s := ⟨fun _ _ h => h⟩

theorem Words.trans {s t u : State} (h : Words s t) (g : Words t u) : Words s u :=
  ⟨fun e w hw => h.kept e w (g.kept e w hw)⟩

theorem Words.of_frame {bs : List Block} {s t : State} (f : Frame bs s t) (n : .chans ∉ bs := by decide) : Words s t :=
  ⟨fun e _ hw => chanOf_congr (f.chans_eq n) e ▸ hw⟩

theorem Words.foldl {α : Type} {f : State → α → State} (hf : ∀ s a, Words s (f s a)) (l : List α) (s : State) :
    Words s (l.foldl f s) := by
  induction l generalizing s with
  | nil => exact .refl s
  | cons a l ih => exact (hf s a).trans (ih _)

/-- A change of a channel that keeps its current word or drops it. -/
theorem modChan_words (e : EdId) (f : Channel → Channel) (s : State)
    (hf : (f (chanOf s e)).current = (chanOf s e).current ∨ (f (chanOf s e)).current = none) : Words s (modChan e f s) := by
  refine ⟨fun a w hw => ?_⟩
  rw [chanOf_modChan] at hw
  split at hw
  · subst_vars
    rcases hf with hf | hf <;> rw [hf] at hw
    · exact hw
    · cases hw
  · exact hw

section
variable {s t : State} (h : CarriageLaw s)
include h

theorem CarriageLaw.sound (e : EdId) : Sound (edOf s e).state (compOf s e) := (carriageLaw_iff.1 h).1 e

theorem CarriageLaw.list : ListLegal s.cmd := (carriageLaw_iff.1 h).2.1

theorem CarriageLaw.wordLegal {e : EdId} {w : CurrentWord} (hw : (chanOf s e).current = some w) : WordLegal w.word :=
  (carriageLaw_iff.1 h).2.2 e w hw

/-- The law looks at the composition records, the lifecycle states, the command in flight and the current words alone. -/
theorem CarriageLaw.of_same (comp : t.comp = s.comp) (state : ∀ e, (edOf t e).state = (edOf s e).state) (list : ListLegal t.cmd)
    (words : Words s t) : CarriageLaw t :=
  carriageLaw_iff.2 ⟨fun e => by rw [state, compOf_congr comp]; exact h.sound e, list, fun e w hw => h.wordLegal (words.kept e w hw)⟩

/-- What changes neither a composition record nor a lifecycle state nor the command unit, and brings no word, keeps the law. -/
theorem CarriageLaw.words {bs : List Block} (w : Words s t) (f : Frame bs s t) (hc : .comp ∉ bs := by decide)
    (he : .eds ∉ bs := by decide) (hm : .cmd ∉ bs := by decide) : CarriageLaw t :=
  h.of_same (f.comp_eq hc) (fun e => by rw [edOf_congr (f.eds_eq he)]) (f.cmd_eq hm ▸ h.list) w

theorem CarriageLaw.untouched {bs : List Block} (f : Frame bs s t) (hc : .comp ∉ bs := by decide) (he : .eds ∉ bs := by decide)
    (hm : .cmd ∉ bs := by decide) (hw : .chans ∉ bs := by decide) : CarriageLaw t := h.words (.of_frame f hw) f hc he hm

theorem CarriageLaw.withCmd {x : CommandUnit} (hx : ListLegal x) : CarriageLaw { s with cmd := x } :=
  h.of_same rfl (fun _ => rfl) hx (.of_frame (frame_cmd s x))

/-- A change of the records of one edition that leaves them sound. -/
theorem CarriageLaw.of_edition {bs : List Block} (f : Frame bs s t) (e : EdId) (here : Sound (edOf t e).state (compOf t e))
    (eds : ∀ a, a ≠ e → (edOf t a).state = (edOf s a).state) (comp : ∀ a, a ≠ e → compOf t a = compOf s a)
    (hm : .cmd ∉ bs := by decide) (hw : .chans ∉ bs := by decide) : CarriageLaw t := by
  refine carriageLaw_iff.2 ⟨fun a => ?_, f.cmd_eq hm ▸ h.list, fun a w hc => h.wordLegal ((Words.of_frame f hw).kept a w hc)⟩
  by_cases ha : a = e
  · exact ha ▸ here
  · rw [eds a ha, comp a ha]
    exact h.sound a

theorem modComp_carriageLaw {e : EdId} {f : CompRecord → CompRecord} (hf : Sound (edOf s e).state (f (compOf s e))) :
    CarriageLaw (modComp e f s) :=
  h.of_edition (modComp_frame e f s) e (by rw [compOf_modComp_same]; exact hf) (fun _ _ => rfl)
    fun a ha => (compOf_modComp ..).trans (if_neg ha)

theorem modEd_carriageLaw {e : EdId} {f : EditionRecord → EditionRecord} (hf : Sound (f (edOf s e)).state (compOf s e)) :
    CarriageLaw (modEd e f s) :=
  h.of_edition (modEd_frame e f s) e (by rw [edOf_modEd_same]; exact hf)
    (fun a ha => congrArg EditionRecord.state ((edOf_modEd ..).trans (if_neg ha))) fun _ _ => rfl

/-- Stale clearing of an edition keeps the law: no law looks at the stale counters. -/
theorem CarriageLaw.discards {bs : List Block} {e : EdId} (d : Discards e s t) (f : Frame bs s t) (he : .eds ∉ bs := by decide)
    (hm : .cmd ∉ bs := by decide) (hw : .chans ∉ bs := by decide) : CarriageLaw t :=
  h.of_edition f e (by rw [edOf_congr (f.eds_eq he)]; exact (h.sound e).staleOnly d.stale)
    (fun a _ => by rw [edOf_congr (f.eds_eq he)]) d.apart.comp hm hw

end

/-- The composer of a reset is lawful in every lifecycle state (R83). -/
theorem CarriageLaw.of_reset {t : State} (comp : t.comp = .reset) (chans : t.chans = Vector.replicate 16 .reset)
    (list : ListLegal t.cmd) : CarriageLaw t := by
  have hcomp : ∀ e, compOf t e = .reset := fun e => by rw [compOf, comp]; exact tget_replicate ..
  have hchan : ∀ e, chanOf t e = .reset := fun e => by rw [chanOf, chans]; exact tget_replicate ..
  refine carriageLaw_iff.2 ⟨fun e => hcomp e ▸ .reset _, list, fun e w hw => ?_⟩
  rw [hchan] at hw
  cases hw

/-- Settles O5, law by law. -/
theorem resetMeetsEveryLaw : Obligations.ResetMeetsEveryLaw := by
  unfold Obligations.ResetMeetsEveryLaw
  intro strap s
  have rep : s.rep = .reset := rfl
  have ring : ∀ i, ringOf s i = .reset := tget_replicate _
  have feed : ∀ e, feedOf s e = .reset := tget_replicate _
  have ed : ∀ e, edOf s e = .reset := tget_replicate _
  have chan : ∀ e, chanOf s e = .reset := tget_replicate _
  have machine : ∀ e p, machineOf s e p = .reset := tget2_replicate _
  refine ⟨rfl, ⟨by rw [rep]; decide, by rw [rep]; decide, by rw [rep]; decide, by rw [rep]; decide, fun _ => rfl, nofun, nofun⟩,
    .of_reset rfl rfl nofun, ⟨fun e => ?_, Nat.zero_le _, Nat.zero_le _⟩, .of_reset rfl, fun e p sp hp => ?_, fun e _ => ?_,
    ⟨fun i hi => ?_, fun e b hb => ?_⟩⟩
  · rw [feed]
    exact Nat.zero_le _
  · rw [machine] at hp
    cases hp
  · rw [chan]
    exact ⟨rfl, rfl, rfl⟩
  · rw [ring] at hi
    cases hi
  · rw [ed] at hb
    cases hb

end Sys2Proof.Machine
end

section
/-! SUPPORT. Which operations bring no current word to a channel, and that each operation, up to the rows, keeps the laws of the
carriage records. -/

set_option Elab.async false

namespace Sys2Proof.Machine

/-! ## Chains and machines: no word but a fetched one becomes current (R125, R130, R131) -/

theorem endChain_words (e : EdId) (st : EndStatus) (c : CheckCode) (a : Nat) (tag : Tag16) (s : State) :
    Words s (endChain e st c a tag s) := by
  have hquiet : Words s (quietEnd e s) :=
    (Words.of_frame ((frame_down s _).andThen (dropWait_frame e _) : Frame [.down, .splices] s _)).trans
      (modChan_words e stopped _ (.inr rfl))
  rw [endChain_eq]
  exact hquiet.trans (.of_frame (handOver_frame ..))

theorem stopChain_words (e : EdId) (st : EndStatus) (s : State) : Words s (stopChain e st s) := by
  unfold stopChain
  dsimp only
  split
  · exact .refl s
  · exact endChain_words ..

theorem fetchWord_words (e : EdId) (s : State) : Words s (fetchWord e s) := by
  unfold fetchWord
  dsimp only
  split
  · exact endChain_words ..
  split
  · exact endChain_words ..
  · exact (modChan_words e _ s (.inr rfl)).trans (.of_frame (issue_frame ..))

theorem goOn_words (e : EdId) (s : State) : Words s (goOn e s) := by
  unfold goOn
  split
  · split
    · exact modChan_words e _ s (.inl rfl)
    · exact fetchWord_words e s
  · exact .refl s

theorem judgeOutcome_words (e : EdId) (o : SpliceOutcome) (s : State) : Words s (judgeOutcome e o s) := by
  unfold judgeOutcome
  split
  · split
    · split
      · exact endChain_words ..
      · exact goOn_words e s
    · exact .refl s
  · exact .refl s

theorem outcomeToChannel_words (e : EdId) (p : ProgId) (o : SpliceOutcome) (s : State) :
    Words s (outcomeToChannel e p o s) := by
  unfold outcomeToChannel
  split
  · exact judgeOutcome_words ..
  · exact .refl s

theorem takeArming_words (e : EdId) (p : ProgId) (sp : PendingSplice) (sync : Bool) (s : State) :
    Words s (takeArming e p sp sync s) := by
  have h := Words.of_frame (judgeArming_frame e p sp s)
  unfold takeArming
  split <;> rename_i heq <;> rw [heq] at h
  · split
    · exact h.trans (judgeOutcome_words ..)
    · exact h.trans (goOn_words ..)
  · split
    · exact h.trans (modChan_words e _ _ (.inl rfl))
    · exact h.trans (goOn_words ..)

theorem armFromChannel_words (e : EdId) (w : SchedWord) (s : State) : Words s (armFromChannel e w s) := by
  unfold armFromChannel
  split
  · exact .refl s
  · split
    · exact takeArming_words ..
    · exact (Words.of_frame (modMachine_frame ..)).trans (modChan_words e _ _ (.inl rfl))

theorem takeWaiting_words (e : EdId) (p : ProgId) (s : State) : Words s (takeWaiting e p s) := by
  unfold takeWaiting
  split
  · have hready := Words.of_frame (modMachine_frame e p (fun m => { m with waiting := false }) s)
    dsimp only
    split
    · exact hready.trans (armFromChannel_words ..)
    · exact hready
  · exact .refl s

theorem resolve_words (e : EdId) (p : ProgId) (sp : PendingSplice) (o : SpliceOutcome) (c : SpliceCause) (s : State) :
    Words s (resolve e p sp o c s) := by
  unfold resolve
  dsimp only
  refine ((Words.of_frame (resolveOnly_frame e p sp o c s)).trans ?_).trans (takeWaiting_words ..)
  split
  · exact outcomeToChannel_words ..
  · exact .refl _

theorem reachT_words (e : EdId) (p : ProgId) (sp : PendingSplice) (s : State) : Words s (reachT e p sp s) := by
  have hseek := Words.of_frame (modMachine_frame e p (fun m => { m with phase := .seeking sp }) s)
  unfold reachT
  dsimp only
  split
  · exact hseek.trans (resolve_words ..)
  · exact hseek

theorem judgeLoad_words (e : EdId) (p : ProgId) (s : State) : Words s (judgeLoad e p s) := by
  unfold judgeLoad
  dsimp only
  split
  · exact .refl s
  · split
    · exact resolve_words ..
    · split
      · exact .of_frame (modMachine_frame ..)
      · exact .refl s
  · split
    · exact resolve_words ..
    · exact .refl s

theorem judgeWait_words (e : EdId) (t : HouseTime) (s : State) : Words s (judgeWait e t s) := by
  unfold judgeWait
  split
  · exact goOn_words e s
  · exact modChan_words e _ s (.inl rfl)

theorem judgeWaiting_words (s : State) (e : EdId) : Words s (judgeWaiting s e) := by
  unfold judgeWaiting
  dsimp only
  split
  · split
    · exact judgeWait_words ..
    · exact .refl s
  · exact .refl s

theorem applyLoad_words (v : HouseTime) (s : State) : Words s (applyLoad v s) :=
  ((Words.of_frame ((frame_time s _).andThen (handOver_frame ..) : Frame [.time, .down, .rep] s _)).trans
    (.foldl (fun s e => .foldl (fun s p => judgeLoad_words e p s) _ s) _ _)).trans (.foldl judgeWaiting_words _ _)

theorem runWord_words (e : EdId) (a : Addr) (w : SchedWord) (s : State) : Words s (runWord e a w s) := by
  unfold runWord
  split
  · exact armFromChannel_words ..
  · dsimp only
    split
    · exact endChain_words ..
    · exact (modChan_words e _ s (.inl rfl)).trans (.of_frame (issue_frame ..))
  · exact judgeWait_words ..
  · exact (modChan_words e _ s (.inl rfl)).trans (goOn_words ..)
  · exact endChain_words ..

theorem admitEdition_words (c : IngestKept) (x : StreamEntry) (s : State) (e : EdId) : Words s (admitEdition c x s e) := by
  have hentry : Words s (entryPoint e x.prog x.variant c.e s) := by
    unfold entryPoint
    split
    · split
      · exact resolve_words ..
      · exact .refl s
    · exact .refl s
  unfold admitEdition
  split
  · exact .refl s
  · dsimp only
    split
    · exact hentry
    · split
      · exact hentry
      · exact hentry.trans (.of_frame (admitLimits_frame ..))

theorem ingestReturned_words (c : IngestKept) (rsp : Response) (s : State) : Words s (ingestReturned c rsp s) := by
  have hadmit : Words s (admitCell c s) := by
    unfold admitCell
    split
    · exact .refl s
    · have hfound := Words.of_frame (lookup_frame c.label s)
      split <;> rename_i heq <;> rw [heq] at hfound
      · exact hfound.trans (.of_frame (modRing_frame ..))
      · split
        · exact hfound.trans (.of_frame (modRing_frame ..))
        · exact hfound.trans (.foldl (fun s e => admitEdition_words c _ s e) _ _)
  unfold ingestReturned
  split
  · exact .refl s
  · split
    · exact hadmit
    · exact .of_frame (modRing_frame ..)

theorem doCancelSplice_words (e p : BitVec 8) (s : State) : Words s (doCancelSplice e p s).state := by
  unfold doCancelSplice
  split
  · split
    · exact resolve_words ..
    · exact .refl s
  · exact .refl s

theorem doStartSchedule_words (e : BitVec 8) (a : Addr) (s : State) : Words s (doStartSchedule e a s).state := by
  unfold doStartSchedule
  split
  · exact .refl s
  · split
    · exact .refl s
    · exact (modChan_words _ _ s (.inl rfl)).trans (fetchWord_words ..)

theorem doHaltSchedule_words (e : BitVec 8) (s : State) : Words s (doHaltSchedule e s).state := by
  unfold doHaltSchedule
  split
  · exact .refl s
  · split
    · exact .refl s
    · exact stopChain_words ..

theorem doResumeSchedule_words (e : BitVec 8) (s : State) : Words s (doResumeSchedule e s).state := by
  unfold doResumeSchedule
  split
  · exact .refl s
  · split
    · exact fetchWord_words ..
    · exact .refl s

/-! ## A fetched word (R129, R130) -/

/-- A CARRIAGE word that passes its tests has a legal length. -/
theorem wordLegal_of_parseWord {bs : List Byte} {w : SchedWord} (h : parseWord bs = .inl w) : WordLegal w := by
  have hkind : wordKind bs = some w.kind := by
    unfold parseWord at h
    split at h
    · cases h
    · split at h
      · split at h
        · cases h
          assumption
        · cases h
      · cases h
  intro n k d b hk
  rw [hk] at hkind
  unfold wordKind at hkind
  split at hkind
  · split at hkind <;> cases hkind
  · dsimp only at hkind
    split at hkind
    · rename_i hc
      cases hkind
      exact ⟨hc.1, hc.2.1⟩
    · cases hkind
  all_goals cases hkind

section
variable {s : State} (h : CarriageLaw s)
include h

theorem wordCurrent_carriageLaw (e : EdId) (a : Addr) {w : SchedWord} (hw : WordLegal w) :
    CarriageLaw (wordCurrent e a w s) := by
  have hchan : ∀ f : Channel → Channel, (f (chanOf s e)).current = some ⟨a, w⟩ → CarriageLaw (modChan e f s) := by
    intro f hf
    refine carriageLaw_iff.2 ⟨h.sound, h.list, fun x v hv => ?_⟩
    rw [chanOf_modChan] at hv
    split at hv
    · rw [hf] at hv
      cases hv
      exact hw
    · exact h.wordLegal hv
  unfold wordCurrent
  dsimp only
  split
  · exact (hchan _ rfl).untouched (handOver_frame ..)
  · exact hchan _ rfl

theorem wordReturned_carriageLaw (e : EdId) (rsp : Response) : CarriageLaw (wordReturned e rsp s) := by
  have ends : ∀ code a tag, CarriageLaw (endChain e .check code a tag s) := fun code a tag =>
    h.words (endChain_words ..) (endChain_frame ..)
  unfold wordReturned
  dsimp only
  split
  · exact ends ..
  · split
    · exact ends ..
    · rename_i w hparse
      split
      · exact ends ..
      · exact (wordCurrent_carriageLaw h e _ (wordLegal_of_parseWord hparse)).words (runWord_words ..) (runWord_frame ..)

theorem receiveFrame_carriageLaw (e : EdId) {f : List Position} (hf : FrameLength f.length) :
    CarriageLaw (receiveFrame e f s).1 := by
  rw [receiveFrame_state]
  exact modComp_carriageLaw h ((h.sound e).frameTo hf)

theorem dataReturned_carriageLaw (e : EdId) (rsp : Response) : CarriageLaw (dataReturned e rsp s) := by
  unfold dataReturned
  split
  · rename_i w hw
    split
    · exact h.words (endChain_words ..) (endChain_frame ..)
    · rename_i hk _
      split
      · exact h.words (endChain_words ..) (endChain_frame ..)
      · rename_i f hf
        have hlen : FrameLength f.length := length_of_buildFrame hf ▸ h.wordLegal hw _ _ _ _ hk
        have hback := (receiveFrame_carriageLaw h e hlen).words (modChan_words e (fun c => { c with fetch := .none }) _ (.inl rfl))
          (modChan_frame ..)
        exact hback.words (goOn_words ..) (goOn_frame ..)
    · exact h
  · exact h

/-! ## The choices of a feed read (R74, R78, R158) -/

theorem scanStep_carriageLaw : CarriageLaw (scanStep s) := by
  rcases scanStep_cases s with hsame | ⟨i, e, p, n, rest, hseek⟩
  · rwa [hsame]
  · have hscan := h.untouched (frame_refs s { s.refs with scan := some ⟨i, queueNo e p, rest⟩ })
    have hread : CarriageLaw (readRef e p n (withScan ⟨i, queueNo e p, rest⟩ s)).1 :=
      hscan.discards (readRef_discards e p n _) (readRef_frame e p n _)
    rw [scanStep_eq hseek]
    generalize readRef e p n (withScan ⟨i, queueNo e p, rest⟩ s) = r at hread ⊢
    obtain ⟨u, x⟩ := r
    cases x with
    | none => exact hread
    | some x =>
      simp only [releaseOwn]
      split
      · exact hread.untouched (frame_refs ..)
      · exact hread

theorem choosePlace_carriageLaw {e : EdId} (hl : (edOf s e).state = .live) : CarriageLaw (choosePlace e s).1 := by
  have hf := choosePlace_frame e s
  refine h.of_edition hf e ?_ (fun a _ => by rw [edOf_congr hf.eds_eq]) (choosePlace_apart e s).comp
  have hs := hl ▸ h.sound e
  rw [edOf_congr hf.eds_eq, hl]
  rcases compOf_choosePlace e s with hc | ⟨q, k, hq, hc⟩ <;> rw [hc]
  · exact hs
  · exact hs.serveOpen (candidateIn_iff.1 hq).2.1 k

theorem chooseOne_carriageLaw {e : EdId} (t : HouseTime) (hl : (edOf s e).state = .live) :
    CarriageLaw (chooseOne e t s).1 := by
  have hclear := h.discards (clearAll_discards e t s) (clearAll_frame e t s)
  have hplace := choosePlace_carriageLaw hclear (e := e) (by rw [edOf_congr (clearAll_frame e t s).eds_eq]; exact hl)
  exact modComp_carriageLaw hplace (hplace.sound e).advance

theorem composeRead_carriageLaw {e : EdId} (t : HouseTime) (n : Nat) (hl : (edOf s e).state = .live) :
    CarriageLaw (composeRead e t n s).1 := by
  induction n generalizing s with
  | zero => exact h
  | succ n ih => exact ih (chooseOne_carriageLaw h t hl) (by rw [edOf_congr (chooseOne_frame e t s).eds_eq]; exact hl)

theorem feedReadTaken_carriageLaw (e : EdId) : CarriageLaw (feedReadTaken e s) := by
  unfold feedReadTaken
  split
  · exact modEd_carriageLaw h (h.sound e)
  · split
    · exact (modEd_carriageLaw h (f := fun r => { r with state := .live, idle := 0 }) (h.sound e).wake).untouched
        (handOver_frame ..)
    · exact h
  · exact h

theorem takeFeedRead_carriageLaw (e : EdId) (n : Nat) : CarriageLaw (takeFeedRead e n s) := by
  have htaken := feedReadTaken_carriageLaw h e
  have hchoices : CarriageLaw (readChoices e n (feedReadTaken e s)).1 := by
    unfold readChoices
    split
    · exact composeRead_carriageLaw htaken _ n ‹_›
    · exact htaken
  exact hchoices.untouched ((joinRead_frame ..).andThen (finish_frame ..) : Frame [.dlv, .rings, .down, .path] _ _)

/-! ## The lifecycle of an edition (R72, R154, R155, R157) -/

/-- Leaving LIVE applies a frame boundary (R72). -/
theorem watchExpires_carriageLaw (e : EdId) : CarriageLaw (watchExpires e s) := by
  have hed : ∀ a, edOf (watchExpired e s) a = if a = e then { edOf s e with state := .dormant } else edOf s a := fun a =>
    edOf_modEd ..
  have hcomp : ∀ a, compOf (watchExpired e s) a = if a = e then boundary (compOf s e) else compOf s a := fun a =>
    compOf_modComp ..
  have hout : CarriageLaw (watchExpired e s) := h.of_edition (watchExpired_frame e s) e
    (by rw [hcomp, if_pos rfl]; exact (h.sound e).boundary _) (fun a ha => by rw [hed, if_neg ha])
    (fun a ha => (hcomp a).trans (if_neg ha))
  exact hout.untouched (handOver_frame ..)

theorem turnOff_carriageLaw (e : EdId) : CarriageLaw (turnOff e s) := by
  have hoff : CarriageLaw (releasedOff e s) := by
    refine h.of_edition (releasedOff_frame e s) e ?_ (fun a ha => by rw [edOf_releasedOff, if_neg ha])
      fun a ha => (compOf_releasedOff ..).trans (if_neg fun hc => ha hc.1)
    rw [compOf_releasedOff]
    split
    · exact (h.sound e).boundary _
    · rename_i hn
      exact (h.sound e).of_asleep (fun hl => hn ⟨rfl, hl⟩) _
  have hcancel : CarriageLaw (cancelAll e .off (dropWait e (releasedOff e s))) :=
    (hoff.untouched (dropWait_frame ..)).untouched (cancelAll_frame ..)
  rw [turnOff_eq]
  exact hcancel.words (stopChain_words ..) (stopChain_frame ..)

theorem turnOn_carriageLaw (e : EdId) : CarriageLaw (turnOn e s) := by
  cases hst : (edOf s e).state with
  | live => rwa [turnOn_of_live hst]
  | dormant =>
    rw [turnOn_of_dormant hst]
    exact modEd_carriageLaw h (h.sound e).wake
  | off =>
    rw [turnOn_of_off hst]
    have hlive := modEd_carriageLaw h (f := fun r => { r with state := .live, idle := 0 }) (h.sound e).wake
    refine (modComp_carriageLaw hlive ?_).untouched (modFeed_frame ..)
    rw [edOf_modEd_same]
    exact (h.sound e).turnOn

/-! ## The commands -/

theorem doSetProgramme_carriageLaw (ed pr prio c : BitVec 8) (d : BitVec 16) :
    CarriageLaw (doSetProgramme ed pr prio c d s).state := by
  unfold doSetProgramme
  split
  · rename_i e p _ _ _ _
    split
    · exact h
    · have hdepth := h.untouched (frame_refs s { s.refs with depth := tput2 s.refs.depth e p d.toNat })
      exact modComp_carriageLaw hdepth ((hdepth.sound e).setProg _ _)
  · exact h

theorem doSetEdition_carriageLaw (e : BitVec 8) (au : Bool) (w m q : BitVec 16) (b : Addr) (o : BitVec 24) :
    CarriageLaw (doSetEdition e au w m q b o s).state := by
  unfold doSetEdition
  split
  · exact h
  · rename_i a _
    have hset := modEd_carriageLaw h (f := setEditionRecord au w m q b o) (h.sound a)
    dsimp only
    split
    · exact h
    split
    · exact h
    split
    · exact h
    · split
      · exact watchExpires_carriageLaw hset a
      · exact hset

theorem doClearSchedule_carriageLaw (e : BitVec 8) : CarriageLaw (doClearSchedule e s).state := by
  unfold doClearSchedule
  split
  · exact h
  · rename_i a _
    have hcancel : CarriageLaw (cancelAll a .clear (dropWait a s)) :=
      (h.untouched (dropWait_frame a s)).untouched (cancelAll_frame a .clear _)
    have hunstaged := modComp_carriageLaw hcancel (f := fun c => { c with staged := none }) (hcancel.sound a).unstage
    exact hunstaged.words (stopChain_words a .cleared _) (stopChain_frame a .cleared _)

theorem doEditionOn_carriageLaw (e : BitVec 8) : CarriageLaw (doEditionOn e s).state := by
  unfold doEditionOn
  split
  · exact h
  · exact turnOn_carriageLaw h _

theorem doEditionOff_carriageLaw (e : BitVec 8) : CarriageLaw (doEditionOff e s).state := by
  unfold doEditionOff
  split
  · exact h
  · exact turnOff_carriageLaw h _

end

end Sys2Proof.Machine
end

section
/-! SUPPORT. The laws of the carriage records over the command unit, the ports and the rows, and the step that keeps them. -/

set_option Elab.async false

namespace Sys2Proof.Machine

/-! ## The command unit -/

/-- Only SET CARRIAGE goes in flight for a carriage list, with a length that passed its check (R67). -/
theorem runAct_carriage {tag : Tag16} {c : Command} {s u : State} {e : EdId} {n : Nat}
    (h : runAct tag c s = .inFlight (.carriage e n) u) : FrameLength n := by
  cases c with
  | setCarriage ed len a =>
    simp only [runAct, doSetCarriage] at h
    split at h
    · cases h
    · split at h
      · cases h
      · cases h
        constructor <;> omega
  | timeLoad | restart => cases h
  | _ =>
    unfold runAct at h
    dsimp only [doSetStreamEntry, doLoadStreamEntries, doSetEccThreshold, doSetRing, doSetRingTimingOnly, doDisableRing,
      doSetProtection, doClearProtection, doSetProgramme, doArmSplice, doCancelSplice, doSetVariantNow, doStartSchedule,
      doHaltSchedule, doClearSchedule, doResumeSchedule, doSetEdition, doEditionOn, doEditionOff, doRelocateControl,
      doSetMemoryLimit, doSetReportRing, doReportAck, doStatistics] at h
    repeat' split at h
    all_goals cases h

section
variable {s : State}

theorem CarriageLaw.foldl {α : Type} {f : State → α → State} (hf : ∀ s a, CarriageLaw s → CarriageLaw (f s a))
    (h : CarriageLaw s) (l : List α) : CarriageLaw (l.foldl f s) := by
  induction l generalizing s with
  | nil => exact h
  | cons a l ih => exact ih (hf s a h)

theorem restartAct_carriageLaw (hl : ListLegal s.cmd) : CarriageLaw (restartAct s) := by
  have hcmd : (restartAct s).cmd = s.cmd := (restartAct_frame s).cmd_eq
  have hlist : ListLegal (restartAct s).cmd := by rwa [hcmd]
  exact .of_reset rfl rfl hlist

theorem runAct_carriageLaw (h : CarriageLaw s) (tag : Tag16) (c : Command) : CarriageLaw (runAct tag c s).state := by
  cases c with
  | setStreamEntry => exact h.untouched (doSetStreamEntry_frame ..)
  | loadStreamEntries => exact h.untouched (doLoadStreamEntries_frame ..)
  | setEccThreshold => exact h.untouched (doSetEccThreshold_frame ..)
  | setRing => exact h.untouched (doSetRing_frame ..)
  | setRingTimingOnly => exact h.untouched (doSetRingTimingOnly_frame ..)
  | disableRing => exact h.untouched (doDisableRing_frame ..)
  | setProtection => exact h.untouched (doSetProtection_frame ..)
  | clearProtection => exact h.untouched (doClearProtection_frame ..)
  | setProgramme => exact doSetProgramme_carriageLaw h ..
  | setCarriage => exact h.untouched (doSetCarriage_frame ..)
  | armSplice => exact h.untouched (doArmSplice_frame ..)
  | cancelSplice => exact h.words (doCancelSplice_words ..) (doCancelSplice_frame ..)
  | setVariantNow => exact h.untouched (doSetVariantNow_frame ..)
  | startSchedule => exact h.words (doStartSchedule_words ..) (doStartSchedule_frame ..)
  | haltSchedule => exact h.words (doHaltSchedule_words ..) (doHaltSchedule_frame ..)
  | clearSchedule => exact doClearSchedule_carriageLaw h ..
  | resumeSchedule => exact h.words (doResumeSchedule_words ..) (doResumeSchedule_frame ..)
  | setEdition => exact doSetEdition_carriageLaw h ..
  | editionOn => exact doEditionOn_carriageLaw h ..
  | editionOff => exact doEditionOff_carriageLaw h ..
  | timeLoad => exact h.untouched (doTimeLoad_frame ..)
  | relocateControl => exact h.untouched (doRelocateControl_frame ..)
  | setMemoryLimit => exact h.untouched (doSetMemoryLimit_frame ..)
  | setReportRing => exact h.untouched (doSetReportRing_frame ..)
  | reportAck => exact h.untouched (doReportAck_frame ..)
  | statistics => exact h.untouched (doStatistics_frame ..)
  | restart => exact restartAct_carriageLaw h.list

/-- The commands waiting do not matter to the law. -/
theorem CarriageLaw.withQueue (h : CarriageLaw s) (q : List TakenCommand) :
    CarriageLaw { s with cmd := { s.cmd with queue := q } } := h.withCmd h.list

theorem startCommand_carriageLaw (h : CarriageLaw s) (c : TakenCommand) : CarriageLaw (startCommand c s) := by
  unfold startCommand
  split
  · exact h.untouched (handOver_frame ..)
  · exact h.untouched (handOver_frame ..)
  · have hreset : CarriageLaw { restartAct s with cmd := { s.cmd with queue := [] } } :=
      (restartAct_carriageLaw h.list).withCmd h.list
    exact (hreset.untouched (handOver_frame ..)).foldl (fun s c h => h.untouched (handOver_frame (commandReport c .state) s)) _
  · rename_i k _ _
    have hact := runAct_carriageLaw h c.tag k
    split <;> rename_i heq <;> rw [heq] at hact
    · exact hact.untouched (handOver_frame ..)
    · refine hact.withCmd fun _ _ _ hrun => ?_
      cases hrun
      exact runAct_carriage heq

theorem endRunning_carriageLaw (h : CarriageLaw s) (o : CmdOutcome) : CarriageLaw (endRunning o s) := by
  unfold endRunning
  split
  · have hended : CarriageLaw { s with cmd := { s.cmd with running := none } } := h.withCmd nofun
    exact hended.untouched (handOver_frame ..)
  · exact h

theorem advanceScan_carriageLaw (h : CarriageLaw s) : CarriageLaw (advanceScan s) := h.untouched (advanceScan_frame s)

theorem endPurge_carriageLaw (h : CarriageLaw s) : CarriageLaw (endPurge s) := by
  have hscan := advanceScan_carriageLaw h
  unfold endPurge
  dsimp only
  split
  · exact endRunning_carriageLaw hscan _
  · exact hscan

theorem drain_carriageLaw (h : CarriageLaw s) (fuel : Nat) : CarriageLaw (drain fuel s) := by
  induction fuel generalizing s with
  | zero => exact h
  | succ fuel ih =>
    unfold drain
    split
    · exact ih (endPurge_carriageLaw (startCommand_carriageLaw (h.withQueue _) _))
    · exact h

theorem finishRunning_carriageLaw (h : CarriageLaw s) (o : CmdOutcome) : CarriageLaw (finishRunning o s) :=
  drain_carriageLaw (endRunning_carriageLaw h o) _

theorem settlePurge_carriageLaw (h : CarriageLaw s) : CarriageLaw (settlePurge s) := by
  have hscan := advanceScan_carriageLaw h
  unfold settlePurge
  dsimp only
  split
  · exact finishRunning_carriageLaw hscan _
  · exact hscan

theorem takeCommand_carriageLaw (h : CarriageLaw s) (c : TakenCommand) : CarriageLaw (takeCommand c s) := by
  unfold takeCommand
  split
  · exact endPurge_carriageLaw (startCommand_carriageLaw h c)
  · split
    · exact h.withQueue _
    · exact h.untouched (handOver_frame ..)

/-! ## The two ports -/

theorem streamListReturned_carriageLaw (h : CarriageLaw s) (rsp : Response) : CarriageLaw (streamListReturned rsp s) := by
  unfold streamListReturned
  split
  · split
    · exact finishRunning_carriageLaw h _
    · have hwritten : ∀ t, CarriageLaw { s with stream := t } := fun t => h.untouched (frame_stream s t)
      dsimp only
      split
      · exact finishRunning_carriageLaw (hwritten _) _
      · have hnext : ∀ t c n r l, CarriageLaw
            { s with stream := t, cmd := { s.cmd with running := some ⟨c, .load n r l⟩ } } :=
          fun t c n r l => (hwritten t).withCmd fun _ _ _ hrun => by cases hrun
        exact (hnext ..).untouched (issue_frame ..)
  · exact h

/-- A list of legal length that spells a frame brings a legal frame (R67, R68, R69). -/
theorem carriageListReturned_carriageLaw (h : CarriageLaw s) (rsp : Response) :
    CarriageLaw (carriageListReturned rsp s) := by
  unfold carriageListReturned
  split
  · rename_i hrun
    split
    · exact finishRunning_carriageLaw h _
    · split
      · exact finishRunning_carriageLaw h _
      · rename_i f hf
        have hlen : FrameLength f.length := (positionsOf_eq_some.1 hf).1 ▸ h.list _ _ _ hrun
        exact finishRunning_carriageLaw (receiveFrame_carriageLaw h _ hlen) _
  · exact h

theorem indexReturned_carriageLaw (h : CarriageLaw s) : CarriageLaw (indexReturned s) := by
  unfold indexReturned
  split
  · have hidle := h.untouched (frame_rep s { s.rep with writer := .idle })
    dsimp only
    split
    · exact finishRunning_carriageLaw (hidle.untouched (setRingAct_frame ..)) _
    · exact hidle.untouched (startWrite_frame _)
  · exact h

theorem respond_carriageLaw (h : CarriageLaw s) (tag : PortTag) (rsp : Response) : CarriageLaw (respond tag rsp s) := by
  unfold respond
  split
  · exact h
  · rename_i d rest _
    have hdown := h.untouched (frame_down s rest)
    dsimp only
    split
    · exact hdown.untouched (readyForwarded_frame ..)
    · exact (hdown.untouched (readyForwarded_frame ..)).words (ingestReturned_words ..) (ingestReturned_frame ..)
    · rename_i r _ _
      have hback := hdown.untouched (readReturned_frame r _)
      refine settlePurge_carriageLaw ?_
      split
      · exact hback.untouched (deliveryReturned_frame ..)
      · exact hback
    · exact streamListReturned_carriageLaw hdown rsp
    · exact carriageListReturned_carriageLaw hdown rsp
    · split
      · exact wordReturned_carriageLaw hdown _ rsp
      · exact hdown
    · split
      · exact dataReturned_carriageLaw hdown _ rsp
      · exact hdown
    · exact hdown.untouched (recordReturned_frame ..)
    · exact indexReturned_carriageLaw hdown

theorem takeRequest_carriageLaw (h : CarriageLaw s) (r : Request) : CarriageLaw (takeRequest r s) := by
  have hfwd : ∀ k, CarriageLaw (forward k r s) := fun k => h.untouched (forward_frame k r s)
  have hopen : ∀ c rsp, CarriageLaw (openReq r.tag c rsp s) := fun c rsp => h.untouched (openReq_frame r.tag c rsp s)
  unfold takeRequest
  split
  · exact hopen ..
  · exact settlePurge_carriageLaw (takeFeedRead_carriageLaw (hopen ..) ..)
  · exact feedReadTaken_carriageLaw ((hopen ..).untouched (modFeed_frame ..)) _
  · exact (hopen ..).untouched (modFeed_frame ..)
  · exact h.untouched (takeIngest_frame ..)
  · exact (hfwd _).untouched (modRing_frame ..)
  · exact hfwd _
  · exact takeCommand_carriageLaw (hfwd _) _
  · exact hfwd _
  · exact hfwd _

theorem present_carriageLaw (h : CarriageLaw s) (r : Request) : CarriageLaw (present r s) := by
  unfold present
  split
  · exact takeRequest_carriageLaw h r
  · exact h.untouched (frame_path s _)

theorem idleStep_carriageLaw (h : CarriageLaw s) : CarriageLaw (idleStep s) := by
  unfold idleStep
  split
  · exact h
  · exact takeRequest_carriageLaw (h.untouched (frame_path s _)) _

/-! ## House time -/

/-- Elapsed ticks move idle times, and no lifecycle state (R156, R162). -/
theorem elapse_carriageLaw (h : CarriageLaw s) (n : Nat) : CarriageLaw (elapse n s) :=
  h.of_same rfl (fun e => by rw [edOf_elapse]; split <;> rfl) h.list (.of_frame (elapse_frame n s))

theorem referenceEdge_carriageLaw (h : CarriageLaw s) : CarriageLaw (referenceEdge s) := by
  have htime : ∀ t, CarriageLaw { s with time := t } := fun t => h.untouched (frame_time s t)
  unfold referenceEdge
  split
  · exact elapse_carriageLaw (htime _) _
  · exact (elapse_carriageLaw (htime _) _).untouched (handOver_frame ..)

theorem loseReference_carriageLaw (h : CarriageLaw s) : CarriageLaw (loseReference s) :=
  (elapse_carriageLaw (h.untouched (frame_time s _)) _).untouched (handOver_frame ..)

end

/-! ## The rows -/

/-- The row ends in a next state that keeps the laws of the carriage records. -/
def EndsCarriageLawful (o : Host.Outcome State Fault Refusal) : Prop := ∃ t, o = .next t ∧ CarriageLaw t

section
variable {s : State} (h : CarriageLaw s)
include h

theorem execSilenceExpiry_carriageLawful (i : RingId) : EndsCarriageLawful (execSilenceExpiry i s) := by
  unfold execSilenceExpiry
  split
  · exact ⟨_, rfl, h.untouched (silenceExpires_frame ..)⟩
  · exact ⟨_, rfl, h⟩

theorem execFeedWatchExpiry_carriageLawful (e : EdId) : EndsCarriageLawful (execFeedWatchExpiry e s) := by
  unfold execFeedWatchExpiry
  split
  · exact ⟨_, rfl, settlePurge_carriageLaw (watchExpires_carriageLaw h e)⟩
  · exact ⟨_, rfl, h⟩

theorem execSpliceTReached_carriageLawful (e : EdId) (p : ProgId) : EndsCarriageLawful (execSpliceTReached e p s) := by
  unfold execSpliceTReached
  split
  · split
    · exact ⟨_, rfl, h.words (reachT_words ..) (reachT_frame ..)⟩
    · exact ⟨_, rfl, h⟩
  · exact ⟨_, rfl, h⟩

theorem execWindowEnd_carriageLawful (e : EdId) (p : ProgId) : EndsCarriageLawful (execWindowEnd e p s) := by
  unfold execWindowEnd
  split
  · split
    · exact ⟨_, rfl, h.words (resolve_words ..) (resolve_frame ..)⟩
    · exact ⟨_, rfl, h⟩
  · exact ⟨_, rfl, h⟩

theorem execReferenceLost_carriageLawful : EndsCarriageLawful (execReferenceLost s) := by
  unfold execReferenceLost
  split
  · exact ⟨_, rfl, loseReference_carriageLaw h⟩
  · exact ⟨_, rfl, h⟩

theorem execOscillatorPeriodEnd_carriageLawful : EndsCarriageLawful (execOscillatorPeriodEnd s) := by
  unfold execOscillatorPeriodEnd
  split
  · exact ⟨_, rfl, elapse_carriageLaw h 1⟩
  · exact ⟨_, rfl, h.untouched (frame_time s _)⟩

theorem execPpsEdge_carriageLawful : EndsCarriageLawful (execPpsEdge s) := by
  unfold execPpsEdge
  split
  · exact ⟨_, rfl, h.words (applyLoad_words ..) (applyLoad_frame ..)⟩
  · exact ⟨_, rfl, h⟩

theorem execPpsTimeout_carriageLawful : EndsCarriageLawful (execPpsTimeout s) := by
  unfold execPpsTimeout
  split
  · split
    · exact ⟨_, rfl, (h.untouched (frame_time s _)).untouched (handOver_frame ..)⟩
    · exact ⟨_, rfl, h⟩
  · exact ⟨_, rfl, h⟩

theorem execResponseLeaves_carriageLawful (tag : PortTag) : EndsCarriageLawful (execResponseLeaves tag s) := by
  unfold execResponseLeaves
  split
  · exact ⟨_, rfl, h.untouched (frame_path s _)⟩
  · exact ⟨_, rfl, h⟩

theorem execIngestWriteCompletion_carriageLawful (tag : PortTag) (rsp : Response) (up : BitFault) :
    EndsCarriageLawful (execIngestWriteCompletion tag rsp up s) := by
  unfold execIngestWriteCompletion
  split
  · exact ⟨_, rfl, respond_carriageLaw (h.untouched (frame_stream s _)) ..⟩
  · exact ⟨_, rfl, respond_carriageLaw h ..⟩

theorem present_carriageLawful (r : Request) : EndsCarriageLawful (.next (present r s)) := ⟨_, rfl, present_carriageLaw h r⟩

theorem respond_carriageLawful (tag : PortTag) (rsp : Response) : EndsCarriageLawful (.next (respond tag rsp s)) :=
  ⟨_, rfl, respond_carriageLaw h tag rsp⟩

theorem takeRow_carriageLawful (hd : CmdHeader) (c : Command) : EndsCarriageLawful (takeRow hd c s) :=
  ⟨_, rfl, takeCommand_carriageLaw h _⟩

theorem upsetRefs_carriageLaw (us : List Upset) : CarriageLaw (upsetRefs us s) := h.untouched (upsetRefs_frame us s)

/-- Every row keeps the laws of the carriage records. -/
theorem exec_carriageLawful (c : Instr) : EndsCarriageLawful (exec c s) := by
  cases c with
  | ingestWrite r | malformedWrite r | ringRead r | passThroughRequest r | controlPassThrough r | requestBeyondLimit r
  | lengthFault r | feedWrite r | commandWrite r => exact present_carriageLawful h r
  | wholeCellRead r us => exact present_carriageLawful (upsetRefs_carriageLaw h us) r
  | downstreamCompletion tag rsp | staleResponseDiscard tag rsp => exact respond_carriageLawful h tag rsp
  | deliveryReadCompletion e rsp | wordFetchCompletion e rsp | dataFetchCompletion e rsp =>
    exact respond_carriageLawful h _ rsp
  | streamListReadCompletion rsp | carriageListReadCompletion rsp | reportWriteCompletion rsp
  | indexBlockWriteCompletion rsp => exact respond_carriageLawful h _ rsp
  | ingestWriteCompletion tag rsp up => exact execIngestWriteCompletion_carriageLawful h tag rsp up
  | responseLeaves tag => exact execResponseLeaves_carriageLawful h tag
  | purgeScanStep us => exact ⟨_, rfl, settlePurge_carriageLaw (scanStep_carriageLaw (upsetRefs_carriageLaw h us))⟩
  | silenceExpiry i => exact execSilenceExpiry_carriageLawful h i
  | feedWatchExpiry e => exact execFeedWatchExpiry_carriageLawful h e
  | spliceTReached e p => exact execSpliceTReached_carriageLawful h e p
  | windowEnd e p => exact execWindowEnd_carriageLawful h e p
  | waitReached e => exact ⟨_, rfl, h.words (judgeWaiting_words s e) (judgeWaiting_frame s e)⟩
  | referenceLost => exact execReferenceLost_carriageLawful h
  | stationReferenceEdge | referenceRestored => exact ⟨_, rfl, referenceEdge_carriageLaw h⟩
  | oscillatorPeriodEnd => exact execOscillatorPeriodEnd_carriageLawful h
  | ppsEdge => exact execPpsEdge_carriageLawful h
  | ppsTimeout => exact execPpsTimeout_carriageLawful h
  | hardwareReset strap => exact ⟨_, rfl, .of_reset rfl rfl nofun⟩
  | setStreamEntry | loadStreamEntries | setEccThreshold | setRing | setRingTimingOnly | disableRing | setProtection
  | clearProtection | setProgramme | setCarriage | armSplice | cancelSplice | setVariantNow | startSchedule | haltSchedule
  | clearSchedule | resumeSchedule | setEdition | editionOn | editionOff | timeLoad | relocateControl | setMemoryLimit
  | setReportRing | reportAck | statistics | restart => exact takeRow_carriageLawful h _ _

end

/-- Settles O9: a composition record changes by a boundary, an advance, a win below the ceiling, a frame received, a setting or
a reset, each of which leaves it sound; a frame on its way is of a command or of a word whose length passed its check. -/
theorem stepKeepsTheCarriageRecords : Obligations.StepKeepsTheCarriageRecords := by
  unfold Obligations.StepKeepsTheCarriageRecords
  intro s t h ht
  unfold step at ht
  split at ht
  · cases ht
    exact idleStep_carriageLaw h
  · rename_i c rest _
    obtain ⟨u, hu, hlaw⟩ := exec_carriageLawful (h.untouched (frame_pending s rest)) c
    rw [hu] at ht
    cases ht
    exact hlaw

end Sys2Proof.Machine
end

section
/-! SUPPORT. The delivery unit as equations: finishing from the front of an in-flight list, the hand-over of a finished read, and
the entry on which a return is judged (R90 to R95, R97, R100). -/

namespace Sys2Proof.Machine

/-! ## Delivery records -/

/-- Two changes of a delivery record that agree on it are one change of the state. -/
theorem modFeed_congr {e : EdId} {f g : FeedRecord → FeedRecord} {s : State} (h : f (feedOf s e) = g (feedOf s e)) :
    modFeed e f s = modFeed e g s := by
  simp only [modFeed, tmodify]
  rw [show f (tget s.dlv.recs e) = g (tget s.dlv.recs e) from h]

theorem modFeed_of_fixed {e : EdId} {f : FeedRecord → FeedRecord} {s : State} (h : f (feedOf s e) = feedOf s e) :
    modFeed e f s = s := by
  rw [modFeed, tmodify_of_fixed h]

/-- Of two changes of a record that the later one replaces whole, only the later one stays. -/
theorem modFeed_const_modFeed (e : EdId) (g : FeedRecord) (f : FeedRecord → FeedRecord) (s : State) :
    modFeed e (fun _ => g) (modFeed e f s) = modFeed e (fun _ => g) s := by
  simp only [modFeed, tmodify, tput_tput]

/-! ## One entry (R95, R97, R100) -/

/-- The final cell of the entry is made (R95). -/
abbrev Finished (x : InFlight) : Prop := ∃ cell real, x.state = .finished cell real

section
variable (f : FeedRecord) {x : InFlight}

theorem finishEntry_of_issued (h : x.state = .issued) : finishEntry f x = none := by
  simp only [finishEntry, h]

theorem finishEntry_of_finished (h : Finished x) : finishEntry f x = some (f, x) := by
  obtain ⟨cell, real, h⟩ := h
  simp only [finishEntry, h]

theorem finishEntry_of_filled (h : x.state = .filled) : finishEntry f x =
    some ({ f with filler := f.filler + 1 }, { x with state := .finished (fillerCell x.t) false }) := by
  simp only [finishEntry, h]

theorem finishEntry_of_returned {data : List Byte} {ref : Reference} (h : x.state = .returned data) (hr : x.ref = some ref) :
    finishEntry f x =
      some ({ f with delivered := f.delivered + 1,
                     cont := tput f.cont ref.outLabel.toFin (tget f.cont ref.outLabel.toFin + 1) },
        { x with state := .finished (finalCell x ref data (tget f.cont ref.outLabel.toFin)) true }) := by
  simp only [finishEntry, h, hr, contIndex]

/-- Finishing an entry does not look at the in-flight list that the record holds. -/
theorem finishEntry_withReads (ls : List (List InFlight)) (x : InFlight) :
    finishEntry { f with reads := ls } x = (finishEntry f x).map fun r => ({ r.1 with reads := ls }, r.2) := by
  unfold finishEntry
  split
  · rfl
  · rfl
  · rfl
  · split <;> rfl

end

/-! ## The entries of a read (R95) -/

theorem finishEntries_withReads (f : FeedRecord) (ls : List (List InFlight)) (l : List InFlight) :
    finishEntries { f with reads := ls } l = ({ (finishEntries f l).1 with reads := ls }, (finishEntries f l).2) := by
  induction l generalizing f with
  | nil => rfl
  | cons x l ih =>
    simp only [finishEntries, finishEntry_withReads]
    cases finishEntry f x with
    | none => rfl
    | some r => simp only [Option.map_some, ih]

/-- Entries that are finished already are passed over. -/
theorem finishEntries_append {f : FeedRecord} {ahead : List InFlight} (h : ∀ x ∈ ahead, Finished x) (l : List InFlight) :
    finishEntries f (ahead ++ l) =
      ((finishEntries f l).1, ahead ++ (finishEntries f l).2.1, (finishEntries f l).2.2) := by
  induction ahead with
  | nil => rfl
  | cons x ahead ih =>
    obtain ⟨hx, hrest⟩ := List.forall_mem_cons.1 h
    simp only [List.cons_append, finishEntries, finishEntry_of_finished f hx, ih hrest]

theorem finishEntries_of_finished {f : FeedRecord} {l : List InFlight} (h : ∀ x ∈ l, Finished x) :
    finishEntries f l = (f, l, true) := by
  simpa [finishEntries] using finishEntries_append (f := f) h []

/-- Finishing stops at the first entry that is not ready (R95). -/
theorem finishEntries_of_stop {f : FeedRecord} {ahead : List InFlight} {x : InFlight} (h : ∀ x ∈ ahead, Finished x)
    (hx : finishEntry f x = none) (behind : List InFlight) :
    finishEntries f (ahead ++ x :: behind) = (f, ahead ++ x :: behind, false) := by
  rw [finishEntries_append h]
  simp only [finishEntries, hx]

/-- An entry that finishing takes may as well be finished already (R95). -/
theorem finishEntries_of_ready {f g : FeedRecord} {ahead : List InFlight} {x y : InFlight} (h : ∀ x ∈ ahead, Finished x)
    (hx : finishEntry f x = some (g, y)) (hy : Finished y) (behind : List InFlight) :
    finishEntries f (ahead ++ x :: behind) = finishEntries g (ahead ++ y :: behind) := by
  rw [finishEntries_append h, finishEntries_append h]
  simp only [finishEntries, hx, finishEntry_of_finished g hy]

theorem length_finishEntries (f : FeedRecord) (l : List InFlight) : (finishEntries f l).2.1.length = l.length := by
  induction l generalizing f with
  | nil => rfl
  | cons x l ih =>
    unfold finishEntries
    cases finishEntry f x with
    | none => rfl
    | some r => exact congrArg (· + 1) (ih r.1)

/-! ## The reads of a list (R95) -/

section
variable {f g : FeedRecord} {l l' : List InFlight}

theorem finishReads_cons_of_stop (h : finishEntries f l = (g, l', false)) (ls : List (List InFlight)) :
    finishReads f (l :: ls) = (g, l' :: ls, []) := by
  simp only [finishReads, h]

theorem finishReads_cons_of_done (h : finishEntries f l = (g, l', true)) (ls : List (List InFlight)) :
    finishReads f (l :: ls) =
      ((finishReads g ls).1, (finishReads g ls).2.1, (l'.map cellOf).flatten :: (finishReads g ls).2.2) := by
  simp only [finishReads, h]

/-- Finishing of a list depends on its front read through what becomes of that read. -/
theorem finishReads_cons_congr (h : finishEntries f l = finishEntries g l') (ls : List (List InFlight)) :
    finishReads f (l :: ls) = finishReads g (l' :: ls) := by
  simp only [finishReads, h]

end

theorem finishReads_withReads (f : FeedRecord) (xs ls : List (List InFlight)) :
    finishReads { f with reads := xs } ls = ({ (finishReads f ls).1 with reads := xs }, (finishReads f ls).2) := by
  induction ls generalizing f with
  | nil => rfl
  | cons l ls ih =>
    have hl := finishEntries_withReads f xs l
    obtain ⟨⟨g, l', done⟩, hg⟩ : ∃ r, finishEntries f l = r := ⟨_, rfl⟩
    rw [hg] at hl
    cases done with
    | false => rw [finishReads_cons_of_stop hl, finishReads_cons_of_stop hg]
    | true => rw [finishReads_cons_of_done hl, finishReads_cons_of_done hg, ih]

/-! ## Finishing of an edition (R95) -/

/-- The record, the list and the reads handed over that finishing comes to, put in place. -/
def finishedWith (e : EdId) (r : FeedRecord × List (List InFlight) × List (List Byte)) (s : State) : State :=
  r.2.2.foldl (fun s cells => readyFeed e cells s) (modFeed e (fun _ => { r.1 with reads := r.2.1 }) s)

theorem finish_eq (e : EdId) (s : State) :
    finish e s = finishedWith e (finishReads (feedOf s e) (feedOf s e).reads) s := rfl

/-- Finishing over a record that has been replaced. -/
theorem finish_modFeed (e : EdId) (g : FeedRecord) (ls : List (List InFlight)) (s : State) :
    finish e (modFeed e (fun _ => { g with reads := ls }) s) = finishedWith e (finishReads g ls) s := by
  rw [finish_eq, feedOf_modFeed_same, finishReads_withReads]
  simp only [finishedWith, modFeed_const_modFeed]

section
variable {e : EdId} {s : State}

/-- Where nothing more becomes of the list, finishing changes nothing. -/
theorem finish_of_same (h : finishReads (feedOf s e) (feedOf s e).reads = (feedOf s e, (feedOf s e).reads, [])) :
    finish e s = s := by
  rw [finish_eq, h]
  exact modFeed_of_fixed rfl

theorem finish_of_empty (h : (feedOf s e).reads = []) : finish e s = s :=
  finish_of_same (by rw [h, finishReads])

/-- A front read of finished entries is handed over and leaves the list. -/
theorem finish_of_front_finished {l : List InFlight} {ls : List (List InFlight)} (h : (feedOf s e).reads = l :: ls)
    (hl : ∀ x ∈ l, Finished x) :
    finish e s = finish e (modFeed e (fun f => { f with reads := ls }) (readyFeed e (l.map cellOf).flatten s)) := by
  have hsame : modFeed e (fun f => { f with reads := ls }) (readyFeed e (l.map cellOf).flatten s) =
      modFeed e (fun _ => { feedOf s e with reads := ls }) (readyFeed e (l.map cellOf).flatten s) := modFeed_congr rfl
  rw [hsame, finish_modFeed, finish_eq, h, finishReads_cons_of_done (finishEntries_of_finished hl)]
  rfl

/-- The only read of a list, wholly ready, is handed over and leaves the list empty. -/
theorem finish_of_only_ready {l l' : List InFlight} {g : FeedRecord} (h : (feedOf s e).reads = [l])
    (hl : finishEntries (feedOf s e) l = (g, l', true)) :
    finish e s = modFeed e (fun _ => { g with reads := [] }) (readyFeed e (l'.map cellOf).flatten s) := by
  rw [finish_eq, h, finishReads_cons_of_done hl]
  rfl

variable {ahead behind : List InFlight} {x : InFlight} {after : List (List InFlight)}
  (h : (feedOf s e).reads = (ahead ++ x :: behind) :: after) (ha : ∀ y ∈ ahead, Finished y)
include h ha

/-- Finishing stops at an ISSUED entry. -/
theorem finish_of_front_issued (hx : x.state = .issued) : finish e s = s :=
  finish_of_same (by rw [h, finishReads_cons_of_stop (finishEntries_of_stop ha (finishEntry_of_issued _ hx) behind)])

/-- A ready entry at the front is finished, and finishing goes on. -/
theorem finish_of_front_ready {g : FeedRecord} {y : InFlight} (hx : finishEntry (feedOf s e) x = some (g, y))
    (hy : Finished y) :
    finish e s = finish e (modFeed e (fun _ => { g with reads := (ahead ++ y :: behind) :: after }) s) := by
  rw [finish_modFeed, finish_eq, h, finishReads_cons_congr (finishEntries_of_ready ha hx hy behind)]

end

/-! ## The hand-over of a read (R95, R179) -/

/-- The response becomes ready at the first open request that is selected and has none yet. -/
theorem readyFirst_append {sel : OpenReq → Bool} {pre : List OpenReq} {o : OpenReq} (rsp : Response) (post : List OpenReq)
    (hpre : ∀ b ∈ pre, sel b = true → b.response ≠ none) (ho : sel o = true) (hn : o.response = none) :
    readyFirst sel rsp (pre ++ o :: post) = pre ++ { o with response := some rsp } :: post := by
  induction pre with
  | nil => simp [readyFirst, ho, hn]
  | cons b pre ih =>
    obtain ⟨hb, hrest⟩ := List.forall_mem_cons.1 hpre
    have hskip : ¬(sel b && b.response.isNone) = true := by
      simpa [Option.isNone_iff_eq_none] using hb
    rw [List.cons_append, readyFirst, if_neg hskip, ih hrest, List.cons_append]

/-- A read is handed over to the oldest open whole-cell read of the edition without a response (log entry 12). -/
theorem readyFeed_of_awaiting {e : EdId} {s : State} {pre post : List OpenReq} {tag : PortTag}
    (h : s.path.openReqs = pre ++ ⟨tag, .feedRead e, none⟩ :: post)
    (hpre : ∀ o ∈ pre, o.cls = .feedRead e → o.response ≠ none) (cells : List Byte) :
    readyFeed e cells s = { s with path := { s.path with openReqs :=
      pre ++ ⟨tag, .feedRead e, some ⟨.okay, cells⟩⟩ :: post } } := by
  unfold readyFeed
  rw [h, readyFirst_append _ _ (fun b hb hsel => hpre b hb (by simpa using hsel)) (by simp) rfl]

/-! ## The entry of a return (R90) -/

section
variable (g : InFlight → InFlight) {ahead behind : List InFlight} {x : InFlight}

theorem updateIssued_of_none {l : List InFlight} (h : ∀ y ∈ l, y.state ≠ .issued) : updateIssued g l = none := by
  induction l with
  | nil => rfl
  | cons y l ih =>
    obtain ⟨hy, hrest⟩ := List.forall_mem_cons.1 h
    rw [updateIssued, if_neg hy, ih hrest, Option.map_none]

theorem updateIssued_of_first (ha : ∀ y ∈ ahead, y.state ≠ .issued) (hx : x.state = .issued) :
    updateIssued g (ahead ++ x :: behind) = some (ahead ++ g x :: behind) := by
  induction ahead with
  | nil => simp [updateIssued, hx]
  | cons y ahead ih =>
    obtain ⟨hy, hrest⟩ := List.forall_mem_cons.1 ha
    rw [List.cons_append, updateIssued, if_neg hy, ih hrest]
    rfl

variable {before after : List (List InFlight)} (h : ∀ y ∈ before.flatten ++ ahead, y.state ≠ .issued) (hx : x.state = .issued)
include h hx

/-- The first ISSUED entry of a list is the one that a return changes. -/
theorem updateFirst_of_first :
    updateFirst g (before ++ (ahead ++ x :: behind) :: after) = before ++ (ahead ++ g x :: behind) :: after := by
  induction before with
  | nil =>
    have ha : ∀ y ∈ ahead, y.state ≠ .issued := h
    simp only [List.nil_append, updateFirst, updateIssued_of_first g ha hx]
  | cons l before ih =>
    rw [List.flatten_cons, List.append_assoc, List.forall_mem_append] at h
    obtain ⟨hl, hrest⟩ := h
    simp only [List.cons_append, updateFirst, updateIssued_of_none g hl, ih hrest]

theorem firstIssued_of_first : firstIssued (before ++ (ahead ++ x :: behind) :: after) = some x := by
  have hflat : (before ++ (ahead ++ x :: behind) :: after).flatten =
      (before.flatten ++ ahead) ++ x :: (behind ++ after.flatten) := by simp
  unfold firstIssued
  rw [hflat, List.find?_append, List.find?_eq_none.2 fun y hy => by simpa using h y hy]
  simp [hx]

end

end Sys2Proof.Machine
end

section
/-! SUPPORT. Requests that need no delivery read: those answered at their take, and the whole-cell read of an edition that is asleep
(R86, R87, R89, R95, R100, R158, R174). -/

namespace Sys2Proof.Machine

/-! ## Answered at the take (R86, R87, R174) -/

/-- A feed read leaves an edition that is OFF, or DORMANT without AUTO-RESUME, as it is (R158). -/
abbrev Asleep (r : EditionRecord) : Prop := r.state = .off ∨ (r.state = .dormant ∧ r.autoResume = false)

theorem feedReadTaken_of_asleep {e : EdId} {s : State} (h : Asleep (edOf s e)) : feedReadTaken e s = s := by
  rcases h with ho | ⟨hd, hauto⟩
  · simp only [feedReadTaken, ho]
  · simp only [feedReadTaken, hd, hauto, Bool.false_eq_true, if_false]

theorem feedReadTaken_of_live {e : EdId} {s : State} (h : (edOf s e).state = .live) :
    feedReadTaken e s = modEd e (fun x => { x with idle := 0 }) s := by
  simp only [feedReadTaken, h]

theorem feedReadTaken_of_resumed {e : EdId} {s : State} (h : (edOf s e).state = .dormant)
    (hauto : (edOf s e).autoResume = true) : feedReadTaken e s =
      handOver (.edition e .resumed 0) (modEd e (fun x => { x with state := .live, idle := 0 }) s) := by
  simp only [feedReadTaken, h, hauto, if_true]

/-- Settles O19: the class decides the answer; at a length fault the state of the edition decides the rest. -/
theorem requestsAnsweredAtTheirTake : Obligations.RequestsAnsweredAtTheirTake := by
  unfold Obligations.RequestsAnsweredAtTheirTake
  intro s r ht answer
  have taken : ∀ row ∈ presenting, exec (row r) s = .next (takeRequest r s) := fun row hrow => by
    rw [exec_presenting hrow, present_of_takes ht]
  refine ⟨fun hc => ?_, fun e hc => ?_, fun e hc => ?_⟩
  · rw [taken .requestBeyondLimit (by simp [presenting]), takeRequest, hc]
    rfl
  · rw [taken .feedWrite (by simp [presenting]), takeRequest, hc]
    rfl
  · intro u
    have hrow : exec (.lengthFault r) s = .next (feedReadTaken e u) := by
      rw [taken .lengthFault (by simp [presenting]), takeRequest, hc]
      rfl
    have hed : edOf u e = edOf s e := rfl
    rw [hrow]
    refine ⟨fun hl => ?_, fun hd ha => ?_, fun hd ha => ?_, fun ho => ?_⟩
    · rw [feedReadTaken_of_live (hed ▸ hl)]
    · rw [feedReadTaken_of_resumed (hed ▸ hd) (hed ▸ ha)]
    · rw [feedReadTaken_of_asleep (hed ▸ .inr ⟨hd, ha⟩)]
    · rw [feedReadTaken_of_asleep (hed ▸ .inl ho)]

/-! ## Filler at once (R89, R100, R158) -/

/-- Entries that are FILLED become filler cells, each counted (R95, R100). -/
theorem finishEntries_of_filled (f : FeedRecord) (n : Nat) {x : InFlight} (h : x.state = .filled) :
    finishEntries f (List.replicate n x) = ({ f with filler := f.filler + BitVec.ofNat 32 n },
      List.replicate n { x with state := .finished (fillerCell x.t) false }, true) := by
  induction n generalizing f with
  | zero => simp [finishEntries]
  | succ n ih =>
    have hcount : f.filler + 1 + BitVec.ofNat 32 n = f.filler + BitVec.ofNat 32 (n + 1) := by
      rw [BitVec.add_assoc, BitVec.add_comm 1, BitVec.ofNat_add]
      rfl
    simp only [List.replicate_succ, finishEntries, finishEntry_of_filled f h, ih, hcount]

/-- The take of a whole-cell read by an edition that is asleep, before finishing: n FILLED entries (R89, R158). -/
theorem takeFeedRead_of_asleep {e : EdId} {s : State} (h : Asleep (edOf s e)) (n : Nat) :
    takeFeedRead e n s = finish e (modFeed e (fun f => { f with
      reads := f.reads ++ [List.replicate n (entryFor s.time.now (edOf s e).offset none)] }) s) := by
  have hnot : ¬(edOf s e).state = .live := by
    rcases h with ho | ⟨hd, -⟩
    · simp [ho]
    · simp [hd]
  have hnone : ∀ t o, (List.replicate n (entryFor t o none)).filterMap (·.ref) = [] := by
    simp [entryFor]
  simp only [takeFeedRead, feedReadTaken_of_asleep h, readChoices, if_neg hnot, List.map_replicate, joinRead, hnone, List.foldl_nil]

/-- With nothing ahead of it in the list, such a read is finished and handed over at once. -/
theorem takeFeedRead_alone_of_asleep {e : EdId} {s : State} (h : Asleep (edOf s e)) (hempty : (feedOf s e).reads = [])
    (n : Nat) : takeFeedRead e n s = modFeed e (fun f => { f with filler := f.filler + BitVec.ofNat 32 n })
      (readyFeed e (List.replicate n (fillerCell s.time.now)).flatten s) := by
  let x := entryFor s.time.now (edOf s e).offset none
  let joined := modFeed e (fun f => { f with reads := f.reads ++ [List.replicate n x] }) s
  have hjoined : feedOf joined e = { feedOf s e with reads := [List.replicate n x] } := by
    rw [feedOf_modFeed_same, hempty, List.nil_append]
  have hdone := finishEntries_of_filled (feedOf joined e) n (x := x) rfl
  have hcells : (List.replicate n { x with state := .finished (fillerCell x.t) false }).map cellOf =
      List.replicate n (fillerCell s.time.now) := List.map_replicate
  have hrecord : modFeed e (fun _ => { feedOf joined e with
        filler := (feedOf joined e).filler + BitVec.ofNat 32 n, reads := [] }) joined =
      modFeed e (fun f => { f with filler := f.filler + BitVec.ofNat 32 n }) s := by
    rw [modFeed_const_modFeed]
    refine modFeed_congr ?_
    rw [hjoined, ← hempty]
  rw [takeFeedRead_of_asleep h, finish_of_only_ready (congrArg FeedRecord.reads hjoined) hdone, hcells]
  exact congrArg (readyFeed e (List.replicate n (fillerCell s.time.now)).flatten) hrecord

/-- Settles O21: the read is finished at its take, and it is the oldest open read of its edition without a response. -/
theorem sleepingEditionAnswersFiller : Obligations.SleepingEditionAnswersFiller := by
  unfold Obligations.SleepingEditionAnswersFiller
  intro s r us e n hc ht hp hasleep hempty hanswered
  let opened := openReq r.tag (.feedRead e) none (upsetRefs us s)
  have htake := takeFeedRead_alone_of_asleep (s := opened) hasleep hempty n
  rw [readyFeed_of_awaiting (s := opened) rfl hanswered] at htake
  rw [exec_wholeCellRead hc ht, htake]
  exact congrArg Host.Outcome.next (settlePurge_of_noPurge hp)

end Sys2Proof.Machine
end

section
/-! SUPPORT. The return of a delivery read: its judgement, its place in the list, and the finishing that follows (R90 to R97, R100,
R101, R103). -/

namespace Sys2Proof.Machine

/-! ## The judgement (R91, R92, R93) -/

/-- The ring of a returned reference is disabled, or has gone around past it (R29, R92). -/
abbrev Lapped (r : RingRecord) (q : Sequence) : Prop := r.enabled = false ∨ r.size < (r.w - q).toNat

theorem lapped_iff {r : RingRecord} {q : Sequence} : (!r.enabled || overwritten r q) = true ↔ Lapped r q := by
  rw [Bool.or_eq_true, Bool.not_eq_true', overwritten, decide_eq_true_iff]

section
variable {u : RingUnit} {ref : Reference} {rsp : Response}

theorem judgeReturn_of_error (h : rsp.kind = .error) : judgeReturn u ref rsp = .readError := by
  simp only [judgeReturn, h]

theorem judgeReturn_of_okay (h : rsp.kind = .okay) : judgeReturn u ref rsp =
    if Lapped (tget u.recs ref.ring) ref.seq ∨ cellLabel (fit 224 rsp.data) ≠ ref.inLabel then .overrun else .accepted := by
  simp only [judgeReturn, h, lapped_iff]
  split
  · rw [if_pos (.inl ‹_›)]
  · exact if_congr (or_iff_right ‹_›).symm rfl rfl

end

/-- The read state that a judgement gives the place of a return (R91, R92, R93). -/
def placeOf (data : List Byte) : Verdict → EntryState
  | .accepted => .returned data
  | .overrun => .filled
  | .readError => .filled

/-- The counter that a judgement moves (R91, R92, R93). -/
def countReturn (f : FeedRecord) : Verdict → FeedRecord
  | .accepted => f
  | .overrun => { f with overrun := f.overrun + 1 }
  | .readError => { f with readError := f.readError + 1 }

theorem returnEntry_eq (v : Verdict) (data : List Byte) (f : FeedRecord) : returnEntry v data f =
    countReturn { f with reads := updateFirst (fun x => { x with state := placeOf data v }) f.reads } v := by
  cases v <;> rfl

/-! ## The row -/

/-- The state once the ring of a returned read counts one fewer in flight (R94). -/
def returnTold (i : RingId) (rest : List DownReq) (s : State) : State :=
  { modRing i (fun r => { r with readsInFlight := r.readsInFlight - 1 }) s with down := rest }

/-- A read in flight does not enter into what the judgement of a return looks at. -/
theorem lapped_returnTold (i j : RingId) (rest : List DownReq) (s : State) (q : Sequence) :
    Lapped (ringOf (returnTold i rest s) j) q ↔ Lapped (ringOf s j) q := by
  have h : ringOf (returnTold i rest s) j = if j = i then { ringOf s i with
      readsInFlight := (ringOf s i).readsInFlight - 1 } else ringOf s j := ringOf_modRing ..
  rw [h]
  split
  · subst_vars
    rfl
  · rfl

theorem exec_return {s : State} {e : EdId} {i : RingId} {live : Bool} {q : Request} {rest : List DownReq}
    (h : takeOldest (Config.deliveryTag e) s.down = some (⟨.delivery e i live, q⟩, rest)) (hp : NoPurge s) (rsp : Response) :
    exec (.deliveryReadCompletion e rsp) s =
      .next (if live then deliveryReturned e rsp (returnTold i rest s) else returnTold i rest s) := by
  have hback : Frame [.down, .rings, .dlv, .path] s (readBack e i live rsp rest s) := readBack_frame ..
  have hp' : NoPurge (readBack e i live rsp rest s) := by
    unfold NoPurge
    rw [hback.refs_eq, hback.cmd_eq]
    exact hp
  rw [exec_deliveryReadCompletion h, settlePurge_of_noPurge hp']
  rfl

/-- A return is judged on the first ISSUED entry, whose place takes the judgement; then finishing runs (R90 to R95). -/
theorem deliveryReturned_eq {s : State} {e : EdId} {before after : List (List InFlight)} {ahead behind : List InFlight}
    {x : InFlight} {ref : Reference} (hreads : (feedOf s e).reads = before ++ (ahead ++ x :: behind) :: after)
    (hfirst : ∀ y ∈ before.flatten ++ ahead, y.state ≠ .issued) (hx : x.state = .issued) (hr : x.ref = some ref)
    {rsp : Response} {v : Verdict} (hv : judgeReturn s.rings ref rsp = v) :
    deliveryReturned e rsp s = finish e (modFeed e (fun f => countReturn { f with
      reads := before ++ (ahead ++ { x with state := placeOf (fit 224 rsp.data) v } :: behind) :: after } v) s) := by
  have hentry : returnEntry v (fit 224 rsp.data) (feedOf s e) = countReturn { feedOf s e with
      reads := before ++ (ahead ++ { x with state := placeOf (fit 224 rsp.data) v } :: behind) :: after } v := by
    rw [returnEntry_eq, hreads, updateFirst_of_first _ hfirst hx]
  have hjudged : deliveryReturned e rsp s =
      finish e (modFeed e (returnEntry (judgeReturn s.rings ref rsp) (fit 224 rsp.data)) s) := by
    unfold deliveryReturned
    rw [hreads, firstIssued_of_first hfirst hx]
    simp only [hr]
    rfl
  rw [hjudged, hv]
  exact congrArg (finish e) (modFeed_congr hentry)

/-- The return of a delivery read that RESTART has not given up. -/
theorem exec_return_live {s : State} {e : EdId} {i : RingId} {q : Request} {rest : List DownReq}
    (h : takeOldest (Config.deliveryTag e) s.down = some (⟨.delivery e i true, q⟩, rest)) (hp : NoPurge s)
    {before after : List (List InFlight)} {ahead behind : List InFlight} {x : InFlight} {ref : Reference}
    (hreads : (feedOf s e).reads = before ++ (ahead ++ x :: behind) :: after)
    (hfirst : ∀ y ∈ before.flatten ++ ahead, y.state ≠ .issued) (hx : x.state = .issued) (hr : x.ref = some ref)
    {rsp : Response} {v : Verdict} (hv : judgeReturn (returnTold i rest s).rings ref rsp = v) :
    exec (.deliveryReadCompletion e rsp) s = .next (finish e (modFeed e (fun f => countReturn { f with
      reads := before ++ (ahead ++ { x with state := placeOf (fit 224 rsp.data) v } :: behind) :: after } v)
      (returnTold i rest s))) := by
  rw [exec_return h hp, if_pos rfl, deliveryReturned_eq (s := returnTold i rest s) hreads hfirst hx hr hv]

/-- The judgement of a return, by the ring as it stood before the row. -/
theorem judgeReturn_told {s : State} {i : RingId} {rest : List DownReq} {ref : Reference} {rsp : Response}
    (hi : ref.ring = i) : judgeReturn (returnTold i rest s).rings ref rsp =
      match rsp.kind with
      | .error => .readError
      | .okay => if Lapped (ringOf s i) ref.seq ∨ cellLabel (fit 224 rsp.data) ≠ ref.inLabel then .overrun else .accepted := by
  subst hi
  cases hk : rsp.kind with
  | error => exact judgeReturn_of_error hk
  | okay =>
    rw [judgeReturn_of_okay hk]
    exact if_congr (or_congr_left (lapped_returnTold ref.ring ref.ring rest s ref.seq)) rfl rfl

/-! ## Finishing (R95, R101) -/

/-- The finished cells of a list of entries that holds them. -/
theorem cells_of_finished {l : List InFlight} {cells : List (List Byte × Bool)}
    (h : l.map (·.state) = cells.map fun c => EntryState.finished c.1 c.2) : l.map cellOf = cells.map (·.1) := by
  have hcell : cellOf = (fun st => match st with | .finished cell _ => cell | _ => []) ∘ (·.state) := rfl
  rw [hcell, ← List.map_map, h, List.map_map]
  rfl

/-- The only entry of a list, ready, is finished and handed over to the read that waits for it. -/
theorem finish_alone {e : EdId} {s : State} {x : InFlight} {g : FeedRecord} {cell : List Byte} {real : Bool}
    {pre post : List OpenReq} {tag : PortTag} (h : (feedOf s e).reads = [[x]])
    (hx : finishEntry (feedOf s e) x = some (g, { x with state := .finished cell real }))
    (hopen : s.path.openReqs = pre ++ ⟨tag, .feedRead e, none⟩ :: post)
    (hpre : ∀ o ∈ pre, o.cls = .feedRead e → o.response ≠ none) :
    finish e s = modFeed e (fun _ => { g with reads := [] })
      { s with path := { s.path with openReqs := pre ++ ⟨tag, .feedRead e, some ⟨.okay, cell⟩⟩ :: post } } := by
  have hl : finishEntries (feedOf s e) [x] = (g, [{ x with state := .finished cell real }], true) := by
    simp only [finishEntries, hx]
  rw [finish_of_only_ready h hl, readyFeed_of_awaiting hopen hpre]
  simp only [List.map_singleton, cellOf, List.flatten_singleton]

/-- The return of the only read of a list, of one cell, is handed over at once. -/
theorem exec_return_alone {s : State} {e : EdId} {i : RingId} {q : Request} {rest : List DownReq} {x : InFlight}
    {ref : Reference} {pre : List OpenReq} {tag : PortTag} {post : List OpenReq}
    (h : takeOldest (Config.deliveryTag e) s.down = some (⟨.delivery e i true, q⟩, rest)) (hp : NoPurge s)
    (hreads : (feedOf s e).reads = [[x]]) (hx : x.state = .issued) (hr : x.ref = some ref)
    (hopen : s.path.openReqs = pre ++ ⟨tag, .feedRead e, none⟩ :: post)
    (hpre : ∀ o ∈ pre, o.cls = .feedRead e → o.response ≠ none)
    {rsp : Response} {v : Verdict} (hv : judgeReturn (returnTold i rest s).rings ref rsp = v) {g : FeedRecord}
    {cell : List Byte} {real : Bool}
    (hf : finishEntry (countReturn { feedOf s e with
        reads := [[{ x with state := placeOf (fit 224 rsp.data) v }]] } v) { x with state := placeOf (fit 224 rsp.data) v } =
      some (g, { x with state := .finished cell real })) :
    exec (.deliveryReadCompletion e rsp) s = .next (modFeed e (fun _ => { g with reads := [] })
      { returnTold i rest s with path := { s.path with openReqs :=
        pre ++ ⟨tag, .feedRead e, some ⟨.okay, cell⟩⟩ :: post } }) := by
  let x' : InFlight := { x with state := placeOf (fit 224 rsp.data) v }
  let u := modFeed e (fun f => countReturn { f with reads := [[x']] } v) (returnTold i rest s)
  have hu : feedOf u e = countReturn { feedOf s e with reads := [[x']] } v := feedOf_modFeed_same ..
  have hreads' : (feedOf u e).reads = [[x']] := by
    rw [hu]
    cases v <;> rfl
  rw [exec_return_live h hp (before := []) (ahead := []) (behind := []) (after := []) hreads nofun hx hr hv]
  show Host.Outcome.next (finish e u) = _
  rw [finish_alone (x := x') hreads' (hu ▸ hf) (s := u) hopen hpre]
  exact congrArg Host.Outcome.next (modFeed_const_modFeed e { g with reads := [] } (fun f => countReturn { f with reads := [[x']] } v)
    { returnTold i rest s with path := { s.path with openReqs := pre ++ ⟨tag, .feedRead e, some ⟨.okay, cell⟩⟩ :: post } })

/-- Settles O29: the judgement of the row, the four things that can stand at the front of a list, and the two together for a read
of one cell. -/
theorem deliveryReturnIsJudged : Obligations.DeliveryReturnIsJudged := by
  unfold Obligations.DeliveryReturnIsJudged
  refine ⟨fun s e rsp i live q rest hold hp => ?_, fun s e => ?_, ?_⟩
  · intro row told
    refine ⟨fun hlive => ?_, fun before ahead x behind after ref hlive hreads hfirst hx hr hi => ?_⟩
    · subst hlive
      exact exec_return hold hp rsp
    · subst hlive
      have judged := fun v => exec_return_live (v := v) hold hp hreads hfirst hx hr (rsp := rsp)
      rw [judgeReturn_told hi] at judged
      refine ⟨fun hk => judged .readError ?_, fun hk hl => judged .overrun ?_,
        fun hk hl hlabel => judged .accepted ?_⟩
      · rw [hk]
      · rw [hk]
        exact if_pos hl
      · rw [hk]
        exact if_neg (not_or.2 ⟨hl, not_not.2 hlabel⟩)
  · intro f isFinished
    refine ⟨finish_of_empty, fun ahead after ha => ⟨fun cells hcells hreads pre tag post hopen hpre => ?_, ?_⟩⟩
    · rw [finish_of_front_finished hreads ha, cells_of_finished hcells, readyFeed_of_awaiting hopen hpre]
    · intro y behind hreads goesOn
      refine ⟨finish_of_front_issued hreads ha, fun hy => ?_, fun data ref hy hr => ?_⟩
      · rw [finish_of_front_ready hreads ha (finishEntry_of_filled _ hy) ⟨_, _, rfl⟩]
        exact congrArg (finish e) (modFeed_congr rfl)
      · rw [finish_of_front_ready hreads ha (finishEntry_of_returned _ hy hr) ⟨_, _, rfl⟩]
        exact congrArg (finish e) (modFeed_congr rfl)
  · intro s e rsp i q rest x ref pre tag post hold hp hreads hx hr hi hopen hpre r f answer lapped data row
    have alone := fun v => exec_return_alone (v := v) hold hp hreads hx hr hopen hpre (rsp := rsp)
    rw [judgeReturn_told hi] at alone
    refine ⟨fun hk => ?_, fun hk hl => ?_, fun hk hl hlabel => ?_⟩
    · have hrow := alone .readError (by rw [hk]) (finishEntry_of_filled _ rfl)
      exact hrow
    · have hrow := alone .overrun (by rw [hk]; exact if_pos hl) (finishEntry_of_filled _ rfl)
      exact hrow
    · have hrow := alone .accepted (by rw [hk]; exact if_neg (not_or.2 ⟨hl, not_not.2 hlabel⟩)) (finishEntry_of_returned _ rfl hr)
      exact hrow

end Sys2Proof.Machine
end

section
/-! SUPPORT. How much the part holds: the entries of the in-flight lists, the open requests and the waiting commands. Every
operation but the take of a request and of a command leaves no more of them (R88, R178, R188). -/

set_option Elab.async false

namespace Sys2Proof.Machine

/-! ## Holding no more -/

/-- From s to t no in-flight list, nor the open requests, nor the waiting commands grow. -/
structure NoMore (s t : State) : Prop where
  list : ∀ e, entriesUsed (feedOf t e) ≤ entriesUsed (feedOf s e)
  openReqs : t.path.openReqs.length ≤ s.path.openReqs.length
  queue : t.cmd.queue.length ≤ s.cmd.queue.length

theorem NoMore.refl (s : State) : NoMore s s := ⟨fun _ => le_rfl, le_rfl, le_rfl⟩

theorem NoMore.trans {s t u : State} (h : NoMore s t) (g : NoMore t u) : NoMore s u :=
  ⟨fun e => (g.list e).trans (h.list e), g.openReqs.trans h.openReqs, g.queue.trans h.queue⟩

theorem NoMore.foldl {α : Type} {f : State → α → State} (hf : ∀ s a, NoMore s (f s a)) (l : List α) (s : State) :
    NoMore s (l.foldl f s) := by
  induction l generalizing s with
  | nil => exact .refl s
  | cons a l ih => exact (hf s a).trans (ih _)

/-- What leaves the three blocks as they are holds no more. -/
theorem NoMore.of_frame {bs : List Block} {s t : State} (f : Frame bs s t) (hp : .path ∉ bs := by decide)
    (hd : .dlv ∉ bs := by decide) (hc : .cmd ∉ bs := by decide) : NoMore s t where
  list e := by rw [feedOf_congr (f.dlv_eq hd)]
  openReqs := by rw [f.path_eq hp]
  queue := by rw [f.cmd_eq hc]

theorem CapacityLaw.noMore {s t : State} (h : CapacityLaw s) (m : NoMore s t) : CapacityLaw t :=
  ⟨fun e => (m.list e).trans (h.list e), m.openReqs.trans h.openReqs, m.queue.trans h.queue⟩

section
variable {s : State}

/-- A change of the path unit that opens no request. -/
theorem noMore_path {x : PathUnit} (h : x.openReqs.length ≤ s.path.openReqs.length) : NoMore s { s with path := x } :=
  ⟨fun _ => le_rfl, h, le_rfl⟩

/-- A change of the command unit that adds no waiting command. -/
theorem noMore_cmd {x : CommandUnit} (h : x.queue.length ≤ s.cmd.queue.length) : NoMore s { s with cmd := x } :=
  ⟨fun _ => le_rfl, le_rfl, h⟩

theorem noMore_modFeed {e : EdId} {f : FeedRecord → FeedRecord} (h : entriesUsed (f (feedOf s e)) ≤ entriesUsed (feedOf s e)) :
    NoMore s (modFeed e f s) := by
  refine ⟨fun a => ?_, le_rfl, le_rfl⟩
  rw [feedOf_modFeed]
  split
  · subst_vars
    exact h
  · exact le_rfl

end

/-! ## The delivery unit (R88, R95) -/

theorem noMore_readyFeed (e : EdId) (cells : List Byte) (s : State) : NoMore s (readyFeed e cells s) :=
  noMore_path (length_readyFirst ..).le

theorem noMore_readyForwarded (tag : PortTag) (rsp : Response) (s : State) : NoMore s (readyForwarded tag rsp s) :=
  noMore_path (length_readyFirst ..).le

/-- Finishing takes entries out of a list with the reads handed over, and adds none. -/
theorem entriesUsed_finishReads (f : FeedRecord) (ls : List (List InFlight)) :
    ((finishReads f ls).2.1.map List.length).sum ≤ (ls.map List.length).sum := by
  induction ls generalizing f with
  | nil => exact le_rfl
  | cons l ls ih =>
    have hlen := length_finishEntries f l
    obtain ⟨⟨g, l', done⟩, hl⟩ : ∃ r, finishEntries f l = r := ⟨_, rfl⟩
    rw [hl] at hlen
    cases done with
    | false => simp only [finishReads_cons_of_stop hl, List.map_cons, hlen, le_refl]
    | true =>
      rw [finishReads_cons_of_done hl]
      exact (ih g).trans (Nat.le_add_left ..)

theorem noMore_finish (e : EdId) (s : State) : NoMore s (finish e s) :=
  have hlist : entriesUsed { (finishReads (feedOf s e) (feedOf s e).reads).1 with
      reads := (finishReads (feedOf s e) (feedOf s e).reads).2.1 } ≤ entriesUsed (feedOf s e) := entriesUsed_finishReads ..
  (noMore_modFeed hlist).trans (.foldl (fun s cells => noMore_readyFeed e cells s) _ _)

theorem length_updateIssued {g : InFlight → InFlight} {l l' : List InFlight} (h : updateIssued g l = some l') :
    l'.length = l.length := by
  induction l generalizing l' with
  | nil => cases h
  | cons x l ih =>
    rw [updateIssued] at h
    split at h
    · cases h
      rfl
    · obtain ⟨m, hm, rfl⟩ := Option.map_eq_some_iff.1 h
      exact congrArg (· + 1) (ih hm)

theorem map_length_updateFirst (g : InFlight → InFlight) (ls : List (List InFlight)) :
    (updateFirst g ls).map List.length = ls.map List.length := by
  induction ls with
  | nil => rfl
  | cons l ls ih =>
    rw [updateFirst]
    split
    · rw [List.map_cons, List.map_cons, length_updateIssued ‹_›]
    · rw [List.map_cons, List.map_cons, ih]

theorem entriesUsed_returnEntry (v : Verdict) (data : List Byte) (f : FeedRecord) :
    entriesUsed (returnEntry v data f) = entriesUsed f := by
  cases v <;> exact congrArg List.sum (map_length_updateFirst ..)

theorem noMore_deliveryReturned (e : EdId) (rsp : Response) (s : State) : NoMore s (deliveryReturned e rsp s) := by
  unfold deliveryReturned
  split
  · exact .refl s
  · split
    · exact .refl s
    · exact (noMore_modFeed (entriesUsed_returnEntry ..).le).trans (noMore_finish ..)

/-- Empty in-flight lists hold no more than any. -/
theorem noMore_resetDelivery (s : State) : NoMore s { s with dlv := .reset } := by
  refine ⟨fun e => ?_, le_rfl, le_rfl⟩
  have hempty : feedOf { s with dlv := .reset } e = .reset := tget_replicate ..
  rw [hempty]
  exact Nat.zero_le _

theorem noMore_restartDelivery (s : State) : NoMore s (restartDelivery s) :=
  (NoMore.foldl (fun s e => .foldl (fun s xs => noMore_readyFeed e (fillerData xs) s) (feedOf s e).reads s) _ s).trans
    (noMore_resetDelivery _)

/-! ## The owning blocks of the commands -/

theorem noMore_restartAct (s : State) : NoMore s (restartAct s) := by
  have hrest : ∀ (u : State) d r st rf sp c ch ed t, NoMore u { u with
      down := d, rings := r, stream := st, refs := rf, splices := sp, comp := c, chans := ch, eds := ed, time := t } :=
    fun _ _ _ _ _ _ _ _ _ _ => ⟨fun _ => le_rfl, le_rfl, le_rfl⟩
  exact (noMore_restartDelivery s).trans (hrest ..)

theorem noMore_turnOn (e : EdId) (s : State) : NoMore s (turnOn e s) := by
  unfold turnOn
  split
  · exact .refl s
  · exact .of_frame (modEd_frame ..)
  · have hwake : Frame [.eds, .comp] s (modComp e compTurnOn (modEd e (fun r => { r with state := .live, idle := 0 }) s)) :=
      (modEd_frame ..).andThen (modComp_frame ..)
    exact (NoMore.of_frame hwake).trans (noMore_modFeed le_rfl)

theorem noMore_doEditionOn (e : BitVec 8) (s : State) : NoMore s (doEditionOn e s).state := by
  unfold doEditionOn
  split
  · exact .refl s
  · exact noMore_turnOn ..

theorem noMore_doRelocateControl (b c : Addr) (s : State) : NoMore s (doRelocateControl b c s).state := by
  unfold doRelocateControl
  repeat' split
  · exact .refl s
  · exact .refl s
  · exact noMore_path le_rfl

theorem noMore_doSetMemoryLimit (m : BitVec 64) (s : State) : NoMore s (doSetMemoryLimit m s).state := by
  unfold doSetMemoryLimit
  split
  · exact .refl s
  · exact noMore_path le_rfl

theorem noMore_runAct (tag : Tag16) (c : Command) (s : State) : NoMore s (runAct tag c s).state := by
  cases c with
  | setStreamEntry => exact .of_frame (doSetStreamEntry_frame ..)
  | loadStreamEntries => exact .of_frame (doLoadStreamEntries_frame ..)
  | setEccThreshold => exact .of_frame (doSetEccThreshold_frame ..)
  | setRing => exact .of_frame (doSetRing_frame ..)
  | setRingTimingOnly => exact .of_frame (doSetRingTimingOnly_frame ..)
  | disableRing => exact .of_frame (doDisableRing_frame ..)
  | setProtection => exact .of_frame (doSetProtection_frame ..)
  | clearProtection => exact .of_frame (doClearProtection_frame ..)
  | setProgramme => exact .of_frame (doSetProgramme_frame ..)
  | setCarriage => exact .of_frame (doSetCarriage_frame ..)
  | armSplice => exact .of_frame (doArmSplice_frame ..)
  | cancelSplice => exact .of_frame (doCancelSplice_frame ..)
  | setVariantNow => exact .of_frame (doSetVariantNow_frame ..)
  | startSchedule => exact .of_frame (doStartSchedule_frame ..)
  | haltSchedule => exact .of_frame (doHaltSchedule_frame ..)
  | clearSchedule => exact .of_frame (doClearSchedule_frame ..)
  | resumeSchedule => exact .of_frame (doResumeSchedule_frame ..)
  | setEdition => exact .of_frame (doSetEdition_frame ..)
  | editionOn => exact noMore_doEditionOn ..
  | editionOff => exact .of_frame (doEditionOff_frame ..)
  | timeLoad => exact .of_frame (doTimeLoad_frame ..)
  | relocateControl => exact noMore_doRelocateControl ..
  | setMemoryLimit => exact noMore_doSetMemoryLimit ..
  | setReportRing => exact .of_frame (doSetReportRing_frame ..)
  | reportAck => exact .of_frame (doReportAck_frame ..)
  | statistics => exact .of_frame (doStatistics_frame ..)
  | restart => exact noMore_restartAct s

/-! ## The command unit (R188, R190) -/

theorem noMore_startCommand (c : TakenCommand) (s : State) : NoMore s (startCommand c s) := by
  have report : ∀ (u : State) b, NoMore u (handOver b u) := fun u b => .of_frame (handOver_frame b u)
  unfold startCommand
  split
  · exact report ..
  · exact report ..
  · have hempty : NoMore (restartAct s) { restartAct s with cmd := { s.cmd with queue := [] } } := noMore_cmd (Nat.zero_le _)
    exact (((noMore_restartAct s).trans hempty).trans (report ..)).trans (.foldl (fun s c => report ..) _ _)
  · rename_i k _ _
    have hact := noMore_runAct c.tag k s
    split <;> rename_i heq <;> rw [heq] at hact
    · exact hact.trans (report ..)
    · exact hact.trans (noMore_cmd le_rfl)

theorem noMore_endRunning (o : CmdOutcome) (s : State) : NoMore s (endRunning o s) := by
  unfold endRunning
  split
  · have hended : NoMore s { s with cmd := { s.cmd with running := none } } := noMore_cmd le_rfl
    exact hended.trans (.of_frame (handOver_frame ..))
  · exact .refl s

theorem noMore_advanceScan (s : State) : NoMore s (advanceScan s) := .of_frame (advanceScan_frame s)

theorem noMore_endPurge (s : State) : NoMore s (endPurge s) := by
  unfold endPurge
  dsimp only
  split
  · exact (noMore_advanceScan s).trans (noMore_endRunning ..)
  · exact noMore_advanceScan s

theorem noMore_drain (fuel : Nat) (s : State) : NoMore s (drain fuel s) := by
  induction fuel generalizing s with
  | zero => exact .refl s
  | succ fuel ih =>
    unfold drain
    split
    · rename_i c rest _ hqueue
      have hnext : NoMore s { s with cmd := { s.cmd with queue := rest } } :=
        noMore_cmd (hqueue ▸ Nat.le_succ rest.length)
      exact ((hnext.trans (noMore_startCommand c _)).trans (noMore_endPurge _)).trans (ih _)
    · exact .refl s

theorem noMore_finishRunning (o : CmdOutcome) (s : State) : NoMore s (finishRunning o s) :=
  (noMore_endRunning o s).trans (noMore_drain ..)

theorem noMore_settlePurge (s : State) : NoMore s (settlePurge s) := by
  unfold settlePurge
  dsimp only
  split
  · exact (noMore_advanceScan s).trans (noMore_finishRunning ..)
  · exact noMore_advanceScan s

/-! ## The downstream port -/

theorem noMore_streamListReturned (rsp : Response) (s : State) : NoMore s (streamListReturned rsp s) := by
  unfold streamListReturned
  split
  · split
    · exact noMore_finishRunning ..
    · have hwritten : ∀ t, NoMore s { s with stream := t } := fun t => .of_frame (frame_stream s t)
      dsimp only
      split
      · exact (hwritten _).trans (noMore_finishRunning ..)
      · have hnext : ∀ t x, NoMore s { s with stream := t, cmd := { s.cmd with running := x } } := fun t x =>
          (hwritten t).trans (noMore_cmd le_rfl)
        exact (hnext ..).trans (.of_frame (issue_frame ..))
  · exact .refl s

theorem noMore_carriageListReturned (rsp : Response) (s : State) : NoMore s (carriageListReturned rsp s) := by
  unfold carriageListReturned
  split
  · split
    · exact noMore_finishRunning ..
    · split
      · exact noMore_finishRunning ..
      · exact (NoMore.of_frame (receiveFrame_frame ..)).trans (noMore_finishRunning ..)
  · exact .refl s

theorem noMore_indexReturned (s : State) : NoMore s (indexReturned s) := by
  unfold indexReturned
  split
  · have hidle : NoMore s { s with rep := { s.rep with writer := .idle } } := .of_frame (frame_rep ..)
    dsimp only
    split
    · exact (hidle.trans (.of_frame (setRingAct_frame ..))).trans (noMore_finishRunning ..)
    · exact hidle.trans (.of_frame (startWrite_frame _))
  · exact .refl s

theorem noMore_respond (tag : PortTag) (rsp : Response) (s : State) : NoMore s (respond tag rsp s) := by
  unfold respond
  split
  · exact .refl s
  · rename_i d rest _
    have hdown : NoMore s { s with down := rest } := .of_frame (frame_down s rest)
    dsimp only
    split
    · exact hdown.trans (noMore_readyForwarded ..)
    · exact (hdown.trans (noMore_readyForwarded ..)).trans (.of_frame (ingestReturned_frame ..))
    · rename_i r _ _
      have hback := hdown.trans (.of_frame (readReturned_frame r _))
      refine NoMore.trans ?_ (noMore_settlePurge _)
      split
      · exact hback.trans (noMore_deliveryReturned ..)
      · exact hback
    · exact hdown.trans (noMore_streamListReturned ..)
    · exact hdown.trans (noMore_carriageListReturned ..)
    · split
      · exact hdown.trans (.of_frame (wordReturned_frame ..))
      · exact hdown
    · split
      · exact hdown.trans (.of_frame (dataReturned_frame ..))
      · exact hdown
    · exact hdown.trans (.of_frame (recordReturned_frame ..))
    · exact hdown.trans (noMore_indexReturned _)

/-! ## The takes (R89, R178, R188) -/

section
variable {s : State}

/-- A command that finds one in flight joins the waiting commands only where they have room (R188, R189). -/
theorem takeCommand_capacity (h : CapacityLaw s) (c : TakenCommand) : CapacityLaw (takeCommand c s) := by
  unfold takeCommand
  split
  · exact h.noMore ((noMore_startCommand c s).trans (noMore_endPurge _))
  · split
    · rename_i hroom
      have hjoin : (s.cmd.queue ++ [c]).length ≤ 8 := List.length_append.trans_le (Nat.succ_le_of_lt hroom)
      exact ⟨h.list, h.openReqs, hjoin⟩
    · exact h.noMore (.of_frame (handOver_frame ..))

theorem openReq_capacity (h : CapacityLaw s) (hroom : s.path.openReqs.length < 128) (tag : PortTag) (c : OpenClass)
    (rsp : Option Response) : CapacityLaw (openReq tag c rsp s) := by
  have hopen : (openReq tag c rsp s).path.openReqs.length ≤ 128 := List.length_append.trans_le (Nat.succ_le_of_lt hroom)
  exact ⟨h.list, hopen, h.queue⟩

theorem length_readChoices (e : EdId) (n : Nat) (s : State) : (readChoices e n s).2.length = n := by
  unfold readChoices
  split
  · exact length_composeRead ..
  · exact List.length_replicate

/-- A read joins a list that has room for its entries (R89). -/
theorem joinRead_capacity (h : CapacityLaw s) {e : EdId} {xs : List InFlight}
    (hroom : entriesUsed (feedOf s e) + xs.length ≤ 32) : CapacityLaw (joinRead e xs s) := by
  have f := joinRead_frame e xs s
  obtain ⟨-, -, -, hhere, hothers⟩ := joinRead_says e xs s
  refine ⟨fun a => ?_, f.path_eq ▸ h.openReqs, f.cmd_eq ▸ h.queue⟩
  by_cases ha : a = e
  · subst ha
    rw [hhere]
    simpa [entriesUsed] using hroom
  · rw [hothers a ha]
    exact h.list a

theorem takeFeedRead_capacity (h : CapacityLaw s) {e : EdId} {n : Nat} (hroom : entriesUsed (feedOf s e) + n ≤ 32) :
    CapacityLaw (takeFeedRead e n s) := by
  have f : Frame [.eds, .down, .rep, .refs, .comp] s (readChoices e n (feedReadTaken e s)).1 :=
    (feedReadTaken_frame e s).andThen (readChoices_frame e n _)
  unfold takeFeedRead
  refine (joinRead_capacity (h.noMore (.of_frame f)) ?_).noMore (noMore_finish e _)
  rwa [feedOf_congr f.dlv_eq, List.length_map, length_readChoices]

theorem silentRun_frame (i : RingId) (s : State) : Frame [.rings, .down, .rep] s (silentRun i s) := by
  unfold silentRun
  dsimp only
  split
  · exact .refl s
  · split
    · exact silenceChange_frame ..
    · exact (modRing_frame ..).mono

/-- A request that finds room is taken into it (R178). -/
theorem takeRequest_capacity (h : CapacityLaw s) {r : Request} (hroom : Room s r) : CapacityLaw (takeRequest r s) := by
  obtain ⟨hopen, hlist⟩ := hroom
  have opened := openReq_capacity h hopen r.tag
  have forwarded : ∀ k q, CapacityLaw (forward k q s) := fun k q =>
    (openReq_capacity h hopen q.tag .forwarded none).noMore (.of_frame (issue_frame k q _))
  unfold takeRequest
  split
  · exact opened ..
  · rename_i e n hc
    exact (takeFeedRead_capacity (opened ..) (hlist e n hc)).noMore (noMore_settlePurge _)
  · exact ((opened ..).noMore (noMore_modFeed le_rfl)).noMore (.of_frame (feedReadTaken_frame ..))
  · exact (opened ..).noMore (noMore_modFeed le_rfl)
  · exact ((forwarded ..).noMore (.of_frame (modRing_frame ..))).noMore (.of_frame (silentRun_frame ..))
  · exact (forwarded ..).noMore (.of_frame (modRing_frame ..))
  · exact forwarded ..
  · exact takeCommand_capacity (forwarded ..) _
  · exact forwarded ..
  · exact forwarded ..

theorem present_capacity (h : CapacityLaw s) (r : Request) : CapacityLaw (present r s) := by
  by_cases ht : Takes s r
  · rw [present_of_takes ht]
    exact takeRequest_capacity h ht.2
  · rw [present_of_not_takes ht]
    exact h.noMore (noMore_path le_rfl)

/-- A waiting request is taken only when it finds room. -/
theorem room_of_nextTake {before ws rest : List Request} {r : Request} (h : nextTake s before ws = some (r, rest)) :
    Room s r := by
  induction ws generalizing before with
  | nil => cases h
  | cons w ws ih =>
    unfold nextTake at h
    split at h
    · rename_i htake
      cases h
      exact roomFor_iff.1 (Bool.and_eq_true_iff.1 htake).2
    · exact ih h

theorem idleStep_capacity (h : CapacityLaw s) : CapacityLaw (idleStep s) := by
  unfold idleStep
  split
  · exact h
  · rename_i r ws hnext
    have hwait : CapacityLaw { s with path := { s.path with waiting := ws } } := h.noMore (noMore_path le_rfl)
    exact takeRequest_capacity hwait (show Room s r from room_of_nextTake hnext)

end

/-! ## The rows -/

/-- The row ends in a next state that holds no more. -/
def EndsNoMore (s : State) (o : Host.Outcome State Fault Refusal) : Prop := ∃ t, o = .next t ∧ NoMore s t

section
variable (s : State)

theorem endsNoMore_same : EndsNoMore s (.next s) := ⟨_, rfl, .refl s⟩

theorem endsNoMore_frame {bs : List Block} {s t : State} (f : Frame bs s t) (hp : .path ∉ bs := by decide)
    (hd : .dlv ∉ bs := by decide) (hc : .cmd ∉ bs := by decide) : EndsNoMore s (.next t) :=
  ⟨_, rfl, .of_frame f hp hd hc⟩

/-- A response that leaves takes its request with it (R180). -/
theorem length_leave {tag : PortTag} {before os rest : List OpenReq} (h : leave tag before os = some rest) :
    rest.length ≤ before.length + os.length := by
  induction os generalizing before with
  | nil => cases h
  | cons o os ih =>
    have hgone : (before ++ os).length ≤ before.length + (o :: os).length := by simp
    unfold leave at h
    split at h
    · split at h
      · cases h
      · split at h <;> cases h
        exact hgone
      · cases h
        exact hgone
    · simpa [Nat.add_assoc, Nat.add_comm 1] using ih h

theorem execResponseLeaves_noMore (tag : PortTag) : EndsNoMore s (execResponseLeaves tag s) := by
  unfold execResponseLeaves
  split
  · rename_i os hleft
    exact ⟨_, rfl, noMore_path (by simpa using length_leave hleft)⟩
  · exact endsNoMore_same s

theorem execSilenceExpiry_noMore (i : RingId) : EndsNoMore s (execSilenceExpiry i s) := by
  unfold execSilenceExpiry
  split
  · exact endsNoMore_frame (silenceExpires_frame ..)
  · exact endsNoMore_same s

theorem execFeedWatchExpiry_noMore (e : EdId) : EndsNoMore s (execFeedWatchExpiry e s) := by
  unfold execFeedWatchExpiry
  split
  · exact ⟨_, rfl, (NoMore.of_frame (watchExpires_frame ..)).trans (noMore_settlePurge _)⟩
  · exact endsNoMore_same s

theorem execSpliceTReached_noMore (e : EdId) (p : ProgId) : EndsNoMore s (execSpliceTReached e p s) := by
  unfold execSpliceTReached
  split
  · split
    · exact endsNoMore_frame (reachT_frame ..)
    · exact endsNoMore_same s
  · exact endsNoMore_same s

theorem execWindowEnd_noMore (e : EdId) (p : ProgId) : EndsNoMore s (execWindowEnd e p s) := by
  unfold execWindowEnd
  split
  · split
    · exact endsNoMore_frame (resolve_frame ..)
    · exact endsNoMore_same s
  · exact endsNoMore_same s

theorem execReferenceLost_noMore : EndsNoMore s (execReferenceLost s) := by
  unfold execReferenceLost
  split
  · exact endsNoMore_frame (loseReference_frame s)
  · exact endsNoMore_same s

theorem execOscillatorPeriodEnd_noMore : EndsNoMore s (execOscillatorPeriodEnd s) := by
  unfold execOscillatorPeriodEnd
  split
  · exact endsNoMore_frame (elapse_frame 1 s)
  · exact endsNoMore_frame (frame_time s _)

theorem execPpsEdge_noMore : EndsNoMore s (execPpsEdge s) := by
  unfold execPpsEdge
  split
  · exact endsNoMore_frame (applyLoad_frame ..)
  · exact endsNoMore_same s

theorem execPpsTimeout_noMore : EndsNoMore s (execPpsTimeout s) := by
  unfold execPpsTimeout
  split
  · split
    · exact ⟨_, rfl, (NoMore.of_frame (frame_time s _)).trans (.of_frame (handOver_frame ..))⟩
    · exact endsNoMore_same s
  · exact endsNoMore_same s

theorem execIngestWriteCompletion_noMore (tag : PortTag) (rsp : Response) (up : BitFault) :
    EndsNoMore s (execIngestWriteCompletion tag rsp up s) := by
  unfold execIngestWriteCompletion
  split
  · exact ⟨_, rfl, (NoMore.of_frame (frame_stream s _)).trans (noMore_respond ..)⟩
  · exact ⟨_, rfl, noMore_respond ..⟩

theorem execHardwareReset_noMore (strap : BitVec 4) : EndsNoMore s (execHardwareReset strap s) := by
  refine ⟨_, rfl, fun e => ?_, Nat.zero_le _, Nat.zero_le _⟩
  have hempty : tget Delivery.reset.recs e = .reset := tget_replicate ..
  show entriesUsed (tget Delivery.reset.recs e) ≤ _
  rw [hempty]
  exact Nat.zero_le _

end

/-- The row ends in a next state within the capacities. -/
def EndsWithin (o : Host.Outcome State Fault Refusal) : Prop := ∃ t, o = .next t ∧ CapacityLaw t

section
variable {s : State} (h : CapacityLaw s)
include h

theorem EndsNoMore.within {o : Host.Outcome State Fault Refusal} (m : EndsNoMore s o) : EndsWithin o := by
  obtain ⟨t, ht, hm⟩ := m
  exact ⟨t, ht, h.noMore hm⟩

theorem present_within (r : Request) : EndsWithin (.next (present r s)) := ⟨_, rfl, present_capacity h r⟩

theorem respond_within (tag : PortTag) (rsp : Response) : EndsWithin (.next (respond tag rsp s)) :=
  ⟨_, rfl, h.noMore (noMore_respond tag rsp s)⟩

theorem takeRow_within (hd : CmdHeader) (c : Command) : EndsWithin (takeRow hd c s) := ⟨_, rfl, takeCommand_capacity h _⟩

/-- Every row keeps the capacities: a presented request and a command take only the room there is, and no other row holds
more. -/
theorem exec_within (c : Instr) : EndsWithin (exec c s) := by
  have hupset : ∀ us, NoMore s (upsetRefs us s) := fun us => .of_frame (upsetRefs_frame us s)
  cases c with
  | ingestWrite r | malformedWrite r | ringRead r | passThroughRequest r | controlPassThrough r | requestBeyondLimit r
  | lengthFault r | feedWrite r | commandWrite r => exact present_within h r
  | wholeCellRead r us => exact present_within (h.noMore (hupset us)) r
  | downstreamCompletion tag rsp | staleResponseDiscard tag rsp => exact respond_within h tag rsp
  | deliveryReadCompletion e rsp | wordFetchCompletion e rsp | dataFetchCompletion e rsp => exact respond_within h _ rsp
  | streamListReadCompletion rsp | carriageListReadCompletion rsp | reportWriteCompletion rsp
  | indexBlockWriteCompletion rsp => exact respond_within h _ rsp
  | ingestWriteCompletion tag rsp up => exact (execIngestWriteCompletion_noMore s tag rsp up).within h
  | responseLeaves tag => exact (execResponseLeaves_noMore s tag).within h
  | purgeScanStep us =>
    exact ⟨_, rfl, h.noMore (((hupset us).trans (.of_frame (scanStep_frame _))).trans (noMore_settlePurge _))⟩
  | silenceExpiry i => exact (execSilenceExpiry_noMore s i).within h
  | feedWatchExpiry e => exact (execFeedWatchExpiry_noMore s e).within h
  | spliceTReached e p => exact (execSpliceTReached_noMore s e p).within h
  | windowEnd e p => exact (execWindowEnd_noMore s e p).within h
  | waitReached e => exact (endsNoMore_frame (judgeWaiting_frame s e)).within h
  | referenceLost => exact (execReferenceLost_noMore s).within h
  | stationReferenceEdge | referenceRestored => exact (endsNoMore_frame (referenceEdge_frame s)).within h
  | oscillatorPeriodEnd => exact (execOscillatorPeriodEnd_noMore s).within h
  | ppsEdge => exact (execPpsEdge_noMore s).within h
  | ppsTimeout => exact (execPpsTimeout_noMore s).within h
  | hardwareReset strap => exact (execHardwareReset_noMore s strap).within h
  | setStreamEntry | loadStreamEntries | setEccThreshold | setRing | setRingTimingOnly | disableRing | setProtection
  | clearProtection | setProgramme | setCarriage | armSplice | cancelSplice | setVariantNow | startSchedule | haltSchedule
  | clearSchedule | resumeSchedule | setEdition | editionOn | editionOff | timeLoad | relocateControl | setMemoryLimit
  | setReportRing | reportAck | statistics | restart => exact takeRow_within h _ _

end

/-- Settles O10: only the take of a request and of a command add to what the part holds, and each is made where there is room. -/
theorem stepKeepsTheCapacities : Obligations.StepKeepsTheCapacities := by
  unfold Obligations.StepKeepsTheCapacities
  intro s t h ht
  unfold step at ht
  split at ht
  · cases ht
    exact idleStep_capacity h
  · rename_i c rest _
    obtain ⟨u, hu, hlaw⟩ := exec_within (h.noMore (.of_frame (frame_pending s rest))) c
    rw [hu] at ht
    cases ht
    exact hlaw

end Sys2Proof.Machine
end

section
/-! SUPPORT. The records that the part writes, read back by their layouts: bytes and numbers at an offset, the header of a
delivered and of a filler cell, the report record and the index block (R96 to R100, R204, R205, R209, R210). -/

set_option Elab.async false

namespace Sys2Proof.Machine

/-! ## Bytes and numbers at an offset (R204) -/

section
variable {a b bs : List Byte} {k n off : Nat}

theorem byteAt_append_left (h : k < a.length) : byteAt (a ++ b) k = byteAt a k := by
  simp only [byteAt, List.getD_eq_getElem?_getD, List.getElem?_append_left h]

theorem byteAt_append_right (h : a.length ≤ k) : byteAt (a ++ b) k = byteAt b (k - a.length) := by
  simp only [byteAt, List.getD_eq_getElem?_getD, List.getElem?_append_right h]

theorem byteAt_of_le (h : bs.length ≤ k) : byteAt bs k = 0 := by
  simp only [byteAt, List.getD_eq_getElem?_getD, List.getElem?_eq_none h, Option.getD_none]

theorem byteAt_fit (h : k < n) : byteAt (fit n bs) k = byteAt bs k := by
  unfold fit
  have htake : byteAt ((bs ++ List.replicate n 0).take n) k = byteAt (bs ++ List.replicate n 0) k := by
    simp only [byteAt, List.getD_eq_getElem?_getD, List.getElem?_take_of_lt h]
  rw [htake]
  rcases Nat.lt_or_ge k bs.length with hk | hk
  · exact byteAt_append_left hk
  · rw [byteAt_append_right hk, byteAt_of_le hk]
    simp only [byteAt, List.getD_eq_getElem?_getD, List.getElem?_replicate]
    split <;> rfl

theorem length_fit (n : Nat) (bs : List Byte) : (fit n bs).length = n := by
  simp [fit]

theorem fit_of_length (h : bs.length = n) : fit n bs = bs := by
  subst h
  simp [fit]

theorem leNat_append_left (h : off + n ≤ a.length) : leNat (a ++ b) off n = leNat a off n :=
  leNat_congr fun _ hk => byteAt_append_left (by omega)

theorem leNat_append_right (h : a.length ≤ off) : leNat (a ++ b) off n = leNat b (off - a.length) n :=
  leNat_congr fun k _ => by
    rw [byteAt_append_right (by omega)]
    congr 1
    omega

/-- A number is 0 when each of its bytes is. -/
theorem leNat_eq_zero : leNat bs off n = 0 ↔ ∀ k, off ≤ k → k < off + n → byteAt bs k = 0 := by
  induction n generalizing off with
  | zero => exact ⟨fun _ k _ _ => by omega, fun _ => rfl⟩
  | succ n ih =>
    have hbyte : (byteAt bs off).toNat = 0 ↔ byteAt bs off = 0 := by
      rw [← BitVec.toNat_inj]
      rfl
    rw [leNat, Nat.add_eq_zero_iff, hbyte, Nat.mul_eq_zero, or_iff_right (by decide), ih]
    constructor
    · rintro ⟨hhere, hrest⟩ k hk hlt
      rcases Nat.eq_or_lt_of_le hk with rfl | hk
      · exact hhere
      · exact hrest k hk (by omega)
    · exact fun h => ⟨h off le_rfl (by omega), fun k hk hlt => h k (by omega) (by omega)⟩

theorem leNat_of_le (h : bs.length ≤ off) : leNat bs off n = 0 :=
  leNat_eq_zero.2 fun _ hk _ => byteAt_of_le (h.trans hk)

theorem leNat_one : leNat bs off 1 = (byteAt bs off).toNat := by
  simp [leNat]

@[simp] theorem leNat_nil : leNat [] off n = 0 := leNat_of_le (Nat.zero_le _)

@[simp] theorem leNat_zero : leNat bs off 0 = 0 := rfl

/-! ### Byte by byte -/

variable {x : Byte}

@[simp] theorem byteAt_cons_zero : byteAt (x :: bs) 0 = x := rfl

@[simp] theorem byteAt_cons_succ : byteAt (x :: bs) (k + 1) = byteAt bs k := by
  simp [byteAt]

@[simp] theorem leNat_cons_succ : leNat (x :: bs) (off + 1) n = leNat bs off n :=
  leNat_congr fun i _ => by rw [Nat.add_right_comm, byteAt_cons_succ]

@[simp] theorem leNat_cons_zero : leNat (x :: bs) 0 (n + 1) = x.toNat + 256 * leNat bs 0 n := by
  rw [leNat, leNat_cons_succ, byteAt_cons_zero]

/-! ### Number by number -/

variable {m v : Nat}

@[simp] theorem leNat_putLE_front : leNat (putLE n v ++ b) 0 n = leNat (putLE n v) 0 n :=
  leNat_append_left (by simp)

@[simp] theorem leNat_putLE_skip (h : m ≤ off) : leNat (putLE m v ++ b) off n = leNat b (off - m) n := by
  rw [leNat_append_right (by simpa using h), length_putLE]

@[simp] theorem byteAt_putLE_skip (h : m ≤ k) : byteAt (putLE m v ++ b) k = byteAt b (k - m) := by
  rw [byteAt_append_right (by simpa using h), length_putLE]

@[simp] theorem drop_putLE_skip (h : m ≤ k) : (putLE m v ++ b).drop k = b.drop (k - m) := by
  rw [List.drop_append, List.drop_of_length_le (by simpa using h), List.nil_append, length_putLE]

@[simp] theorem leNat_putLE_beyond (h : m ≤ off) : leNat (putLE m v) off n = 0 := leNat_of_le (by simpa using h)

/-- A number that is too long for its bytes is cut to them. -/
theorem leNat_putLE_mod (n v : Nat) : leNat (putLE n v) 0 n = v % 256 ^ n := by
  induction n generalizing v with
  | zero => simp [Nat.mod_one]
  | succ n ih =>
    have hpow : 256 ^ (n + 1) = 256 * 256 ^ n := Nat.pow_succ'
    rw [putLE, leNat_cons_zero, ih, hpow, Nat.mod_mul, BitVec.toNat_ofNat]

@[simp] theorem leNat_putLE_bits {w : Nat} {x : BitVec w} (h : w ≤ 8 * n) : leNat (putLE n x.toNat) 0 n = x.toNat := by
  refine leNat_putLE n _ (x.isLt.trans_le ?_)
  calc 2 ^ w ≤ 2 ^ (8 * n) := Nat.pow_le_pow_right (by decide) h
    _ = 256 ^ n := by rw [Nat.pow_mul]

end

/-- A value of at most eight bits fits in a byte. -/
theorem toNat_lt_byte {w : Nat} (x : BitVec w) (h : w ≤ 8) : x.toNat < 256 :=
  x.isLt.trans_le (Nat.pow_le_pow_right (by decide) h)

/-- An index of a bank of at most 256 places fits in a byte. -/
theorem val_lt_byte {n : Nat} (i : Fin n) (h : n ≤ 256) : i.val < 256 := i.isLt.trans_le h

/-! ## The report record (R209) -/

theorem length_reportHead (b : Report) (t : HouseTime) : (reportHead b t).length = 8 := by
  cases b <;> simp [reportHead]

section
variable (x : PendingRecord) (lost : BitVec 16) (seq : BitVec 32)

/-- What stands before the house time of a record. -/
theorem encodeReport_opening : let bs := encodeReport x lost seq
    bs.length = 32 ∧ byteAt bs 0 = reportCode x.body ∧ byteAt bs 1 = 0 ∧ leNat bs 2 2 = lost.toNat ∧
      leNat bs 4 4 = seq.toNat := by
  simp [encodeReport, length_reportHead, length_fit]

variable {off n k : Nat}

theorem leNat_encodeReport_head (h8 : 8 ≤ off) (h : off + n ≤ 16) :
    leNat (encodeReport x lost seq) off n = leNat (reportHead x.body x.time) (off - 8) n := by
  rw [encodeReport, leNat_append_left (by simpa [length_reportHead] using h), leNat_append_right (by simpa using h8)]
  simp

theorem byteAt_encodeReport_field (h16 : 16 ≤ k) (h : k < 32) :
    byteAt (encodeReport x lost seq) k = byteAt (reportFields x.body) (k - 16) := by
  have hlen : ([reportCode x.body, 0] ++ putLE 2 lost.toNat ++ putLE 4 seq.toNat ++ reportHead x.body x.time).length = 16 := by
    simp [length_reportHead]
  rw [encodeReport, byteAt_append_right (by rw [hlen]; exact h16), hlen, byteAt_fit (by omega)]

theorem leNat_encodeReport_field (h16 : 16 ≤ off) (h : off + n ≤ 32) :
    leNat (encodeReport x lost seq) off n = leNat (reportFields x.body) (off - 16) n :=
  leNat_congr fun k hk => by
    rw [byteAt_encodeReport_field x lost seq (by omega) (by omega)]
    congr 1
    omega

end

/-- The last byte before the fields of a record is 0. -/
theorem byteAt_encodeReport_last (x : PendingRecord) (lost : BitVec 16) (seq : BitVec 32) :
    byteAt (encodeReport x lost seq) 15 = 0 := by
  have hhead : ∀ b t, leNat (reportHead b t) 7 1 = 0 := by
    intro b t
    cases b <;> simp [reportHead]
  exact leNat_eq_zero.1 ((leNat_encodeReport_head x lost seq (by decide) (by decide)).trans (hhead ..)) 15 le_rfl (by decide)

/-! ## The index block (R210) -/

theorem encodeIndex_reads {w : Nat} (h : w < 65536) (lost : BitVec 16) (seq : BitVec 32) :
    let bs := encodeIndex w lost seq
    bs.length = 32 ∧ leNat bs 0 2 = w ∧ leNat bs 2 2 = lost.toNat ∧ leNat bs 4 4 = seq.toNat ∧
      bs.drop 8 = List.replicate 24 0 := by
  have hindex : leNat (putLE 2 w) 0 2 = w := leNat_putLE 2 _ h
  simp [encodeIndex, hindex, -List.reduceReplicate]

/-! ## Delivered and filler cells (R96 to R100, R205) -/

/-- The residence is the difference of the times, at least 0 (R98). -/
theorem residence_eq (t arrival : HouseTime) :
    ((residence t arrival : Nat) : Int) = max 0 ((t.toNat : Int) - (arrival.toNat : Int)) := by
  unfold residence
  omega

/-- The restamped clock stamp is the sum of stamp, residence and offset modulo 2^40 (R99). -/
theorem toNat_restamp (stamp : BitVec 40) (d : Nat) (offset : BitVec 24) :
    ((restamp stamp d offset).toNat : Int) = (stamp.toNat + d + offset.toInt) % 2 ^ 40 := by
  rw [restamp, BitVec.toNat_ofInt, Int.toNat_of_nonneg (Int.emod_nonneg _ (by decide))]
  rfl

theorem getLsbD_flagBit (b : Bool) {k : Nat} (hk : k < 8) (i : Nat) : (flagBit b k).getLsbD i = (b && decide (k = i)) := by
  cases b with
  | false => simp [flagBit]
  | true =>
    have hbit : (2 ^ k).testBit i = decide (k = i) := Nat.testBit_two_pow
    rw [flagBit, if_pos rfl, BitVec.getLsbD_ofNat, hbit, Bool.true_and, Bool.and_eq_right_iff_imp]
    simp only [decide_eq_true_eq]
    omega

/-- The flags take bits 0 to 2 of their byte; every other bit is as DRAM returned it (R96, R205). -/
theorem getLsbD_flagByte (b : Byte) (e k x : Bool) (i : Nat) :
    ((b &&& 0xF8) ||| flagBit e 0 ||| flagBit k 1 ||| flagBit x 2).getLsbD i =
      if i = 0 then e else if i = 1 then k else if i = 2 then x else b.getLsbD i := by
  have hmask : ∀ i < 8, (0xF8 : Byte).getLsbD i = decide (3 ≤ i) := by decide
  simp only [BitVec.getLsbD_or, BitVec.getLsbD_and, getLsbD_flagBit _ (show 0 < 8 by decide),
    getLsbD_flagBit _ (show 1 < 8 by decide), getLsbD_flagBit _ (show 2 < 8 by decide)]
  rcases Nat.lt_or_ge i 8 with hi | hi
  · rw [hmask i hi]
    rcases i with _ | _ | _ | i <;> simp
  · simp [BitVec.getLsbD_of_ge _ _ hi, show i ≠ 0 by omega, show i ≠ 1 by omega, show i ≠ 2 by omega,
      show 0 ≠ i by omega, show 1 ≠ i by omega, show 2 ≠ i by omega]

/-- The header of a delivered cell, field by field. -/
theorem deliveredCell_reads {data : List Byte} (h : data.length = 224) (l : Label) (c : BitVec 4) (e k x : Bool)
    (stamp : BitVec 40) (t : HouseTime) :
    let cell := deliveredCell data l c e k x stamp t
    cell.length = 224 ∧ leNat cell 0 2 = l.toNat + 4096 * c.toNat ∧
      byteAt cell 2 = ((byteAt data 2 &&& 0xF8) ||| flagBit e 0 ||| flagBit k 1 ||| flagBit x 2) ∧
      byteAt cell 3 = byteAt data 3 ∧ leNat cell 4 5 = stamp.toNat ∧ leNat cell 9 7 = t.toNat ∧
      cell.drop 16 = data.drop 16 := by
  have hl := l.isLt
  have hc := c.isLt
  have hfit : fit 224 data = data := fit_of_length h
  have hlabel : leNat (putLE 2 (l.toNat + 4096 * c.toNat)) 0 2 = l.toNat + 4096 * c.toNat := leNat_putLE 2 _ (by omega)
  simp [deliveredCell, Config.cellBytes, hfit, h, hlabel]

theorem fillerCell_reads (t : HouseTime) : let cell := fillerCell t
    cell.length = 224 ∧ leNat cell 0 2 = 4095 ∧ byteAt cell 2 = 0 ∧ byteAt cell 3 = 0 ∧
    leNat cell 4 5 = 0 ∧ leNat cell 9 7 = t.toNat ∧ cell.drop 16 = List.replicate 208 0 := by
  have hlabel : leNat (putLE 2 4095) 0 2 = 4095 := leNat_putLE 2 _ (by decide)
  have hzeros : List.replicate 7 (0 : Byte) = [0, 0, 0, 0, 0, 0, 0] := rfl
  rw [fillerCell, hzeros]
  simp [Config.fillerLabel, hlabel, -List.reduceReplicate]

/-- A field holds the value whose number stands in its bytes. -/
theorem field_of_leNat {bs : List Byte} {w off n : Nat} {x : BitVec w} (h : leNat bs off n = x.toNat) : field w bs off n = x := by
  rw [field, h, BitVec.ofNat_toNat, BitVec.setWidth_eq]

/-- The label and the continuity share the first two bytes of a cell (R205). -/
theorem label_and_continuity {bs : List Byte} {l : Label} {c : BitVec 4} (h : leNat bs 0 2 = l.toNat + 4096 * c.toNat) :
    cellLabel bs = l ∧ leNat bs 0 2 / 4096 = c.toNat := by
  have hl := l.isLt
  refine ⟨BitVec.eq_of_toNat_eq ?_, by omega⟩
  rw [cellLabel, field, h, BitVec.toNat_ofNat]
  omega

/-- The clock stamp of the final cell of an entry (R99). -/
def finalStamp (x : InFlight) (ref : Reference) (data : List Byte) : BitVec 40 :=
  if ref.k && ref.restamp then restamp (cellStamp data) (residence x.t ref.arrival) x.offset else cellStamp data

section
variable (x : InFlight) (ref : Reference) {data : List Byte}

theorem finalStamp_of_restamped (h : (ref.k && ref.restamp) = true) : ((finalStamp x ref data).toNat : Int) =
    ((cellStamp data).toNat + max 0 ((x.t.toNat : Int) - (ref.arrival.toNat : Int)) + x.offset.toInt) % 2 ^ 40 := by
  rw [finalStamp, if_pos h, toNat_restamp, residence_eq]

theorem finalStamp_of_kept (h : (ref.k && ref.restamp) = false) : finalStamp x ref data = cellStamp data := by
  rw [finalStamp, if_neg (by simp [h])]

/-- The final cell of an entry, field by field (R96 to R99). -/
theorem finalCell_reads (hdata : data.length = 224) (c : BitVec 4) : let cell := finalCell x ref data c
    cell.length = 224 ∧ cellLabel cell = ref.outLabel ∧ leNat cell 0 2 / 4096 = c.toNat ∧
      (∀ i, (byteAt cell 2).getLsbD i =
        if i = 0 then ref.e else if i = 1 then ref.k else if i = 2 then (ref.mark || ref.x) else (byteAt data 2).getLsbD i) ∧
      byteAt cell 3 = byteAt data 3 ∧ cellStamp cell = finalStamp x ref data ∧ cellTime cell = x.t ∧
      cell.drop 16 = data.drop 16 := by
  intro cell
  have hcell : cell = deliveredCell data ref.outLabel c ref.e ref.k (ref.mark || ref.x) (finalStamp x ref data) x.t := rfl
  clear_value cell
  subst hcell
  obtain ⟨hlen, hfirst, hflags, hthree, hstamp, htime, hrest⟩ :=
    deliveredCell_reads hdata ref.outLabel c ref.e ref.k (ref.mark || ref.x) (finalStamp x ref data) x.t
  obtain ⟨hlabel, hcont⟩ := label_and_continuity hfirst
  refine ⟨hlen, hlabel, hcont, fun i => ?_, hthree, field_of_leNat hstamp, field_of_leNat htime, hrest⟩
  rw [hflags]
  exact getLsbD_flagByte ..

end

/-- Settles O30: each record is a row of numbers and bytes, read back one by one at their offsets. -/
theorem deliveredHeaderReadsBack : Obligations.DeliveredHeaderReadsBack := by
  unfold Obligations.DeliveredHeaderReadsBack
  refine ⟨fun x ref data c hdata => ?_, fun t => ?_, fun x lost seq => ?_, fun w lost seq hw => encodeIndex_reads hw lost seq⟩
  · intro cell residence
    obtain ⟨hlen, hlabel, hcont, hbit, hthree, hstamp, htime, hrest⟩ := finalCell_reads x ref hdata c
    refine ⟨hlen, hlabel, hcont, hbit 0, hbit 1, hbit 2, htime, fun hk => hstamp.trans (finalStamp_of_kept x ref hk),
      fun hk => ?_, hthree, BitVec.eq_of_getLsbD_eq fun i hi => ?_, hrest⟩
    · rw [hstamp, finalStamp_of_restamped x ref hk]
    · rw [BitVec.getLsbD_ushiftRight, BitVec.getLsbD_ushiftRight, hbit, if_neg (by omega), if_neg (by omega), if_neg (by omega)]
  · intro cell
    obtain ⟨hlen, hfirst, htwo, hthree, hstamp, htime, hrest⟩ := fillerCell_reads t
    obtain ⟨hlabel, hcont⟩ := label_and_continuity (l := 4095) (c := 0) hfirst
    exact ⟨hlen, hlabel, hcont, htwo, hthree, field_of_leNat (x := 0) hstamp, field_of_leNat htime, hrest⟩
  · intro bs kind num timed zero
    obtain ⟨hlen, hkind, hone, hlost, hseq⟩ := encodeReport_opening x lost seq
    refine ⟨hlen, hone, hlost, hseq, byteAt_encodeReport_last x lost seq, ?_⟩
    have hcode : kind = (reportCode x.body).toNat := congrArg BitVec.toNat hkind
    have hhead : ∀ off n, 8 ≤ off → off + n ≤ 16 → num off n = leNat (reportHead x.body x.time) (off - 8) n :=
      fun off n h8 h => leNat_encodeReport_head x lost seq h8 h
    have hnum : ∀ off n, 16 ≤ off → off + n ≤ 32 → num off n = leNat (reportFields x.body) (off - 16) n :=
      fun off n h16 h => leNat_encodeReport_field x lost seq h16 h
    have hbyte : ∀ k, 16 ≤ k → k < 32 → byteAt bs k = byteAt (reportFields x.body) (k - 16) :=
      fun k h16 h => byteAt_encodeReport_field x lost seq h16 h
    have hzero : ∀ i n, zero i n ↔ num i n = 0 := fun i n => leNat_eq_zero.symm
    have hcodeAt : ∀ k v, 16 ≤ k → k < 32 → (byteAt (reportFields x.body) (k - 16)).toNat = v → num k 1 = v :=
      fun k v h16 h hv => (leNat_one.trans (congrArg BitVec.toNat (hbyte k h16 h))).trans hv
    have htimed : leNat (reportHead x.body x.time) 0 7 = x.time.toNat → timed :=
      fun h => (hhead 8 7 (by decide) (by decide)).trans h
    rcases x with ⟨body, time⟩
    dsimp only at hcode hhead hnum hbyte hcodeAt htimed ⊢
    clear_value kind num zero timed bs
    cases body with
    | command code slot tag o =>
      refine ⟨hcode, htimed (by simp [reportHead]), ?_, ?_, ?_, hcodeAt 20 _ (by decide) (by decide) (by cases o <;> rfl), ?_⟩
      all_goals simp [hbyte, hnum, hzero, reportFields, toNat_lt_byte]
    | ring r st w =>
      refine ⟨hcode, htimed (by simp [reportHead]), ?_,
        hcodeAt 17 _ (by decide) (by decide) (by cases st <;> rfl), ?_, ?_, ?_⟩
      all_goals simp [hnum, hzero, reportFields, val_lt_byte]
    | ecc st k i =>
      refine ⟨hcode, htimed (by simp [reportHead]), hcodeAt 16 _ (by decide) (by decide) (by cases st <;> rfl),
        hcodeAt 17 _ (by decide) (by decide) (by cases k <;> rfl), ?_, ?_⟩
      all_goals simp [hnum, hzero, reportFields, leNat_putLE_mod]
    | splice e p o c late src tgt adm tag =>
      refine ⟨hcode, htimed (by simp [reportHead]), ?_, ?_, hcodeAt 18 _ (by decide) (by decide) (by cases o <;> rfl),
        hcodeAt 19 _ (by decide) (by decide) (by cases c <;> rfl),
        hcodeAt 20 _ (by decide) (by decide) (by cases late <;> cases src <;> rfl), ?_, ?_, ?_, ?_, ?_⟩
      all_goals simp [hnum, hzero, reportFields, val_lt_byte]
    | note e k tag n a =>
      refine ⟨hcode, htimed (by simp [reportHead]), ?_⟩
      simp [hbyte, hnum, hzero, reportFields, val_lt_byte]
    | schedEnd e st c n a tag =>
      refine ⟨hcode, htimed (by simp [reportHead]), ?_, hcodeAt 17 _ (by decide) (by decide) (by cases st <;> rfl),
        hcodeAt 18 _ (by decide) (by decide) (by cases c <;> rfl), ?_, ?_, ?_, ?_, ?_⟩
      all_goals simp [hnum, hzero, reportFields, val_lt_byte]
    | edition e ev n =>
      refine ⟨hcode, htimed (by simp [reportHead]), ?_,
        hcodeAt 17 _ (by decide) (by decide) (by cases ev <;> rfl), ?_, ?_, ?_⟩
      all_goals simp [hnum, hzero, reportFields, val_lt_byte, leNat_putLE_mod]
    | time ev =>
      refine ⟨hcode, htimed (by simp [reportHead]), hcodeAt 16 _ (by decide) (by decide) (by cases ev <;> rfl), ?_⟩
      cases ev <;> simp [hnum, hzero, reportFields]
    | stats sc n part c0 c1 c2 c3 =>
      refine ⟨hcode, (hhead 8 1 (by decide) (by decide)).trans (by cases sc <;> rfl), ?_⟩
      simp [hnum, hhead, hzero, reportFields, reportHead]

end Sys2Proof.Machine
end

section
/-! SUPPORT. Splice machines and channels one by one: changes that leave one as it is, the wait that the end of a chain drops, and
the target of a pending splice, which every operation on machines and chains keeps apart from the admitted variant (R104, R108,
R109, R131). -/

set_option Elab.async false

namespace Sys2Proof.Machine

/-! ## One machine, one channel -/

section
variable {e : EdId} {p : ProgId} {s : State}

/-- A change that leaves the machine as it is changes nothing. -/
theorem modMachine_of_fixed {f : SpliceMachine → SpliceMachine} (h : f (machineOf s e p) = machineOf s e p) :
    modMachine e p f s = s := by
  have hplace : tmodify2 s.splices.machines e p f = s.splices.machines :=
    (congrArg (tput2 s.splices.machines e p) h).trans (tput2_same ..)
  rw [modMachine, hplace]

/-- Two changes that make the same of the machine are the same. -/
theorem modMachine_congr {f g : SpliceMachine → SpliceMachine} (h : f (machineOf s e p) = g (machineOf s e p)) :
    modMachine e p f s = modMachine e p g s := by
  have hplace : tmodify2 s.splices.machines e p f = tmodify2 s.splices.machines e p g :=
    congrArg (tput2 s.splices.machines e p) h
  rw [modMachine, hplace, modMachine]

/-- Two changes of one machine are one. -/
theorem modMachine_modMachine (f g : SpliceMachine → SpliceMachine) :
    modMachine e p f (modMachine e p g s) = modMachine e p (fun m => f (g m)) s := by
  have hplace : tmodify2 (tmodify2 s.splices.machines e p g) e p f = tmodify2 s.splices.machines e p (fun m => f (g m)) :=
    table2_ext fun a b => by
      simp only [tget2_tmodify2, and_self, if_true]
      split <;> rfl
  exact congrArg (fun v => { s with splices := ⟨v⟩ }) hplace

/-- A change that leaves the channel as it is changes nothing. -/
theorem modChan_of_fixed {f : Channel → Channel} (h : f (chanOf s e) = chanOf s e) : modChan e f s = s := by
  rw [modChan, tmodify_of_fixed h]

/-- Two changes that make the same of the channel are the same. -/
theorem modChan_congr {f g : Channel → Channel} (h : f (chanOf s e) = g (chanOf s e)) : modChan e f s = modChan e g s := by
  have hplace : tmodify s.chans e f = tmodify s.chans e g := congrArg (tput s.chans e) h
  rw [modChan, hplace, modChan]

end

/-! ## The wait of a channel (R108, R131) -/

/-- From s to t machines change only by dropping the record that their channel waits. -/
structure WaitsDrop (s t : State) : Prop where
  machine : ∀ e p, machineOf t e p = machineOf s e p ∨ machineOf t e p = { machineOf s e p with waiting := false }

theorem WaitsDrop.refl (s : State) : WaitsDrop s s := ⟨fun _ _ => .inl rfl⟩

theorem WaitsDrop.trans {s t u : State} (h : WaitsDrop s t) (g : WaitsDrop t u) : WaitsDrop s u := by
  refine ⟨fun e p => ?_⟩
  rcases h.machine e p with h | h <;> rcases g.machine e p with g | g <;> rw [g, h]
  · exact .inl rfl
  · exact .inr rfl
  · exact .inr rfl
  · exact .inr rfl

theorem WaitsDrop.of_frame {bs : List Block} {s t : State} (f : Frame bs s t) (n : .splices ∉ bs := by decide) :
    WaitsDrop s t := ⟨fun e p => .inl (machineOf_congr (f.splices_eq n) e p)⟩

/-- A machine that records no wait is left as it is. -/
theorem WaitsDrop.not_waiting {s t : State} (h : WaitsDrop s t) {e : EdId} {p : ProgId}
    (hw : (machineOf s e p).waiting = false) : (machineOf t e p).waiting = false := by
  rcases h.machine e p with h | h <;> rw [h]
  exact hw

theorem endChain_waitsDrop (e : EdId) (st : EndStatus) (c : CheckCode) (a : Nat) (tag : Tag16) (s : State) :
    WaitsDrop s (endChain e st c a tag s) := by
  have hquiet : WaitsDrop s (quietEnd e s) := ⟨fun x p => by
    rw [quietEnd_machine]
    split
    · exact .inr rfl
    · exact .inl rfl⟩
  rw [endChain_eq]
  exact hquiet.trans (.of_frame (handOver_frame ..))

theorem stopChain_waitsDrop (e : EdId) (st : EndStatus) (s : State) : WaitsDrop s (stopChain e st s) := by
  unfold stopChain
  dsimp only
  split
  · exact .refl s
  · exact endChain_waitsDrop ..

theorem fetchWord_waitsDrop (e : EdId) (s : State) : WaitsDrop s (fetchWord e s) := by
  unfold fetchWord
  dsimp only
  split
  · exact endChain_waitsDrop ..
  split
  · exact endChain_waitsDrop ..
  · exact .of_frame ((modChan_frame ..).andThen (issue_frame ..) : Frame [.chans, .down] s _)

theorem goOn_waitsDrop (e : EdId) (s : State) : WaitsDrop s (goOn e s) := by
  unfold goOn
  split
  · split
    · exact .of_frame (modChan_frame ..)
    · exact fetchWord_waitsDrop e s
  · exact .refl s

theorem judgeOutcome_waitsDrop (e : EdId) (o : SpliceOutcome) (s : State) : WaitsDrop s (judgeOutcome e o s) := by
  unfold judgeOutcome
  split
  · split
    · split
      · exact endChain_waitsDrop ..
      · exact goOn_waitsDrop e s
    · exact .refl s
  · exact .refl s

theorem outcomeToChannel_waitsDrop (e : EdId) (p : ProgId) (o : SpliceOutcome) (s : State) :
    WaitsDrop s (outcomeToChannel e p o s) := by
  unfold outcomeToChannel
  split
  · exact judgeOutcome_waitsDrop ..
  · exact .refl s

theorem judgeWait_waitsDrop (e : EdId) (t : HouseTime) (s : State) : WaitsDrop s (judgeWait e t s) := by
  unfold judgeWait
  split
  · exact goOn_waitsDrop e s
  · exact .of_frame (modChan_frame ..)

theorem judgeWaiting_waitsDrop (s : State) (e : EdId) : WaitsDrop s (judgeWaiting s e) := by
  unfold judgeWaiting
  dsimp only
  split
  · split
    · exact judgeWait_waitsDrop ..
    · exact .refl s
  · exact .refl s

theorem dataReturned_waitsDrop (e : EdId) (rsp : Response) (s : State) : WaitsDrop s (dataReturned e rsp s) := by
  unfold dataReturned
  split
  · split
    · exact endChain_waitsDrop ..
    · split
      · exact endChain_waitsDrop ..
      · exact (WaitsDrop.of_frame ((receiveFrame_frame ..).andThen (modChan_frame ..) : Frame [.comp, .chans] s _)).trans
          (goOn_waitsDrop ..)
    · exact .refl s
  · exact .refl s

/-! ## The target of a pending splice (R104) -/

/-- The splice that a machine times, if any, does not target its admitted variant. -/
def TargetApart (m : SpliceMachine) : Prop := ∀ sp, pendingOf m.phase = some sp → sp.target ≠ m.admitted

/-- A STEADY machine times no splice. -/
theorem targetApart_of_steady {m : SpliceMachine} (h : m.phase = .steady) : TargetApart m := by
  intro sp hsp
  rw [h] at hsp
  cases hsp

/-- From s to t no machine comes to time a splice to its admitted variant. -/
structure StaysApart (s t : State) : Prop where
  machine : ∀ e p, TargetApart (machineOf s e p) → TargetApart (machineOf t e p)

theorem SpliceLaw.stays {s t : State} (h : SpliceLaw s) (k : StaysApart s t) : SpliceLaw t :=
  fun e p => k.machine e p (h e p)

theorem StaysApart.refl (s : State) : StaysApart s s := ⟨fun _ _ h => h⟩

theorem StaysApart.trans {s t u : State} (h : StaysApart s t) (g : StaysApart t u) : StaysApart s u :=
  ⟨fun e p hm => g.machine e p (h.machine e p hm)⟩

theorem StaysApart.foldl {α : Type} {f : State → α → State} (hf : ∀ s a, StaysApart s (f s a)) (l : List α) (s : State) :
    StaysApart s (l.foldl f s) := by
  induction l generalizing s with
  | nil => exact .refl s
  | cons a l ih => exact (hf s a).trans (ih _)

/-- What leaves the splice unit as it is keeps every target apart. -/
theorem StaysApart.of_frame {bs : List Block} {s t : State} (f : Frame bs s t) (n : .splices ∉ bs := by decide) :
    StaysApart s t := ⟨fun e p h => machineOf_congr (f.splices_eq n) e p ▸ h⟩

/-- A wait has no part in the target. -/
theorem WaitsDrop.staysApart {s t : State} (h : WaitsDrop s t) : StaysApart s t := by
  refine ⟨fun e p hm => ?_⟩
  rcases h.machine e p with h | h <;> rw [h] <;> exact hm

/-- With every machine STEADY there is no target. -/
theorem StaysApart.of_steady {s t : State} (h : ∀ e p, (machineOf t e p).phase = .steady) : StaysApart s t :=
  ⟨fun e p _ => targetApart_of_steady (h e p)⟩

theorem modMachine_staysApart {e : EdId} {p : ProgId} {f : SpliceMachine → SpliceMachine} {s : State}
    (hf : TargetApart (machineOf s e p) → TargetApart (f (machineOf s e p))) : StaysApart s (modMachine e p f s) := by
  refine ⟨fun a b hm => ?_⟩
  rw [machineOf_modMachine]
  split
  · rename_i hab
    obtain ⟨rfl, rfl⟩ := hab
    exact hf hm
  · exact hm

/-- A machine comes to time a splice whose target is not its admitted variant. -/
theorem pends_staysApart {e : EdId} {p : ProgId} {sp : PendingSplice} {ph : SplicePhase} {s : State}
    (hp : pendingOf ph = some sp) (ht : sp.target ≠ (machineOf s e p).admitted) :
    StaysApart s (modMachine e p (fun m => { m with phase := ph }) s) := by
  refine modMachine_staysApart fun _ q hq => ?_
  obtain rfl : sp = q := Option.some.inj (hp.symm.trans hq)
  exact ht

theorem resolveOnly_staysApart (e : EdId) (p : ProgId) (sp : PendingSplice) (o : SpliceOutcome) (c : SpliceCause)
    (s : State) : StaysApart s (resolveOnly e p sp o c s) := by
  rw [resolveOnly_says]
  exact (modMachine_staysApart fun _ => targetApart_of_steady rfl).trans (.of_frame (handOver_frame ..))

/-- An arming of the admitted variant is UNCHANGED and does not pend (R109). -/
theorem judgeArming_staysApart (e : EdId) (p : ProgId) (sp : PendingSplice) (s : State) :
    StaysApart s (judgeArming e p sp s).1 := by
  unfold judgeArming
  dsimp only
  split
  · exact resolveOnly_staysApart ..
  · rename_i ht
    split
    · exact resolveOnly_staysApart ..
    split
    · exact pends_staysApart rfl ht
    · exact pends_staysApart rfl ht

theorem takeArming_staysApart (e : EdId) (p : ProgId) (sp : PendingSplice) (sync : Bool) (s : State) :
    StaysApart s (takeArming e p sp sync s) := by
  have h := judgeArming_staysApart e p sp s
  unfold takeArming
  split <;> rename_i heq <;> rw [heq] at h
  · split
    · exact h.trans (judgeOutcome_waitsDrop ..).staysApart
    · exact h.trans (goOn_waitsDrop ..).staysApart
  · split
    · exact h.trans (.of_frame (modChan_frame ..))
    · exact h.trans (goOn_waitsDrop ..).staysApart

theorem modWaiting_staysApart (e : EdId) (p : ProgId) (b : Bool) (s : State) :
    StaysApart s (modMachine e p (fun m => { m with waiting := b }) s) := modMachine_staysApart fun h => h

theorem armFromChannel_staysApart (e : EdId) (w : SchedWord) (s : State) : StaysApart s (armFromChannel e w s) := by
  unfold armFromChannel
  split
  · exact .refl s
  · split
    · exact takeArming_staysApart ..
    · exact (modWaiting_staysApart ..).trans (.of_frame (modChan_frame ..))

theorem takeWaiting_staysApart (e : EdId) (p : ProgId) (s : State) : StaysApart s (takeWaiting e p s) := by
  unfold takeWaiting
  split
  · dsimp only
    split
    · exact (modWaiting_staysApart ..).trans (armFromChannel_staysApart ..)
    · exact modWaiting_staysApart ..
  · exact .refl s

theorem resolve_staysApart (e : EdId) (p : ProgId) (sp : PendingSplice) (o : SpliceOutcome) (c : SpliceCause) (s : State) :
    StaysApart s (resolve e p sp o c s) := by
  unfold resolve
  dsimp only
  refine ((resolveOnly_staysApart e p sp o c s).trans ?_).trans (takeWaiting_staysApart ..)
  split
  · exact (outcomeToChannel_waitsDrop ..).staysApart
  · exact .refl _

/-- An ARMED machine goes on to SEEKING with the same splice (R110). -/
theorem seeks_staysApart {e : EdId} {p : ProgId} {sp : PendingSplice} {s : State} (h : (machineOf s e p).phase = .armed sp) :
    StaysApart s (modMachine e p (fun m => { m with phase := .seeking sp }) s) := by
  refine modMachine_staysApart fun hm q hq => ?_
  exact hm q (by rw [h]; exact hq)

theorem reachT_staysApart {e : EdId} {p : ProgId} {sp : PendingSplice} {s : State} (h : (machineOf s e p).phase = .armed sp) :
    StaysApart s (reachT e p sp s) := by
  unfold reachT
  dsimp only
  split
  · exact (seeks_staysApart h).trans (resolve_staysApart ..)
  · exact seeks_staysApart h

theorem judgeLoad_staysApart (e : EdId) (p : ProgId) (s : State) : StaysApart s (judgeLoad e p s) := by
  unfold judgeLoad
  dsimp only
  split
  · exact .refl s
  · rename_i sp hsp
    split
    · exact resolve_staysApart ..
    · split
      · exact seeks_staysApart hsp
      · exact .refl s
  · split
    · exact resolve_staysApart ..
    · exact .refl s

theorem cancelAll_staysApart (e : EdId) (c : SpliceCause) (s : State) : StaysApart s (cancelAll e c s) :=
  .foldl (fun s p => by
    split
    · exact resolveOnly_staysApart ..
    · exact .refl s) _ s

theorem dropWait_staysApart (e : EdId) (s : State) : StaysApart s (dropWait e s) := by
  refine ⟨fun a b hm => ?_⟩
  rw [machineOf_dropWait]
  split <;> exact hm

theorem runWord_staysApart (e : EdId) (a : Addr) (w : SchedWord) (s : State) : StaysApart s (runWord e a w s) := by
  unfold runWord
  split
  · exact armFromChannel_staysApart ..
  · dsimp only
    split
    · exact (endChain_waitsDrop ..).staysApart
    · exact .of_frame ((modChan_frame ..).andThen (issue_frame ..) : Frame [.chans, .down] s _)
  · exact (judgeWait_waitsDrop ..).staysApart
  · exact (StaysApart.of_frame (modChan_frame ..)).trans (goOn_waitsDrop ..).staysApart
  · exact (endChain_waitsDrop ..).staysApart

theorem wordReturned_staysApart (e : EdId) (rsp : Response) (s : State) : StaysApart s (wordReturned e rsp s) := by
  unfold wordReturned
  dsimp only
  split
  · exact (endChain_waitsDrop ..).staysApart
  · split
    · exact (endChain_waitsDrop ..).staysApart
    · split
      · exact (endChain_waitsDrop ..).staysApart
      · exact (StaysApart.of_frame (wordCurrent_frame ..)).trans (runWord_staysApart ..)

theorem applyLoad_staysApart (v : HouseTime) (s : State) : StaysApart s (applyLoad v s) :=
  ((StaysApart.of_frame ((frame_time s _).andThen (handOver_frame ..) : Frame [.time, .down, .rep] s _)).trans
    (.foldl (fun s e => .foldl (fun s p => judgeLoad_staysApart e p s) _ s) _ _)).trans
    (.foldl (fun s e => (judgeWaiting_waitsDrop s e).staysApart) _ _)

end Sys2Proof.Machine
end

section
/-! SUPPORT. Every row keeps the target of a pending splice apart from the admitted variant (R104). -/

set_option Elab.async false

namespace Sys2Proof.Machine

/-! ## Admission (R44, R50) -/

theorem storeCell_staysApart (e : EdId) (c : IngestKept) (x : StreamEntry) (s : State) : StaysApart s (storeCell e c x s) := by
  have hstored : ∀ r, StaysApart s { s with refs := r } := fun r => .of_frame (frame_refs s r)
  unfold storeCell
  dsimp only
  split
  · exact (hstored _).trans (modMachine_staysApart fun h => h)
  · exact hstored _

theorem admitLimits_staysApart (e : EdId) (c : IngestKept) (x : StreamEntry) (s : State) :
    StaysApart s (admitLimits e c x s) := by
  unfold admitLimits
  split
  · exact .of_frame (modAdm_frame ..)
  split
  · exact .of_frame (modAdm_frame ..)
  split
  · exact .of_frame (modAdm_frame ..)
  split
  · exact .of_frame (modAdm_frame ..)
  · exact storeCell_staysApart ..

theorem entryPoint_staysApart (e : EdId) (p : ProgId) (v : Variant) (ef : Bool) (s : State) :
    StaysApart s (entryPoint e p v ef s) := by
  unfold entryPoint
  split
  · split
    · exact resolve_staysApart ..
    · exact .refl s
  · exact .refl s

theorem admitEdition_staysApart (c : IngestKept) (x : StreamEntry) (s : State) (e : EdId) :
    StaysApart s (admitEdition c x s e) := by
  have hentry := entryPoint_staysApart e x.prog x.variant c.e s
  unfold admitEdition
  split
  · exact .refl s
  · dsimp only
    split
    · exact hentry
    · split
      · exact hentry
      · exact hentry.trans (admitLimits_staysApart ..)

theorem admitCell_staysApart (c : IngestKept) (s : State) : StaysApart s (admitCell c s) := by
  unfold admitCell
  split
  · exact .refl s
  · have hfound := StaysApart.of_frame (lookup_frame c.label s)
    split <;> rename_i heq <;> rw [heq] at hfound
    · exact hfound.trans (.of_frame (modRing_frame ..))
    · split
      · exact hfound.trans (.of_frame (modRing_frame ..))
      · exact hfound.trans (.foldl (admitEdition_staysApart c _) _ _)

theorem ingestReturned_staysApart (c : IngestKept) (rsp : Response) (s : State) :
    StaysApart s (ingestReturned c rsp s) := by
  unfold ingestReturned
  split
  · exact .refl s
  · split
    · exact admitCell_staysApart c s
    · exact .of_frame (modRing_frame ..)

/-! ## The owning blocks of the commands -/

theorem doArmSplice_staysApart (tag : Tag16) (e p v : BitVec 8) (f : Bool) (w : BitVec 16) (t : HouseTime) (s : State) :
    StaysApart s (doArmSplice tag e p v f w t s).state := by
  unfold doArmSplice
  split
  · split
    · exact judgeArming_staysApart ..
    · exact .refl s
  · exact .refl s

theorem doCancelSplice_staysApart (e p : BitVec 8) (s : State) : StaysApart s (doCancelSplice e p s).state := by
  unfold doCancelSplice
  split
  · split
    · exact resolve_staysApart ..
    · exact .refl s
  · exact .refl s

/-- Only a STEADY machine takes another admitted variant from the host (R115). -/
theorem doSetVariantNow_staysApart (e p v : BitVec 8) (s : State) : StaysApart s (doSetVariantNow e p v s).state := by
  unfold doSetVariantNow
  split
  · split
    · rename_i hsteady
      split
      · exact .refl s
      · exact modMachine_staysApart fun _ => targetApart_of_steady hsteady
    · exact .refl s
  · exact .refl s

theorem doStartSchedule_staysApart (e : BitVec 8) (a : Addr) (s : State) : StaysApart s (doStartSchedule e a s).state := by
  unfold doStartSchedule
  split
  · exact .refl s
  · split
    · exact .refl s
    · exact (StaysApart.of_frame (modChan_frame ..)).trans (fetchWord_waitsDrop ..).staysApart

theorem doHaltSchedule_staysApart (e : BitVec 8) (s : State) : StaysApart s (doHaltSchedule e s).state := by
  unfold doHaltSchedule
  split
  · exact .refl s
  · split
    · exact .refl s
    · exact (stopChain_waitsDrop ..).staysApart

theorem doClearSchedule_staysApart (e : BitVec 8) (s : State) : StaysApart s (doClearSchedule e s).state := by
  unfold doClearSchedule
  split
  · exact .refl s
  · exact (((dropWait_staysApart ..).trans (cancelAll_staysApart ..)).trans (.of_frame (modComp_frame ..))).trans
      (stopChain_waitsDrop ..).staysApart

theorem doResumeSchedule_staysApart (e : BitVec 8) (s : State) : StaysApart s (doResumeSchedule e s).state := by
  unfold doResumeSchedule
  split
  · exact .refl s
  · split
    · exact (fetchWord_waitsDrop ..).staysApart
    · exact .refl s

theorem turnOff_staysApart (e : EdId) (s : State) : StaysApart s (turnOff e s) := by
  have rest : ∀ u : State, StaysApart u (stopChain e .off (cancelAll e .off (dropWait e (releaseAll e addOff u)))) := fun u =>
    (((StaysApart.of_frame (releaseAll_frame ..)).trans (dropWait_staysApart ..)).trans (cancelAll_staysApart ..)).trans
      (stopChain_waitsDrop ..).staysApart
  have hoff := StaysApart.of_frame (modEd_frame e (fun r => { r with state := .off }) s)
  unfold turnOff
  dsimp only
  split
  · exact (hoff.trans (.of_frame (modComp_frame ..))).trans (rest _)
  · exact hoff.trans (rest _)

theorem doEditionOff_staysApart (e : BitVec 8) (s : State) : StaysApart s (doEditionOff e s).state := by
  unfold doEditionOff
  split
  · exact .refl s
  · exact turnOff_staysApart ..

/-- Every machine is STEADY after a reset (R124). -/
theorem StaysApart.of_reset {s t : State} (h : t.splices = .reset) : StaysApart s t := by
  refine .of_steady fun e p => ?_
  rw [machineOf, h, show tget2 SpliceUnit.reset.machines e p = .reset from tget2_replicate ..]
  rfl

theorem runAct_staysApart (tag : Tag16) (c : Command) (s : State) : StaysApart s (runAct tag c s).state := by
  cases c with
  | setStreamEntry => exact .of_frame (doSetStreamEntry_frame ..)
  | loadStreamEntries => exact .of_frame (doLoadStreamEntries_frame ..)
  | setEccThreshold => exact .of_frame (doSetEccThreshold_frame ..)
  | setRing => exact .of_frame (doSetRing_frame ..)
  | setRingTimingOnly => exact .of_frame (doSetRingTimingOnly_frame ..)
  | disableRing => exact .of_frame (doDisableRing_frame ..)
  | setProtection => exact .of_frame (doSetProtection_frame ..)
  | clearProtection => exact .of_frame (doClearProtection_frame ..)
  | setProgramme => exact .of_frame (doSetProgramme_frame ..)
  | setCarriage => exact .of_frame (doSetCarriage_frame ..)
  | armSplice => exact doArmSplice_staysApart ..
  | cancelSplice => exact doCancelSplice_staysApart ..
  | setVariantNow => exact doSetVariantNow_staysApart ..
  | startSchedule => exact doStartSchedule_staysApart ..
  | haltSchedule => exact doHaltSchedule_staysApart ..
  | clearSchedule => exact doClearSchedule_staysApart ..
  | resumeSchedule => exact doResumeSchedule_staysApart ..
  | setEdition => exact .of_frame (doSetEdition_frame ..)
  | editionOn => exact .of_frame (doEditionOn_frame ..)
  | editionOff => exact doEditionOff_staysApart ..
  | timeLoad => exact .of_frame (doTimeLoad_frame ..)
  | relocateControl => exact .of_frame (doRelocateControl_frame ..)
  | setMemoryLimit => exact .of_frame (doSetMemoryLimit_frame ..)
  | setReportRing => exact .of_frame (doSetReportRing_frame ..)
  | reportAck => exact .of_frame (doReportAck_frame ..)
  | statistics => exact .of_frame (doStatistics_frame ..)
  | restart => exact .of_reset rfl

/-! ## The command unit -/

theorem startCommand_staysApart (c : TakenCommand) (s : State) : StaysApart s (startCommand c s) := by
  have report : ∀ (u : State) b, StaysApart u (handOver b u) := fun u b => .of_frame (handOver_frame b u)
  unfold startCommand
  split
  · exact report ..
  · exact report ..
  · have hreset : StaysApart s { restartAct s with cmd := { s.cmd with queue := [] } } := .of_reset rfl
    exact (hreset.trans (report ..)).trans (.foldl (fun s c => report ..) _ _)
  · rename_i k _ _
    have hact := runAct_staysApart c.tag k s
    split <;> rename_i heq <;> rw [heq] at hact
    · exact hact.trans (report ..)
    · exact hact.trans (.of_frame (frame_cmd ..))

theorem drain_staysApart (fuel : Nat) (s : State) : StaysApart s (drain fuel s) := by
  induction fuel generalizing s with
  | zero => exact .refl s
  | succ fuel ih =>
    unfold drain
    split
    · exact (((StaysApart.of_frame (frame_cmd s _)).trans (startCommand_staysApart ..)).trans
        (.of_frame (endPurge_frame _))).trans (ih _)
    · exact .refl s

theorem finishRunning_staysApart (o : CmdOutcome) (s : State) : StaysApart s (finishRunning o s) :=
  (StaysApart.of_frame (endRunning_frame o s)).trans (drain_staysApart ..)

theorem settlePurge_staysApart (s : State) : StaysApart s (settlePurge s) := by
  have hscan := StaysApart.of_frame (advanceScan_frame s)
  unfold settlePurge
  dsimp only
  split
  · exact hscan.trans (finishRunning_staysApart ..)
  · exact hscan

theorem takeCommand_staysApart (c : TakenCommand) (s : State) : StaysApart s (takeCommand c s) := by
  unfold takeCommand
  split
  · exact (startCommand_staysApart c s).trans (.of_frame (endPurge_frame _))
  · split
    · exact .of_frame (frame_cmd ..)
    · exact .of_frame (handOver_frame ..)

/-! ## The two ports -/

theorem streamListReturned_staysApart (rsp : Response) (s : State) : StaysApart s (streamListReturned rsp s) := by
  unfold streamListReturned
  split
  · split
    · exact finishRunning_staysApart ..
    · have hwritten : ∀ t, StaysApart s { s with stream := t } := fun t => .of_frame (frame_stream s t)
      dsimp only
      split
      · exact (hwritten _).trans (finishRunning_staysApart ..)
      · have hnext : ∀ t x, StaysApart s { s with stream := t, cmd := x } := fun t x =>
          (hwritten t).trans (.of_frame (frame_cmd _ x))
        exact (hnext ..).trans (.of_frame (issue_frame ..))
  · exact .refl s

theorem carriageListReturned_staysApart (rsp : Response) (s : State) : StaysApart s (carriageListReturned rsp s) := by
  unfold carriageListReturned
  split
  · split
    · exact finishRunning_staysApart ..
    · split
      · exact finishRunning_staysApart ..
      · exact (StaysApart.of_frame (receiveFrame_frame ..)).trans (finishRunning_staysApart ..)
  · exact .refl s

theorem indexReturned_staysApart (s : State) : StaysApart s (indexReturned s) := by
  unfold indexReturned
  split
  · have hidle : StaysApart s { s with rep := { s.rep with writer := .idle } } := .of_frame (frame_rep ..)
    dsimp only
    split
    · exact (hidle.trans (.of_frame (setRingAct_frame ..))).trans (finishRunning_staysApart ..)
    · exact hidle.trans (.of_frame (startWrite_frame _))
  · exact .refl s

theorem respond_staysApart (tag : PortTag) (rsp : Response) (s : State) : StaysApart s (respond tag rsp s) := by
  unfold respond
  split
  · exact .refl s
  · rename_i d rest _
    have hdown : StaysApart s { s with down := rest } := .of_frame (frame_down s rest)
    dsimp only
    split
    · exact hdown.trans (.of_frame (readyForwarded_frame ..))
    · exact (hdown.trans (.of_frame (readyForwarded_frame ..))).trans (ingestReturned_staysApart ..)
    · rename_i r _ _
      have hback := hdown.trans (.of_frame (readReturned_frame r _))
      refine StaysApart.trans ?_ (settlePurge_staysApart _)
      split
      · exact hback.trans (.of_frame (deliveryReturned_frame ..))
      · exact hback
    · exact hdown.trans (streamListReturned_staysApart ..)
    · exact hdown.trans (carriageListReturned_staysApart ..)
    · split
      · exact hdown.trans (wordReturned_staysApart ..)
      · exact hdown
    · split
      · exact hdown.trans (dataReturned_waitsDrop ..).staysApart
      · exact hdown
    · exact hdown.trans (.of_frame (recordReturned_frame ..))
    · exact hdown.trans (indexReturned_staysApart _)

theorem takeRequest_staysApart (r : Request) (s : State) : StaysApart s (takeRequest r s) := by
  have hfwd : ∀ k, StaysApart s (forward k r s) := fun k => .of_frame (forward_frame k r s)
  have hopen : ∀ c rsp, StaysApart s (openReq r.tag c rsp s) := fun c rsp => .of_frame (openReq_frame r.tag c rsp s)
  unfold takeRequest
  split
  · exact hopen ..
  · exact ((hopen ..).trans (.of_frame (takeFeedRead_frame ..))).trans (settlePurge_staysApart _)
  · exact ((hopen ..).trans (.of_frame (modFeed_frame ..))).trans (.of_frame (feedReadTaken_frame ..))
  · exact (hopen ..).trans (.of_frame (modFeed_frame ..))
  · exact .of_frame (takeIngest_frame ..)
  · exact (hfwd _).trans (.of_frame (modRing_frame ..))
  · exact hfwd _
  · exact (hfwd _).trans (takeCommand_staysApart ..)
  · exact hfwd _
  · exact hfwd _

theorem present_staysApart (r : Request) (s : State) : StaysApart s (present r s) := by
  unfold present
  split
  · exact takeRequest_staysApart r s
  · exact .of_frame (frame_path ..)

theorem idleStep_staysApart (s : State) : StaysApart s (idleStep s) := by
  unfold idleStep
  split
  · exact .refl s
  · exact (StaysApart.of_frame (frame_path ..)).trans (takeRequest_staysApart ..)

/-! ## The rows -/

/-- The row ends in a next state that keeps every target apart. -/
def EndsApart (s : State) (o : Host.Outcome State Fault Refusal) : Prop := ∃ t, o = .next t ∧ StaysApart s t

theorem StaysApart.ends {s t : State} (h : StaysApart s t) : EndsApart s (.next t) := ⟨t, rfl, h⟩

theorem endsApart_same (s : State) : EndsApart s (.next s) := (StaysApart.refl s).ends

/-- A row that changes nothing where its moment has not come (log entry 8). -/
theorem endsApart_ite {s t : State} {due : Prop} [Decidable due] (h : due → StaysApart s t) :
    EndsApart s (if due then .next t else .next s) := by
  split
  · exact (h ‹_›).ends
  · exact endsApart_same s

section
variable (s : State)

theorem execSpliceTReached_endsApart (e : EdId) (p : ProgId) : EndsApart s (execSpliceTReached e p s) := by
  unfold execSpliceTReached
  split
  · exact endsApart_ite fun _ => reachT_staysApart ‹_›
  · exact endsApart_same s

theorem execWindowEnd_endsApart (e : EdId) (p : ProgId) : EndsApart s (execWindowEnd e p s) := by
  unfold execWindowEnd
  split
  · exact endsApart_ite fun _ => resolve_staysApart ..
  · exact endsApart_same s

theorem execOscillatorPeriodEnd_endsApart : EndsApart s (execOscillatorPeriodEnd s) := by
  unfold execOscillatorPeriodEnd
  split
  · exact (StaysApart.of_frame (elapse_frame 1 s)).ends
  · exact (StaysApart.of_frame (frame_time s _)).ends

theorem execPpsEdge_endsApart : EndsApart s (execPpsEdge s) := by
  unfold execPpsEdge
  split
  · exact (applyLoad_staysApart ..).ends
  · exact endsApart_same s

theorem execPpsTimeout_endsApart : EndsApart s (execPpsTimeout s) := by
  unfold execPpsTimeout
  split
  · exact endsApart_ite fun _ => .of_frame ((frame_time ..).andThen (handOver_frame ..) : Frame [.time, .down, .rep] s _)
  · exact endsApart_same s

theorem execResponseLeaves_endsApart (tag : PortTag) : EndsApart s (execResponseLeaves tag s) := by
  unfold execResponseLeaves
  split
  · exact (StaysApart.of_frame (frame_path s _)).ends
  · exact endsApart_same s

theorem execIngestWriteCompletion_endsApart (tag : PortTag) (rsp : Response) (up : BitFault) :
    EndsApart s (execIngestWriteCompletion tag rsp up s) := by
  unfold execIngestWriteCompletion
  split
  · exact ((StaysApart.of_frame (frame_stream s _)).trans (respond_staysApart ..)).ends
  · exact (respond_staysApart ..).ends

/-- Every row keeps every target apart: only an arming makes a splice pend, and it tests the target; the admitted variant
changes only where the machine becomes or is STEADY. -/
theorem exec_endsApart (c : Instr) : EndsApart s (exec c s) := by
  have hpresent : ∀ r, EndsApart s (.next (present r s)) := fun r => (present_staysApart r s).ends
  have hrespond : ∀ tag rsp, EndsApart s (.next (respond tag rsp s)) := fun tag rsp => (respond_staysApart tag rsp s).ends
  have hcommand : ∀ h k, EndsApart s (takeRow h k s) := fun h k => (takeCommand_staysApart (takenRow h k) s).ends
  have hupset : ∀ us, StaysApart s (upsetRefs us s) := fun us => .of_frame (upsetRefs_frame us s)
  cases c with
  | ingestWrite r | malformedWrite r | ringRead r | passThroughRequest r | controlPassThrough r | requestBeyondLimit r
  | lengthFault r | feedWrite r | commandWrite r => exact hpresent r
  | wholeCellRead r us => exact ((hupset us).trans (present_staysApart r _)).ends
  | downstreamCompletion tag rsp | staleResponseDiscard tag rsp => exact hrespond tag rsp
  | deliveryReadCompletion e rsp | wordFetchCompletion e rsp | dataFetchCompletion e rsp => exact hrespond _ rsp
  | streamListReadCompletion rsp | carriageListReadCompletion rsp | reportWriteCompletion rsp
  | indexBlockWriteCompletion rsp => exact hrespond _ rsp
  | ingestWriteCompletion tag rsp up => exact execIngestWriteCompletion_endsApart s tag rsp up
  | responseLeaves tag => exact execResponseLeaves_endsApart s tag
  | purgeScanStep us =>
    exact (((hupset us).trans (.of_frame (scanStep_frame _))).trans (settlePurge_staysApart _)).ends
  | silenceExpiry i => exact endsApart_ite fun _ => .of_frame (silenceExpires_frame ..)
  | feedWatchExpiry e =>
    exact endsApart_ite fun _ => (StaysApart.of_frame (watchExpires_frame ..)).trans (settlePurge_staysApart _)
  | spliceTReached e p => exact execSpliceTReached_endsApart s e p
  | windowEnd e p => exact execWindowEnd_endsApart s e p
  | waitReached e => exact (judgeWaiting_waitsDrop s e).staysApart.ends
  | referenceLost => exact endsApart_ite fun _ => .of_frame (loseReference_frame s)
  | stationReferenceEdge | referenceRestored => exact (StaysApart.of_frame (referenceEdge_frame s)).ends
  | oscillatorPeriodEnd => exact execOscillatorPeriodEnd_endsApart s
  | ppsEdge => exact execPpsEdge_endsApart s
  | ppsTimeout => exact execPpsTimeout_endsApart s
  | hardwareReset strap => exact (StaysApart.of_reset rfl).ends
  | setStreamEntry | loadStreamEntries | setEccThreshold | setRing | setRingTimingOnly | disableRing | setProtection
  | clearProtection | setProgramme | setCarriage | armSplice | cancelSplice | setVariantNow | startSchedule | haltSchedule
  | clearSchedule | resumeSchedule | setEdition | editionOn | editionOff | timeLoad | relocateControl | setMemoryLimit
  | setReportRing | reportAck | statistics | restart => exact hcommand _ _

end

/-- Settles O12: an arming pends only with another target than the admitted variant, and that variant changes only where no splice
pends any more. -/
theorem stepKeepsSpliceTargetsApart : Obligations.StepKeepsSpliceTargetsApart := by
  unfold Obligations.StepKeepsSpliceTargetsApart
  intro s t h ht
  unfold step at ht
  split at ht
  · cases ht
    exact h.stays (idleStep_staysApart s)
  · rename_i c rest _
    obtain ⟨u, hu, hstays⟩ := exec_endsApart { s with pending := rest } c
    rw [hu] at ht
    cases ht
    exact h.stays ((StaysApart.of_frame (frame_pending s rest)).trans hstays)

end Sys2Proof.Machine
end

section
/-! SUPPORT. A splice from its arming to its resolution: the judgement of an arming case by case, what a resolution makes of the
machine, of the channel and of a waiting arming, and the judgement at a time load (R106, R108 to R112, R114, R115, R118, R132,
R138). -/

set_option Elab.async false

namespace Sys2Proof.Machine

/-! ## The resolution at its machine (R111, R112, R114, R123) -/

theorem outcomeSwitches_eq (o : SpliceOutcome) : outcomeSwitches o = (o == .switched || o == .forced) := by
  cases o <;> rfl

section
variable {s : State} {e : EdId} {p : ProgId} {sp : PendingSplice} {o : SpliceOutcome} {c : SpliceCause}

/-- An outcome that switches makes the target the admitted variant and sets mark-pending. -/
theorem resolveOnly_of_switch (ho : outcomeSwitches o = true) : resolveOnly e p sp o c s =
    handOver (.splice e p o c sp.late sp.source sp.target sp.target sp.tag)
      (modMachine e p (fun m => { m with phase := .steady, admitted := sp.target, markPending := true }) s) := by
  simp only [resolveOnly_says, ho, if_true, Bool.or_true]

/-- Any other outcome is the return to STEADY alone. -/
theorem resolveOnly_of_kept (ho : outcomeSwitches o = false) : resolveOnly e p sp o c s =
    handOver (.splice e p o c sp.late sp.source sp.target (machineOf s e p).admitted sp.tag)
      (modMachine e p (fun m => { m with phase := .steady }) s) := by
  simp only [resolveOnly_says, ho, Bool.false_eq_true, if_false, Bool.or_false]
  exact congrArg _ (modMachine_congr rfl)

/-- The resolution of an arming at a STEADY machine that does not switch is its report alone (R109). -/
theorem resolveOnly_of_steady (hs : (machineOf s e p).phase = .steady) (ho : outcomeSwitches o = false) :
    resolveOnly e p sp o c s =
      handOver (.splice e p o c sp.late sp.source sp.target (machineOf s e p).admitted sp.tag) s := by
  rw [resolveOnly_of_kept ho, modMachine_of_fixed]
  rw [← hs]

theorem waiting_resolveOnly : (machineOf (resolveOnly e p sp o c s) e p).waiting = (machineOf s e p).waiting := by
  rw [resolveOnly_says, machineOf_congr (handOver_splices ..), machineOf_modMachine_same]

theorem chanOf_resolveOnly : chanOf (resolveOnly e p sp o c s) e = chanOf s e :=
  chanOf_congr (resolveOnly_frame e p sp o c s).chans_eq e

/-- A resolution does not look at the phase that it ends. -/
theorem resolveOnly_modPhase (ph : SplicePhase) :
    resolveOnly e p sp o c (modMachine e p (fun m => { m with phase := ph }) s) = resolveOnly e p sp o c s := by
  simp only [resolveOnly_says, machineOf_modMachine_same, modMachine_modMachine]

/-! ## The outcome at the channel (R106, R138) -/

theorem judgeOutcome_of_splice {a : Addr} {w : SchedWord} {q : ProgId} {v : Variant} {t : HouseTime} {win : BitVec 16}
    {force sync stop : Bool} (hcur : (chanOf s e).current = some ⟨a, w⟩)
    (hk : w.kind = .splice q v t win force sync stop) : judgeOutcome e o s =
      if stop = true ∧ (o = .abandoned ∨ o = .cancelled) then endChain e .spliceFailed .none a.toNat w.tag s
      else goOn e s := by
  have hfails : (stop && outcomeFails o) = true ↔ stop = true ∧ (o = .abandoned ∨ o = .cancelled) := by
    cases o <;> simp [outcomeFails]
  simp only [judgeOutcome, hcur, hk, hfails]

/-- The channel hears the outcome of a splice that it armed while it is SYNCING on the machine, and of no other. -/
abbrev Hears (e : EdId) (p : ProgId) (sp : PendingSplice) (s : State) : Prop :=
  sp.source = .channel ∧ (chanOf s e).state = .syncing ∧ (chanOf s e).sync = some p

theorem resolve_of_ignored (h : ¬Hears e p sp s) :
    resolve e p sp o c s = takeWaiting e p (resolveOnly e p sp o c s) := by
  unfold resolve
  dsimp only
  split
  · rename_i hsrc
    rw [outcomeToChannel, chanOf_resolveOnly, if_neg fun hc => h ⟨hsrc, hc⟩]
  · rfl

theorem resolve_of_heard (h : Hears e p sp s) :
    resolve e p sp o c s = takeWaiting e p (judgeOutcome e o (resolveOnly e p sp o c s)) := by
  obtain ⟨hsrc, hchan⟩ := h
  unfold resolve
  dsimp only
  rw [if_pos hsrc, outcomeToChannel, chanOf_resolveOnly, if_pos hchan]

/-- An arming that waits on the machine is taken, and waits no more (R108). -/
theorem takeWaiting_of_waiting {a : Addr} {w : SchedWord} (hw : (machineOf s e p).waiting = true)
    (hcur : (chanOf s e).current = some ⟨a, w⟩) :
    takeWaiting e p s = armFromChannel e w (modMachine e p (fun m => { m with waiting := false }) s) := by
  rw [takeWaiting, if_pos hw]
  simp only [chanOf_modMachine, hcur]

theorem resolve_modPhase (ph : SplicePhase) :
    resolve e p sp o c (modMachine e p (fun m => { m with phase := ph }) s) = resolve e p sp o c s := by
  simp only [resolve, resolveOnly_modPhase]

/-! ## The judgement of an arming (R109) -/

theorem judgeArming_of_unchanged (hs : (machineOf s e p).phase = .steady) (ht : sp.target = (machineOf s e p).admitted) :
    judgeArming e p sp s =
      (handOver (.splice e p .unchanged .none false sp.source sp.target (machineOf s e p).admitted sp.tag) s,
        some .unchanged) := by
  rw [judgeArming, if_pos ht, resolveOnly_of_steady hs rfl]

theorem judgeArming_of_forced (hs : (machineOf s e p).phase = .steady) (ht : sp.target ≠ (machineOf s e p).admitted)
    (hend : sp.windowEnd ≤ s.time.now.toNat) (hf : sp.force = true) :
    judgeArming e p sp s =
      (handOver (.splice e p .forced .none true sp.source sp.target sp.target sp.tag)
        (modMachine e p (fun m => { m with admitted := sp.target, markPending := true }) s), some .forced) := by
  have hexpiry : expiryOutcome { sp with late := true } = .forced := if_pos hf
  rw [judgeArming, if_neg ht, if_pos hend]
  dsimp only
  rw [hexpiry, resolveOnly_of_switch rfl]
  dsimp only
  rw [modMachine_congr (g := fun m => { m with admitted := sp.target, markPending := true })]
  rw [hs]

theorem judgeArming_of_abandoned (hs : (machineOf s e p).phase = .steady) (ht : sp.target ≠ (machineOf s e p).admitted)
    (hend : sp.windowEnd ≤ s.time.now.toNat) (hf : sp.force = false) :
    judgeArming e p sp s =
      (handOver (.splice e p .abandoned .none true sp.source sp.target (machineOf s e p).admitted sp.tag) s,
        some .abandoned) := by
  have hexpiry : expiryOutcome { sp with late := true } = .abandoned := if_neg (by simp [hf])
  rw [judgeArming, if_neg ht, if_pos hend]
  dsimp only
  rw [hexpiry, resolveOnly_of_steady hs rfl]

theorem judgeArming_of_seeking (ht : sp.target ≠ (machineOf s e p).admitted) (hend : s.time.now.toNat < sp.windowEnd)
    (hT : sp.t.toNat ≤ s.time.now.toNat) : judgeArming e p sp s =
      (modMachine e p (fun m => { m with phase := .seeking { sp with late := true } }) s, none) := by
  rw [judgeArming, if_neg ht, if_neg (by omega), if_pos hT]

theorem judgeArming_of_armed (ht : sp.target ≠ (machineOf s e p).admitted) (hT : s.time.now.toNat < sp.t.toNat) :
    judgeArming e p sp s = (modMachine e p (fun m => { m with phase := .armed { sp with late := false } }) s, none) := by
  have hend : sp.t.toNat ≤ sp.windowEnd := Nat.le_add_right ..
  rw [judgeArming, if_neg ht, if_neg (by omega), if_neg (by omega)]

/-! ## The judgement at a time load (R118, R119) -/

theorem judgeLoad_of_steady (h : (machineOf s e p).phase = .steady) : judgeLoad e p s = s := by
  simp only [judgeLoad, h]

theorem judgeLoad_of_armed (h : (machineOf s e p).phase = .armed sp) : judgeLoad e p s =
    if sp.windowEnd ≤ s.time.now.toNat then resolve e p sp (expiryOutcome sp) .none s
    else if sp.t.toNat ≤ s.time.now.toNat then modMachine e p (fun m => { m with phase := .seeking sp }) s
    else s := by
  simp only [judgeLoad, h]

theorem judgeLoad_of_seeking (h : (machineOf s e p).phase = .seeking sp) : judgeLoad e p s =
    if sp.windowEnd ≤ s.time.now.toNat then resolve e p sp (expiryOutcome sp) .none s else s := by
  simp only [judgeLoad, h]

/-! ## A WAITING channel (R132) -/

theorem judgeWaiting_of_other (h : (chanOf s e).state ≠ .waiting) : judgeWaiting s e = s := by
  unfold judgeWaiting
  dsimp only
  split
  · rename_i hw _
    exact absurd hw h
  · rfl

theorem judgeWaiting_of_wait {a : Addr} {w : SchedWord} {t : HouseTime} (hst : (chanOf s e).state = .waiting)
    (hcur : (chanOf s e).current = some ⟨a, w⟩) (hk : w.kind = .wait t) : judgeWaiting s e = judgeWait e t s := by
  simp only [judgeWaiting, hst, hcur, hk]

/-- A channel that waits already goes on waiting. -/
theorem judgeWait_of_early {t : HouseTime} (hst : (chanOf s e).state = .waiting) (hf : (chanOf s e).fetch = .none)
    (ht : s.time.now.toNat < t.toNat) : judgeWait e t s = s := by
  rw [judgeWait, if_neg (by omega), modChan_of_fixed]
  rw [← hst, ← hf]

end

/-- Settles O40: the resolution at the machine, then the channel, then the waiting arming; the rows and the entry point are
resolutions by the phase of the machine. -/
theorem splicesResolveAtTheirTimes : Obligations.SplicesResolveAtTheirTimes := by
  unfold Obligations.SplicesResolveAtTheirTimes
  intro s e p sp m c settled judged expiry
  have hsettled : ∀ o cause, resolveOnly e p sp o cause s = settled o cause := fun o cause => by
    rw [resolveOnly_says, outcomeSwitches_eq]
  have hwait : ∀ {b} o cause, m.waiting = b → (machineOf (settled o cause) e p).waiting = b := fun o cause hw => by
    rw [← hsettled, waiting_resolveOnly]
    exact hw
  have hchan : ∀ o cause, chanOf (settled o cause) e = c := fun o cause => by
    rw [← hsettled, chanOf_resolveOnly]
  refine ⟨fun hw hj o cause => ?_, fun hw hj a w q v t win force sync stop hcur hk o cause => ?_,
    fun hw hst a w hcur o cause => ?_, fun hph hT hwin => ?_, fun hph hT hwin => ?_, fun hph hend => ?_, fun hph => ?_⟩
  · rw [resolve_of_ignored hj, hsettled, takeWaiting_of_not (hwait o cause hw)]
  · have hjudge := judgeOutcome_of_splice (o := o) ((congrArg Channel.current (hchan o cause)).trans hcur) hk
    rw [resolve_of_heard hj, hsettled, takeWaiting_of_not, hjudge]
    exact (judgeOutcome_waitsDrop ..).not_waiting (hwait o cause hw)
  · have hignored : ¬Hears e p sp s := fun ⟨_, hsync, _⟩ => by
      rw [show (chanOf s e).state = .blocked from hst] at hsync
      cases hsync
    rw [resolve_of_ignored hignored, hsettled,
      takeWaiting_of_waiting (hwait o cause hw) ((congrArg Channel.current (hchan o cause)).trans hcur)]
  · show execSpliceTReached e p s = _
    simp only [execSpliceTReached, show (machineOf s e p).phase = _ from hph, if_pos hT, reachT, if_neg hwin]
  · show execSpliceTReached e p s = _
    simp only [execSpliceTReached, show (machineOf s e p).phase = _ from hph, if_pos hT, reachT, if_pos hwin, resolve_modPhase]
    rfl
  · show execWindowEnd e p s = _
    have hend : sp.windowEnd ≤ s.time.now.toNat := hend
    simp only [execWindowEnd, show (machineOf s e p).phase = _ from hph, if_pos hend]
    rfl
  · simp only [entryPoint, show (machineOf s e p).phase = _ from hph, beq_self_eq_true, Bool.and_self, if_true]

/-! ## The splice commands (R107, R114, R115) -/

/-- Indices that name something are in range. -/
theorem in_range_of_index? {ed pr : Nat} {e : EdId} {p : ProgId} (he : index? 16 ed = some e) (hp : index? 48 pr = some p) :
    ed < 16 ∧ pr < 48 := ⟨index?_eq_some.1 he ▸ e.isLt, index?_eq_some.1 hp ▸ p.isLt⟩

section
variable {ed pr vr : BitVec 8} (s : State)

theorem doSetVariantNow_of_range (hr : 16 ≤ ed.toNat ∨ 48 ≤ pr.toNat ∨ 8 ≤ vr.toNat) :
    doSetVariantNow ed pr vr s = .done .range s := by
  unfold doSetVariantNow
  split
  · rename_i v he hp hv
    have := in_range_of_index? he hp
    have := index?_eq_some.1 hv
    omega
  · rfl

theorem doArmSplice_of_range (hr : 16 ≤ ed.toNat ∨ 48 ≤ pr.toNat ∨ 8 ≤ vr.toNat) (tag : Tag16) (force : Bool)
    (win : BitVec 16) (t : HouseTime) : doArmSplice tag ed pr vr force win t s = .done .range s := by
  unfold doArmSplice
  split
  · rename_i v he hp hv
    have := in_range_of_index? he hp
    have := index?_eq_some.1 hv
    omega
  · rfl

theorem doCancelSplice_of_range (hr : 16 ≤ ed.toNat ∨ 48 ≤ pr.toNat) : doCancelSplice ed pr s = .done .range s := by
  unfold doCancelSplice
  split
  · rename_i he hp
    have := in_range_of_index? he hp
    omega
  · rfl

variable {s} {e : EdId} {p : ProgId} {v : Variant} (he : e.val = ed.toNat) (hp : p.val = pr.toNat)
include he hp

theorem doCancelSplice_of_steady (h : (machineOf s e p).phase = .steady) : doCancelSplice ed pr s = .done .state s := by
  simp only [doCancelSplice, index?_eq_some.2 he, index?_eq_some.2 hp, h, pendingOf]

theorem doCancelSplice_of_pending {q : PendingSplice} (h : pendingOf (machineOf s e p).phase = some q) :
    doCancelSplice ed pr s = .done .done (resolve e p q .cancelled .command s) := by
  simp only [doCancelSplice, index?_eq_some.2 he, index?_eq_some.2 hp, h]

variable (hv : v.val = vr.toNat)
include hv

theorem doSetVariantNow_of_steady (h : (machineOf s e p).phase = .steady) : doSetVariantNow ed pr vr s =
    if v = (machineOf s e p).admitted then .done .done s
    else .done .done (modMachine e p (fun m => { m with admitted := v, markPending := true }) s) := by
  simp only [doSetVariantNow, index?_eq_some.2 he, index?_eq_some.2 hp, index?_eq_some.2 hv, h]

theorem doSetVariantNow_of_pending (h : (machineOf s e p).phase ≠ .steady) :
    doSetVariantNow ed pr vr s = .done .busy s := by
  simp only [doSetVariantNow, index?_eq_some.2 he, index?_eq_some.2 hp, index?_eq_some.2 hv]

theorem doArmSplice_of_steady (h : (machineOf s e p).phase = .steady) (tag : Tag16) (force : Bool) (win : BitVec 16)
    (t : HouseTime) : doArmSplice tag ed pr vr force win t s =
      .done .done (judgeArming e p ⟨v, t, win, force, tag, .command, false⟩ s).1 := by
  simp only [doArmSplice, index?_eq_some.2 he, index?_eq_some.2 hp, index?_eq_some.2 hv, h]

theorem doArmSplice_of_pending (h : (machineOf s e p).phase ≠ .steady) (tag : Tag16) (force : Bool) (win : BitVec 16)
    (t : HouseTime) : doArmSplice tag ed pr vr force win t s = .done .busy s := by
  simp only [doArmSplice, index?_eq_some.2 he, index?_eq_some.2 hp, index?_eq_some.2 hv]

end

/-- Settles O42: the checks, then the phase of the machine and the admitted variant. -/
theorem setVariantNowSwitchesAtOnce : Obligations.SetVariantNowSwitchesAtOnce := by
  unfold Obligations.SetVariantNowSwitchesAtOnce
  intro s h ed pr vr hs row
  have answers : ∀ {o u}, doSetVariantNow ed pr vr s = .done o u → u.refs.scan = none →
      row = .next (handOver (ended h 11 o) u) :=
    fun ha hu => takeRow_done (c := .setVariantNow ed pr vr) hs nofun ha hu
  refine ⟨fun hr => answers (doSetVariantNow_of_range s hr) hs.2, fun e p v he hp hv => ⟨fun hph => ?_, fun hph hv' => ?_,
    fun hph hv' => ?_⟩⟩
  · exact answers (doSetVariantNow_of_pending he hp hv hph) hs.2
  · exact answers ((doSetVariantNow_of_steady he hp hv hph).trans (if_pos hv')) hs.2
  · exact answers ((doSetVariantNow_of_steady he hp hv hph).trans (if_neg hv')) hs.2

/-- Settles O41: ARM SPLICE by the phase of the machine and the cases of R109; CANCEL SPLICE by the phase. -/
theorem armingAndCancelling : Obligations.ArmingAndCancelling := by
  unfold Obligations.ArmingAndCancelling
  refine ⟨fun s hd ed pr tg force win t hs => ⟨fun hr => ?_, fun hr => ?_⟩, ?_⟩
  · exact takeRow_done (c := .armSplice ed pr tg force win t) hs nofun (doArmSplice_of_range s hr ..) hs.2
  · exact takeRow_done (c := .cancelSplice ed pr) hs nofun (doCancelSplice_of_range s hr) hs.2
  intro s hd ed pr tg force win t e p v hs he hp hv m h last sp row done cancel
  have arms : ∀ {o u}, doArmSplice hd.tag ed pr tg force win t s = .done o u → u.refs.scan = none →
      row = .next (handOver (ended hd 9 o) u) :=
    fun ha hu => takeRow_done (c := .armSplice ed pr tg force win t) hs nofun ha hu
  have cancels : ∀ {o u}, doCancelSplice ed pr s = .done o u → u.refs.scan = none →
      cancel = .next (handOver (ended hd 10 o) u) :=
    fun ha hu => takeRow_done (c := .cancelSplice ed pr) hs nofun ha hu
  have judged : ∀ {u o}, m.phase = .steady → judgeArming e p (sp false) s = (u, o) → row = done u := by
    intro u o hph hj
    have hframe := judgeArming_frame e p (sp false) s
    rw [hj] at hframe
    refine arms ((doArmSplice_of_steady he hp hv hph ..).trans ?_) ((congrArg RefStore.scan hframe.refs_eq).trans hs.2)
    exact congrArg (fun r => Act.done .done r.1) hj
  have resolved : ∀ {q}, pendingOf m.phase = some q →
      cancel = .next (handOver (ended hd 10 .done) (resolve e p q .cancelled .command s)) := fun {q} hq =>
    cancels (doCancelSplice_of_pending he hp hq) 
      ((congrArg RefStore.scan (resolve_frame e p q .cancelled .command s).refs_eq).trans hs.2)
  refine ⟨fun hph ht => judged hph (judgeArming_of_unchanged hph ht),
    fun hph ht hend hf => judged hph (judgeArming_of_forced hph ht hend hf),
    fun hph ht hend hf => judged hph (judgeArming_of_abandoned hph ht hend hf),
    fun hph ht hend hT => judged hph (judgeArming_of_seeking ht hend hT),
    fun hph ht hT => judged hph (judgeArming_of_armed ht hT),
    fun hph => arms (doArmSplice_of_pending he hp hv hph ..) hs.2,
    fun hph => cancels (doCancelSplice_of_steady he hp hph) hs.2, fun q hq => resolved ?_, fun q hq hsrc hw => ?_⟩
  · rcases hq with hq | hq <;> rw [hq] <;> rfl
  · have hignored : ¬Hears e p q s := fun ⟨hchannel, _⟩ => by
      rw [hsrc] at hchannel
      cases hchannel
    rw [resolved hq, resolve_of_ignored hignored, takeWaiting_of_not (waiting_resolveOnly.trans hw),
      resolveOnly_of_kept rfl, hsrc]

/-! ## The pulse edge (R118, R167, R168) -/

/-- A fold of changes none of which does anything. -/
theorem foldl_of_fixed {α : Type} {f : State → α → State} {s : State} (h : ∀ a, f s a = s) (l : List α) :
    l.foldl f s = s := by
  induction l with
  | nil => rfl
  | cons a l ih => rw [List.foldl_cons, h a, ih]

theorem judgeMachines_of_steady {s : State} (h : ∀ e p, (machineOf s e p).phase = .steady) : judgeMachines s = s :=
  foldl_of_fixed (f := fun s e => (List.finRange 48).foldl (fun s p => judgeLoad e p s) s)
    (fun e => foldl_of_fixed (f := fun s p => judgeLoad e p s) (fun p => judgeLoad_of_steady (h e p)) _) _

/-- Settles O46: the load with its report, then each machine and each channel by its state. -/
theorem pulseEdgeAppliesTheLoad : Obligations.PulseEdgeAppliesTheLoad := by
  unfold Obligations.PulseEdgeAppliesTheLoad
  intro machines
  refine ⟨fun s => ⟨fun hl => ?_, fun l hl => ?_⟩,
    fun s e => ⟨judgeWaiting_of_other, fun a w t hst hcur hk => ⟨fun ht => ?_, fun ht hf => ?_⟩⟩, fun s e p sp => ?_⟩
  · constructor
    · show execPpsEdge s = _
      simp only [execPpsEdge, hl]
    · show execPpsTimeout s = _
      simp only [execPpsTimeout, hl]
  · let loaded := handOver (.time (.loaded s.time.now)) { s with time := { s.time with now := l.value, load := none } }
    have hframe : Frame [.time, .down, .rep] s loaded := (frame_time ..).andThen (handOver_frame ..)
    have hedge : exec .ppsEdge s = .next ((List.finRange 16).foldl judgeWaiting (machines loaded)) := by
      show execPpsEdge s = _
      simp only [execPpsEdge, hl]
      rfl
    refine ⟨hedge, fun hsteady hchan => ?_, fun hwait => ?_⟩
    · have hmachines : machines loaded = loaded :=
        judgeMachines_of_steady fun e p => by rw [machineOf_congr hframe.splices_eq]; exact hsteady e p
      have hchans : (List.finRange 16).foldl judgeWaiting loaded = loaded :=
        foldl_of_fixed (fun e => judgeWaiting_of_other (by rw [chanOf_congr hframe.chans_eq]; exact hchan e)) _
      rw [hedge, hmachines, hchans]
    · show execPpsTimeout s = _
      have hwait : Config.loadWaitTicks ≤ l.wait := hwait
      simp only [execPpsTimeout, hl, if_pos hwait]
  · rw [judgeWaiting_of_wait hst hcur hk, judgeWait, if_pos ht]
  · rw [judgeWaiting_of_wait hst hcur hk, judgeWait_of_early hst hf ht]
  · intro m h last o
    have expires : ∀ {t u : State}, last ≤ h → (if sp.windowEnd ≤ s.time.now.toNat then t else u) = t := fun hend => if_pos hend
    have pends : ∀ {t u : State}, h < last → (if sp.windowEnd ≤ s.time.now.toNat then t else u) = u :=
      fun hend => if_neg (Nat.not_le.2 hend)
    refine ⟨judgeLoad_of_steady, fun hph hend => (judgeLoad_of_armed hph).trans (expires hend),
      fun hph hT hend => (judgeLoad_of_armed hph).trans ((pends hend).trans (if_pos hT)), fun hph hT => ?_,
      fun hph hend => (judgeLoad_of_seeking hph).trans (expires hend),
      fun hph hend => (judgeLoad_of_seeking hph).trans (pends hend)⟩
    have hend : h < last := Nat.lt_add_right _ hT
    exact (judgeLoad_of_armed hph).trans ((pends hend).trans (if_neg (Nat.not_le.2 hT)))

end Sys2Proof.Machine
end

section
/-! SUPPORT. The schedule word: which bytes of a word its layout names, field by field, and that a word reads back from its bytes
(R129, R207, R211). -/

set_option Elab.async false

namespace Sys2Proof.Machine

/-! ## Flags, fields and gaps -/

theorem flags_one : ∀ (b : Byte) (x : Bool), (b &&& ~~~(1 : Byte) = 0 ∧ b.getLsbD 0 = x) ↔ b.toNat = if x then 1 else 0 := by
  decide

theorem flags_two : ∀ (b : Byte) (x y : Bool), (b &&& ~~~(3 : Byte) = 0 ∧ b.getLsbD 0 = x ∧ b.getLsbD 1 = y) ↔
    b.toNat = (if x then 1 else 0) + (if y then 2 else 0) := by
  decide

theorem flags_three : ∀ (b : Byte) (x y z : Bool),
    (b &&& ~~~(7 : Byte) = 0 ∧ b.getLsbD 0 = x ∧ b.getLsbD 1 = y ∧ b.getLsbD 2 = z) ↔
      b.toNat = (if x then 1 else 0) + (if y then 2 else 0) + (if z then 4 else 0) := by
  decide

section
variable {d : List Byte}

theorem leNat_lt (off n : Nat) : leNat d off n < 256 ^ n := by
  induction n generalizing off with
  | zero => exact Nat.one_pos
  | succ n ih =>
    have hbyte := (byteAt d off).isLt
    have hrest := ih (off + 1)
    rw [leNat, Nat.pow_succ]
    omega

/-- A field that fills its bytes holds their number. -/
theorem field_eq_iff {n off : Nat} {x : BitVec (8 * n)} : field (8 * n) d off n = x ↔ leNat d off n = x.toNat := by
  refine ⟨fun h => ?_, field_of_leNat⟩
  have hlt : leNat d off n < 2 ^ (8 * n) := by
    rw [Nat.pow_mul]
    exact leNat_lt off n
  rw [← h, field, BitVec.toNat_ofNat, Nat.mod_eq_of_lt hlt]

theorem reservedClear_iff {named : Nat → Byte} {n : Nat} :
    reservedClear d named n = true ↔ ∀ k < n, byteAt d k &&& ~~~named k = 0 := by
  simp [reservedClear]

/-- Where each byte is named as a whole, shares its bits with reserved ones, or lies in a gap of the layout, the reserved fields are
the rest of the shared bytes and the gaps. -/
theorem reservedClear_of_layout {named : Nat → Byte} {shared : List Nat} {gaps : List (Nat × Nat)}
    (hshared : ∀ k ∈ shared, k < 32)
    (hgaps : ∀ g ∈ gaps, g.1 + g.2 ≤ 32 ∧ ∀ k < 32, g.1 ≤ k → k < g.1 + g.2 → named k = 0)
    (hcover : ∀ k < 32, named k = 0xFF ∨ k ∈ shared ∨ ∃ g ∈ gaps, g.1 ≤ k ∧ k < g.1 + g.2) :
    reservedClear d named 32 = true ↔
      (∀ k ∈ shared, byteAt d k &&& ~~~named k = 0) ∧ ∀ g ∈ gaps, ∀ k, g.1 ≤ k → k < g.1 + g.2 → byteAt d k = 0 := by
  have hall : ∀ b : Byte, b &&& ~~~(0xFF : Byte) = 0 := by decide
  have hnone : ∀ b : Byte, b &&& ~~~(0 : Byte) = 0 ↔ b = 0 := by decide
  rw [reservedClear_iff]
  constructor
  · refine fun h => ⟨fun k hk => h k (hshared k hk), fun g hg k hlo hhi => ?_⟩
    obtain ⟨hle, hnamed⟩ := hgaps g hg
    have hk : k < 32 := by omega
    have := h k hk
    rwa [hnamed k hk hlo hhi, hnone] at this
  · rintro ⟨hs, hg⟩ k hk
    rcases hcover k hk with hk' | hk' | ⟨g, hmem, hlo, hhi⟩
    · rw [hk', hall]
    · exact hs k hk'
    · rw [(hgaps g hmem).2 k hk hlo hhi, hnone]
      exact hg g hmem k hlo hhi

/-! ## The tests KIND and FIELD (R129) -/

/-- The kind of a word is its kind code. -/
theorem code_of_wordKind {k : WordKind} (h : wordKind d = some k) : (byteAt d 0).toNat = (wordCode k).toNat := by
  unfold wordKind at h
  split at h
  · split at h <;> cases h
    assumption
  · dsimp only at h
    split at h <;> cases h
    assumption
  · cases h
    assumption
  · cases h
    assumption
  · cases h
    assumption
  · cases h

theorem wordCode_range (k : WordKind) : 1 ≤ (wordCode k).toNat ∧ (wordCode k).toNat ≤ 5 := by
  cases k <;> exact ⟨by simp [wordCode], by simp [wordCode]⟩

theorem parseWord_eq_inl {w : SchedWord} : parseWord d = .inl w ↔
    wordKind d = some w.kind ∧ reservedClear d (wordNamed (byteAt d 0).toNat) 32 = true ∧
      bitAt d 1 0 = w.note ∧ bitAt d 1 1 = w.hold ∧ wordTag d = w.tag := by
  obtain ⟨kind, note, hold, tag⟩ := w
  unfold parseWord
  constructor
  · intro h
    split at h
    · cases h
    · split at h
      · split at h <;> cases h
        exact ⟨‹_›, ‹_›, rfl, rfl, rfl⟩
      · cases h
  · rintro ⟨hkind, hclear, hnote, hhold, htag⟩
    have hrange := wordCode_range kind
    rw [← code_of_wordKind hkind] at hrange
    rw [if_neg (not_not.2 hrange), hkind]
    dsimp only at hnote hhold htag ⊢
    rw [if_pos hclear, hnote, hhold, htag]

/-- A word of a known kind that is refused fails FIELD. -/
theorem parseWord_of_field (h1 : 1 ≤ (byteAt d 0).toNat) (h5 : (byteAt d 0).toNat ≤ 5) (h : ∀ w, parseWord d ≠ .inl w) :
    parseWord d = .inr .field := by
  cases hp : parseWord d with
  | inl w => exact absurd hp (h w)
  | inr code =>
    unfold parseWord at hp
    rw [if_neg (not_not.2 ⟨h1, h5⟩)] at hp
    split at hp
    · split at hp <;> cases hp
      rfl
    · cases hp
      rfl

theorem parseWord_of_kind (h : (byteAt d 0).toNat = 0 ∨ 5 < (byteAt d 0).toNat) : parseWord d = .inr .kind :=
  if_pos (by omega)

/-! ## The fields of each kind (R207) -/

theorem wordKind_eq_splice {p : ProgId} {v : Variant} {t : HouseTime} {win : BitVec 16} {force sync stop : Bool} :
    wordKind d = some (.splice p v t win force sync stop) ↔
      (byteAt d 0).toNat = 1 ∧ (byteAt d 4).toNat = p.val ∧ (byteAt d 5).toNat = v.val ∧ leNat d 16 7 = t.toNat ∧
        leNat d 8 2 = win.toNat ∧ bitAt d 6 0 = force ∧ bitAt d 6 1 = sync ∧ bitAt d 6 2 = stop := by
  rw [← field_eq_iff (n := 7), ← field_eq_iff (n := 2), eq_comm (b := p.val), eq_comm (b := v.val), ← index?_eq_some,
    ← index?_eq_some]
  constructor
  · intro h
    have hcode : (byteAt d 0).toNat = 1 := code_of_wordKind h
    simp only [wordKind, hcode] at h
    split at h
    · rename_i hp hv
      simp only [Option.some.injEq, WordKind.splice.injEq] at h
      obtain ⟨rfl, rfl, ht, hwin, hflags⟩ := h
      exact ⟨hcode, hp, hv, ht, hwin, hflags⟩
    · cases h
  · rintro ⟨hcode, hp, hv, rfl, rfl, rfl, rfl, rfl⟩
    simp only [wordKind, hcode, hp, hv]

theorem wordKind_eq_carriage {len count : Nat} {a : Addr} {sup : Bool} :
    wordKind d = some (.carriage len count a sup) ↔
      (byteAt d 0).toNat = 2 ∧ (byteAt d 4).toNat = len ∧ 16 ≤ len ∧ len ≤ 128 ∧ (byteAt d 5).toNat = count ∧ count ≠ 0 ∧
        leNat d 8 5 = a.toNat ∧ a.toNat % 32 = 0 ∧ bitAt d 6 0 = sup := by
  rw [← field_eq_iff (n := 5)]
  constructor
  · intro h
    have hcode : (byteAt d 0).toNat = 2 := code_of_wordKind h
    simp only [wordKind, hcode] at h
    split at h
    · rename_i hc
      obtain ⟨h16, h128, hcount, ha⟩ := hc
      simp only [Option.some.injEq, WordKind.carriage.injEq] at h
      obtain ⟨rfl, rfl, rfl, hsup⟩ := h
      exact ⟨hcode, rfl, h16, h128, rfl, hcount, rfl, ha, hsup⟩
    · cases h
  · rintro ⟨hcode, rfl, h16, h128, rfl, hcount, rfl, ha, rfl⟩
    simp only [wordKind, hcode]
    exact if_pos ⟨h16, h128, hcount, ha⟩

theorem wordKind_eq_wait {t : HouseTime} :
    wordKind d = some (.wait t) ↔ (byteAt d 0).toNat = 3 ∧ leNat d 16 7 = t.toNat := by
  rw [← field_eq_iff (n := 7)]
  constructor
  · intro h
    have hcode : (byteAt d 0).toNat = 3 := code_of_wordKind h
    simp only [wordKind, hcode, Option.some.injEq, WordKind.wait.injEq] at h
    exact ⟨hcode, h⟩
  · rintro ⟨hcode, rfl⟩
    simp only [wordKind, hcode]

theorem wordKind_eq_jump {a : Addr} :
    wordKind d = some (.jump a) ↔ (byteAt d 0).toNat = 4 ∧ leNat d 8 5 = a.toNat := by
  rw [← field_eq_iff (n := 5)]
  constructor
  · intro h
    have hcode : (byteAt d 0).toNat = 4 := code_of_wordKind h
    simp only [wordKind, hcode, Option.some.injEq, WordKind.jump.injEq] at h
    exact ⟨hcode, h⟩
  · rintro ⟨hcode, rfl⟩
    simp only [wordKind, hcode]

theorem wordKind_eq_end : wordKind d = some .endWord ↔ (byteAt d 0).toNat = 5 :=
  ⟨code_of_wordKind, fun hcode => by simp only [wordKind, hcode]⟩

/-! ## The layout (R207) -/

/-- A byte of one flag. -/
theorem flagByte_iff {k : Nat} {x : Bool} :
    leNat d k 1 = (if x then 1 else 0) ↔ byteAt d k &&& ~~~(1 : Byte) = 0 ∧ bitAt d k 0 = x := by
  rw [leNat_one]
  exact (flags_one ..).symm

/-- The flags and the tag that every kind has. -/
theorem wordHead_iff {note hold : Bool} {tag : Tag16} :
    (leNat d 1 1 = (if note then 1 else 0) + (if hold then 2 else 0) ∧ leNat d 2 2 = tag.toNat) ↔
      byteAt d 1 &&& ~~~(3 : Byte) = 0 ∧ bitAt d 1 0 = note ∧ bitAt d 1 1 = hold ∧ wordTag d = tag := by
  rw [leNat_one, ← flags_two, ← field_eq_iff (n := 2), and_assoc, and_assoc]
  rfl

/-- The flags of a SPLICE word. -/
theorem spliceFlags_iff {force sync stop : Bool} :
    leNat d 6 1 = (if force then 1 else 0) + (if sync then 2 else 0) + (if stop then 4 else 0) ↔
      byteAt d 6 &&& ~~~(7 : Byte) = 0 ∧ bitAt d 6 0 = force ∧ bitAt d 6 1 = sync ∧ bitAt d 6 2 = stop := by
  rw [leNat_one]
  exact (flags_three ..).symm

/-- The n bytes from i on are 0. -/
abbrev ZeroBytes (d : List Byte) (i n : Nat) : Prop := ∀ k, i ≤ k → k < i + n → byteAt d k = 0

theorem reservedClear_splice : reservedClear d (wordNamed 1) 32 = true ↔
    byteAt d 1 &&& ~~~(3 : Byte) = 0 ∧ byteAt d 6 &&& ~~~(7 : Byte) = 0 ∧
      ZeroBytes d 7 1 ∧ ZeroBytes d 10 6 ∧ ZeroBytes d 23 9 := by
  rw [reservedClear_of_layout (shared := [1, 6]) (gaps := [(7, 1), (10, 6), (23, 9)]) (by decide) (by decide) (by decide)]
  simp only [List.forall_mem_cons, List.not_mem_nil, false_imp_iff, implies_true, and_true, and_assoc]
  rfl

theorem reservedClear_carriage : reservedClear d (wordNamed 2) 32 = true ↔
    byteAt d 1 &&& ~~~(3 : Byte) = 0 ∧ byteAt d 6 &&& ~~~(1 : Byte) = 0 ∧ ZeroBytes d 7 1 ∧ ZeroBytes d 13 19 := by
  rw [reservedClear_of_layout (shared := [1, 6]) (gaps := [(7, 1), (13, 19)]) (by decide) (by decide) (by decide)]
  simp only [List.forall_mem_cons, List.not_mem_nil, false_imp_iff, implies_true, and_true, and_assoc]
  rfl

theorem reservedClear_wait : reservedClear d (wordNamed 3) 32 = true ↔
    byteAt d 1 &&& ~~~(3 : Byte) = 0 ∧ ZeroBytes d 4 12 ∧ ZeroBytes d 23 9 := by
  rw [reservedClear_of_layout (shared := [1]) (gaps := [(4, 12), (23, 9)]) (by decide) (by decide) (by decide)]
  simp only [List.forall_mem_cons, List.not_mem_nil, false_imp_iff, implies_true, and_true]
  rfl

theorem reservedClear_jump : reservedClear d (wordNamed 4) 32 = true ↔
    byteAt d 1 &&& ~~~(3 : Byte) = 0 ∧ ZeroBytes d 4 4 ∧ ZeroBytes d 13 19 := by
  rw [reservedClear_of_layout (shared := [1]) (gaps := [(4, 4), (13, 19)]) (by decide) (by decide) (by decide)]
  simp only [List.forall_mem_cons, List.not_mem_nil, false_imp_iff, implies_true, and_true]
  rfl

theorem reservedClear_end : reservedClear d (wordNamed 5) 32 = true ↔
    byteAt d 1 &&& ~~~(3 : Byte) = 0 ∧ ZeroBytes d 4 28 := by
  rw [reservedClear_of_layout (shared := [1]) (gaps := [(4, 28)]) (by decide) (by decide) (by decide)]
  simp only [List.forall_mem_cons, List.not_mem_nil, false_imp_iff, implies_true, and_true]
  rfl

/-- A word is read from the bytes that its layout names, and from no others. -/
theorem parseWord_iff {w : SchedWord} : parseWord d = .inl w ↔ WordLaidOut d w := by
  obtain ⟨kind, note, hold, tag⟩ := w
  rw [parseWord_eq_inl]
  constructor
  · rintro ⟨hkind, hclear, hhead⟩
    cases kind with
    | splice p v t win force sync stop =>
      obtain ⟨hcode, hp, hv, ht, hwin, hflags⟩ := wordKind_eq_splice.1 hkind
      rw [hcode, reservedClear_splice] at hclear
      obtain ⟨hone, hsix, h7, h10, h23⟩ := hclear
      obtain ⟨hbits, htag⟩ := wordHead_iff.2 ⟨hone, hhead⟩
      exact ⟨hbits, htag, leNat_one.trans hcode, leNat_one.trans hp, leNat_one.trans hv, spliceFlags_iff.2 ⟨hsix, hflags⟩, h7,
        hwin, h10, ht, h23⟩
    | carriage len count a sup =>
      obtain ⟨hcode, hlen, h16, h128, hcount, hsome, ha, hgran, hsup⟩ := wordKind_eq_carriage.1 hkind
      rw [hcode, reservedClear_carriage] at hclear
      obtain ⟨hone, hsix, h7, h13⟩ := hclear
      obtain ⟨hbits, htag⟩ := wordHead_iff.2 ⟨hone, hhead⟩
      exact ⟨hbits, htag, leNat_one.trans hcode, leNat_one.trans hlen, h16, h128, leNat_one.trans hcount, hsome,
        flagByte_iff.2 ⟨hsix, hsup⟩, h7, ha, hgran, h13⟩
    | wait t =>
      obtain ⟨hcode, ht⟩ := wordKind_eq_wait.1 hkind
      rw [hcode, reservedClear_wait] at hclear
      obtain ⟨hone, h4, h23⟩ := hclear
      obtain ⟨hbits, htag⟩ := wordHead_iff.2 ⟨hone, hhead⟩
      exact ⟨hbits, htag, leNat_one.trans hcode, h4, ht, h23⟩
    | jump a =>
      obtain ⟨hcode, ha⟩ := wordKind_eq_jump.1 hkind
      rw [hcode, reservedClear_jump] at hclear
      obtain ⟨hone, h4, h13⟩ := hclear
      obtain ⟨hbits, htag⟩ := wordHead_iff.2 ⟨hone, hhead⟩
      exact ⟨hbits, htag, leNat_one.trans hcode, h4, ha, h13⟩
    | endWord =>
      have hcode := wordKind_eq_end.1 hkind
      rw [hcode, reservedClear_end] at hclear
      obtain ⟨hone, h4⟩ := hclear
      obtain ⟨hbits, htag⟩ := wordHead_iff.2 ⟨hone, hhead⟩
      exact ⟨hbits, htag, leNat_one.trans hcode, h4⟩
  · rintro ⟨hbits, htag, hfields⟩
    obtain ⟨hone, hhead⟩ := wordHead_iff.1 ⟨hbits, htag⟩
    cases kind with
    | splice p v t win force sync stop =>
      obtain ⟨hcode, hp, hv, hflags, h7, hwin, h10, ht, h23⟩ := hfields
      obtain ⟨hsix, hflags⟩ := spliceFlags_iff.1 hflags
      rw [leNat_one] at hcode hp hv
      refine ⟨wordKind_eq_splice.2 ⟨hcode, hp, hv, ht, hwin, hflags⟩, ?_, hhead⟩
      rw [hcode, reservedClear_splice]
      exact ⟨hone, hsix, h7, h10, h23⟩
    | carriage len count a sup =>
      obtain ⟨hcode, hlen, h16, h128, hcount, hsome, hsup, h7, ha, hgran, h13⟩ := hfields
      obtain ⟨hsix, hsup⟩ := flagByte_iff.1 hsup
      rw [leNat_one] at hcode hlen hcount
      refine ⟨wordKind_eq_carriage.2 ⟨hcode, hlen, h16, h128, hcount, hsome, ha, hgran, hsup⟩, ?_, hhead⟩
      rw [hcode, reservedClear_carriage]
      exact ⟨hone, hsix, h7, h13⟩
    | wait t =>
      obtain ⟨hcode, h4, ht, h23⟩ := hfields
      rw [leNat_one] at hcode
      refine ⟨wordKind_eq_wait.2 ⟨hcode, ht⟩, ?_, hhead⟩
      rw [hcode, reservedClear_wait]
      exact ⟨hone, h4, h23⟩
    | jump a =>
      obtain ⟨hcode, h4, ha, h13⟩ := hfields
      rw [leNat_one] at hcode
      refine ⟨wordKind_eq_jump.2 ⟨hcode, ha⟩, ?_, hhead⟩
      rw [hcode, reservedClear_jump]
      exact ⟨hone, h4, h13⟩
    | endWord =>
      obtain ⟨hcode, h4⟩ := hfields
      rw [leNat_one] at hcode
      refine ⟨wordKind_eq_end.2 hcode, ?_, hhead⟩
      rw [hcode, reservedClear_end]
      exact ⟨hone, h4⟩

/-- The bits that the layout names are those that the part's parse names. -/
theorem wordNames_eq : ∀ kind ≤ 5, ∀ k < 32, wordNames kind k = wordNamed kind k := by
  decide

/-- A reserved field that is not 0 fails FIELD (R211). -/
theorem parseWord_of_reserved (h1 : 1 ≤ (byteAt d 0).toNat) (h5 : (byteAt d 0).toNat ≤ 5)
    (h : ∃ k, k < 32 ∧ byteAt d k &&& ~~~wordNames (byteAt d 0).toNat k ≠ 0) : parseWord d = .inr .field := by
  obtain ⟨k, hk, hbad⟩ := h
  refine parseWord_of_field h1 h5 fun w hw => hbad ?_
  obtain ⟨-, hclear, -⟩ := parseWord_eq_inl.1 hw
  rw [wordNames_eq _ h5 k hk]
  exact reservedClear_iff.1 hclear k hk

/-- A SPLICE word names a programme and a variant. -/
theorem parseWord_of_spliceFields (hk : (byteAt d 0).toNat = 1) (h : 48 ≤ (byteAt d 4).toNat ∨ 8 ≤ (byteAt d 5).toNat) :
    parseWord d = .inr .field := by
  refine parseWord_of_field (by omega) (by omega) fun w hw => ?_
  obtain ⟨hkind, -⟩ := parseWord_eq_inl.1 hw
  simp only [wordKind, hk] at hkind
  split at hkind
  · rename_i hp hv
    have := index?_eq_some.1 hp
    have := index?_eq_some.1 hv
    omega
  · cases hkind

/-- A CARRIAGE word has 16 to 128 positions, some of them given, in whole granules. -/
theorem parseWord_of_carriageFields (hk : (byteAt d 0).toNat = 2)
    (h : (byteAt d 4).toNat < 16 ∨ 128 < (byteAt d 4).toNat ∨ byteAt d 5 = 0 ∨ (byteAt d 8).toNat % 32 ≠ 0) :
    parseWord d = .inr .field := by
  refine parseWord_of_field (by omega) (by omega) fun w hw => ?_
  obtain ⟨hkind, -⟩ := parseWord_eq_inl.1 hw
  simp only [wordKind, hk] at hkind
  split at hkind
  · rename_i hfields
    obtain ⟨h16, h128, hcount, ha⟩ := hfields
    have haddr : leNat d 8 5 = (field 40 d 8 5).toNat := (field_eq_iff (n := 5)).1 rfl
    rw [← haddr, leNat] at ha
    rcases h with hlen | hlen | hnone | hgran
    · omega
    · omega
    · exact hcount (congrArg BitVec.toNat hnone)
    · omega
  · cases hkind

end

end Sys2Proof.Machine
end

section
/-! SUPPORT. Schedule words fetched and run: a word reads back from the bytes that the host writes, what a fetched word does by its
kind, and the arming of a SPLICE word (R129 to R138). -/

set_option Elab.async false

namespace Sys2Proof.Machine

/-! ## The host's side (R207) -/

theorem leNat_fit {bs : List Byte} {n off m : Nat} (h : off + m ≤ n) : leNat (fit n bs) off m = leNat bs off m :=
  leNat_congr fun _ hk => byteAt_fit (by omega)

/-- The bytes of a word before they are fitted to 32. -/
def wordBytes (w : SchedWord) : List Byte :=
  wordCode w.kind :: (flagBit w.note 0 ||| flagBit w.hold 1) :: (putLE 2 w.tag.toNat ++ wordParams w.kind)

section
variable {w : SchedWord} {off n : Nat}

theorem leNat_encodeWord (h : off + n ≤ 32) : leNat (encodeWord w) off n = leNat (wordBytes w) off n := leNat_fit h

theorem leNat_wordBytes_params (h : 4 ≤ off) : leNat (wordBytes w) off n = leNat (wordParams w.kind) (off - 4) n := by
  obtain ⟨k, rfl⟩ := Nat.exists_eq_add_of_le' h
  rw [wordBytes, leNat_cons_succ, leNat_cons_succ, leNat_putLE_skip (Nat.le_add_left 2 k), Nat.add_sub_cancel, Nat.add_sub_cancel]

/-- The parameters of a word stand from byte 4 on. -/
theorem encodeWord_param {v : Nat} (h : 4 ≤ off) (h32 : off + n ≤ 32) (hv : leNat (wordParams w.kind) (off - 4) n = v) :
    leNat (encodeWord w) off n = v := (leNat_encodeWord h32).trans ((leNat_wordBytes_params h).trans hv)

theorem encodeWord_gap (h : 4 ≤ off) (h32 : off + n ≤ 32) (hv : leNat (wordParams w.kind) (off - 4) n = 0) :
    ZeroBytes (encodeWord w) off n := leNat_eq_zero.1 (encodeWord_param h h32 hv)

/-- The kind code, the flags and the tag. -/
theorem encodeWord_head (w : SchedWord) : leNat (encodeWord w) 0 1 = (wordCode w.kind).toNat ∧
    leNat (encodeWord w) 1 1 = (if w.note then 1 else 0) + (if w.hold then 2 else 0) ∧ leNat (encodeWord w) 2 2 = w.tag.toNat := by
  have hflags : ∀ x y : Bool, (flagBit x 0 ||| flagBit y 1).toNat = (if x then 1 else 0) + (if y then 2 else 0) := by decide
  rw [leNat_encodeWord (by decide), leNat_encodeWord (by decide), leNat_encodeWord (by decide)]
  simp [wordBytes, hflags]

end

/-- The fields of a word are in their ranges. -/
def FieldsInRange (w : SchedWord) : Prop :=
  ∀ len count a sup, w.kind = .carriage len count a sup → 16 ≤ len ∧ len ≤ 128 ∧ 1 ≤ count ∧ count ≤ 255 ∧ a.toNat % 32 = 0

theorem encodeWord_laidOut {w : SchedWord} (hw : FieldsInRange w) : WordLaidOut (encodeWord w) w := by
  obtain ⟨kind, note, hold, tag⟩ := w
  obtain ⟨hcode, hflags, htag⟩ := encodeWord_head ⟨kind, note, hold, tag⟩
  refine ⟨hflags, htag, ?_⟩
  cases kind with
  | splice p v t win force sync stop =>
    have hthree : ∀ x y z : Bool, (flagBit x 0 ||| flagBit y 1 ||| flagBit z 2).toNat =
      (if x then 1 else 0) + (if y then 2 else 0) + (if z then 4 else 0) := by decide
    refine ⟨hcode, encodeWord_param ?_ ?_ ?_, encodeWord_param ?_ ?_ ?_, encodeWord_param ?_ ?_ ?_, encodeWord_gap ?_ ?_ ?_,
      encodeWord_param ?_ ?_ ?_, encodeWord_gap ?_ ?_ ?_, encodeWord_param ?_ ?_ ?_, encodeWord_gap ?_ ?_ ?_⟩
    all_goals simp [wordParams, hthree, val_lt_byte]
  | carriage len count a sup =>
    obtain ⟨h16, h128, h1, h255, ha⟩ := hw len count a sup rfl
    have hone : ∀ x : Bool, (flagBit x 0).toNat = if x then 1 else 0 := by decide
    have hlen : len < 256 := by omega
    have hcount : count < 256 := by omega
    refine ⟨hcode, encodeWord_param ?_ ?_ ?_, h16, h128, encodeWord_param ?_ ?_ ?_, by omega, encodeWord_param ?_ ?_ ?_,
      encodeWord_gap ?_ ?_ ?_, encodeWord_param ?_ ?_ ?_, ha, encodeWord_gap ?_ ?_ ?_⟩
    all_goals simp [wordParams, hone, hlen, hcount]
  | wait t =>
    refine ⟨hcode, encodeWord_gap ?_ ?_ ?_, encodeWord_param ?_ ?_ ?_, encodeWord_gap ?_ ?_ ?_⟩
    all_goals simp [wordParams]
  | jump a =>
    refine ⟨hcode, encodeWord_gap ?_ ?_ ?_, encodeWord_param ?_ ?_ ?_, encodeWord_gap ?_ ?_ ?_⟩
    all_goals simp [wordParams]
  | endWord =>
    exact ⟨hcode, encodeWord_gap (by decide) (by decide) (by simp [wordParams])⟩

/-! ## The fetch (R129, R130) -/

theorem exec_wordFetchCompletion {s : State} {e : EdId} {live : Bool} {q : Request} {rest : List DownReq}
    (h : takeOldest (Config.channelTag e) s.down = some (⟨.wordFetch e live, q⟩, rest)) (rsp : Response) :
    exec (.wordFetchCompletion e rsp) s =
      .next (if live then wordReturned e rsp { s with down := rest } else { s with down := rest }) := by
  show Host.Outcome.next (respond _ rsp s) = _
  rw [respond, h]

section
variable {s : State} {e : EdId} {d : List Byte} {w : SchedWord}

theorem wordReturned_of_refused {code : CheckCode} (hd : d.length = 32) (hp : parseWord d = .inr code) :
    wordReturned e ⟨.okay, d⟩ s = endChain e .check code (chanOf s e).next (wordTag d) s := by
  simp only [wordReturned, fit_of_length hd, hp]

theorem wordReturned_of_failed {code : CheckCode} (hd : d.length = 32) (hp : parseWord d = .inl w)
    (ht : wordTests (chanOf s e) w = some code) :
    wordReturned e ⟨.okay, d⟩ s = endChain e .check code (chanOf s e).next w.tag s := by
  simp only [wordReturned, fit_of_length hd, hp, ht]

theorem wordReturned_of_passed (hd : d.length = 32) (hp : parseWord d = .inl w) (ht : wordTests (chanOf s e) w = none) :
    wordReturned e ⟨.okay, d⟩ s =
      runWord e (BitVec.ofNat 40 (chanOf s e).next) w (wordCurrent e (BitVec.ofNat 40 (chanOf s e).next) w s) := by
  simp only [wordReturned, fit_of_length hd, hp, ht]

/-- Only JUMP and CARRIAGE words are tested. -/
theorem wordTests_of_uncounted (h : countsProgress w.kind = false) (c : Channel) : wordTests c w = none := by
  obtain ⟨kind, note, hold, tag⟩ := w
  cases kind with
  | carriage => cases h
  | jump => cases h
  | splice => rfl
  | wait => rfl
  | endWord => rfl

/-- The tests of a JUMP word: SEQUENCE, then PROGRESS. -/
theorem wordTests_jump {a : Addr} (hk : w.kind = .jump a) (c : Channel) : wordTests c w =
    if c.jumped = true then some .sequence else if 255 ≤ c.progress then some .progress else none := by
  simp only [wordTests, hk, countsProgress, Bool.true_and, decide_eq_true_eq]

/-- The tests of a CARRIAGE word: PROGRESS, then LENGTH. -/
theorem wordTests_carriage {len count : Nat} {a : Addr} {sup : Bool} (hk : w.kind = .carriage len count a sup) (c : Channel) :
    wordTests c w =
      if 255 ≤ c.progress then some .progress else if sup = false ∧ count ≠ len then some .length else none := by
  simp [wordTests, hk, countsProgress]

/-- A word becomes current in channel e, with its counts and its NOTE report (R125, R127, R130, R146). -/
def madeCurrent (e : EdId) (w : SchedWord) (code : BitVec 8) (progress : Nat) (s : State) : State :=
  let c := chanOf s e
  let v := modChan e (fun c => { c with
    current := some ⟨BitVec.ofNat 40 c.next, w⟩, next := c.next + 32, words := c.words + 1,
    progress := progress, jumped := false, fetch := .none }) s
  if w.note = true then handOver (.note e code w.tag (c.words + 1) (BitVec.ofNat 40 c.next)) v else v

theorem madeCurrent_frame (code : BitVec 8) (progress : Nat) :
    Frame [.chans, .down, .rep] s (madeCurrent e w code progress s) := by
  unfold madeCurrent
  dsimp only
  split
  · exact (modChan_frame ..).andThen (handOver_frame ..)
  · exact (modChan_frame ..).mono

theorem wordCurrent_eq {code : BitVec 8} {progress : Nat} (h : (chanOf s e).next < 2 ^ 40) (hc : wordCode w.kind = code)
    (hp : (if countsProgress w.kind then (chanOf s e).progress + 1 else 0) = progress) :
    wordCurrent e (BitVec.ofNat 40 (chanOf s e).next) w s = madeCurrent e w code progress s := by
  have hnext : (BitVec.ofNat 40 (chanOf s e).next).toNat = (chanOf s e).next := Nat.mod_eq_of_lt h
  unfold wordCurrent madeCurrent
  simp only [chanOf_modChan_same, hc]
  rw [modChan_congr (g := fun c => { c with
    current := some ⟨BitVec.ofNat 40 c.next, w⟩, next := c.next + 32, words := c.words + 1,
    progress := progress, jumped := false, fetch := .none }) (by rw [hnext, hp])]

/-! ## The run of a word (R132 to R136) -/

theorem runWord_carriage {len count : Nat} {da : Addr} {sup : Bool} (hk : w.kind = .carriage len count da sup) (a : Addr) :
    runWord e a w s =
      if s.path.limit < da.toNat + 32 * ((count + 31) / 32) then endChain e .check .address a.toNat w.tag s
      else issue (.dataFetch e true) (ownRead (Config.channelTag e) da.toNat (32 * ((count + 31) / 32)))
        (modChan e (fun c => { c with state := .fetching, fetch := .data }) s) := by
  simp only [runWord, hk]
  rfl

/-! ## The arming of a SPLICE word (R108, R109, R136 to R138) -/

variable {p : ProgId} {v : Variant} {t : HouseTime} {win : BitVec 16} {force sync stop : Bool}

theorem armFromChannel_of_pending (hk : w.kind = .splice p v t win force sync stop) (h : (machineOf s e p).phase ≠ .steady) :
    armFromChannel e w s = modChan e (fun c => { c with state := .blocked, fetch := .none })
      (modMachine e p (fun m => { m with waiting := true }) s) := by
  simp only [armFromChannel, wordSplice, hk]

theorem armFromChannel_of_steady (hk : w.kind = .splice p v t win force sync stop) (h : (machineOf s e p).phase = .steady) :
    armFromChannel e w s = takeArming e p ⟨v, t, win, force, w.tag, .channel, false⟩ sync s := by
  simp only [armFromChannel, wordSplice, hk, h]

/-- An arming that resolves at once is judged by a SYNC word's channel; otherwise the channel goes on. -/
theorem takeArming_of_resolved {sp : PendingSplice} {u : State} {o : SpliceOutcome} {a : Addr}
    (hj : judgeArming e p sp s = (u, some o)) (hcur : (chanOf s e).current = some ⟨a, w⟩)
    (hk : w.kind = .splice p v t win force sync stop) : takeArming e p sp sync s =
      if sync = true ∧ stop = true ∧ (o = .abandoned ∨ o = .cancelled) then
        endChain e .spliceFailed .none a.toNat w.tag u
      else goOn e u := by
  have hframe := judgeArming_frame e p sp s
  rw [hj] at hframe
  have hcur : (chanOf u e).current = some ⟨a, w⟩ := by rw [chanOf_congr hframe.chans_eq, hcur]
  simp only [takeArming, hj]
  cases sync with
  | true => simp only [if_true, judgeOutcome_of_splice hcur hk, true_and]
  | false => simp only [Bool.false_eq_true, if_false, false_and]

theorem takeArming_of_pends {sp : PendingSplice} {u : State} (hj : judgeArming e p sp s = (u, none)) :
    takeArming e p sp sync s =
      if sync = true then modChan e (fun c => { c with state := .syncing, sync := some p, fetch := .none }) u
      else goOn e u := by
  simp only [takeArming, hj]

end

/-- Settles O36: the parse by the layout, the host's bytes, the tests and the run by kind, and the judgement of the arming. -/
theorem fetchedWordRuns : Obligations.FetchedWordRuns := by
  unfold Obligations.FetchedWordRuns
  refine ⟨fun d => ?_, fun w hw => ?_, fun s e live q rest hold => ?_, ?_⟩
  · intro kind
    exact ⟨fun w => parseWord_iff, parseWord_of_kind,
      fun h1 h5 hnone => parseWord_of_field h1 h5 fun w hw => hnone w (parseWord_iff.1 hw), parseWord_of_reserved,
      parseWord_of_spliceFields, parseWord_of_carriageFields⟩
  · have hlaid := encodeWord_laidOut hw
    exact ⟨length_fit .., hlaid, parseWord_iff.2 hlaid⟩
  · intro u c row
    have hrow : ∀ rsp, row rsp = _ := exec_wordFetchCompletion hold
    refine ⟨fun rsp hdead => by rw [hrow, hdead]; rfl, fun hlive => ?_⟩
    have hrow : ∀ rsp, row rsp = .next (wordReturned e rsp u) := fun rsp => by rw [hrow, hlive]; rfl
    refine ⟨fun d => hrow _, fun d hd => ⟨fun code hp => ?_, fun w hp hnext => ?_⟩⟩
    · rw [hrow, wordReturned_of_refused hd hp]
      rfl
    intro fails now
    have hfails : ∀ code, wordTests c w = some code → fails code := fun code ht =>
      (hrow _).trans (congrArg _ (wordReturned_of_failed (s := u) hd hp ht))
    have hpasses : ∀ code progress, wordCode w.kind = code → (if countsProgress w.kind then c.progress + 1 else 0) = progress →
        wordTests c w = none → row ⟨.okay, d⟩ = .next (runWord e (BitVec.ofNat 40 c.next) w (now code progress)) :=
      fun code progress hcode hprogress ht => by
        have hword := wordReturned_of_passed (s := u) hd hp ht
        rw [wordCurrent_eq (s := u) hnext hcode hprogress] at hword
        exact (hrow _).trans (congrArg _ hword)
    have hframe : ∀ code progress, Frame [.chans, .down, .rep] u (now code progress) := madeCurrent_frame
    have haddr : (BitVec.ofNat 40 c.next).toNat = c.next := Nat.mod_eq_of_lt hnext
    clear_value now
    have hplain : ∀ code, countsProgress w.kind = false → wordCode w.kind = code →
        row ⟨.okay, d⟩ = .next (runWord e (BitVec.ofNat 40 c.next) w (now code 0)) := fun code hcount hcode =>
      hpasses code 0 hcode (by rw [hcount]; rfl) (wordTests_of_uncounted hcount c)
    refine ⟨fun hk => ?_, fun t hk ht => ?_, fun t hk ht => ?_, fun a hk hj => hfails _ ?_, fun a hk hj hp => hfails _ ?_,
      fun a hk hj hp => ?_, fun len count a sup hk => ?_, fun p v t win force sync stop hk => ?_⟩
    · rw [hplain 5 (by rw [hk]; rfl) (by rw [hk]; rfl)]
      simp only [runWord, hk, haddr]
    · rw [hplain 3 (by rw [hk]; rfl) (by rw [hk]; rfl)]
      simp only [runWord, hk, judgeWait, (hframe 3 0).time_eq]
      rw [if_pos ht]
    · rw [hplain 3 (by rw [hk]; rfl) (by rw [hk]; rfl)]
      simp only [runWord, hk, judgeWait, (hframe 3 0).time_eq]
      rw [if_neg (Nat.not_le.2 ht)]
    · rw [wordTests_jump hk, if_pos hj]
    · rw [wordTests_jump hk, if_neg (by simp [hj]), if_pos hp]
    · have ht : wordTests c w = none := by rw [wordTests_jump hk, if_neg (by simp [hj]), if_neg (Nat.not_le.2 hp)]
      rw [hpasses 4 (c.progress + 1) (by rw [hk]; rfl) (by rw [hk]; rfl) ht]
      simp only [runWord, hk]
    · intro bytes
      have hlimit : ∀ code progress, (now code progress).path.limit = s.path.limit := fun code progress =>
        congrArg PathUnit.limit (hframe code progress).path_eq
      have hruns : c.progress < 255 → (sup = true ∨ count = len) → row ⟨.okay, d⟩ = _ := fun hp hlen =>
        hpasses 2 (c.progress + 1) (by rw [hk]; rfl) (by rw [hk]; rfl) (by
          rw [wordTests_carriage hk, if_neg (Nat.not_le.2 hp), if_neg]
          rintro ⟨hsup, hne⟩
          simp [hsup, hne] at hlen)
      refine ⟨fun hp => hfails _ ?_, fun hp hsup hne => hfails _ ?_, fun hp hlen hbeyond => ?_, fun hp hlen hin => ?_⟩
      · rw [wordTests_carriage hk, if_pos hp]
      · rw [wordTests_carriage hk, if_neg (Nat.not_le.2 hp), if_pos ⟨hsup, hne⟩]
      · rw [hruns hp hlen, runWord_carriage hk, hlimit, if_pos hbeyond, haddr]
      · rw [hruns hp hlen, runWord_carriage hk, hlimit, if_neg (Nat.not_lt.2 hin)]
    · rw [hplain 1 (by rw [hk]; rfl) (by rw [hk]; rfl)]
      simp only [runWord, hk]
  · intro s e a w p v t win force sync stop hcur hk m h last sp report pends row
    refine ⟨armFromChannel_of_pending hk, fun hph => ?_⟩
    have hrow : row = takeArming e p (sp false) sync s := armFromChannel_of_steady hk hph
    have resolved : ∀ {u o}, judgeArming e p (sp false) s = (u, some o) →
        ¬(sync = true ∧ stop = true ∧ (o = .abandoned ∨ o = .cancelled)) → row = goOn e u := fun hj hgo => by
      rw [hrow, takeArming_of_resolved hj hcur hk, if_neg hgo]
    refine ⟨fun ht => resolved (judgeArming_of_unchanged hph ht) (by simp),
      fun ht hend hf => resolved (judgeArming_of_forced hph ht hend hf) (by simp),
      fun ht hend hf hgo => resolved (judgeArming_of_abandoned hph ht hend hf) ?_, fun ht hend hf hsync hstop => ?_,
      fun ht hend hT => hrow.trans (takeArming_of_pends (judgeArming_of_seeking ht hend hT)),
      fun ht hT => hrow.trans (takeArming_of_pends (judgeArming_of_armed ht hT))⟩
    · rintro ⟨hsync, hstop, -⟩
      simp [hsync, hstop] at hgo
    · rw [hrow, takeArming_of_resolved (judgeArming_of_abandoned (sp := sp false) hph ht hend hf) hcur hk,
        if_pos ⟨hsync, hstop, .inl rfl⟩]

end Sys2Proof.Machine
end

section
/-! SUPPORT. How a schedule channel starts, resumes, goes on and ends its wait: each with the fetch of the next word or the end of
the chain at its tests (R128, R132, R140, R141, R144). -/

namespace Sys2Proof.Machine

section
variable {s : State} {e : EdId} {w : CurrentWord}

/-! ## Going on (R140) -/

theorem goOn_of_hold (hcur : (chanOf s e).current = some w) (hh : w.word.hold = true) :
    goOn e s = modChan e (fun c => { c with state := .suspended, fetch := .none, sync := none }) s := by
  simp only [goOn, hcur, hh, if_true]

theorem goOn_of_not_hold (hcur : (chanOf s e).current = some w) (hh : w.word.hold = false) : goOn e s = fetchWord e s := by
  simp only [goOn, hcur, hh, Bool.false_eq_true, if_false]

/-! ## START SCHEDULE and RESUME SCHEDULE (R141, R144) -/

variable {ed : BitVec 8}

theorem doStartSchedule_of_range (hr : 16 ≤ ed.toNat) (a : Addr) : doStartSchedule ed a s = .done .range s := by
  simp only [doStartSchedule, index?_eq_none.2 hr]

theorem doStartSchedule_of_busy (he : e.val = ed.toNat) (hrun : (chanOf s e).state ≠ .idle) (a : Addr) :
    doStartSchedule ed a s = .done .busy s := by
  simp only [doStartSchedule, index?_eq_some.2 he, if_pos hrun]

theorem doStartSchedule_of_idle (he : e.val = ed.toNat) (hidle : (chanOf s e).state = .idle) (a : Addr) :
    doStartSchedule ed a s = .done .done (fetchWord e
      (modChan e (fun c => { c with next := a.toNat, words := 0, progress := 0, jumped := false }) s)) := by
  simp only [doStartSchedule, index?_eq_some.2 he, if_neg (not_not.2 hidle)]

theorem doResumeSchedule_of_range (hr : 16 ≤ ed.toNat) : doResumeSchedule ed s = .done .range s := by
  simp only [doResumeSchedule, index?_eq_none.2 hr]

theorem doResumeSchedule_of_suspended (he : e.val = ed.toNat) (hsus : (chanOf s e).state = .suspended) :
    doResumeSchedule ed s = .done .done (fetchWord e s) := by
  simp only [doResumeSchedule, index?_eq_some.2 he, if_pos hsus]

theorem doResumeSchedule_of_other (he : e.val = ed.toNat) (hother : (chanOf s e).state ≠ .suspended) :
    doResumeSchedule ed s = .done .state s := by
  simp only [doResumeSchedule, index?_eq_some.2 he, if_neg hother]

/-! ## The end of a wait (R132) -/

/-- WAIT_REACHED at or beyond T: the word has been executed, and the channel goes on. -/
theorem exec_waitReached_of_due {a : Addr} {w : SchedWord} {t : HouseTime} (hwait : (chanOf s e).state = .waiting)
    (hcur : (chanOf s e).current = some ⟨a, w⟩) (hk : w.kind = .wait t) (hdue : t.toNat ≤ s.time.now.toNat) :
    exec (.waitReached e) s = .next (goOn e s) := by
  show Host.Outcome.next (judgeWaiting s e) = _
  rw [judgeWaiting_of_wait hwait hcur hk, judgeWait, if_pos hdue]

end

/-- Settles O38: the two commands by the state of the channel, and the executed word by its HOLD flag; the fetch with its two tests
is `fetchWord`. -/
theorem channelsFetchTheirWords : Obligations.ChannelsFetchTheirWords := by
  unfold Obligations.ChannelsFetchTheirWords
  intro fetch suspend
  refine ⟨fun s h ed a hs => ?_, fun s e a w hcur => ?_⟩
  · intro start resume
    have starts : ∀ {o u}, doStartSchedule ed a s = .done o u → u.refs.scan = none →
        start = .next (handOver (ended h 12 o) u) := fun ha hu => takeRow_done (c := .startSchedule ed a) hs nofun ha hu
    have resumes : ∀ {o u}, doResumeSchedule ed s = .done o u → u.refs.scan = none →
        resume = .next (handOver (ended h 15 o) u) := fun ha hu => takeRow_done (c := .resumeSchedule ed) hs nofun ha hu
    have hscan : ∀ e u, u.refs = s.refs → (fetchWord e u).refs.scan = none := fun e u hu => by
      rw [(fetchWord_frame e u).refs_eq, hu, hs.2]
    exact ⟨fun hr => ⟨starts (doStartSchedule_of_range hr a) hs.2, resumes (doResumeSchedule_of_range hr) hs.2⟩,
      fun e he => ⟨fun hidle => starts (doStartSchedule_of_idle he hidle a) (hscan e _ rfl),
        fun hrun => starts (doStartSchedule_of_busy he hrun a) hs.2,
        fun hsus => resumes (doResumeSchedule_of_suspended he hsus) (hscan e _ rfl),
        fun hother => resumes (doResumeSchedule_of_other he hother) hs.2⟩⟩
  · have holds : w.hold = true → goOn e s = suspend e s := fun hh => goOn_of_hold hcur hh
    have fetches : w.hold = false → goOn e s = fetch e s := fun hh => goOn_of_not_hold hcur hh
    refine ⟨holds, fetches, fun t hwait hk hdue => ?_⟩
    rw [exec_waitReached_of_due hwait hcur hk hdue]
    exact ⟨fun hh => congrArg _ (holds hh), fun hh => congrArg _ (fetches hh)⟩

end Sys2Proof.Machine
end

section
/-! SUPPORT. An IDLE channel is empty (R125): what each act on one channel leaves of it, on the way of a word from its fetch to the
end of its chain. -/

set_option Elab.async false

namespace Sys2Proof.Machine

/-! ## Empty channels -/

/-- The channel, if it is IDLE, has no current word, no fetch in flight and no sync machine (R125). -/
def EmptyIfIdle (c : Channel) : Prop := c.state = .idle → c.current = none ∧ c.fetch = .none ∧ c.sync = none

/-- From s to t no channel comes to be IDLE and not empty. -/
structure StaysEmpty (s t : State) : Prop where
  chan : ∀ e, EmptyIfIdle (chanOf s e) → EmptyIfIdle (chanOf t e)

theorem ChannelLaw.stays {s t : State} (h : ChannelLaw s) (k : StaysEmpty s t) : ChannelLaw t := fun e => k.chan e (h e)

theorem StaysEmpty.refl (s : State) : StaysEmpty s s := ⟨fun _ h => h⟩

theorem StaysEmpty.trans {s t u : State} (h : StaysEmpty s t) (g : StaysEmpty t u) : StaysEmpty s u :=
  ⟨fun e hc => g.chan e (h.chan e hc)⟩

theorem StaysEmpty.foldl {α : Type} {f : State → α → State} (hf : ∀ s a, StaysEmpty s (f s a)) (l : List α) (s : State) :
    StaysEmpty s (l.foldl f s) := by
  induction l generalizing s with
  | nil => exact .refl s
  | cons a l ih => exact (hf s a).trans (ih _)

/-- What leaves the channels as they are keeps the IDLE ones empty. -/
theorem StaysEmpty.of_chans {s t : State} (h : t.chans = s.chans) : StaysEmpty s t := ⟨fun e hc => chanOf_congr h e ▸ hc⟩

theorem StaysEmpty.of_frame {bs : List Block} {s t : State} (f : Frame bs s t) (n : .chans ∉ bs := by decide) :
    StaysEmpty s t := .of_chans (f.chans_eq n)

/-- Every channel is empty after a reset (R149). -/
theorem StaysEmpty.of_reset {s t : State} (h : t.chans = Vector.replicate 16 .reset) : StaysEmpty s t := by
  refine ⟨fun e _ => ?_⟩
  rw [chanOf, h, tget_replicate]
  exact fun _ => ⟨rfl, rfl, rfl⟩

/-! ## An act on one channel -/

/-- From s to t channel e alone changes, and ends running or empty: also where a fetch completes whose channel is IDLE. -/
structure Settles (e : EdId) (s t : State) : Prop where
  here : EmptyIfIdle (chanOf t e)
  others : ∀ x, x ≠ e → chanOf t x = chanOf s x

section
variable {e : EdId} {s t u : State}

theorem Settles.staysEmpty (h : Settles e s t) : StaysEmpty s t := by
  refine ⟨fun x hx => ?_⟩
  by_cases hxe : x = e
  · exact hxe ▸ h.here
  · exact h.others x hxe ▸ hx

/-- What comes before an act on channel e may do anything to that channel. -/
theorem Settles.after (h : Settles e t u) (hbefore : ∀ x, x ≠ e → chanOf t x = chanOf s x) : Settles e s u :=
  ⟨h.here, fun x hx => (h.others x hx).trans (hbefore x hx)⟩

theorem Settles.after_frame {bs : List Block} (h : Settles e t u) (f : Frame bs s t) (n : .chans ∉ bs := by decide) :
    Settles e s u := h.after fun x _ => chanOf_congr (f.chans_eq n) x

theorem Settles.then_frame {bs : List Block} (h : Settles e s t) (f : Frame bs t u) (n : .chans ∉ bs := by decide) :
    Settles e s u :=
  ⟨chanOf_congr (f.chans_eq n) e ▸ h.here, fun x hx => (chanOf_congr (f.chans_eq n) x).trans (h.others x hx)⟩

theorem chanOf_modChan_ne {x : EdId} (hx : x ≠ e) (f : Channel → Channel) : chanOf (modChan e f s) x = chanOf s x := by
  rw [chanOf_modChan, if_neg hx]

/-- A channel that is put into a running state. -/
theorem modChan_runs {f : Channel → Channel} (st : ChanState) (hf : (f (chanOf s e)).state = st) (hst : st ≠ .idle) :
    Settles e s (modChan e f s) := by
  refine ⟨fun hidle => ?_, fun x hx => chanOf_modChan_ne hx f⟩
  rw [chanOf_modChan_same, hf] at hidle
  exact absurd hidle hst

end

/-! ## Ends, fetches and going on (R128, R131, R140) -/

section
variable (e : EdId) (s : State)

theorem endChain_settles (st : EndStatus) (c : CheckCode) (a : Nat) (tag : Tag16) : Settles e s (endChain e st c a tag s) := by
  rw [endChain_eq]
  refine Settles.then_frame ⟨?_, fun x hx => ?_⟩ (handOver_frame ..)
  · rw [quietEnd_chan, if_pos rfl]
    exact fun _ => ⟨rfl, rfl, rfl⟩
  · rw [quietEnd_chan, if_neg hx]

theorem stopChain_staysEmpty (st : EndStatus) : StaysEmpty s (stopChain e st s) := by
  unfold stopChain
  dsimp only
  split
  · exact .refl s
  · exact (endChain_settles ..).staysEmpty

theorem fetchWord_settles : Settles e s (fetchWord e s) := by
  unfold fetchWord
  dsimp only
  split
  · exact endChain_settles ..
  split
  · exact endChain_settles ..
  · exact (modChan_runs .fetching rfl nofun).then_frame (issue_frame ..)

end

section
variable {e : EdId} {s : State} {c : CurrentWord} (hcur : (chanOf s e).current = some c)
include hcur

theorem goOn_settles : Settles e s (goOn e s) := by
  cases hhold : c.word.hold with
  | true =>
    rw [goOn_of_hold hcur hhold]
    exact modChan_runs .suspended rfl nofun
  | false =>
    rw [goOn_of_not_hold hcur hhold]
    exact fetchWord_settles e s

theorem judgeWait_settles (t : HouseTime) : Settles e s (judgeWait e t s) := by
  unfold judgeWait
  split
  · exact goOn_settles hcur
  · exact modChan_runs .waiting rfl nofun

end

/-! ## The arming of a SPLICE word (R108, R136 to R138) -/

section
variable {e : EdId} {s : State} {a : Addr} {w : SchedWord} (hcur : (chanOf s e).current = some ⟨a, w⟩)
  {p : ProgId} {v : Variant} {t : HouseTime} {win : BitVec 16} {force sync stop : Bool}
  (hk : w.kind = .splice p v t win force sync stop)
include hcur hk

theorem judgeOutcome_settles (o : SpliceOutcome) : Settles e s (judgeOutcome e o s) := by
  rw [judgeOutcome_of_splice hcur hk]
  split
  · exact endChain_settles ..
  · exact goOn_settles hcur

theorem takeArming_settles (q : ProgId) (sp : PendingSplice) (sync : Bool) : Settles e s (takeArming e q sp sync s) := by
  have hframe := judgeArming_frame e q sp s
  have hkept : ∀ {u : State}, u.chans = s.chans → (chanOf u e).current = some ⟨a, w⟩ := fun hu => by
    rw [chanOf_congr hu, hcur]
  unfold takeArming
  split <;> rename_i hj <;> rw [hj] at hframe
  · split
    · exact (judgeOutcome_settles (hkept hframe.chans_eq) hk _).after_frame hframe
    · exact (goOn_settles (hkept hframe.chans_eq)).after_frame hframe
  · split
    · exact (modChan_runs .syncing rfl nofun).after_frame hframe
    · exact (goOn_settles (hkept hframe.chans_eq)).after_frame hframe

/-- The channel goes on, its chain ends, or it becomes SYNCING or BLOCKED. -/
theorem armFromChannel_settles : Settles e s (armFromChannel e w s) := by
  by_cases hsteady : (machineOf s e p).phase = .steady
  · rw [armFromChannel_of_steady hk hsteady]
    exact takeArming_settles hcur hk ..
  · rw [armFromChannel_of_pending hk hsteady]
    exact (modChan_runs .blocked rfl nofun).after_frame (modMachine_frame ..)

end

/-! ## A fetched word (R129, R130) -/

section
variable (e : EdId) (a : Addr) (w : SchedWord) (s : State)

theorem chanOf_wordCurrent (x : EdId) : chanOf (wordCurrent e a w s) x =
    if x = e then { chanOf s e with
      current := some ⟨a, w⟩, next := a.toNat + 32, words := (chanOf s e).words + 1,
      progress := if countsProgress w.kind then (chanOf s e).progress + 1 else 0, jumped := false, fetch := .none }
    else chanOf s x := by
  unfold wordCurrent
  dsimp only
  split
  · exact (chanOf_congr (handOver_chans ..) x).trans (chanOf_modChan ..)
  · exact chanOf_modChan ..

theorem runWord_settles (hcur : (chanOf s e).current = some ⟨a, w⟩) : Settles e s (runWord e a w s) := by
  cases hk : w.kind with
  | splice =>
    simp only [runWord, hk]
    exact armFromChannel_settles hcur hk
  | carriage =>
    rw [runWord_carriage hk]
    split
    · exact endChain_settles ..
    · exact (modChan_runs .fetching rfl nofun).then_frame (issue_frame ..)
  | wait t =>
    simp only [runWord, hk]
    exact judgeWait_settles hcur t
  | jump target =>
    simp only [runWord, hk]
    exact (goOn_settles ((congrArg Channel.current (chanOf_modChan_same ..)).trans hcur)).after fun x hx => chanOf_modChan_ne hx _
  | endWord =>
    simp only [runWord, hk]
    exact endChain_settles ..

/-- A channel whose word fetch completes ends running or empty, in whatever state the completion finds it. -/
theorem wordReturned_settles (rsp : Response) : Settles e s (wordReturned e rsp s) := by
  unfold wordReturned
  dsimp only
  split
  · exact endChain_settles ..
  · split
    · exact endChain_settles ..
    · split
      · exact endChain_settles ..
      · refine (runWord_settles e _ _ _ ?_).after fun x hx => ?_
        · rw [chanOf_wordCurrent, if_pos rfl]
        · rw [chanOf_wordCurrent, if_neg hx]

end

end Sys2Proof.Machine
end

section
/-! SUPPORT. Every operation keeps the IDLE channels empty: splices and channels together, the owning blocks of the commands, the
command unit and the two ports. -/

set_option Elab.async false

namespace Sys2Proof.Machine

/-! ## Outcomes, waits and resolutions (R106, R108, R138) -/

section
variable (e : EdId) (s : State)

theorem goOn_staysEmpty : StaysEmpty s (goOn e s) := by
  cases hcur : (chanOf s e).current with
  | none =>
    rw [goOn, hcur]
    exact .refl s
  | some w => exact (goOn_settles hcur).staysEmpty

theorem judgeOutcome_staysEmpty (o : SpliceOutcome) : StaysEmpty s (judgeOutcome e o s) := by
  cases hcur : (chanOf s e).current with
  | none =>
    rw [judgeOutcome, hcur]
    exact .refl s
  | some c =>
    obtain ⟨a, w⟩ := c
    cases hk : w.kind with
    | splice => exact (judgeOutcome_settles hcur hk o).staysEmpty
    | carriage | wait | jump | endWord =>
      simp only [judgeOutcome, hcur, hk]
      exact .refl s

theorem outcomeToChannel_staysEmpty (p : ProgId) (o : SpliceOutcome) : StaysEmpty s (outcomeToChannel e p o s) := by
  unfold outcomeToChannel
  split
  · exact judgeOutcome_staysEmpty ..
  · exact .refl s

theorem armFromChannel_staysEmpty {a : Addr} {w : SchedWord} (hcur : (chanOf s e).current = some ⟨a, w⟩) :
    StaysEmpty s (armFromChannel e w s) := by
  cases hk : w.kind with
  | splice => exact (armFromChannel_settles hcur hk).staysEmpty
  | carriage | wait | jump | endWord =>
    simp only [armFromChannel, wordSplice, hk]
    exact .refl s

theorem takeWaiting_staysEmpty (p : ProgId) : StaysEmpty s (takeWaiting e p s) := by
  have hready := StaysEmpty.of_frame (modMachine_frame e p (fun m => { m with waiting := false }) s)
  unfold takeWaiting
  split
  · dsimp only
    split
    · exact hready.trans (armFromChannel_staysEmpty e _ ‹_›)
    · exact hready
  · exact .refl s

theorem resolve_staysEmpty (p : ProgId) (sp : PendingSplice) (o : SpliceOutcome) (c : SpliceCause) :
    StaysEmpty s (resolve e p sp o c s) := by
  unfold resolve
  dsimp only
  refine ((StaysEmpty.of_frame (resolveOnly_frame e p sp o c s)).trans ?_).trans (takeWaiting_staysEmpty ..)
  split
  · exact outcomeToChannel_staysEmpty ..
  · exact .refl _

theorem reachT_staysEmpty (p : ProgId) (sp : PendingSplice) : StaysEmpty s (reachT e p sp s) := by
  have hseek := StaysEmpty.of_frame (modMachine_frame e p (fun m => { m with phase := .seeking sp }) s)
  unfold reachT
  dsimp only
  split
  · exact hseek.trans (resolve_staysEmpty ..)
  · exact hseek

/-! ## House time (R118, R132) -/

theorem judgeLoad_staysEmpty (p : ProgId) : StaysEmpty s (judgeLoad e p s) := by
  cases hph : (machineOf s e p).phase with
  | steady =>
    rw [judgeLoad_of_steady hph]
    exact .refl s
  | armed sp =>
    rw [judgeLoad_of_armed hph]
    split
    · exact resolve_staysEmpty ..
    split
    · exact .of_frame (modMachine_frame ..)
    · exact .refl s
  | seeking sp =>
    rw [judgeLoad_of_seeking hph]
    split
    · exact resolve_staysEmpty ..
    · exact .refl s

theorem judgeWaiting_staysEmpty : StaysEmpty s (judgeWaiting s e) := by
  unfold judgeWaiting
  dsimp only
  split
  · rename_i hcur
    split
    · exact (judgeWait_settles hcur _).staysEmpty
    · exact .refl s
  · exact .refl s

theorem applyLoad_staysEmpty (v : HouseTime) : StaysEmpty s (applyLoad v s) :=
  ((StaysEmpty.of_frame ((frame_time s _).andThen (handOver_frame ..) : Frame [.time, .down, .rep] s _)).trans
    (.foldl (fun s e => .foldl (fun s p => judgeLoad_staysEmpty e s p) _ s) _ _)).trans
    (.foldl (fun s e => judgeWaiting_staysEmpty e s) _ _)

/-! ## Completions (R31, R42, R134, R135) -/

theorem dataReturned_staysEmpty (rsp : Response) : StaysEmpty s (dataReturned e rsp s) := by
  have hstop : ∀ c a tag, StaysEmpty s (endChain e .check c a tag s) := fun c a tag => (endChain_settles ..).staysEmpty
  unfold dataReturned
  split
  · rename_i w hcur
    split
    · exact hstop ..
    · split
      · exact hstop ..
      · rename_i f _
        have hframe := receiveFrame_frame e f s
        have hkept : (chanOf (modChan e (fun c => { c with fetch := .none }) (receiveFrame e f s).1) e).current = some w := by
          rw [chanOf_modChan_same, chanOf_congr hframe.chans_eq, ← hcur]
        refine ((goOn_settles hkept).after fun x hx => ?_).staysEmpty
        rw [chanOf_modChan_ne hx, chanOf_congr hframe.chans_eq]
    · exact .refl s
  · exact .refl s

theorem entryPoint_staysEmpty (p : ProgId) (v : Variant) (cellE : Bool) : StaysEmpty s (entryPoint e p v cellE s) := by
  unfold entryPoint
  split
  · split
    · exact resolve_staysEmpty ..
    · exact .refl s
  · exact .refl s

theorem admitEdition_staysEmpty (c : IngestKept) (x : StreamEntry) : StaysEmpty s (admitEdition c x s e) := by
  have hentry := entryPoint_staysEmpty e s x.prog x.variant c.e
  unfold admitEdition
  split
  · exact .refl s
  · dsimp only
    split
    · exact hentry
    split
    · exact hentry
    · exact hentry.trans (.of_frame (admitLimits_frame ..))

end

section
variable (s : State)

theorem admitCell_staysEmpty (c : IngestKept) : StaysEmpty s (admitCell c s) := by
  have hfound := StaysEmpty.of_frame (lookup_frame c.label s)
  unfold admitCell
  split
  · exact .refl s
  · split <;> rename_i heq <;> rw [heq] at hfound
    · exact hfound.trans (.of_frame (modRing_frame ..))
    · split
      · exact hfound.trans (.of_frame (modRing_frame ..))
      · exact hfound.trans (.foldl (fun s e => admitEdition_staysEmpty e s c _) _ _)

theorem ingestReturned_staysEmpty (c : IngestKept) (rsp : Response) : StaysEmpty s (ingestReturned c rsp s) := by
  unfold ingestReturned
  split
  · exact .refl s
  · split
    · exact admitCell_staysEmpty s c
    · exact .of_frame (modRing_frame ..)

/-! ## The owning blocks of the commands -/

theorem doCancelSplice_staysEmpty (e p : BitVec 8) : StaysEmpty s (doCancelSplice e p s).state := by
  unfold doCancelSplice
  split
  · split
    · exact resolve_staysEmpty ..
    · exact .refl s
  · exact .refl s

theorem doStartSchedule_staysEmpty (ed : BitVec 8) (a : Addr) : StaysEmpty s (doStartSchedule ed a s).state := by
  unfold doStartSchedule
  split
  · exact .refl s
  · split
    · exact .refl s
    · exact ((fetchWord_settles ..).after fun x hx => chanOf_modChan_ne hx _).staysEmpty

theorem doHaltSchedule_staysEmpty (ed : BitVec 8) : StaysEmpty s (doHaltSchedule ed s).state := by
  unfold doHaltSchedule
  split
  · exact .refl s
  · split
    · exact .refl s
    · exact stopChain_staysEmpty ..

/-- The dropped wait and the cancels of an edition's splices leave its channel to the end of the chain (R121). -/
theorem dropAndCancel_staysEmpty (e : EdId) (c : SpliceCause) : StaysEmpty s (cancelAll e c (dropWait e s)) :=
  .of_frame ((dropWait_frame ..).andThen (cancelAll_frame ..) : Frame [.splices, .down, .rep] s _)

theorem doClearSchedule_staysEmpty (ed : BitVec 8) : StaysEmpty s (doClearSchedule ed s).state := by
  unfold doClearSchedule
  split
  · exact .refl s
  · exact ((dropAndCancel_staysEmpty ..).trans (.of_frame (modComp_frame ..))).trans (stopChain_staysEmpty ..)

theorem doResumeSchedule_staysEmpty (ed : BitVec 8) : StaysEmpty s (doResumeSchedule ed s).state := by
  unfold doResumeSchedule
  split
  · exact .refl s
  · split
    · exact (fetchWord_settles ..).staysEmpty
    · exact .refl s

theorem doEditionOff_staysEmpty (ed : BitVec 8) : StaysEmpty s (doEditionOff ed s).state := by
  unfold doEditionOff
  split
  · exact .refl s
  · rename_i e _
    show StaysEmpty s (turnOff e s)
    rw [turnOff_eq]
    exact ((StaysEmpty.of_frame (releasedOff_frame e s)).trans (dropAndCancel_staysEmpty ..)).trans (stopChain_staysEmpty ..)

theorem runAct_staysEmpty (tag : Tag16) (c : Command) : StaysEmpty s (runAct tag c s).state := by
  cases c with
  | setStreamEntry => exact .of_frame (doSetStreamEntry_frame ..)
  | loadStreamEntries => exact .of_frame (doLoadStreamEntries_frame ..)
  | setEccThreshold => exact .of_frame (doSetEccThreshold_frame ..)
  | setRing => exact .of_frame (doSetRing_frame ..)
  | setRingTimingOnly => exact .of_frame (doSetRingTimingOnly_frame ..)
  | disableRing => exact .of_frame (doDisableRing_frame ..)
  | setProtection => exact .of_frame (doSetProtection_frame ..)
  | clearProtection => exact .of_frame (doClearProtection_frame ..)
  | setProgramme => exact .of_frame (doSetProgramme_frame ..)
  | setCarriage => exact .of_frame (doSetCarriage_frame ..)
  | armSplice => exact .of_frame (doArmSplice_frame ..)
  | cancelSplice => exact doCancelSplice_staysEmpty ..
  | setVariantNow => exact .of_frame (doSetVariantNow_frame ..)
  | startSchedule => exact doStartSchedule_staysEmpty ..
  | haltSchedule => exact doHaltSchedule_staysEmpty ..
  | clearSchedule => exact doClearSchedule_staysEmpty ..
  | resumeSchedule => exact doResumeSchedule_staysEmpty ..
  | setEdition => exact .of_frame (doSetEdition_frame ..)
  | editionOn => exact .of_frame (doEditionOn_frame ..)
  | editionOff => exact doEditionOff_staysEmpty ..
  | timeLoad => exact .of_frame (doTimeLoad_frame ..)
  | relocateControl => exact .of_frame (doRelocateControl_frame ..)
  | setMemoryLimit => exact .of_frame (doSetMemoryLimit_frame ..)
  | setReportRing => exact .of_frame (doSetReportRing_frame ..)
  | reportAck => exact .of_frame (doReportAck_frame ..)
  | statistics => exact .of_frame (doStatistics_frame ..)
  | restart => exact .of_reset rfl

/-! ## The command unit -/

theorem startCommand_staysEmpty (c : TakenCommand) : StaysEmpty s (startCommand c s) := by
  have report : ∀ (u : State) b, StaysEmpty u (handOver b u) := fun u b => .of_frame (handOver_frame b u)
  unfold startCommand
  split
  · exact report ..
  · exact report ..
  · have hreset : StaysEmpty s { restartAct s with cmd := { s.cmd with queue := [] } } := .of_reset rfl
    exact (hreset.trans (report ..)).trans (.foldl (fun s c => report ..) _ _)
  · rename_i k _ _
    have hact := runAct_staysEmpty s c.tag k
    split <;> rename_i heq <;> rw [heq] at hact
    · exact hact.trans (report ..)
    · exact hact.trans (.of_frame (frame_cmd ..))

theorem drain_staysEmpty (fuel : Nat) : StaysEmpty s (drain fuel s) := by
  induction fuel generalizing s with
  | zero => exact .refl s
  | succ fuel ih =>
    unfold drain
    split
    · exact (((StaysEmpty.of_frame (frame_cmd s _)).trans (startCommand_staysEmpty ..)).trans
        (.of_frame (endPurge_frame _))).trans (ih _)
    · exact .refl s

theorem finishRunning_staysEmpty (o : CmdOutcome) : StaysEmpty s (finishRunning o s) :=
  (StaysEmpty.of_frame (endRunning_frame o s)).trans (drain_staysEmpty ..)

theorem settlePurge_staysEmpty : StaysEmpty s (settlePurge s) := by
  have hscan := StaysEmpty.of_frame (advanceScan_frame s)
  unfold settlePurge
  dsimp only
  split
  · exact hscan.trans (finishRunning_staysEmpty ..)
  · exact hscan

theorem takeCommand_staysEmpty (c : TakenCommand) : StaysEmpty s (takeCommand c s) := by
  unfold takeCommand
  split
  · exact (startCommand_staysEmpty s c).trans (.of_frame (endPurge_frame _))
  · split
    · exact .of_frame (frame_cmd ..)
    · exact .of_frame (handOver_frame ..)

/-! ## The two ports -/

theorem streamListReturned_staysEmpty (rsp : Response) : StaysEmpty s (streamListReturned rsp s) := by
  have hwritten : ∀ t, StaysEmpty s { s with stream := t } := fun t => .of_frame (frame_stream s t)
  unfold streamListReturned
  split
  · split
    · exact finishRunning_staysEmpty ..
    · dsimp only
      split
      · exact (hwritten _).trans (finishRunning_staysEmpty ..)
      · exact .of_chans rfl
  · exact .refl s

theorem carriageListReturned_staysEmpty (rsp : Response) : StaysEmpty s (carriageListReturned rsp s) := by
  unfold carriageListReturned
  split
  · split
    · exact finishRunning_staysEmpty ..
    · split
      · exact finishRunning_staysEmpty ..
      · exact (StaysEmpty.of_frame (receiveFrame_frame ..)).trans (finishRunning_staysEmpty ..)
  · exact .refl s

theorem indexReturned_staysEmpty : StaysEmpty s (indexReturned s) := by
  have hidle : StaysEmpty s { s with rep := { s.rep with writer := .idle } } := .of_frame (frame_rep ..)
  unfold indexReturned
  split
  · dsimp only
    split
    · exact (hidle.trans (.of_frame (setRingAct_frame ..))).trans (finishRunning_staysEmpty ..)
    · exact hidle.trans (.of_frame (startWrite_frame _))
  · exact .refl s

theorem respond_staysEmpty (tag : PortTag) (rsp : Response) : StaysEmpty s (respond tag rsp s) := by
  cases hold : takeOldest tag s.down with
  | none =>
    rw [respond, hold]
    exact .refl s
  | some found =>
    obtain ⟨⟨kind, q⟩, rest⟩ := found
    have hdown : StaysEmpty s { s with down := rest } := .of_frame (frame_down s rest)
    rw [respond, hold]
    refine hdown.trans ?_
    cases kind with
    | forwarded => exact .of_frame (readyForwarded_frame ..)
    | ingest k => exact (StaysEmpty.of_frame (readyForwarded_frame ..)).trans (ingestReturned_staysEmpty ..)
    | delivery e r live =>
      have hback := StaysEmpty.of_frame (readReturned_frame r { s with down := rest })
      refine (hback.trans ?_).trans (settlePurge_staysEmpty _)
      cases live with
      | true => exact .of_frame (deliveryReturned_frame ..)
      | false => exact .refl _
    | streamList => exact streamListReturned_staysEmpty ..
    | carriageList => exact carriageListReturned_staysEmpty ..
    | wordFetch e live =>
      cases live with
      | true => exact (wordReturned_settles ..).staysEmpty
      | false => exact .refl _
    | dataFetch e live =>
      cases live with
      | true => exact dataReturned_staysEmpty ..
      | false => exact .refl _
    | recordWrite => exact .of_frame (recordReturned_frame ..)
    | indexWrite => exact indexReturned_staysEmpty _

theorem takeRequest_staysEmpty (r : Request) : StaysEmpty s (takeRequest r s) := by
  have hfwd : ∀ k, StaysEmpty s (forward k r s) := fun k => .of_frame (forward_frame k r s)
  have hopen : ∀ c rsp, StaysEmpty s (openReq r.tag c rsp s) := fun c rsp => .of_frame (openReq_frame r.tag c rsp s)
  unfold takeRequest
  cases classify s r with
  | beyond => exact hopen ..
  | feedRead e n => exact ((hopen ..).trans (.of_frame (takeFeedRead_frame ..))).trans (settlePurge_staysEmpty _)
  | lengthFault e => exact ((hopen ..).trans (.of_frame (modFeed_frame ..))).trans (.of_frame (feedReadTaken_frame ..))
  | feedWrite e => exact (hopen ..).trans (.of_frame (modFeed_frame ..))
  | ingest i slot => exact .of_frame (takeIngest_frame ..)
  | malformed i => exact (hfwd _).trans (.of_frame (modRing_frame ..))
  | command k => exact (hfwd _).trans (takeCommand_staysEmpty ..)
  | ringRead | controlOther | passThrough => exact hfwd _

theorem present_staysEmpty (r : Request) : StaysEmpty s (present r s) := by
  unfold present
  split
  · exact takeRequest_staysEmpty s r
  · exact .of_frame (frame_path ..)

theorem idleStep_staysEmpty : StaysEmpty s (idleStep s) := by
  unfold idleStep
  split
  · exact .refl s
  · exact (StaysEmpty.of_frame (frame_path ..)).trans (takeRequest_staysEmpty ..)

end

end Sys2Proof.Machine
end

section
/-! SUPPORT. Every row keeps the IDLE channels empty, and so does a step (R125). -/

set_option Elab.async false

namespace Sys2Proof.Machine

/-! ## The rows -/

/-- The row ends in a next state that keeps the IDLE channels empty. -/
def EndsEmpty (s : State) (o : Host.Outcome State Fault Refusal) : Prop := ∃ t, o = .next t ∧ StaysEmpty s t

theorem StaysEmpty.ends {s t : State} (h : StaysEmpty s t) : EndsEmpty s (.next t) := ⟨t, rfl, h⟩

theorem endsEmpty_same (s : State) : EndsEmpty s (.next s) := (StaysEmpty.refl s).ends

/-- A row that changes nothing where its moment has not come (log entry 8). -/
theorem endsEmpty_ite {s t : State} {due : Prop} [Decidable due] (h : StaysEmpty s t) :
    EndsEmpty s (if due then .next t else .next s) := by
  split
  · exact h.ends
  · exact endsEmpty_same s

section
variable (s : State)

theorem execSpliceTReached_endsEmpty (e : EdId) (p : ProgId) : EndsEmpty s (execSpliceTReached e p s) := by
  unfold execSpliceTReached
  split
  · exact endsEmpty_ite (reachT_staysEmpty ..)
  · exact endsEmpty_same s

theorem execWindowEnd_endsEmpty (e : EdId) (p : ProgId) : EndsEmpty s (execWindowEnd e p s) := by
  unfold execWindowEnd
  split
  · exact endsEmpty_ite (resolve_staysEmpty ..)
  · exact endsEmpty_same s

theorem execOscillatorPeriodEnd_endsEmpty : EndsEmpty s (execOscillatorPeriodEnd s) := by
  unfold execOscillatorPeriodEnd
  split
  · exact (StaysEmpty.of_frame (elapse_frame 1 s)).ends
  · exact (StaysEmpty.of_frame (frame_time s _)).ends

theorem execPpsEdge_endsEmpty : EndsEmpty s (execPpsEdge s) := by
  unfold execPpsEdge
  split
  · exact (applyLoad_staysEmpty ..).ends
  · exact endsEmpty_same s

theorem execPpsTimeout_endsEmpty : EndsEmpty s (execPpsTimeout s) := by
  unfold execPpsTimeout
  split
  · exact endsEmpty_ite (.of_frame ((frame_time ..).andThen (handOver_frame ..) : Frame [.time, .down, .rep] s _))
  · exact endsEmpty_same s

theorem execResponseLeaves_endsEmpty (tag : PortTag) : EndsEmpty s (execResponseLeaves tag s) := by
  unfold execResponseLeaves
  split
  · exact (StaysEmpty.of_frame (frame_path s _)).ends
  · exact endsEmpty_same s

theorem execIngestWriteCompletion_endsEmpty (tag : PortTag) (rsp : Response) (up : BitFault) :
    EndsEmpty s (execIngestWriteCompletion tag rsp up s) := by
  unfold execIngestWriteCompletion
  split
  · exact ((StaysEmpty.of_frame (frame_stream s _)).trans (respond_staysEmpty ..)).ends
  · exact (respond_staysEmpty ..).ends

/-- Every row keeps the IDLE channels empty: a channel becomes IDLE only at the end of its chain or a reset, which empty it, and a
word becomes current only where the channel then runs it. -/
theorem exec_endsEmpty (c : Instr) : EndsEmpty s (exec c s) := by
  have hpresent : ∀ r, EndsEmpty s (.next (present r s)) := fun r => (present_staysEmpty s r).ends
  have hrespond : ∀ tag rsp, EndsEmpty s (.next (respond tag rsp s)) := fun tag rsp => (respond_staysEmpty s tag rsp).ends
  have hcommand : ∀ h k, EndsEmpty s (takeRow h k s) := fun h k => (takeCommand_staysEmpty s (takenRow h k)).ends
  have hupset : ∀ us, StaysEmpty s (upsetRefs us s) := fun us => .of_frame (upsetRefs_frame us s)
  cases c with
  | ingestWrite r | malformedWrite r | ringRead r | passThroughRequest r | controlPassThrough r | requestBeyondLimit r
  | lengthFault r | feedWrite r | commandWrite r => exact hpresent r
  | wholeCellRead r us => exact ((hupset us).trans (present_staysEmpty _ r)).ends
  | downstreamCompletion tag rsp | staleResponseDiscard tag rsp => exact hrespond tag rsp
  | deliveryReadCompletion _ rsp | wordFetchCompletion _ rsp | dataFetchCompletion _ rsp | streamListReadCompletion rsp
  | carriageListReadCompletion rsp | reportWriteCompletion rsp | indexBlockWriteCompletion rsp => exact hrespond _ rsp
  | ingestWriteCompletion tag rsp up => exact execIngestWriteCompletion_endsEmpty s tag rsp up
  | responseLeaves tag => exact execResponseLeaves_endsEmpty s tag
  | purgeScanStep us => exact (((hupset us).trans (.of_frame (scanStep_frame _))).trans (settlePurge_staysEmpty _)).ends
  | silenceExpiry i => exact endsEmpty_ite (.of_frame (silenceExpires_frame ..))
  | feedWatchExpiry e => exact endsEmpty_ite ((StaysEmpty.of_frame (watchExpires_frame ..)).trans (settlePurge_staysEmpty _))
  | spliceTReached e p => exact execSpliceTReached_endsEmpty s e p
  | windowEnd e p => exact execWindowEnd_endsEmpty s e p
  | waitReached e => exact (judgeWaiting_staysEmpty e s).ends
  | referenceLost => exact endsEmpty_ite (.of_frame (loseReference_frame s))
  | stationReferenceEdge | referenceRestored => exact (StaysEmpty.of_frame (referenceEdge_frame s)).ends
  | oscillatorPeriodEnd => exact execOscillatorPeriodEnd_endsEmpty s
  | ppsEdge => exact execPpsEdge_endsEmpty s
  | ppsTimeout => exact execPpsTimeout_endsEmpty s
  | hardwareReset strap => exact (StaysEmpty.of_reset rfl).ends
  | setStreamEntry | loadStreamEntries | setEccThreshold | setRing | setRingTimingOnly | disableRing | setProtection
  | clearProtection | setProgramme | setCarriage | armSplice | cancelSplice | setVariantNow | startSchedule | haltSchedule
  | clearSchedule | resumeSchedule | setEdition | editionOn | editionOff | timeLoad | relocateControl | setMemoryLimit
  | setReportRing | reportAck | statistics | restart => exact hcommand _ _

end

/-- Settles O13: every act on a channel ends it running or empty, so every row keeps the IDLE channels empty. -/
theorem stepKeepsIdleChannelsEmpty : Obligations.StepKeepsIdleChannelsEmpty := by
  unfold Obligations.StepKeepsIdleChannelsEmpty
  intro s t h ht
  unfold step at ht
  split at ht
  · cases ht
    exact h.stays (idleStep_staysEmpty s)
  · rename_i c rest _
    obtain ⟨u, hu, hstays⟩ := exec_endsEmpty { s with pending := rest } c
    rw [hu] at ht
    cases ht
    exact h.stays ((StaysEmpty.of_frame (frame_pending s rest)).trans hstays)

end Sys2Proof.Machine
end

section
/-! SUPPORT. SET EDITION: its checks in their order, the settings it replaces, and the watch under its new time (R151, R152). -/

namespace Sys2Proof.Machine

/-- A setting of SET EDITION out of its range (R151). -/
abbrev BadSetting (watch age quota : BitVec 16) (b : Addr) : Prop :=
  b.toNat % 65536 ≠ 0 ∨ 2 ^ 40 < b.toNat + 57344 ∨ 8192 < quota.toNat ∨ age.toNat = 0 ∨ 2000 < age.toNat ∨ 1000 < watch.toNat

/-- A feed aperture of edition e at b would meet a region of the map (R151, R185). -/
abbrev ApertureMeets (e : EdId) (b : Addr) (s : State) : Prop :=
  meetsRing s b.toNat 57344 none = true ∨ meetsFeed s b.toNat 57344 (some e) = true ∨ meetsControl s b.toNat 57344 = true

section
variable {s : State} {ed : BitVec 8} {e : EdId} {auto : Bool} {watch age quota : BitVec 16} {b : Addr} {off : BitVec 24}

/-- Everything SET EDITION can come to for an edition that exists, by its checks in their order. -/
theorem doSetEdition_eq (he : e.val = ed.toNat) :
    doSetEdition ed auto watch age quota b off s =
      let u := modEd e (setEditionRecord auto watch age quota b off) s
      if BadSetting watch age quota b then .done .range s
      else if ¬(edOf s e).base = some b ∧ (edOf s e).state ≠ .off then .done .state s
      else if ¬(edOf s e).base = some b ∧ ApertureMeets e b s then .done .overlap s
      else .done .done (if watchOut (edOf u e) then watchExpires e u else u) := by
  unfold doSetEdition
  rw [index?_eq_some.2 he]
  rfl

/-- A setting out of its range, or an edition that does not exist, is the first check to fail. -/
theorem doSetEdition_range (hbad : 16 ≤ ed.toNat ∨ BadSetting watch age quota b) :
    doSetEdition ed auto watch age quota b off s = .done .range s := by
  cases he : index? 16 ed.toNat with
  | none => simp only [doSetEdition, he]
  | some e =>
    have he := index?_eq_some.1 he
    rw [doSetEdition_eq he]
    exact if_pos (hbad.resolve_left (by omega))

/-- SET EDITION on an idle command unit ends at once with the outcome of its checks. -/
theorem exec_setEdition {u : State} {o : CmdOutcome} (h : CmdHeader) (hs : CmdIdle s)
    (ha : doSetEdition ed auto watch age quota b off s = .done o u) (hu : u.refs.scan = none) :
    exec (.setEdition h ed auto watch age quota b off) s = .next (handOver (ended h 16 o) u) :=
  takeRow_done (c := .setEdition ed auto watch age quota b off) hs nofun ha hu

end

/-- Settles O53: the checks in their order, then the replaced record with its watch run out or not. -/
theorem setEditionReplacesEverySetting : Obligations.SetEditionReplacesEverySetting := by
  unfold Obligations.SetEditionReplacesEverySetting
  intro s h ed auto watch age quota b off hs row bad
  refine ⟨fun hbad => exec_setEdition h hs (doSetEdition_range hbad) hs.2, fun e he hok => ?_⟩
  intro same hits u out
  have hout : watchOut (edOf u e) = true ↔ out := by
    rw [edOf_modEd_same]
    exact watchOut_iff
  have hin : ¬BadSetting watch age quota b := fun hbad => hok (.inr hbad)
  have hidle : NoPurge u := CmdIdle.noPurge hs
  refine ⟨fun hb hst => exec_setEdition h hs ?_ hs.2, fun hb hst hm => exec_setEdition h hs ?_ hs.2,
    fun hpass hw => exec_setEdition h hs ?_ hidle.1,
    fun hb hw => exec_setEdition h hs ?_ (noPurge_watchExpires e hidle).1⟩
  · rw [doSetEdition_eq he, if_neg hin, if_pos ⟨hb, hst⟩]
  · rw [doSetEdition_eq he, if_neg hin, if_neg (fun hc => hc.2 hst), if_pos ⟨hb, hm⟩]
  · have hstate : ¬(¬same ∧ (edOf s e).state ≠ .off) := fun hc => hc.2 (hpass.resolve_left hc.1).1
    have hclear : ¬(¬same ∧ hits) := fun hc => (hpass.resolve_left hc.1).2 hc.2
    rw [doSetEdition_eq he, if_neg hin, if_neg hstate, if_neg hclear]
    exact congrArg _ (if_neg (hw ∘ hout.1))
  · rw [doSetEdition_eq he, if_neg hin, if_neg (fun hc => hc.1 hb), if_neg (fun hc => hc.1 hb)]
    exact congrArg _ (if_pos (hout.2 hw))

end Sys2Proof.Machine
end

section
/-! SUPPORT. TIME LOAD: the value it makes pending and the outcome that says whether a load was pending before (R166). -/

namespace Sys2Proof.Machine

/-- The value becomes the pending load, waiting from now on (R166). -/
abbrev withLoad (v : HouseTime) (s : State) : State := { s with time := { s.time with load := some ⟨v, 0⟩ } }

section
variable {s : State} {v : HouseTime}

theorem doTimeLoad_done (hl : s.time.load = none) : doTimeLoad v s = .done .done (withLoad v s) := by
  simp [doTimeLoad, hl]

theorem doTimeLoad_replaced {old : PendingLoad} (hl : s.time.load = some old) :
    doTimeLoad v s = .done .replaced (withLoad v s) := by
  simp [doTimeLoad, hl]

/-- TIME LOAD on an idle command unit ends at once, with its COMMAND report handed over (R166). -/
theorem exec_timeLoad {o : CmdOutcome} (h : CmdHeader) (hs : CmdIdle s)
    (ha : doTimeLoad v s = .done o (withLoad v s)) :
    exec (.timeLoad h v) s = .next (handOver (ended h 19 o) (withLoad v s)) :=
  takeRow_done (c := .timeLoad v) hs nofun ha hs.2

end

/-- Settles O45: whether a load was pending decides the outcome, and the new load stands in its place either way. -/
theorem timeLoadBecomesPending : Obligations.TimeLoadBecomesPending := by
  unfold Obligations.TimeLoadBecomesPending
  intro s h v hs u
  constructor
  case left => exact fun hl => exec_timeLoad h hs (doTimeLoad_done hl)
  case right => exact fun old hl => exec_timeLoad h hs (doTimeLoad_replaced hl)

end Sys2Proof.Machine
end

section
/-! SUPPORT. The map as one table of regions, and the law that no two of them meet: it is kept where every region stood in the same
place before, and where one is placed clear of the others (R171, R185). -/

set_option Elab.async false

namespace Sys2Proof.Machine

/-! ## The table of regions (R171) -/

/-- A place of the map: the region of a ring, the aperture of an edition, or the control aperture. -/
inductive MapPlace where
  | ring (i : RingId)
  | feed (e : EdId)
  | control

/-- The first byte and the length of the region in a place, if there is one. -/
def regionOf (s : State) : MapPlace → Option (Nat × Nat)
  | .ring i => if (ringOf s i).enabled then some ((ringOf s i).base.toNat, ringBytes (ringOf s i)) else none
  | .feed e => (feedBase s e).map fun b => (b, 57344)
  | .control => some (s.path.control.toNat, 4096)

/-- The n bytes from a would, in the place x, meet no region in another place. -/
def Clear (s : State) (x : MapPlace) (a n : Nat) : Prop :=
  ∀ y b m, y ≠ x → regionOf s y = some (b, m) → meets a n b m = false

theorem meets_comm (a n b m : Nat) : meets a n b m = meets b m a n := by
  rw [Bool.eq_iff_iff, meets_iff, meets_iff]
  tauto

section
variable {s t : State} {a n : Nat} {x : MapPlace}

theorem regionOf_ring {i : RingId} {b m : Nat} : regionOf s (.ring i) = some (b, m) ↔
    (ringOf s i).enabled = true ∧ (ringOf s i).base.toNat = b ∧ ringBytes (ringOf s i) = m := by
  rw [regionOf, Option.ite_none_right_eq_some, Option.some.injEq, Prod.mk.injEq]

theorem regionOf_feed {e : EdId} {b m : Nat} : regionOf s (.feed e) = some (b, m) ↔ feedBase s e = some b ∧ 57344 = m := by
  simp [regionOf]

theorem regionOf_control {b m : Nat} : regionOf s .control = some (b, m) ↔ s.path.control.toNat = b ∧ 4096 = m := by
  simp [regionOf]

theorem meetsRing_eq_false {but : Option RingId} : meetsRing s a n but = false ↔
    ∀ i b m, some i ≠ but → regionOf s (.ring i) = some (b, m) → meets a n b m = false := by
  simp only [meetsRing, List.any_eq_false, List.mem_finRange, true_imp_iff, Bool.and_eq_true, decide_eq_true_iff, not_and,
    ringMeets, Bool.not_eq_true, regionOf_ring]
  refine forall_congr' fun i => ⟨?_, fun h hne hen => h _ _ hne ⟨hen, rfl, rfl⟩⟩
  rintro h b m hne ⟨hen, rfl, rfl⟩
  exact h hne hen

theorem meetsFeed_eq_false {but : Option EdId} : meetsFeed s a n but = false ↔
    ∀ e b m, some e ≠ but → regionOf s (.feed e) = some (b, m) → meets a n b m = false := by
  simp only [meetsFeed, List.any_eq_false, List.mem_finRange, true_imp_iff, regionOf_feed]
  refine forall_congr' fun e => ?_
  cases feedBase s e with
  | none => simp
  | some b => simp [Config.feedBytes]

theorem meetsControl_eq_false : meetsControl s a n = false ↔
    ∀ b m, regionOf s .control = some (b, m) → meets a n b m = false := by
  simp [meetsControl, regionOf_control, Config.controlBytes]

/-- The regions by kind of place. -/
theorem clear_iff : Clear s x a n ↔
    (∀ i b m, .ring i ≠ x → regionOf s (.ring i) = some (b, m) → meets a n b m = false) ∧
    (∀ e b m, .feed e ≠ x → regionOf s (.feed e) = some (b, m) → meets a n b m = false) ∧
    (∀ b m, .control ≠ x → regionOf s .control = some (b, m) → meets a n b m = false) := by
  constructor
  · exact fun h => ⟨fun i => h (.ring i), fun e => h (.feed e), h .control⟩
  · rintro ⟨hring, hfeed, hcontrol⟩ (i | e | _)
    · exact hring i
    · exact hfeed e
    · exact hcontrol

theorem clear_ring_iff {i : RingId} : Clear s (.ring i) a n ↔
    meetsRing s a n (some i) = false ∧ meetsFeed s a n none = false ∧ meetsControl s a n = false := by
  simp [clear_iff, meetsRing_eq_false, meetsFeed_eq_false, meetsControl_eq_false]

theorem clear_feed_iff {e : EdId} : Clear s (.feed e) a n ↔
    meetsRing s a n none = false ∧ meetsFeed s a n (some e) = false ∧ meetsControl s a n = false := by
  simp [clear_iff, meetsRing_eq_false, meetsFeed_eq_false, meetsControl_eq_false]

theorem clear_control_iff : Clear s .control a n ↔ meetsRing s a n none = false ∧ meetsFeed s a n none = false := by
  simp [clear_iff, meetsRing_eq_false, meetsFeed_eq_false]

/-! ## The law (R185) -/

/-- The law, place by place: every region is clear of the others. -/
theorem regionLaw_iff : RegionLaw s ↔ ∀ x a n, regionOf s x = some (a, n) → Clear s x a n := by
  constructor
  · intro h
    have hring : ∀ i a n, regionOf s (.ring i) = some (a, n) → Clear s (.ring i) a n := by
      intro i a n hr
      obtain ⟨hen, rfl, rfl⟩ := regionOf_ring.1 hr
      exact clear_ring_iff.2 (h.rings i hen)
    have hfeed : ∀ e a n, regionOf s (.feed e) = some (a, n) →
        meetsFeed s a n (some e) = false ∧ meetsControl s a n = false := by
      intro e a n hr
      obtain ⟨hbase, rfl⟩ := regionOf_feed.1 hr
      obtain ⟨b, hb, rfl⟩ := Option.map_eq_some_iff.1 hbase
      exact h.feeds e b hb
    rintro (i | e | _) a n hr
    · exact hring i a n hr
    · refine clear_feed_iff.2 ⟨meetsRing_eq_false.2 fun i b m _ hq => ?_, hfeed e a n hr⟩
      rw [meets_comm]
      exact hring i b m hq (.feed e) a n nofun hr
    · refine clear_control_iff.2
        ⟨meetsRing_eq_false.2 fun i b m _ hq => ?_, meetsFeed_eq_false.2 fun e b m _ hq => ?_⟩
      · rw [meets_comm]
        exact hring i b m hq .control a n nofun hr
      · rw [meets_comm]
        exact meetsControl_eq_false.1 (hfeed e b m hq).2 a n hr
  · intro h
    constructor
    case rings => exact fun i hen => clear_ring_iff.1 (h _ _ _ (regionOf_ring.2 ⟨hen, rfl, rfl⟩))
    case feeds => exact fun e b hb => (clear_feed_iff.1 (h _ _ _ (regionOf_feed.2 ⟨feedBase_eq hb, rfl⟩))).2

/-- Where every region stood in the same place before, none meets another. -/
theorem RegionLaw.of_subset (h : RegionLaw s) (hsub : ∀ x r, regionOf t x = some r → regionOf s x = some r) : RegionLaw t :=
  regionLaw_iff.2 fun x a n hr y b m hne hq => regionLaw_iff.1 h x a n (hsub x _ hr) y b m hne (hsub y _ hq)

/-- A region is placed, or moved, clear of the regions in all other places. -/
theorem RegionLaw.of_placed (h : RegionLaw s) (hclear : Clear s x a n) (hhere : regionOf t x = some (a, n))
    (hothers : ∀ y, y ≠ x → regionOf t y = regionOf s y) : RegionLaw t := by
  have hnew : ∀ y b m, y ≠ x → regionOf t y = some (b, m) → meets a n b m = false := fun y b m hy hq =>
    hclear y b m hy (hothers y hy ▸ hq)
  rw [regionLaw_iff] at h ⊢
  intro y b m hq z c k hne hp
  by_cases hy : y = x
  · subst hy
    cases hhere.symm.trans hq
    exact hnew z c k hne hp
  · by_cases hz : z = x
    · subst hz
      cases hhere.symm.trans hp
      rw [meets_comm]
      exact hnew y b m hy hq
    · exact h y b m (hothers y hy ▸ hq) z c k hne (hothers z hz ▸ hp)

/-- A map with the control aperture alone. -/
theorem RegionLaw.of_empty (hrings : ∀ i, (ringOf t i).enabled = false) (hfeeds : ∀ e, (edOf t e).base = none) : RegionLaw t where
  rings i hen := absurd (hrings i) (by simp [hen])
  feeds e b hb := absurd (hfeeds e) (by simp [hb])

end

end Sys2Proof.Machine
end

section
/-! SUPPORT. Every operation keeps the regions of the map apart: most leave the map as it is, DISABLE RING and a reset take regions
from it, and SET RING, SET EDITION and RELOCATE CONTROL place one clear of the others (R22, R151, R183, R185). -/

set_option Elab.async false

namespace Sys2Proof.Machine

/-! ## Keeping the law -/

/-- If no two regions meet in s, then none do in t. -/
structure KeepsApart (s t : State) : Prop where
  law : RegionLaw s → RegionLaw t

theorem KeepsApart.refl (s : State) : KeepsApart s s := ⟨id⟩

theorem KeepsApart.trans {s t u : State} (h : KeepsApart s t) (g : KeepsApart t u) : KeepsApart s u := ⟨g.law ∘ h.law⟩

theorem KeepsApart.foldl {α : Type} {f : State → α → State} (hf : ∀ s a, KeepsApart s (f s a)) (l : List α) (s : State) :
    KeepsApart s (l.foldl f s) := by
  induction l generalizing s with
  | nil => exact .refl s
  | cons a l ih => exact (hf s a).trans (ih _)

/-- The part of a ring record that places its region (R20, R21). -/
def placing (r : RingRecord) : Bool × Addr × Nat := (r.enabled, r.base, r.size)

theorem regionOf_ring_congr {s t : State} {i : RingId} (h : placing (ringOf t i) = placing (ringOf s i)) :
    regionOf t (.ring i) = regionOf s (.ring i) := by
  simp only [placing, Prod.mk.injEq] at h
  obtain ⟨hen, hbase, hsize⟩ := h
  simp only [regionOf, ringBytes, hen, hbase, hsize]

theorem regionOf_feed_congr {s t : State} {e : EdId} (h : (edOf t e).base = (edOf s e).base) :
    regionOf t (.feed e) = regionOf s (.feed e) := by
  have hbase : feedBase t e = feedBase s e := congrArg (Option.map _) h
  rw [regionOf, regionOf, hbase]

/-- What leaves the place of every region as it is keeps them apart. -/
theorem KeepsApart.of_same {s t : State} (hrings : ∀ i, placing (ringOf t i) = placing (ringOf s i))
    (hfeeds : ∀ e, (edOf t e).base = (edOf s e).base) (hcontrol : t.path.control = s.path.control) : KeepsApart s t := by
  refine ⟨fun h => h.of_subset fun x r hr => ?_⟩
  rcases x with i | e | _
  · exact regionOf_ring_congr (hrings i) ▸ hr
  · exact regionOf_feed_congr (hfeeds e) ▸ hr
  · rwa [regionOf, hcontrol] at hr

/-- What touches neither the rings nor the editions, and of the path unit not the control aperture. -/
theorem KeepsApart.of_control {bs : List Block} {s t : State} (f : Frame bs s t) (h : t.path.control = s.path.control)
    (hr : .rings ∉ bs := by decide) (he : .eds ∉ bs := by decide) : KeepsApart s t :=
  .of_same (fun i => by rw [ringOf_congr (f.rings_eq hr)]) (fun e => by rw [edOf_congr (f.eds_eq he)]) h

theorem KeepsApart.of_frame {bs : List Block} {s t : State} (f : Frame bs s t) (hp : .path ∉ bs := by decide)
    (hr : .rings ∉ bs := by decide) (he : .eds ∉ bs := by decide) : KeepsApart s t :=
  .of_control f (by rw [f.path_eq hp]) hr he

section
variable (s : State)

/-! ## Rings, editions, and the path unit -/

theorem modRing_keepsApart (i : RingId) (f : RingRecord → RingRecord)
    (hf : placing (f (ringOf s i)) = placing (ringOf s i)) : KeepsApart s (modRing i f s) := by
  refine .of_same (fun j => ?_) (fun _ => rfl) rfl
  rw [ringOf_modRing]
  split
  · subst_vars
    exact hf
  · rfl

theorem modEd_keepsApart (e : EdId) (f : EditionRecord → EditionRecord) (hf : (f (edOf s e)).base = (edOf s e).base) :
    KeepsApart s (modEd e f s) := by
  refine .of_same (fun _ => rfl) (fun a => ?_) rfl
  rw [edOf_modEd]
  split
  · subst_vars
    exact hf
  · rfl

theorem openReq_keepsApart (tag : PortTag) (c : OpenClass) (rsp : Option Response) : KeepsApart s (openReq tag c rsp s) :=
  .of_control (openReq_frame tag c rsp s) rfl

theorem forward_keepsApart (k : DownKind) (r : Request) : KeepsApart s (forward k r s) :=
  .of_control (forward_frame k r s) rfl

theorem readyForwarded_keepsApart (tag : PortTag) (rsp : Response) : KeepsApart s (readyForwarded tag rsp s) :=
  .of_control (readyForwarded_frame tag rsp s) rfl

theorem silenceChange_keepsApart (i : RingId) (st : Silence) : KeepsApart s (silenceChange i st s) :=
  (modRing_keepsApart s i _ rfl).trans (.of_frame (handOver_frame ..))

theorem silenceExpires_keepsApart (i : RingId) : KeepsApart s (silenceExpires i s) := by
  unfold silenceExpires
  split
  · exact silenceChange_keepsApart ..
  · exact modRing_keepsApart _ _ _ rfl

theorem elapse_keepsApart (n : Nat) : KeepsApart s (elapse n s) := by
  refine .of_same (fun i => ?_) (fun e => ?_) rfl
  · rw [ringOf_elapse]
    split <;> rfl
  · rw [edOf_elapse]
    split <;> rfl

theorem referenceEdge_keepsApart : KeepsApart s (referenceEdge s) := by
  unfold referenceEdge
  split
  · exact (KeepsApart.of_frame (frame_time s _)).trans (elapse_keepsApart ..)
  · exact ((KeepsApart.of_frame (frame_time s _)).trans (elapse_keepsApart ..)).trans (.of_frame (handOver_frame ..))

theorem loseReference_keepsApart : KeepsApart s (loseReference s) :=
  ((KeepsApart.of_frame (frame_time s _)).trans (elapse_keepsApart ..)).trans (.of_frame (handOver_frame ..))

/-! ## Delivery -/

theorem finish_keepsApart (e : EdId) : KeepsApart s (finish e s) :=
  (KeepsApart.of_frame (modFeed_frame ..)).trans (.foldl (fun u cells => .of_control (readyFeed_frame e cells u) rfl) _ _)

theorem joinRead_keepsApart (e : EdId) (xs : List InFlight) : KeepsApart s (joinRead e xs s) :=
  (KeepsApart.of_frame (modFeed_frame ..)).trans
    (.foldl (fun u (x : Reference) => (modRing_keepsApart u x.ring _ rfl).trans (.of_frame (issue_frame ..))) _ _)

theorem deliveryReturned_keepsApart (e : EdId) (rsp : Response) : KeepsApart s (deliveryReturned e rsp s) := by
  unfold deliveryReturned
  split
  · exact .refl s
  · split
    · exact .refl s
    · exact (KeepsApart.of_frame (modFeed_frame ..)).trans (finish_keepsApart ..)

theorem feedReadTaken_keepsApart (e : EdId) : KeepsApart s (feedReadTaken e s) := by
  unfold feedReadTaken
  split
  · exact modEd_keepsApart _ _ _ rfl
  · split
    · exact (modEd_keepsApart _ _ _ rfl).trans (.of_frame (handOver_frame ..))
    · exact .refl s
  · exact .refl s

theorem takeFeedRead_keepsApart (e : EdId) (n : Nat) : KeepsApart s (takeFeedRead e n s) :=
  (((feedReadTaken_keepsApart s e).trans (.of_frame (readChoices_frame e n _))).trans (joinRead_keepsApart ..)).trans
    (finish_keepsApart ..)

/-! ## Ingest -/

theorem silentRun_keepsApart (i : RingId) : KeepsApart s (silentRun i s) := by
  unfold silentRun
  dsimp only
  split
  · exact .refl s
  · split
    · exact silenceChange_keepsApart ..
    · exact modRing_keepsApart _ _ _ rfl

theorem takeIngest_keepsApart (i : RingId) (slot : Nat) (r : Request) : KeepsApart s (takeIngest i slot r s) :=
  ((forward_keepsApart ..).trans (modRing_keepsApart _ _ _ rfl)).trans (silentRun_keepsApart ..)

theorem admitCell_keepsApart (c : IngestKept) : KeepsApart s (admitCell c s) := by
  unfold admitCell
  split
  · exact .refl s
  · have hlookup := KeepsApart.of_frame (lookup_frame c.label s)
    split <;> rename_i heq <;> rw [heq] at hlookup
    · exact hlookup.trans (modRing_keepsApart _ _ _ rfl)
    · split
      · exact hlookup.trans (modRing_keepsApart _ _ _ rfl)
      · exact hlookup.trans (.foldl (fun s e => .of_frame (admitEdition_frame c _ s e)) _ _)

theorem ingestReturned_keepsApart (c : IngestKept) (rsp : Response) : KeepsApart s (ingestReturned c rsp s) := by
  unfold ingestReturned
  split
  · exact .refl s
  · split
    · exact admitCell_keepsApart ..
    · exact modRing_keepsApart _ _ _ rfl

/-! ## Editions (R154, R155, R157) -/

theorem watchExpires_keepsApart (e : EdId) : KeepsApart s (watchExpires e s) :=
  (modEd_keepsApart s e (fun r => { r with state := .dormant }) rfl).trans (.of_frame
    (((modComp_frame ..).andThen (releaseAll_frame ..) : Frame [.comp, .refs] _ _).andThen (handOver_frame ..) :
      Frame [.comp, .refs, .down, .rep] _ _))

theorem turnOn_keepsApart (e : EdId) : KeepsApart s (turnOn e s) := by
  unfold turnOn
  split
  · exact .refl s
  · exact modEd_keepsApart _ _ _ rfl
  · exact (modEd_keepsApart _ _ _ rfl).trans
      (.of_frame ((modComp_frame ..).andThen (modFeed_frame ..) : Frame [.comp, .dlv] _ _))

theorem releasedOff_keepsApart (e : EdId) : KeepsApart s (releasedOff e s) := by
  have hf := releasedOff_frame e s
  refine .of_same (fun i => by rw [ringOf_congr hf.rings_eq]) (fun a => ?_) (by rw [hf.path_eq])
  rw [edOf_releasedOff]
  split <;> rfl

theorem turnOff_keepsApart (e : EdId) : KeepsApart s (turnOff e s) := by
  rw [turnOff_eq]
  exact (releasedOff_keepsApart s e).trans (.of_frame
    (((dropWait_frame ..).andThen (cancelAll_frame ..) : Frame [.splices, .down, .rep] _ _).andThen (stopChain_frame ..) :
      Frame [.splices, .down, .rep, .chans] _ _))

/-! ## The commands that change the map (R22, R24, R151, R183) -/

/-- SET RING places the region of its ring once it meets no other. -/
theorem doSetRing_keepsApart (ring : BitVec 8) (sil : BitVec 16) (res : BitVec 8) (b : Addr) (n : BitVec 32) :
    KeepsApart s (doSetRing ring sil res b n s).state := by
  cases hi : index? 32 ring.toNat with
  | none =>
    rw [doSetRing, hi]
    exact .refl s
  | some i =>
    rw [doSetRing_eq (index?_eq_some.1 hi)]
    split
    · exact .refl s
    split
    · exact .refl s
    split
    · exact .refl s
    · rename_i hmeets
      simp only [not_or, Bool.not_eq_true] at hmeets
      refine ⟨fun h => h.of_placed (clear_ring_iff.2 hmeets) ?_ fun y hy => ?_⟩
      · exact regionOf_ring.2 (by rw [ringOf_modRing_same]; exact ⟨rfl, rfl, rfl⟩)
      · rcases y with j | e | _
        · refine regionOf_ring_congr ?_
          rw [ringOf_modRing, if_neg (by rintro rfl; exact hy rfl)]
        · rfl
        · rfl

/-- DISABLE RING takes the region of its ring from the map. -/
theorem doDisableRing_keepsApart (ring : BitVec 8) : KeepsApart s (doDisableRing ring s).state := by
  unfold doDisableRing
  split
  · exact .refl s
  · rename_i i _
    split
    · exact .refl s
    · refine ⟨fun h => h.of_subset fun x r hr => ?_⟩
      rcases x with j | e | _
      · by_cases hj : j = i
        · subst hj
          have hen := (regionOf_ring.1 hr).1
          exact absurd hen (by simp [ringOf])
        · have hkept : placing (ringOf (modRing i (fun r => { r with enabled := false }) s) j) = placing (ringOf s j) := by
            rw [ringOf_modRing, if_neg hj]
          exact (regionOf_ring_congr hkept).symm.trans hr
      · exact hr
      · exact hr

/-- SET EDITION places the aperture of its edition where it already lies, or once it meets no other region. -/
theorem doSetEdition_keepsApart (ed : BitVec 8) (auto : Bool) (watch age quota : BitVec 16) (b : Addr) (off : BitVec 24) :
    KeepsApart s (doSetEdition ed auto watch age quota b off s).state := by
  cases he : index? 16 ed.toNat with
  | none =>
    rw [doSetEdition, he]
    exact .refl s
  | some e =>
    rw [doSetEdition_eq (index?_eq_some.1 he)]
    dsimp only
    split
    · exact .refl s
    split
    · exact .refl s
    split
    · exact .refl s
    · rename_i hmeets
      let f := setEditionRecord auto watch age quota b off
      have hplaced : KeepsApart s (modEd e f s) := by
        by_cases hsame : (edOf s e).base = some b
        · exact modEd_keepsApart s e f hsame.symm
        · simp only [hsame, not_false_eq_true, true_and, not_or, Bool.not_eq_true] at hmeets
          refine ⟨fun h => h.of_placed (clear_feed_iff.2 hmeets) ?_ fun y hy => ?_⟩
          · exact regionOf_feed.2 ⟨feedBase_eq (by rw [edOf_modEd_same]; rfl), rfl⟩
          · rcases y with j | a | _
            · rfl
            · refine regionOf_feed_congr ?_
              rw [edOf_modEd, if_neg (by rintro rfl; exact hy rfl)]
            · rfl
      show KeepsApart s (if _ then _ else _)
      split
      · exact hplaced.trans (watchExpires_keepsApart ..)
      · exact hplaced

/-- RELOCATE CONTROL moves the control aperture once it meets no other region there. -/
theorem doRelocateControl_keepsApart (b c : Addr) : KeepsApart s (doRelocateControl b c s).state := by
  unfold doRelocateControl
  split
  · exact .refl s
  split
  · exact .refl s
  · rename_i hmeets
    simp only [not_or, Bool.not_eq_true] at hmeets
    refine ⟨fun h => h.of_placed (clear_control_iff.2 hmeets) rfl fun y hy => ?_⟩
    rcases y with j | e | _
    · rfl
    · rfl
    · exact absurd rfl hy

end

end Sys2Proof.Machine
end

section
/-! SUPPORT. Every row keeps the regions of the map apart, and so does a step (R185). -/

set_option Elab.async false

namespace Sys2Proof.Machine

section
variable (s : State)

/-! ## The owning blocks of the commands -/

theorem applyTiming_keepsApart (i : RingId) : KeepsApart s (applyTiming i s) := by
  unfold applyTiming
  dsimp only
  split
  · exact silenceChange_keepsApart ..
  split
  · exact modRing_keepsApart _ _ _ rfl
  split
  · exact silenceChange_keepsApart ..
  · exact .refl s

theorem doSetRingTimingOnly_keepsApart (ring : BitVec 8) (sil : BitVec 16) (res : BitVec 8) :
    KeepsApart s (doSetRingTimingOnly ring sil res s).state := by
  cases hi : index? 32 ring.toNat with
  | none =>
    rw [doSetRingTimingOnly, hi]
    exact .refl s
  | some i =>
    rw [doSetRingTimingOnly_eq (index?_eq_some.1 hi)]
    split
    · exact .refl s
    split
    · exact .refl s
    · exact (modRing_keepsApart _ _ _ rfl).trans (applyTiming_keepsApart ..)

/-- A protection setting is no part of the map. -/
theorem setProt_keepsApart (p : ProgId) (v : Variant) (x : Option ProtPair) : KeepsApart s (setProt p v x s) :=
  .of_same (fun _ => rfl) (fun _ => rfl) rfl

theorem doSetProtection_keepsApart (p v m b : BitVec 8) : KeepsApart s (doSetProtection p v m b s).state := by
  unfold doSetProtection
  split
  · split
    · exact .refl s
    · exact setProt_keepsApart ..
  · exact .refl s

theorem doClearProtection_keepsApart (p v : BitVec 8) : KeepsApart s (doClearProtection p v s).state := by
  unfold doClearProtection
  split
  · exact setProt_keepsApart ..
  · exact .refl s

theorem doEditionOn_keepsApart (ed : BitVec 8) : KeepsApart s (doEditionOn ed s).state := by
  unfold doEditionOn
  split
  · exact .refl s
  · exact turnOn_keepsApart ..

theorem doEditionOff_keepsApart (ed : BitVec 8) : KeepsApart s (doEditionOff ed s).state := by
  unfold doEditionOff
  split
  · exact .refl s
  · exact turnOff_keepsApart ..

theorem doSetMemoryLimit_keepsApart (m : BitVec 64) : KeepsApart s (doSetMemoryLimit m s).state := by
  unfold doSetMemoryLimit
  split
  · exact .refl s
  · exact .of_control (frame_path ..) rfl

/-- After RESTART no ring is enabled and no edition has an aperture (R40, R161, R201). -/
theorem KeepsApart.of_restart {s t : State} {v : Vector RingRecord 32} (hrings : t.rings.recs = tmap restartRing v)
    (heds : t.eds = Vector.replicate 16 .reset) : KeepsApart s t := by
  refine ⟨fun _ => .of_empty (fun i => ?_) fun e => ?_⟩
  · rw [ringOf, hrings, tget_tmap]
    rfl
  · rw [edOf, heds, tget_replicate]
    rfl

theorem runAct_keepsApart (tag : Tag16) (c : Command) : KeepsApart s (runAct tag c s).state := by
  cases c with
  | setStreamEntry => exact .of_frame (doSetStreamEntry_frame ..)
  | loadStreamEntries => exact .of_frame (doLoadStreamEntries_frame ..)
  | setEccThreshold => exact .of_frame (doSetEccThreshold_frame ..)
  | setRing => exact doSetRing_keepsApart ..
  | setRingTimingOnly => exact doSetRingTimingOnly_keepsApart ..
  | disableRing => exact doDisableRing_keepsApart ..
  | setProtection => exact doSetProtection_keepsApart ..
  | clearProtection => exact doClearProtection_keepsApart ..
  | setProgramme => exact .of_frame (doSetProgramme_frame ..)
  | setCarriage => exact .of_frame (doSetCarriage_frame ..)
  | armSplice => exact .of_frame (doArmSplice_frame ..)
  | cancelSplice => exact .of_frame (doCancelSplice_frame ..)
  | setVariantNow => exact .of_frame (doSetVariantNow_frame ..)
  | startSchedule => exact .of_frame (doStartSchedule_frame ..)
  | haltSchedule => exact .of_frame (doHaltSchedule_frame ..)
  | clearSchedule => exact .of_frame (doClearSchedule_frame ..)
  | resumeSchedule => exact .of_frame (doResumeSchedule_frame ..)
  | setEdition => exact doSetEdition_keepsApart ..
  | editionOn => exact doEditionOn_keepsApart ..
  | editionOff => exact doEditionOff_keepsApart ..
  | timeLoad => exact .of_frame (doTimeLoad_frame ..)
  | relocateControl => exact doRelocateControl_keepsApart ..
  | setMemoryLimit => exact doSetMemoryLimit_keepsApart ..
  | setReportRing => exact .of_frame (doSetReportRing_frame ..)
  | reportAck => exact .of_frame (doReportAck_frame ..)
  | statistics => exact .of_frame (doStatistics_frame ..)
  | restart => exact .of_restart rfl rfl

/-! ## The command unit -/

theorem startCommand_keepsApart (c : TakenCommand) : KeepsApart s (startCommand c s) := by
  have report : ∀ (u : State) b, KeepsApart u (handOver b u) := fun u b => .of_frame (handOver_frame b u)
  unfold startCommand
  split
  · exact report ..
  · exact report ..
  · have hreset : KeepsApart s { restartAct s with cmd := { s.cmd with queue := [] } } := .of_restart rfl rfl
    exact (hreset.trans (report ..)).trans (.foldl (fun s c => report ..) _ _)
  · rename_i k _ _
    have hact := runAct_keepsApart s c.tag k
    split <;> rename_i heq <;> rw [heq] at hact
    · exact hact.trans (report ..)
    · exact hact.trans (.of_frame (frame_cmd ..))

theorem drain_keepsApart (fuel : Nat) : KeepsApart s (drain fuel s) := by
  induction fuel generalizing s with
  | zero => exact .refl s
  | succ fuel ih =>
    unfold drain
    split
    · exact (((KeepsApart.of_frame (frame_cmd s _)).trans (startCommand_keepsApart ..)).trans
        (.of_frame (endPurge_frame _))).trans (ih _)
    · exact .refl s

theorem finishRunning_keepsApart (o : CmdOutcome) : KeepsApart s (finishRunning o s) :=
  (KeepsApart.of_frame (endRunning_frame o s)).trans (drain_keepsApart ..)

theorem settlePurge_keepsApart : KeepsApart s (settlePurge s) := by
  have hscan := KeepsApart.of_frame (advanceScan_frame s)
  unfold settlePurge
  dsimp only
  split
  · exact hscan.trans (finishRunning_keepsApart ..)
  · exact hscan

theorem takeCommand_keepsApart (c : TakenCommand) : KeepsApart s (takeCommand c s) := by
  unfold takeCommand
  split
  · exact (startCommand_keepsApart s c).trans (.of_frame (endPurge_frame _))
  · split
    · exact .of_frame (frame_cmd ..)
    · exact .of_frame (handOver_frame ..)

/-! ## The downstream port -/

theorem streamListReturned_keepsApart (rsp : Response) : KeepsApart s (streamListReturned rsp s) := by
  have hwritten : ∀ t, KeepsApart s { s with stream := t } := fun t => .of_frame (frame_stream s t)
  unfold streamListReturned
  split
  · split
    · exact finishRunning_keepsApart ..
    · dsimp only
      split
      · exact (hwritten _).trans (finishRunning_keepsApart ..)
      · exact .of_same (fun _ => rfl) (fun _ => rfl) rfl
  · exact .refl s

theorem carriageListReturned_keepsApart (rsp : Response) : KeepsApart s (carriageListReturned rsp s) := by
  unfold carriageListReturned
  split
  · split
    · exact finishRunning_keepsApart ..
    · split
      · exact finishRunning_keepsApart ..
      · exact (KeepsApart.of_frame (receiveFrame_frame ..)).trans (finishRunning_keepsApart ..)
  · exact .refl s

theorem indexReturned_keepsApart : KeepsApart s (indexReturned s) := by
  have hidle : KeepsApart s { s with rep := { s.rep with writer := .idle } } := .of_frame (frame_rep ..)
  unfold indexReturned
  split
  · dsimp only
    split
    · exact (hidle.trans (.of_frame (setRingAct_frame ..))).trans (finishRunning_keepsApart ..)
    · exact hidle.trans (.of_frame (startWrite_frame _))
  · exact .refl s

theorem respond_keepsApart (tag : PortTag) (rsp : Response) : KeepsApart s (respond tag rsp s) := by
  cases hold : takeOldest tag s.down with
  | none =>
    rw [respond, hold]
    exact .refl s
  | some found =>
    obtain ⟨⟨kind, q⟩, rest⟩ := found
    rw [respond, hold]
    refine (KeepsApart.of_frame (frame_down s rest)).trans ?_
    cases kind with
    | forwarded => exact readyForwarded_keepsApart ..
    | ingest k => exact (readyForwarded_keepsApart ..).trans (ingestReturned_keepsApart ..)
    | delivery e i live =>
      have hback : KeepsApart { s with down := rest } (readReturned i { s with down := rest }) := modRing_keepsApart _ _ _ rfl
      refine (hback.trans ?_).trans (settlePurge_keepsApart _)
      cases live with
      | true => exact deliveryReturned_keepsApart ..
      | false => exact .refl _
    | streamList => exact streamListReturned_keepsApart ..
    | carriageList => exact carriageListReturned_keepsApart ..
    | wordFetch e live =>
      cases live with
      | true => exact .of_frame (wordReturned_frame ..)
      | false => exact .refl _
    | dataFetch e live =>
      cases live with
      | true => exact .of_frame (dataReturned_frame ..)
      | false => exact .refl _
    | recordWrite => exact .of_frame (recordReturned_frame ..)
    | indexWrite => exact indexReturned_keepsApart _

/-! ## The upstream port -/

/-- Which requests wait is no part of the map. -/
theorem withWaiting_keepsApart (ws : List Request) : KeepsApart s { s with path := { s.path with waiting := ws } } :=
  .of_control (frame_path ..) rfl

/-- Which requests are open is no part of the map. -/
theorem withOpen_keepsApart (os : List OpenReq) : KeepsApart s { s with path := { s.path with openReqs := os } } :=
  .of_control (frame_path ..) rfl

theorem takeRequest_keepsApart (r : Request) : KeepsApart s (takeRequest r s) := by
  have hfwd := fun k => forward_keepsApart s k r
  have hopen := openReq_keepsApart s r.tag
  unfold takeRequest
  cases classify s r with
  | beyond => exact hopen ..
  | feedRead e n => exact ((hopen ..).trans (takeFeedRead_keepsApart ..)).trans (settlePurge_keepsApart _)
  | lengthFault e => exact ((hopen ..).trans (.of_frame (modFeed_frame ..))).trans (feedReadTaken_keepsApart ..)
  | feedWrite e => exact (hopen ..).trans (.of_frame (modFeed_frame ..))
  | ingest i slot => exact takeIngest_keepsApart ..
  | malformed i => exact (hfwd _).trans (modRing_keepsApart _ _ _ rfl)
  | command k => exact (hfwd _).trans (takeCommand_keepsApart ..)
  | ringRead | controlOther | passThrough => exact hfwd _

theorem present_keepsApart (r : Request) : KeepsApart s (present r s) := by
  unfold present
  split
  · exact takeRequest_keepsApart s r
  · exact withWaiting_keepsApart ..

theorem idleStep_keepsApart : KeepsApart s (idleStep s) := by
  unfold idleStep
  split
  · exact .refl s
  · exact (withWaiting_keepsApart ..).trans (takeRequest_keepsApart ..)

end

/-! ## The rows -/

/-- The row ends in a next state, and keeps the regions apart on the way to it. -/
def EndsMapped (s : State) (o : Host.Outcome State Fault Refusal) : Prop := ∃ t, o = .next t ∧ KeepsApart s t

theorem KeepsApart.ends {s t : State} (h : KeepsApart s t) : EndsMapped s (.next t) := ⟨t, rfl, h⟩

theorem endsMapped_same (s : State) : EndsMapped s (.next s) := (KeepsApart.refl s).ends

/-- A row that changes nothing where its moment has not come (log entry 8). -/
theorem endsMapped_ite {s t : State} {due : Prop} [Decidable due] (h : KeepsApart s t) :
    EndsMapped s (if due then .next t else .next s) := by
  split
  · exact h.ends
  · exact endsMapped_same s

section
variable (s : State)

theorem execSpliceTReached_endsMapped (e : EdId) (p : ProgId) : EndsMapped s (execSpliceTReached e p s) := by
  unfold execSpliceTReached
  split
  · exact endsMapped_ite (.of_frame (reachT_frame ..))
  · exact endsMapped_same s

theorem execWindowEnd_endsMapped (e : EdId) (p : ProgId) : EndsMapped s (execWindowEnd e p s) := by
  unfold execWindowEnd
  split
  · exact endsMapped_ite (.of_frame (resolve_frame ..))
  · exact endsMapped_same s

theorem execOscillatorPeriodEnd_endsMapped : EndsMapped s (execOscillatorPeriodEnd s) := by
  unfold execOscillatorPeriodEnd
  split
  · exact (elapse_keepsApart s 1).ends
  · exact (KeepsApart.of_frame (frame_time s _)).ends

theorem execPpsEdge_endsMapped : EndsMapped s (execPpsEdge s) := by
  unfold execPpsEdge
  split
  · exact (KeepsApart.of_frame (applyLoad_frame ..)).ends
  · exact endsMapped_same s

theorem execPpsTimeout_endsMapped : EndsMapped s (execPpsTimeout s) := by
  unfold execPpsTimeout
  split
  · exact endsMapped_ite (.of_frame ((frame_time ..).andThen (handOver_frame ..) : Frame [.time, .down, .rep] s _))
  · exact endsMapped_same s

theorem execResponseLeaves_endsMapped (tag : PortTag) : EndsMapped s (execResponseLeaves tag s) := by
  unfold execResponseLeaves
  split
  · exact (withOpen_keepsApart ..).ends
  · exact endsMapped_same s

theorem execIngestWriteCompletion_endsMapped (tag : PortTag) (rsp : Response) (up : BitFault) :
    EndsMapped s (execIngestWriteCompletion tag rsp up s) := by
  unfold execIngestWriteCompletion
  split
  · exact ((KeepsApart.of_frame (frame_stream s _)).trans (respond_keepsApart ..)).ends
  · exact (respond_keepsApart ..).ends

/-- Hardware reset leaves the control aperture alone in the map (R181, R186). -/
theorem execHardwareReset_endsMapped (strap : BitVec 4) : EndsMapped s (execHardwareReset strap s) := by
  refine KeepsApart.ends ⟨fun _ => .of_empty (fun i => ?_) fun e => ?_⟩
  · exact congrArg RingRecord.enabled (tget_replicate RingRecord.reset i)
  · exact congrArg EditionRecord.base (tget_replicate EditionRecord.reset e)

/-- Every row keeps the regions apart: only a command and a reset change the map. -/
theorem exec_endsMapped (c : Instr) : EndsMapped s (exec c s) := by
  have hpresent : ∀ r, EndsMapped s (.next (present r s)) := fun r => (present_keepsApart s r).ends
  have hrespond : ∀ tag rsp, EndsMapped s (.next (respond tag rsp s)) := fun tag rsp => (respond_keepsApart s tag rsp).ends
  have hcommand : ∀ h k, EndsMapped s (takeRow h k s) := fun h k => (takeCommand_keepsApart s (takenRow h k)).ends
  have hupset : ∀ us, KeepsApart s (upsetRefs us s) := fun us => .of_frame (upsetRefs_frame us s)
  cases c with
  | ingestWrite r | malformedWrite r | ringRead r | passThroughRequest r | controlPassThrough r | requestBeyondLimit r
  | lengthFault r | feedWrite r | commandWrite r => exact hpresent r
  | wholeCellRead r us => exact ((hupset us).trans (present_keepsApart _ r)).ends
  | downstreamCompletion tag rsp | staleResponseDiscard tag rsp => exact hrespond tag rsp
  | deliveryReadCompletion _ rsp | wordFetchCompletion _ rsp | dataFetchCompletion _ rsp | streamListReadCompletion rsp
  | carriageListReadCompletion rsp | reportWriteCompletion rsp | indexBlockWriteCompletion rsp => exact hrespond _ rsp
  | ingestWriteCompletion tag rsp up => exact execIngestWriteCompletion_endsMapped s tag rsp up
  | responseLeaves tag => exact execResponseLeaves_endsMapped s tag
  | purgeScanStep us => exact (((hupset us).trans (.of_frame (scanStep_frame _))).trans (settlePurge_keepsApart _)).ends
  | silenceExpiry i => exact endsMapped_ite (silenceExpires_keepsApart ..)
  | feedWatchExpiry e => exact endsMapped_ite ((watchExpires_keepsApart ..).trans (settlePurge_keepsApart _))
  | spliceTReached e p => exact execSpliceTReached_endsMapped s e p
  | windowEnd e p => exact execWindowEnd_endsMapped s e p
  | waitReached e => exact (KeepsApart.of_frame (judgeWaiting_frame s e)).ends
  | referenceLost => exact endsMapped_ite (loseReference_keepsApart s)
  | stationReferenceEdge | referenceRestored => exact (referenceEdge_keepsApart s).ends
  | oscillatorPeriodEnd => exact execOscillatorPeriodEnd_endsMapped s
  | ppsEdge => exact execPpsEdge_endsMapped s
  | ppsTimeout => exact execPpsTimeout_endsMapped s
  | hardwareReset strap => exact execHardwareReset_endsMapped s strap
  | setStreamEntry | loadStreamEntries | setEccThreshold | setRing | setRingTimingOnly | disableRing | setProtection
  | clearProtection | setProgramme | setCarriage | armSplice | cancelSplice | setVariantNow | startSchedule | haltSchedule
  | clearSchedule | resumeSchedule | setEdition | editionOn | editionOff | timeLoad | relocateControl | setMemoryLimit
  | setReportRing | reportAck | statistics | restart => exact hcommand _ _

end

/-- Settles O14: a row leaves the map as it is, takes regions from it, or places one that its checks found clear of the others. -/
theorem stepKeepsRegionsApart : Obligations.StepKeepsRegionsApart := by
  unfold Obligations.StepKeepsRegionsApart
  intro s t h ht
  cases hp : s.pending with
  | nil =>
    rw [step_of_empty hp] at ht
    cases ht
    exact (idleStep_keepsApart s).law h
  | cons c rest =>
    obtain ⟨u, hu, hkeeps⟩ := exec_endsMapped { s with pending := rest } c
    rw [step, hp] at ht
    cases hu.symm.trans ht
    exact hkeeps.law ((KeepsApart.of_frame (frame_pending s rest)).law h)

end Sys2Proof.Machine
end

section
/-! SUPPORT. The two ends of a request: the response that meets the oldest downstream request of its tag, and the ready response that
leaves the upstream port (R175, R176, R180, R186). -/

namespace Sys2Proof.Machine

/-! ## The oldest request of a tag (R176) -/

section
variable {tag : PortTag}

theorem takeOldest_of_first {pre : List DownReq} {d : DownReq} (hpre : ∀ b ∈ pre, b.req.tag ≠ tag) (hd : d.req.tag = tag)
    (post : List DownReq) : takeOldest tag (pre ++ d :: post) = some (d, pre ++ post) := by
  induction pre with
  | nil => exact if_pos hd
  | cons b pre ih =>
    obtain ⟨hb, hrest⟩ := List.forall_mem_cons.1 hpre
    rw [List.cons_append, takeOldest, if_neg hb, ih hrest]
    rfl

theorem takeOldest_of_none {ds : List DownReq} (h : ∀ d ∈ ds, d.req.tag ≠ tag) : takeOldest tag ds = none := by
  induction ds with
  | nil => rfl
  | cons d ds ih =>
    obtain ⟨hd, hrest⟩ := List.forall_mem_cons.1 h
    rw [takeOldest, if_neg hd, ih hrest]
    rfl

/-- The response of a tag is that of the oldest open forwarded request of it without a response (log entry 12). -/
theorem readyForwarded_of_awaiting {s : State} {pre post : List OpenReq}
    (h : s.path.openReqs = pre ++ ⟨tag, .forwarded, none⟩ :: post)
    (hpre : ∀ o ∈ pre, o.tag = tag → o.cls = .forwarded → o.response ≠ none) (rsp : Response) :
    readyForwarded tag rsp s =
      { s with path := { s.path with openReqs := pre ++ ⟨tag, .forwarded, some rsp⟩ :: post } } := by
  unfold readyForwarded
  rw [h, readyFirst_append _ _ (fun b hb hsel => ?_) (by simp) rfl]
  simp only [Bool.and_eq_true, beq_iff_eq] at hsel
  exact hpre b hb hsel.1 hsel.2

end

/-- Settles O28: the oldest request of the tag is the one found, and a forwarded one makes the oldest unanswered open one ready. -/
theorem responseMeetsTheOldestRequest : Obligations.ResponseMeetsTheOldestRequest := by
  unfold Obligations.ResponseMeetsTheOldestRequest
  intro s tag rsp
  constructor
  case left =>
    rintro dpre q dpost pre _ post hdown hq hdpre hopen rfl hpre
    have hrow : exec (.downstreamCompletion tag rsp) s = .next (respond tag rsp s) := rfl
    rw [hrow, respond, hdown, takeOldest_of_first hdpre hq]
    exact congrArg _ (readyForwarded_of_awaiting (s := { s with down := dpre ++ dpost }) hopen hpre rsp)
  case right =>
    intro hnone
    have hrow : exec (.staleResponseDiscard tag rsp) s = .next (respond tag rsp s) := rfl
    rw [hrow, respond, takeOldest_of_none hnone]

/-! ## Responses leaving (R180) -/

section
variable {tag : PortTag} {before post : List OpenReq} {o : OpenReq}

/-- Requests of other tags only stand before the one that may leave. -/
theorem leave_append {pre : List OpenReq} (hpre : ∀ b ∈ pre, b.tag ≠ tag) (os : List OpenReq) :
    leave tag before (pre ++ os) = leave tag (before ++ pre) os := by
  induction pre generalizing before with
  | nil => rw [List.nil_append, List.append_nil]
  | cons b pre ih =>
    obtain ⟨hb, hrest⟩ := List.forall_mem_cons.1 hpre
    rw [List.cons_append, leave, if_neg hb, ih hrest, List.append_assoc, List.singleton_append]

theorem leave_of_unready (ht : o.tag = tag) (hr : o.response = none) : leave tag before (o :: post) = none := by
  rw [leave, if_pos ht, hr]

/-- A ready response leaves but for an earlier whole-cell read of its edition. -/
theorem leave_of_ready {rsp : Response} (ht : o.tag = tag) (hr : o.response = some rsp)
    (hfirst : ∀ e, o.cls = .feedRead e → ∀ b ∈ before, b.cls ≠ .feedRead e) :
    leave tag before (o :: post) = some (before ++ post) := by
  rw [leave, if_pos ht, hr]
  cases hc : o.cls with
  | feedRead e =>
    refine if_neg ?_
    simpa using hfirst e hc
  | forwarded => rfl
  | atOnce => rfl

theorem leave_of_behind {e : EdId} {b : OpenReq} (ht : o.tag = tag) (hc : o.cls = .feedRead e) (hb : b ∈ before)
    (hbc : b.cls = .feedRead e) : leave tag before (o :: post) = none := by
  cases hr : o.response with
  | none => exact leave_of_unready ht hr
  | some rsp =>
    rw [leave, if_pos ht, hr, hc]
    exact if_pos (List.any_eq_true.2 ⟨b, hb, by simpa using hbc⟩)

end

/-- Settles O23: the oldest request of the tag, by whether its response is ready and which requests stand before it. -/
theorem responseLeavesInOrder : Obligations.ResponseLeavesInOrder := by
  unfold Obligations.ResponseLeavesInOrder
  intro s tag pre o post hopen ht hpre
  have hfront : leave tag [] s.path.openReqs = leave tag pre (o :: post) := by
    rw [hopen, leave_append hpre, List.nil_append]
  have stays : leave tag pre (o :: post) = none → exec (.responseLeaves tag) s = .next s := by
    intro hnone
    show execResponseLeaves tag s = _
    rw [execResponseLeaves, hfront, hnone]
  refine ⟨fun rsp hr hfirst => ?_, fun hr => stays (leave_of_unready ht hr),
    fun e b hc hb hbc => stays (leave_of_behind ht hc hb hbc)⟩
  show execResponseLeaves tag s = _
  rw [execResponseLeaves, hfront, leave_of_ready ht hr hfirst]

end Sys2Proof.Machine
end

section
/-! SUPPORT. The commands of the memory path, RELOCATE CONTROL and SET MEMORY LIMIT, and hardware reset (R181, R183 to R186). -/

namespace Sys2Proof.Machine

/-- Settles O4: the reset state of strap 0 has every block but the aperture as that of any strap. -/
theorem hardwareResetRestoresEveryBlock : Obligations.HardwareResetRestoresEveryBlock := fun _ _ => rfl

section
variable {s : State} {b c : Addr} {m : BitVec 64}

/-- A base and complement that RELOCATE CONTROL does not take (R183). -/
abbrev BadControl (b c : Addr) : Prop := c ≠ ~~~b ∨ b.toNat % 4096 ≠ 0 ∨ 2 ^ 40 < b.toNat + 4096

/-- Everything RELOCATE CONTROL can come to, by its checks in their order. -/
theorem doRelocateControl_eq : doRelocateControl b c s =
    if BadControl b c then .done .range s
    else if meetsRing s b.toNat 4096 none = true ∨ meetsFeed s b.toNat 4096 none = true then .done .overlap s
    else .done .done { s with path := { s.path with control := b } } := rfl

/-- A memory limit that can be set (R184). -/
abbrev GoodLimit (m : BitVec 64) : Prop := 4096 ≤ m.toNat ∧ m.toNat ≤ 2 ^ 40 ∧ m.toNat % 4096 = 0

theorem doSetMemoryLimit_eq : doSetMemoryLimit m s =
    if GoodLimit m then .done .done { s with path := { s.path with limit := m.toNat } } else .done .range s := by
  have hgood : (m.toNat < 4096 ∨ Config.addressTop < m.toNat ∨ m.toNat % 4096 ≠ 0) ↔ ¬GoodLimit m := by
    simp only [GoodLimit, Config.addressTop]
    omega
  rw [doSetMemoryLimit, if_congr hgood rfl rfl, ite_not]

end

/-- Settles O56: the checks in their order. -/
theorem relocateControlMovesTheAperture : Obligations.RelocateControlMovesTheAperture := by
  unfold Obligations.RelocateControlMovesTheAperture
  intro s h b c hs row bad hits
  have ends : ∀ {o u}, doRelocateControl b c s = .done o u → u.refs = s.refs → row = .next (handOver (ended h 20 o) u) :=
    fun ha hu => takeRow_done (c := .relocateControl b c) hs nofun ha (hu ▸ hs.2)
  refine ⟨fun hbad => ends ?_ rfl, fun hok hmeets => ends ?_ rfl, fun hok hclear => ends ?_ rfl⟩
  · rw [doRelocateControl_eq, if_pos hbad]
  · rw [doRelocateControl_eq, if_neg hok, if_pos hmeets]
  · rw [doRelocateControl_eq, if_neg hok, if_neg hclear]

/-- RESTART, whether it runs at once, waits or is refused, keeps the memory limit (R184, R201). -/
theorem exec_restart_limit {s t : State} {h : CmdHeader} (ht : exec (.restart h) s = .next t) :
    t.path.limit = s.path.limit := by
  cases hr : s.cmd.running with
  | none =>
    rw [exec_restart h hr] at ht
    cases ht
    rw [(handOverAll_frame _ _).path_eq]
    rfl
  | some c =>
    have hrow : exec (.restart h) s = .next (takeCommand (takenRow h .restart) s) := rfl
    rw [hrow, takeCommand, hr] at ht
    dsimp only at ht
    split at ht
    · cases ht
      rfl
    · cases ht
      rw [handOver_path]

/-- Settles O57: the checks; the class of a request reads the map, of which the limit is no part; the two resets. -/
theorem setMemoryLimitReplacesTheLimit : Obligations.SetMemoryLimitReplacesTheLimit := by
  unfold Obligations.SetMemoryLimitReplacesTheLimit
  refine ⟨fun s h m hs => ?_, fun _ _ _ => rfl, fun strap s t ht => ?_, fun h s t ht => exec_restart_limit ht⟩
  · intro ok
    have ends : ∀ {o u}, doSetMemoryLimit m s = .done o u → u.refs = s.refs →
        exec (.setMemoryLimit h m) s = .next (handOver (ended h 21 o) u) :=
      fun ha hu => takeRow_done (c := .setMemoryLimit m) hs nofun ha (hu ▸ hs.2)
    refine ⟨fun hok => ends ?_ rfl, fun hbad => ends ?_ rfl⟩
    · rw [doSetMemoryLimit_eq, if_pos hok]
    · rw [doSetMemoryLimit_eq, if_neg hbad]
  · rw [hardwareResetRestoresEveryBlock] at ht
    rw [← Host.Outcome.next.inj ht]

end Sys2Proof.Machine
end

section
/-! SUPPORT. The command record: a command reads back from the bytes that the host writes, and which bits of a record are reserved
(R204, R208, R211). -/

set_option Elab.async false

namespace Sys2Proof.Machine

/-! ## The host's side (R208) -/

section
variable {tag : Tag16} {c : Command} {k off n : Nat}

theorem byteAt_encodeCommand_code : byteAt (encodeCommand tag c) 0 = commandCode c := byteAt_fit (by decide)

theorem leNat_encodeCommand_tag : leNat (encodeCommand tag c) 2 2 = tag.toNat := by
  rw [encodeCommand, leNat_fit (by decide)]
  simp

/-- The parameters of a command stand from byte 8 on. -/
theorem byteAt_encodeCommand_param (h8 : 8 ≤ k) (h64 : k < 64) :
    byteAt (encodeCommand tag c) k = byteAt (commandParams c) (k - 8) := by
  rw [encodeCommand, byteAt_fit h64, byteAt_append_right (by simpa using h8)]
  simp

theorem leNat_encodeCommand_param (h8 : 8 ≤ off) (h64 : off + n ≤ 64) :
    leNat (encodeCommand tag c) off n = leNat (commandParams c) (off - 8) n :=
  leNat_congr fun i hi => by
    rw [byteAt_encodeCommand_param (by omega) (by omega)]
    congr 1
    omega

end

/-- The flags of a byte, one by one. -/
theorem getElem_flagBit : ∀ b : Bool, (flagBit b 0)[0] = b ∧ (flagBit b 0)[1] = false ∧ (flagBit b 1)[0] = false ∧
    (flagBit b 1)[1] = b := by
  decide

/-- The stream entry of a SET STREAM ENTRY reads back (R206). -/
theorem streamWordAt_encodeCommand (tag : Tag16) (l : Label) (w : StreamWord) :
    streamWordAt (encodeCommand tag (.setStreamEntry l w)) 16 = w := by
  simp [streamWordAt, bitAt, field, byteAt_encodeCommand_param, leNat_encodeCommand_param, commandParams, encodeStreamWord,
    getElem_flagBit]

/-- The fields of a command read back from its record. -/
theorem commandFields_encodeCommand (tag : Tag16) (c : Command) : commandFields (encodeCommand tag c) = some c := by
  have hcode : byteAt (encodeCommand tag c) 0 = commandCode c := byteAt_encodeCommand_code
  cases c
  all_goals simp [commandFields, hcode, commandCode, streamWordAt_encodeCommand, bitAt, field, byteAt_encodeCommand_param,
    leNat_encodeCommand_param, commandParams, getElem_flagBit]

/-! ## Reserved fields (R211) -/

/-- No byte from an offset on has a bit set that its mask does not name. -/
def Named (mask : Nat → Byte) (off : Nat) (bs : List Byte) : Prop := ∀ i, byteAt bs i &&& ~~~mask (off + i) = 0

section
variable {mask : Nat → Byte} {off : Nat} {bs : List Byte}

theorem named_nil : Named mask off [] := fun _ => BitVec.zero_and

theorem named_cons_iff {x : Byte} : Named mask off (x :: bs) ↔ x &&& ~~~mask off = 0 ∧ Named mask (off + 1) bs := by
  constructor
  · refine fun h => ⟨h 0, fun i => ?_⟩
    rw [Nat.add_right_comm]
    exact h (i + 1)
  · rintro ⟨hx, hbs⟩ (_ | i)
    · exact hx
    · rw [byteAt_cons_succ, ← Nat.add_assoc, Nat.add_right_comm]
      exact hbs i

/-- A byte that the layout names as a whole. -/
theorem named_byte {x : Byte} (h : mask off = 0xFF) : Named mask off (x :: bs) ↔ Named mask (off + 1) bs := by
  have hall : ∀ b : Byte, b &&& ~~~(0xFF : Byte) = 0 := by decide
  rw [named_cons_iff, h, and_iff_right (hall x)]

/-- A byte written with no bit outside its mask. -/
theorem named_const {x : Byte} (h : x &&& ~~~mask off = 0) : Named mask off (x :: bs) ↔ Named mask (off + 1) bs := by
  rw [named_cons_iff, and_iff_right h]

theorem named_zero : Named mask off (0 :: bs) ↔ Named mask (off + 1) bs := named_const BitVec.zero_and

/-- A byte with one flag. -/
theorem named_flag {b : Bool} (h : mask off = 1) : Named mask off (flagBit b 0 :: bs) ↔ Named mask (off + 1) bs := by
  have hflag : ∀ b : Bool, flagBit b 0 &&& ~~~(1 : Byte) = 0 := by decide
  rw [named_cons_iff, h, and_iff_right (hflag b)]

/-- A byte with two flags. -/
theorem named_flags {b c : Bool} (h : mask off = 3) :
    Named mask off ((flagBit b 0 ||| flagBit c 1) :: bs) ↔ Named mask (off + 1) bs := by
  have hflags : ∀ b c : Bool, (flagBit b 0 ||| flagBit c 1) &&& ~~~(3 : Byte) = 0 := by decide
  rw [named_cons_iff, h, and_iff_right (hflags b c)]

theorem named_variant {v : Variant} (h : mask off = 7) :
    Named mask off (BitVec.ofNat 8 v.val :: bs) ↔ Named mask (off + 1) bs := by
  have hvariant : ∀ v : Variant, BitVec.ofNat 8 v.val &&& ~~~(7 : Byte) = 0 := by decide
  rw [named_cons_iff, h, and_iff_right (hvariant v)]

/-- A number in bytes that the layout names as wholes. -/
theorem named_number {n v : Nat} (h : ∀ i < n, mask (off + i) = 0xFF) :
    Named mask off (putLE n v ++ bs) ↔ Named mask (off + n) bs := by
  induction n generalizing off v with
  | zero => rfl
  | succ n ih =>
    have hrest : ∀ i < n, mask (off + 1 + i) = 0xFF := fun i hi => by
      rw [Nat.add_assoc, Nat.add_comm 1]
      exact h (i + 1) (by omega)
    have hfirst : mask off = 0xFF := h 0 (by omega)
    rw [putLE, List.cons_append, named_byte hfirst, ih hrest, Nat.add_assoc, Nat.add_comm 1]

/-- A label, whose second byte has four bits (R208). -/
theorem named_label {l : Label} (h0 : mask off = 0xFF) (h1 : mask (off + 1) = 0x0F) :
    Named mask off (putLE 2 l.toNat ++ bs) ↔ Named mask (off + 2) bs := by
  have hhigh : ∀ h < 16, BitVec.ofNat 8 h &&& ~~~(0x0F : Byte) = 0 := by decide
  have hlt := l.isLt
  rw [show putLE 2 l.toNat ++ bs = BitVec.ofNat 8 l.toNat :: BitVec.ofNat 8 (l.toNat / 256) :: bs from rfl, named_byte h0,
    named_cons_iff, h1, and_iff_right (hhigh _ (by omega))]

end

/-- The layout of a record depends on its kind code, and for STATISTICS on whether its scope is ALL (R208). -/
theorem commandNamed_congr {a b : List Byte} (hcode : byteAt a 0 = byteAt b 0)
    (hscope : byteAt b 0 = 24 → (byteAt a 8 = 3 ↔ byteAt b 8 = 3)) : commandNamed a = commandNamed b := by
  have hnames : commandNames a (byteAt b 0).toNat = commandNames b (byteAt b 0).toNat := by
    by_cases h : byteAt b 0 = 24
    · rw [h]
      exact if_congr (hscope h) rfl rfl
    · have hne : (byteAt b 0).toNat ≠ 24 := fun hc => h (BitVec.eq_of_toNat_eq hc)
      unfold commandNames
      split
      case h_24 => contradiction
      all_goals rfl
  funext i
  rw [commandNamed, commandNamed, hcode, hnames]

theorem commandNamed_of_code {bs : List Byte} {x : Byte} (hcode : byteAt bs 0 = x) (hx : x ≠ 24) :
    commandNamed bs = commandNamed [x] :=
  commandNamed_congr hcode fun h => absurd h hx

/-- The host sets no reserved bit of a command's parameters; with scope ALL the number of STATISTICS is reserved. -/
theorem named_commandParams (tag : Tag16) {c : Command} (hall : ∀ n, c = .statistics 3 n → n = 0) :
    Named (commandNamed (encodeCommand tag c)) 8 (commandParams c ++ []) := by
  have hcode : byteAt (encodeCommand tag c) 0 = commandCode c := byteAt_encodeCommand_code
  cases c with
  | statistics scope number =>
    have hscope : byteAt (encodeCommand tag (.statistics scope number)) 8 = scope :=
      byteAt_encodeCommand_param (by decide) (by decide)
    by_cases h3 : scope = 3
    · subst h3
      rw [hall number rfl] at hcode hscope ⊢
      rw [commandNamed_congr (b := [24, 0, 0, 0, 0, 0, 0, 0, 3]) hcode fun _ => by rw [hscope]; rfl]
      simp (disch := decide) only [commandParams, List.cons_append, List.nil_append, named_const, named_nil]
    · rw [commandNamed_congr (b := [24]) hcode fun _ => by rw [hscope]; exact iff_of_false h3 (by decide)]
      simp (disch := decide) only [commandParams, List.cons_append, List.nil_append, named_byte, named_nil]
  | _ =>
    rw [commandNamed_of_code hcode (by simp [commandCode])]
    simp (disch := decide) only [commandCode, commandParams, encodeStreamWord, List.reduceReplicate, List.append_assoc,
      List.cons_append, List.nil_append, named_byte, named_const, named_flag, named_flags, named_variant, named_number,
      named_label, named_nil, Nat.reduceAdd]

theorem reservedClear_encodeCommand (tag : Tag16) {c : Command} (hall : ∀ n, c = .statistics 3 n → n = 0) :
    reservedClear (encodeCommand tag c) (commandNamed (encodeCommand tag c)) 64 = true := by
  have hparams := named_commandParams tag hall
  rw [List.append_nil] at hparams
  have htag : ∀ i < 2, commandNamed (encodeCommand tag c) (2 + i) = 0xFF := fun i hi => if_pos (by omega)
  have hrecord : Named (commandNamed (encodeCommand tag c)) 0
      (commandCode c :: 0 :: (putLE 2 tag.toNat ++ 0 :: 0 :: 0 :: 0 :: commandParams c)) :=
    (named_byte rfl).2 (named_zero.2 ((named_number htag).2
      (named_zero.2 (named_zero.2 (named_zero.2 (named_zero.2 hparams))))))
  refine reservedClear_iff.2 fun k hk => ?_
  have hbyte := hrecord k
  rw [Nat.zero_add] at hbyte
  rw [← hbyte, encodeCommand, byteAt_fit hk]
  simp

/-- A record that the host writes is taken as the command it was built from, with every field at every value. -/
theorem takenRecord_encodeCommand (tag : Tag16) (slot : BitVec 6) {c : Command} (hall : ∀ n, c = .statistics 3 n → n = 0) :
    takenRecord (encodeCommand tag c) slot = takenRow ⟨tag, slot⟩ c := by
  have hparse : parseCommand (encodeCommand tag c) = .known c := by
    rw [parseCommand, commandFields_encodeCommand]
    exact if_pos (reservedClear_encodeCommand tag hall)
  rw [takenRecord, byteAt_encodeCommand_code, field_of_leNat leNat_encodeCommand_tag, hparse]
  rfl

/-! ## Records that are refused (R190, R211) -/

theorem parseCommand_of_unknown {bs : List Byte} (h : (byteAt bs 0).toNat = 0 ∨ 25 < (byteAt bs 0).toNat) :
    parseCommand bs = .unknown := by
  have hnone : commandFields bs = none := by
    unfold commandFields
    dsimp only
    split
    case h_26 => rfl
    all_goals omega
  rw [parseCommand, hnone]

theorem parseCommand_of_reserved {bs : List Byte} (h1 : 1 ≤ (byteAt bs 0).toNat) (h25 : (byteAt bs 0).toNat ≤ 25)
    (h : ∃ i, i < 64 ∧ byteAt bs i &&& ~~~commandNamed bs i ≠ 0) : parseCommand bs = .reserved := by
  obtain ⟨i, hi, hbit⟩ := h
  have hknown : (commandFields bs).isSome = true := by
    unfold commandFields
    dsimp only
    split
    case h_4 | h_6 => split <;> rfl
    case h_26 =>
      simp only [imp_false] at *
      omega
    all_goals rfl
  obtain ⟨c, hc⟩ := Option.isSome_iff_exists.1 hknown
  rw [parseCommand, hc]
  exact if_neg fun hclear => hbit (reservedClear_iff.1 hclear i hi)

/-- Every parameter that a layout names lies in the bytes 8 to 28 (R208). -/
theorem commandNames_within (bs : List Byte) (kind : Nat) :
    (∀ r ∈ (commandNames bs kind).1, 8 ≤ r.1 ∧ r.2 ≤ 28) ∧ ∀ r ∈ (commandNames bs kind).2, 8 ≤ r.1 ∧ r.1 ≤ 28 := by
  unfold commandNames
  split
  case h_24 => split <;> simp
  all_goals simp

theorem commandNamed_outside (bs : List Byte) {i : Nat} (h : i = 1 ∨ (4 ≤ i ∧ i ≤ 7) ∨ 29 ≤ i) : commandNamed bs i = 0 := by
  obtain ⟨hranges, hbytes⟩ := commandNames_within bs (byteAt bs 0).toNat
  have hany : ((commandNames bs (byteAt bs 0).toNat).1.any fun r => r.1 ≤ i && i ≤ r.2) = false := by
    refine List.any_eq_false.2 fun r hr => ?_
    have := hranges r hr
    simp only [Bool.and_eq_true, decide_eq_true_iff]
    omega
  have hfind : (commandNames bs (byteAt bs 0).toNat).2.find? (fun r => r.1 == i) = none := by
    refine List.find?_eq_none.2 fun r hr => ?_
    have := hbytes r hr
    simp only [beq_iff_eq]
    omega
  rw [commandNamed, if_neg (by omega)]
  simp only [hany, hfind]
  rfl

end Sys2Proof.Machine
end

section
/-! SUPPORT. A command write: its forwarding, what becomes of its record, and the start of the commands that waited (R182, R188 to
R190). -/

namespace Sys2Proof.Machine

section
variable {s : State} {c : TakenCommand}

/-! ## The command unit takes a command (R188, R189, R190) -/

theorem takeCommand_of_idle (hr : s.cmd.running = none) : takeCommand c s = endPurge (startCommand c s) := by
  rw [takeCommand, hr]

theorem takeCommand_of_room (hr : s.cmd.running ≠ none) (hq : s.cmd.queue.length < 8) :
    takeCommand c s = { s with cmd := { s.cmd with queue := s.cmd.queue ++ [c] } } := by
  obtain ⟨x, hx⟩ := Option.ne_none_iff_exists'.1 hr
  rw [takeCommand, hx]
  exact if_pos hq

theorem takeCommand_of_full (hr : s.cmd.running ≠ none) (hq : 8 ≤ s.cmd.queue.length) :
    takeCommand c s = handOver (commandReport c .queueFull) s := by
  obtain ⟨x, hx⟩ := Option.ne_none_iff_exists'.1 hr
  rw [takeCommand, hx]
  exact if_neg (Nat.not_lt.2 hq)

/-- A command that ends as it starts, with its COMMAND report alone. -/
theorem takeCommand_of_refused {o : CmdOutcome} (hs : CmdIdle s) (hstart : startCommand c s = handOver (commandReport c o) s) :
    takeCommand c s = handOver (commandReport c o) s := by
  have hpurge : NoPurge (handOver (commandReport c o) s) := by
    rw [NoPurge, handOver_refs, handOver_cmd]
    exact hs.noPurge
  rw [takeCommand_of_idle hs.1, hstart, endPurge_of_noPurge hpurge]

theorem startCommand_of_unknown (h : c.body = .unknown) : startCommand c s = handOver (commandReport c .unknown) s := by
  rw [startCommand, h]

theorem startCommand_of_reserved (h : c.body = .reserved) : startCommand c s = handOver (commandReport c .range) s := by
  rw [startCommand, h]

/-! ## The waiting commands (R190) -/

theorem startWaiting_of_none (h : s.cmd.running ≠ none ∨ s.cmd.queue = []) : startWaiting s = s := by
  unfold startWaiting
  cases hq : s.cmd.queue with
  | nil => rfl
  | cons c rest =>
    obtain ⟨x, hx⟩ := Option.ne_none_iff_exists'.1 (h.resolve_right (by simp [hq]))
    simp only [List.length_cons, drain, hx]

/-- The head of the queue is taken as its own row would take it, and then the rest may start. -/
theorem startWaiting_head {rest : List TakenCommand} (h : s.cmd = { running := none, queue := c :: rest }) :
    startWaiting s = startWaiting (takeCommand c { s with cmd := { running := none, queue := rest } }) := by
  let u : State := { s with cmd := { running := none, queue := rest } }
  have hqueue : (takeCommand c u).cmd.queue.length ≤ rest.length := by
    rw [takeCommand_of_idle rfl, endPurge_queue]
    exact startCommand_queue_le c u
  obtain ⟨j, hj⟩ := Nat.exists_eq_add_of_le hqueue
  calc startWaiting s = drain rest.length (takeCommand c u) := startWaiting_cons h
    _ = drain (takeCommand c u).cmd.queue.length (takeCommand c u) := by rw [hj, drain_add _ _ _ le_rfl]

end

/-- A command write that can be taken is forwarded, and then its record is taken (R182, R188). -/
theorem exec_commandWrite {s : State} {r : Request} {k : BitVec 6} (hclass : classify s r = .command k) (ht : Takes s r) :
    exec (.commandWrite r) s = .next (takeCommand (takenRecord r.data k) (forward .forwarded r s)) := by
  show Host.Outcome.next (present r s) = _
  rw [present_of_takes ht, takeRequest, hclass]

/-- Settles O16: the write by the state of the command unit and the parse of its record; the layout; the queue; the rows. -/
theorem commandWriteTakesItsRecord : Obligations.CommandWriteTakesItsRecord := by
  unfold Obligations.CommandWriteTakesItsRecord
  refine ⟨fun s r k hclass ht => ?_, fun bs i => commandNamed_outside bs, fun s => startWaiting_of_none,
    fun s c rest => startWaiting_head, fun h c s => by cases c <;> rfl⟩
  intro u refused kind
  have hrow : exec (.commandWrite r) s = .next (takeCommand (takenRecord r.data k) u) := exec_commandWrite hclass ht
  rw [hrow]
  refine ⟨fun _ => rfl, fun _ tag c hall hdata => ?_, fun hr hq => ?_, fun hr hq => ?_, fun hs hkind => ?_,
    fun hs h1 h25 hbit => ?_⟩
  · rw [hdata, takenRecord_encodeCommand tag k hall]
    rfl
  · exact congrArg _ (takeCommand_of_room (s := u) hr hq)
  · exact congrArg _ (takeCommand_of_full (s := u) hr hq)
  · have hbody : (takenRecord r.data k).body = .unknown := parseCommand_of_unknown hkind
    exact congrArg _ (takeCommand_of_refused (s := u) hs (startCommand_of_unknown hbody))
  · have hbody : (takenRecord r.data k).body = .reserved := parseCommand_of_reserved h1 h25 hbit
    exact congrArg _ (takeCommand_of_refused (s := u) hs (startCommand_of_reserved hbody))

end Sys2Proof.Machine
end

section
/-! SUPPORT. The report writer: the hand-over of a report, the completions of the writer's two writes, and the commands SET
REPORT RING and REPORT ACK (R192 to R198). -/

set_option Elab.async false

namespace Sys2Proof.Machine

/-! ## The writer goes on (R193) -/

section
variable {s : State}

theorem startWrite_of_pending {p : PendingRecord} {ps : List PendingRecord} (hw : s.rep.writer = .idle)
    (hp : s.rep.pend = p :: ps) : startWrite s = issue .recordWrite
      (ownWrite 222 (s.rep.base.toNat + 32 + 32 * s.rep.writeIdx) (encodeReport p s.rep.lost s.rep.seq))
      { s with rep := { s.rep with lost := 0, writer := .record s.rep.lost } } := by
  unfold startWrite
  rw [hw, hp]
  rfl

theorem startWrite_of_empty (hp : s.rep.pend = []) : startWrite s = s := by
  rcases startWrite_cases s with ⟨p, ps, _, hcons, _⟩ | ⟨_, h⟩
  · rw [hp] at hcons
    cases hcons
  · exact h

theorem startWrite_of_busy (hw : s.rep.writer ≠ .idle) : startWrite s = s := by
  rcases startWrite_cases s with ⟨p, ps, hidle, _⟩ | ⟨_, h⟩
  · exact absurd hidle hw
  · exact h

end

/-- Settles O33: the writer accepts a report exactly while fewer than N_r − 1 records are held, and goes on if it is idle. -/
theorem handOverAcceptsOrDrops : Obligations.HandOverAcceptsOrDrops := by
  unfold Obligations.HandOverAcceptsOrDrops
  intro b s n
  have hn : n = unread s.rep + s.rep.pend.length := rfl
  have haccepts := accepts_iff s.rep
  refine ⟨fun hset hroom => ?_, fun hfull => ?_⟩
  · have ha : accepts s.rep = true := haccepts.2 ⟨hset, by omega⟩
    refine ⟨by rw [handOver_pend, if_pos ha], fun hw hp => ?_, fun hw => ?_⟩ <;> rw [handOver_accepted ha]
    · have hpend : s.rep.pend ++ [⟨b, s.time.now⟩] = [⟨b, s.time.now⟩] := by rw [hp, List.nil_append]
      rw [startWrite_of_pending (by exact hw) (by exact hpend)]
      rfl
    · rw [startWrite_of_busy (by exact hw)]
      exact ⟨rfl, rfl⟩
  · have ha : accepts s.rep = false := by
      rw [Bool.eq_false_iff, Ne, haccepts]
      rintro ⟨hset, hroom⟩
      rcases hfull with hunset | hmany
      · exact absurd (hset.symm.trans hunset) (by decide)
      · omega
    exact handOver_dropped ha

/-! ## The completion of a record write (R193, R194, R197) -/

theorem exec_reportWriteCompletion {s : State} {q : Request} {rest : List DownReq}
    (h : takeOldest 222 s.down = some (⟨.recordWrite, q⟩, rest)) (rsp : Response) :
    exec (.reportWriteCompletion rsp) s = .next (recordReturned rsp { s with down := rest }) := by
  show Host.Outcome.next (respond 222 rsp s) = _
  simp only [respond, h]

theorem recordReturned_of_okay {s : State} {carried : BitVec 16} (hw : s.rep.writer = .record carried) (d : List Byte) :
    recordReturned ⟨.okay, d⟩ s = issueIndex { s with rep := recordWritten s.rep } := by
  rw [recordReturned, hw]

theorem recordReturned_of_error {s : State} {carried : BitVec 16} (hw : s.rep.writer = .record carried) (d : List Byte) :
    recordReturned ⟨.error, d⟩ s = issueIndex { s with rep := recordFailed s.rep carried } := by
  rw [recordReturned, hw]

theorem isAckDone_iff {b : Report} : isAckDone b = true ↔ ∃ slot tag, b = .command 23 slot tag .done := by
  unfold isAckDone
  split
  · simp
  · rename_i hother
    simp only [Bool.false_eq_true, false_iff]
    rintro ⟨slot, tag, rfl⟩
    exact hother _ _ _ rfl

/-- The record that a REPORT ACK's own DONE report makes, with nothing unread before it: it is read at once (R193). -/
abbrev ReadAtOnce (r : ReportWriter) (p : PendingRecord) : Prop :=
  (∃ slot tag, p.body = .command 23 slot tag .done) ∧ r.readIdx = r.writeIdx

section
variable {r : ReportWriter} {p : PendingRecord} {ps : List PendingRecord}

theorem recordWritten_of_readAtOnce (hp : r.pend = p :: ps) (h : ReadAtOnce r p) :
    let w := nextIndex r.writeIdx r.places
    recordWritten r = driveInt { r with pend := ps, writeIdx := w, readIdx := w, seq := r.seq + 1 } := by
  simp [recordWritten, hp, isAckDone_iff.2 h.1, h.2]

theorem recordWritten_of_unread (hp : r.pend = p :: ps) (h : ¬ReadAtOnce r p) :
    recordWritten r = driveInt { r with pend := ps, writeIdx := nextIndex r.writeIdx r.places, seq := r.seq + 1 } := by
  have hkept : (isAckDone p.body && r.readIdx == r.writeIdx) = false := by
    rw [Bool.eq_false_iff, Ne, Bool.and_eq_true, isAckDone_iff, beq_iff_eq]
    exact h
  simp [recordWritten, hp, hkept]

theorem recordFailed_eq (hp : r.pend = p :: ps) (carried : BitVec 16) :
    recordFailed r carried = { r with pend := ps, lost := satAdd r.lost (carried.toNat + 1) } := by
  rw [recordFailed, hp]
  rfl

end

/-- Settles O31: the completion by its response, and with OKAY by whether the record is read at once; the index block follows. -/
theorem recordWriteCompletes : Obligations.RecordWriteCompletes := by
  unfold Obligations.RecordWriteCompletes
  intro s q rest carried p ps hold hw hp r w own after
  refine ⟨fun d hown => ?_, fun d hother => ?_, fun d => ?_⟩ <;> rw [exec_reportWriteCompletion hold]
  · rw [recordReturned_of_okay (by exact hw), recordWritten_of_readAtOnce (by exact hp) hown]
    rfl
  · rw [recordReturned_of_okay (by exact hw), recordWritten_of_unread (by exact hp) hother]
    rfl
  · rw [recordReturned_of_error (by exact hw), recordFailed_eq (by exact hp)]
    rfl

/-! ## The act of SET REPORT RING (R196) -/

/-- A ring whose indices are both 0 holds no unread record (R197). -/
theorem unread_of_empty {r : ReportWriter} (hw : r.writeIdx = 0) (hr : r.readIdx = 0) : unread r = 0 := by
  simp [unread, hw, hr]

theorem setRingAct_eq (n : Nat) (i : Bool) (b : Addr) (s : State) :
    let lost := BitVec.ofNat 16 (min 65535 (s.rep.lost.toNat + (s.rep.pend.length - (n - 1))))
    setRingAct n i b s = { s with
      rep := { s.rep with
        isSet := true, base := b, places := n, intEnable := i, writeIdx := 0, readIdx := 0,
        pend := s.rep.pend.take (n - 1), lost := lost, intLine := false, writer := .index },
      down := s.down ++ [⟨.indexWrite, ownWrite 222 b.toNat (encodeIndex 0 lost s.rep.seq)⟩] } := by
  intro lost
  have hlost : satAdd s.rep.lost (s.rep.pend.length - (s.rep.pend.take (n - 1)).length) = lost := by
    have hdropped : s.rep.pend.length - (s.rep.pend.take (n - 1)).length = s.rep.pend.length - (n - 1) := by
      rw [List.length_take]
      omega
    rw [hdropped]
    rfl
  simp only [setRingAct, hlost, driveInt, intWanted, unread_of_empty, Nat.lt_irrefl, decide_false, Bool.and_false,
    issueIndex, issue]
  rfl

/-! ## The completion of an index block write (R190, R193, R196) -/

theorem exec_indexBlockWriteCompletion {s : State} {q : Request} {rest : List DownReq}
    (h : takeOldest 222 s.down = some (⟨.indexWrite, q⟩, rest)) (rsp : Response) :
    exec (.indexBlockWriteCompletion rsp) s = .next (indexReturned { s with down := rest }) := by
  show Host.Outcome.next (respond 222 rsp s) = _
  simp only [respond, h]

section
variable {s : State}

theorem indexReturned_of_ring {c : TakenCommand} {n : Nat} {i : Bool} {b : Addr} (hw : s.rep.writer = .index)
    (hr : s.cmd.running = some ⟨c, .reportRing n i b⟩) :
    indexReturned s = finishRunning .done (setRingAct n i b { s with rep := { s.rep with writer := .idle } }) := by
  unfold indexReturned
  rw [hw]
  simp only [hr]

theorem indexReturned_of_other (hw : s.rep.writer = .index) (hr : ∀ c n i b, s.cmd.running ≠ some ⟨c, .reportRing n i b⟩) :
    indexReturned s = startWrite { s with rep := { s.rep with writer := .idle } } := by
  unfold indexReturned
  rw [hw]
  dsimp only
  split
  · rename_i hring
    exact (hr _ _ _ _ hring).elim
  · rfl

end

/-- Settles O32: the completion by the command in flight and the pending list. -/
theorem indexWriteCompletes : Obligations.IndexWriteCompletes := by
  unfold Obligations.IndexWriteCompletes
  intro s rsp q rest hold hw u row
  have hrow : row = .next (indexReturned { s with down := rest }) := exec_indexBlockWriteCompletion hold rsp
  refine ⟨fun hother hp => ?_, fun hother p ps hp => ?_, fun c n i b hring => ?_⟩ <;> rw [hrow]
  · rw [indexReturned_of_other (by exact hw) (by exact hother), startWrite_of_empty (by exact hp)]
  · rw [indexReturned_of_other (by exact hw) (by exact hother), startWrite_of_pending rfl (by exact hp)]
    rfl
  · rw [indexReturned_of_ring (by exact hw) (by exact hring), setRingAct_eq, finishRunning_eq (c := c) _ (by exact hring)]

/-! ## SET REPORT RING (R196) -/

/-- The checks of SET REPORT RING fail (R196). -/
abbrev BadReportRing (n : BitVec 16) (b : Addr) : Prop :=
  b.toNat % 4096 ≠ 0 ∨ n.toNat < 64 ∨ 16384 < n.toNat ∨ 2 ^ 40 < b.toNat + 32 * (n.toNat + 1)

theorem doSetReportRing_eq (n : BitVec 16) (i : Bool) (b : Addr) (s : State) : doSetReportRing n i b s =
    if BadReportRing n b then .done .range s
    else if s.rep.writer = .idle then .done .done (setRingAct n.toNat i b s)
    else .inFlight (.reportRing n.toNat i b) s := rfl

/-- Settles O58: the checks, the act on an idle writer, and the wait for a busy one. -/
theorem setReportRingStartsANewRing : Obligations.SetReportRingStartsANewRing := by
  unfold Obligations.SetReportRingStartsANewRing
  intro s h n en b hs row bad
  have done : ∀ {o u}, doSetReportRing n en b s = .done o u → u.refs.scan = none → row = .next (handOver (ended h 22 o) u) :=
    fun ha hu => takeRow_done (c := .setReportRing n en b) hs nofun ha hu
  refine ⟨fun hbad => ?_, fun hok hw => ?_, fun hok hw => ?_⟩
  · exact done (by rw [doSetReportRing_eq, if_pos hbad]) hs.2
  · refine done ?_ hs.2
    rw [doSetReportRing_eq, if_neg hok, if_pos hw, setRingAct_eq]
  · refine takeRow_inFlight (c := .setReportRing n en b) hs ?_ hs.2 nofun
    exact (doSetReportRing_eq ..).trans (by rw [if_neg hok, if_neg hw])

/-! ## REPORT ACK (R197) -/

section
variable {s : State} {a : BitVec 16}

theorem doReportAck_of_unset (h : s.rep.isSet = false) : doReportAck a s = .done .state s := by
  simp [doReportAck, h]

theorem doReportAck_of_set (h : s.rep.isSet = true) : doReportAck a s =
    if s.rep.places ≤ a.toNat ∨ unread s.rep < indexDiff a.toNat s.rep.readIdx s.rep.places then .done .range s
    else .done .done { s with rep := driveInt { s.rep with readIdx := a.toNat } } := by
  simp [doReportAck, h]

end

/-- Settles O59: STATE with no ring set, RANGE outside the unread span, and otherwise the move with INT. -/
theorem reportAckMovesTheReadIndex : Obligations.ReportAckMovesTheReadIndex := by
  unfold Obligations.ReportAckMovesTheReadIndex
  intro s h a hs hread hwrite row N span
  have done : ∀ {o u}, doReportAck a s = .done o u → u.refs.scan = none → row = .next (handOver (ended h 23 o) u) :=
    fun ha hu => takeRow_done (c := .reportAck a) hs nofun ha hu
  have hspan : unread s.rep < indexDiff a.toNat s.rep.readIdx s.rep.places ↔ ¬span := by
    rw [unread, indexDiff, Nat.mod_eq_of_lt hread, Nat.not_le]
  refine ⟨fun hunset => done (doReportAck_of_unset hunset) hs.2, fun hset hbad => done ?_ hs.2,
    fun hset ha hin => done ?_ hs.2⟩
  · rw [doReportAck_of_set hset, if_pos (hbad.imp_right hspan.2)]
  · rw [doReportAck_of_set hset, if_neg (not_or.2 ⟨not_le.2 ha, fun hlt => hspan.1 hlt hin⟩)]
    simp only [driveInt, intWanted, unread, hset, Nat.mod_eq_of_lt ha, Bool.true_and, N]

end Sys2Proof.Machine
end

section
/-! SUPPORT. STATISTICS: the records of each scope (R199, R200). -/

set_option Elab.async false

namespace Sys2Proof.Machine

section
variable {s : State} {scope number : BitVec 8}

theorem doStatistics_of_edition {e : EdId} (h : scope = 1) (he : e.val = number.toNat) :
    doStatistics scope number s = .done .done (handOverAll (editionStats s e) s) := by
  simp only [doStatistics, if_pos h, index?_eq_some.2 he]

theorem doStatistics_of_ring {i : RingId} (h : scope = 2) (hi : i.val = number.toNat) :
    doStatistics scope number s = .done .done (handOverAll (ringStats s i) s) := by
  subst h
  simp [doStatistics, index?_eq_some.2 hi]

theorem doStatistics_of_all (h : scope = 3) (hn : number = 0) : doStatistics scope number s = .done .done (handOverAll
    ((List.finRange 16).flatMap (editionStats s) ++ (List.finRange 32).flatMap (ringStats s)) s) := by
  subst h hn
  simp [doStatistics]

/-- A scope or number outside its range (R199, log entry 19). -/
abbrev BadStatistics (scope number : BitVec 8) : Prop :=
  (scope = 1 ∧ 16 ≤ number.toNat) ∨ (scope = 2 ∧ 32 ≤ number.toNat) ∨ (scope = 3 ∧ number ≠ 0) ∨
    (scope ≠ 1 ∧ scope ≠ 2 ∧ scope ≠ 3)

theorem doStatistics_of_bad (h : BadStatistics scope number) : doStatistics scope number s = .done .range s := by
  rcases h with ⟨rfl, hn⟩ | ⟨rfl, hn⟩ | ⟨rfl, hn⟩ | ⟨h1, h2, h3⟩
  · simp [doStatistics, index?_eq_none.2 hn]
  · simp [doStatistics, index?_eq_none.2 hn]
  · rw [doStatistics, if_neg (by decide), if_neg (by decide), if_pos rfl, if_pos hn]
  · rw [doStatistics, if_neg h1, if_neg h2, if_neg h3]

end

/-- Settles O60: the records of an edition, of a ring and of all, and the refusals. -/
theorem statisticsReportsTheCounters : Obligations.StatisticsReportsTheCounters := by
  unfold Obligations.StatisticsReportsTheCounters
  intro s h scope number hs edition ring row done
  have reports : ∀ {l}, doStatistics scope number s = .done .done (handOverAll l s) → row = done l := fun {l} ha =>
    takeRow_done (c := .statistics scope number) hs nofun ha (by rw [handOverAll_eq]; exact hs.2)
  refine ⟨fun e hsc he => ?_, fun i hsc hi => ?_, fun hsc hn => ?_, fun hbad => ?_⟩
  · exact reports (doStatistics_of_edition hsc he)
  · exact reports (doStatistics_of_ring hsc hi)
  · exact reports (doStatistics_of_all hsc hn)
  · exact takeRow_done (c := .statistics scope number) hs nofun (doStatistics_of_bad hbad) hs.2

end Sys2Proof.Machine
end

section
/-! SUPPORT. The two laws of the report writer on its own record: INT follows the unread records, and the ring keeps its bounds. What
each operation of the writer leaves of them (R192, R193, R194, R196, R197, R198). -/

set_option Elab.async false

namespace Sys2Proof.Machine

/-! ## Indices of the ring (R193, R197) -/

theorem indexDiff_eq {a b n : Nat} (ha : a < n) (hb : b < n) : indexDiff a b n = if b ≤ a then a - b else a + n - b := by
  rw [indexDiff, Nat.mod_eq_of_lt hb]
  split
  · rw [show a + n - b = a - b + n by omega, Nat.add_mod_right, Nat.mod_eq_of_lt (by omega)]
  · exact Nat.mod_eq_of_lt (by omega)

/-- The unread records are the distance from the read index to the write index (R197). -/
theorem unread_eq_indexDiff (r : ReportWriter) : unread r = indexDiff r.writeIdx r.readIdx r.places := rfl

theorem nextIndex_lt {i n : Nat} (h : i < n) : nextIndex i n < n := by
  unfold nextIndex
  split <;> omega

/-- One record more is unread after a write, as long as a place was free (R193). -/
theorem indexDiff_nextIndex {w b n : Nat} (hw : w < n) (hb : b < n) (hfree : indexDiff w b n + 1 < n) :
    indexDiff (nextIndex w n) b n = indexDiff w b n + 1 := by
  rw [indexDiff_eq hw hb] at hfree ⊢
  rw [indexDiff_eq (nextIndex_lt hw) hb]
  unfold nextIndex
  split_ifs at hfree ⊢ <;> omega

/-- An acknowledge inside the unread span leaves no more unread (R197). -/
theorem indexDiff_of_ack {w b a n : Nat} (hw : w < n) (hb : b < n) (ha : a < n) (hspan : indexDiff a b n ≤ indexDiff w b n) :
    indexDiff w a n ≤ indexDiff w b n := by
  rw [indexDiff_eq ha hb, indexDiff_eq hw hb] at hspan
  rw [indexDiff_eq hw ha, indexDiff_eq hw hb]
  split_ifs at hspan ⊢ <;> omega

theorem indexDiff_self {a n : Nat} (h : a < n) : indexDiff a a n = 0 := by
  rw [indexDiff_eq h h, if_pos le_rfl, Nat.sub_self]

/-! ## The laws on one writer -/

/-- INT follows the unread records (R198). -/
def IntDriven (r : ReportWriter) : Prop := r.intLine = intWanted r

theorem intLaw_iff {s : State} : IntLaw s ↔ IntDriven s.rep := Iff.rfl

theorem driveInt_intDriven (r : ReportWriter) : IntDriven (driveInt r) := rfl

/-- A ring has 64 to 16384 places (R196). -/
abbrev RingPlaces (n : Nat) : Prop := 64 ≤ n ∧ n ≤ 16384

/-- The clauses of the writer's law that are about its own record (R192, R193, R196). -/
structure InRing (r : ReportWriter) : Prop where
  places : RingPlaces r.places
  writeIdx : r.writeIdx < r.places
  readIdx : r.readIdx < r.places
  held : indexDiff r.writeIdx r.readIdx r.places + r.pend.length ≤ r.places - 1
  unset : r.isSet = false → r.pend = []
  head : ∀ c, r.writer = .record c → r.pend ≠ []

/-- A SET REPORT RING in flight asks for a ring that passed its check (R196). -/
def RingAsked (u : CommandUnit) : Prop := ∀ c n i b, u.running = some ⟨c, .reportRing n i b⟩ → RingPlaces n

theorem writerLaw_iff {s : State} : WriterLaw s ↔ InRing s.rep ∧ RingAsked s.cmd :=
  ⟨fun h => ⟨⟨h.places, h.writeIdx, h.readIdx, h.held, h.unset, h.head⟩, h.waiting⟩,
    fun ⟨h, hc⟩ => ⟨h.places, h.writeIdx, h.readIdx, h.held, h.unset, h.head, hc⟩⟩

section
variable {r : ReportWriter}

/-- A record joins the list where the writer accepts it, whether or not its write starts (R192). -/
theorem InRing.accept (h : InRing r) (ha : accepts r = true) (x : PendingRecord) (lost : BitVec 16) (w : WriterState) :
    InRing { r with pend := r.pend ++ [x], lost := lost, writer := w } := by
  obtain ⟨hset, hroom⟩ := (accepts_iff r).1 ha
  rw [unread_eq_indexDiff] at hroom
  refine { h with held := ?_, unset := fun hunset => ?_, head := fun _ _ => by simp }
  · show indexDiff r.writeIdx r.readIdx r.places + (r.pend ++ [x]).length ≤ r.places - 1
    rw [List.length_append, List.length_singleton]
    omega
  · exact absurd (hset.symm.trans hunset) (by decide)

/-- The lost count is free, and the writer may do anything but write a record that is not there (R193). -/
theorem InRing.goOn (h : InRing r) (lost : BitVec 16) {w : WriterState} (hw : ∀ c, w = .record c → r.pend ≠ []) :
    InRing { r with lost := lost, writer := w } := { h with head := hw }

theorem InRing.lose (h : InRing r) (lost : BitVec 16) : InRing { r with lost := lost } := h.goOn lost h.head

/-- What was written leaves the list; the record and its place in the ring change together (R193). -/
theorem InRing.recordWritten {c : BitVec 16} (h : InRing r) (hw : r.writer = .record c) :
    InRing { recordWritten r with writer := .index } := by
  obtain ⟨p, ps, hp⟩ := List.exists_cons_of_ne_nil (h.head c hw)
  have hheld := h.held
  have hset : r.isSet = false → ps = [] := fun hunset => absurd (h.unset hunset) (by simp [hp])
  rw [hp, List.length_cons] at hheld
  have hnext := nextIndex_lt h.writeIdx
  by_cases hread : ReadAtOnce r p
  · rw [recordWritten_of_readAtOnce hp hread]
    refine ⟨h.places, hnext, hnext, ?_, hset, nofun⟩
    show indexDiff (nextIndex r.writeIdx r.places) (nextIndex r.writeIdx r.places) r.places + ps.length ≤ r.places - 1
    rw [indexDiff_self hnext]
    omega
  · rw [recordWritten_of_unread hp hread]
    refine ⟨h.places, hnext, h.readIdx, ?_, hset, nofun⟩
    show indexDiff (nextIndex r.writeIdx r.places) r.readIdx r.places + ps.length ≤ r.places - 1
    rw [indexDiff_nextIndex h.writeIdx h.readIdx (by omega)]
    omega

theorem InRing.recordFailed (h : InRing r) (carried : BitVec 16) :
    InRing { recordFailed r carried with writer := .index } := by
  refine ⟨h.places, h.writeIdx, h.readIdx, ?_, fun hunset => ?_, nofun⟩
  · have hheld := h.held
    show indexDiff r.writeIdx r.readIdx r.places + r.pend.tail.length ≤ r.places - 1
    rw [List.length_tail]
    omega
  · exact congrArg List.tail (h.unset hunset)

/-- An acknowledge inside the unread span (R197). -/
theorem InRing.acknowledge (h : InRing r) {a : Nat} (ha : a < r.places)
    (hspan : indexDiff a r.readIdx r.places ≤ indexDiff r.writeIdx r.readIdx r.places) :
    InRing (driveInt { r with readIdx := a }) := by
  refine { h with readIdx := ha, held := ?_ }
  have hheld := h.held
  have hfewer := indexDiff_of_ack h.writeIdx h.readIdx ha hspan
  show indexDiff r.writeIdx a r.places + r.pend.length ≤ r.places - 1
  omega

end

/-- A new ring is empty, and the pending records beyond N_r − 1 are dropped (R196). -/
theorem setRingAct_inRing {n : Nat} (hn : RingPlaces n) (i : Bool) (b : Addr) (s : State) :
    InRing (setRingAct n i b s).rep := by
  have hpos : 0 < n := Nat.lt_of_lt_of_le (by decide) hn.1
  rw [setRingAct_eq]
  refine ⟨hn, hpos, hpos, ?_, nofun, nofun⟩
  show indexDiff 0 0 n + (s.rep.pend.take (n - 1)).length ≤ n - 1
  rw [indexDiff_self hpos, Nat.zero_add]
  exact List.length_take_le ..

theorem setRingAct_intDriven (n : Nat) (i : Bool) (b : Addr) (s : State) : IntDriven (setRingAct n i b s).rep := rfl

/-! ## The hand-over of a report (R192) -/

/-- Everything that a hand-over can make of the writer: the report joins the list, or counts as lost. -/
theorem handed_cases (b : Report) (r : ReportWriter) (t : HouseTime) :
    (accepts r = true ∧ ∃ lost w, (handed b r t).1 = { r with pend := r.pend ++ [⟨b, t⟩], lost := lost, writer := w }) ∨
    ∃ lost, (handed b r t).1 = { r with lost := lost } := by
  unfold handed
  split
  · rename_i ha
    refine .inl ⟨ha, ?_⟩
    split
    · exact ⟨_, _, rfl⟩
    · exact ⟨_, _, rfl⟩
  · exact .inr ⟨_, rfl⟩

theorem handed_intDriven {r : ReportWriter} (h : IntDriven r) (b : Report) (t : HouseTime) : IntDriven (handed b r t).1 := by
  rcases handed_cases b r t with ⟨_, lost, w, hr⟩ | ⟨lost, hr⟩ <;> rw [hr] <;> exact h

theorem handed_inRing {r : ReportWriter} (h : InRing r) (b : Report) (t : HouseTime) : InRing (handed b r t).1 := by
  rcases handed_cases b r t with ⟨ha, lost, w, hr⟩ | ⟨lost, hr⟩ <;> rw [hr]
  · exact h.accept ha ..
  · exact h.lose lost

end Sys2Proof.Machine
end

section
/-! SUPPORT. The operations that do nothing to the report writer but hand reports over, and leave the command in flight as it is
(R192). -/

set_option Elab.async false

namespace Sys2Proof.Machine

/-! ## Reporting -/

/-- From r to r' reports are handed over, each at some house time, and nothing else happens to the writer. -/
abbrev Receives : ReportWriter → ReportWriter → Prop := Relation.ReflTransGen fun r r' => ∃ b t, r' = (handed b r t).1

/-- From s to t the writer only takes reports, and the command in flight is the same. -/
structure Reports (s t : State) : Prop where
  writer : Receives s.rep t.rep
  running : t.cmd.running = s.cmd.running

theorem Reports.refl (s : State) : Reports s s := ⟨.refl, rfl⟩

theorem Reports.trans {s t u : State} (h : Reports s t) (g : Reports t u) : Reports s u :=
  ⟨h.writer.trans g.writer, g.running.trans h.running⟩

theorem Reports.foldl {α : Type} {f : State → α → State} (hf : ∀ s a, Reports s (f s a)) (l : List α) (s : State) :
    Reports s (l.foldl f s) := by
  induction l generalizing s with
  | nil => exact .refl s
  | cons a l ih => exact (hf s a).trans (ih _)

/-- What touches neither the writer nor the command unit. -/
theorem Reports.of_frame {bs : List Block} {s t : State} (f : Frame bs s t) (hr : .rep ∉ bs := by decide)
    (hc : .cmd ∉ bs := by decide) : Reports s t :=
  ⟨by rw [f.rep_eq hr], by rw [f.cmd_eq hc]⟩

section
variable (s : State)

theorem handOver_reports (b : Report) : Reports s (handOver b s) :=
  ⟨.single ⟨b, s.time.now, by rw [handOver_eq]⟩, by rw [handOver_cmd]⟩

theorem handOverAll_reports (bs : List Report) : Reports s (handOverAll bs s) := .foldl (fun s b => handOver_reports s b) _ _

/-! ## Rings (R23, R33, R34, R35) -/

theorem silenceChange_reports (i : RingId) (st : Silence) : Reports s (silenceChange i st s) :=
  (Reports.of_frame (modRing_frame ..)).trans (handOver_reports ..)

theorem silenceExpires_reports (i : RingId) : Reports s (silenceExpires i s) := by
  unfold silenceExpires
  split
  · exact silenceChange_reports ..
  · exact .of_frame (modRing_frame ..)

theorem silentRun_reports (i : RingId) : Reports s (silentRun i s) := by
  unfold silentRun
  dsimp only
  split
  · exact .refl s
  split
  · exact silenceChange_reports ..
  · exact .of_frame (modRing_frame ..)

theorem takeIngest_reports (i : RingId) (slot : Nat) (r : Request) : Reports s (takeIngest i slot r s) :=
  ((Reports.of_frame (forward_frame ..)).trans (.of_frame (modRing_frame ..))).trans (silentRun_reports ..)

theorem applyTiming_reports (i : RingId) : Reports s (applyTiming i s) := by
  unfold applyTiming
  dsimp only
  split
  · exact silenceChange_reports ..
  split
  · exact .of_frame (modRing_frame ..)
  split
  · exact silenceChange_reports ..
  · exact .refl s

/-! ## The SECDED stores (R7, R15 to R17, R59, R60) -/

theorem countStream_reports (i : Nat) : Reports s (countStream i s) := by
  have hgauge : ∀ t, Reports s { s with stream := t } := fun t => .of_frame (frame_stream s t)
  unfold countStream
  dsimp only
  split
  · exact (hgauge _).trans (handOver_reports ..)
  · exact hgauge _

theorem countRefs_reports (n : EntryNo) : Reports s (countRefs n s) := by
  have hgauge : ∀ t, Reports s { s with refs := t } := fun t => .of_frame (frame_refs s t)
  unfold countRefs
  dsimp only
  split
  · exact (hgauge _).trans (handOver_reports ..)
  · exact hgauge _

theorem lookup_reports (l : Label) : Reports s (lookup l s).1 := by
  have hwrite : ∀ t, Reports s { s with stream := t } := fun t => .of_frame (frame_stream s t)
  unfold lookup
  dsimp only
  split
  · exact .refl s
  · exact (hwrite _).trans (countStream_reports ..)
  · exact (hwrite _).trans (handOver_reports ..)

theorem readRef_reports (e : EdId) (p : ProgId) (n : EntryNo) : Reports s (readRef e p n s).1 := by
  unfold readRef
  dsimp only
  split
  · exact .refl s
  · exact (Reports.of_frame (frame_refs s _)).trans (countRefs_reports ..)
  · exact (Reports.of_frame (discardStale_frame ..)).trans (handOver_reports ..)

theorem scanStep_reports : Reports s (scanStep s) := by
  unfold scanStep
  split
  · exact .refl s
  · rename_i sc _
    split
    · rename_i e p n rest _ _ _
      dsimp only
      generalize hu : { s with refs := { s.refs with scan := some { sc with todo := rest } } } = u
      have hread : Reports s (readRef e p n u).1 := by
        refine Reports.trans ?_ (readRef_reports u e p n)
        rw [← hu]
        exact .of_frame (frame_refs s _)
      split <;> rename_i heq <;> rw [heq] at hread
      · split
        · exact hread.trans (.of_frame (frame_refs ..))
        · exact hread
      · exact hread
    · exact .refl s

/-! ## Feed reads (R74, R75, R158) -/

theorem clearQueue_reports (e : EdId) (p : ProgId) (t : HouseTime) (fuel : Nat) : Reports s (clearQueue e p t fuel s) := by
  induction fuel generalizing s with
  | zero => exact .refl s
  | succ fuel ih =>
    unfold clearQueue
    split
    · exact .refl s
    · rename_i n _ _
      have hread := readRef_reports s e p n
      split <;> rename_i heq <;> rw [heq] at hread
      · exact hread.trans (ih _)
      · split
        · exact (hread.trans (.of_frame (discardStale_frame ..))).trans (ih _)
        · exact hread

theorem clearAll_reports (e : EdId) (t : HouseTime) : Reports s (clearAll e t s) :=
  .foldl (fun s p => clearQueue_reports s e p t _) _ _

theorem chooseOne_reports (e : EdId) (t : HouseTime) : Reports s (chooseOne e t s).1 :=
  ((clearAll_reports s e t).trans (.of_frame (choosePlace_frame e _))).trans (.of_frame (modComp_frame ..))

theorem composeRead_reports (e : EdId) (t : HouseTime) (n : Nat) : Reports s (composeRead e t n s).1 := by
  induction n generalizing s with
  | zero => exact .refl s
  | succ n ih => exact (chooseOne_reports s e t).trans (ih _)

theorem readChoices_reports (e : EdId) (n : Nat) : Reports s (readChoices e n s).1 := by
  unfold readChoices
  split
  · exact composeRead_reports ..
  · exact .refl s

theorem feedReadTaken_reports (e : EdId) : Reports s (feedReadTaken e s) := by
  unfold feedReadTaken
  split
  · exact .of_frame (modEd_frame ..)
  · split
    · exact (Reports.of_frame (modEd_frame ..)).trans (handOver_reports ..)
    · exact .refl s
  · exact .refl s

theorem takeFeedRead_reports (e : EdId) (n : Nat) : Reports s (takeFeedRead e n s) :=
  (((feedReadTaken_reports s e).trans (readChoices_reports ..)).trans (.of_frame (joinRead_frame ..))).trans
    (.of_frame (finish_frame ..))

/-! ## Chains (R128, R131, R138, R140, R147) -/

theorem endChain_reports (e : EdId) (st : EndStatus) (c : CheckCode) (a : Nat) (tag : Tag16) :
    Reports s (endChain e st c a tag s) := by
  rw [endChain_eq]
  exact (Reports.of_frame (quietEnd_frame ..)).trans (handOver_reports ..)

theorem stopChain_reports (e : EdId) (st : EndStatus) : Reports s (stopChain e st s) := by
  unfold stopChain
  dsimp only
  split
  · exact .refl s
  · exact endChain_reports ..

theorem fetchWord_reports (e : EdId) : Reports s (fetchWord e s) := by
  unfold fetchWord
  dsimp only
  split
  · exact endChain_reports ..
  split
  · exact endChain_reports ..
  · exact (Reports.of_frame (modChan_frame ..)).trans (.of_frame (issue_frame ..))

theorem goOn_reports (e : EdId) : Reports s (goOn e s) := by
  unfold goOn
  split
  · split
    · exact .of_frame (modChan_frame ..)
    · exact fetchWord_reports ..
  · exact .refl s

theorem judgeOutcome_reports (e : EdId) (o : SpliceOutcome) : Reports s (judgeOutcome e o s) := by
  unfold judgeOutcome
  split
  · split
    · split
      · exact endChain_reports ..
      · exact goOn_reports ..
    · exact .refl s
  · exact .refl s

theorem outcomeToChannel_reports (e : EdId) (p : ProgId) (o : SpliceOutcome) : Reports s (outcomeToChannel e p o s) := by
  unfold outcomeToChannel
  split
  · exact judgeOutcome_reports ..
  · exact .refl s

theorem judgeWait_reports (e : EdId) (t : HouseTime) : Reports s (judgeWait e t s) := by
  unfold judgeWait
  split
  · exact goOn_reports ..
  · exact .of_frame (modChan_frame ..)

theorem judgeWaiting_reports (e : EdId) : Reports s (judgeWaiting s e) := by
  unfold judgeWaiting
  dsimp only
  split
  · split
    · exact judgeWait_reports ..
    · exact .refl s
  · exact .refl s

/-! ## Splice machines (R108 to R114, R118, R121) -/

theorem resolveOnly_reports (e : EdId) (p : ProgId) (sp : PendingSplice) (o : SpliceOutcome) (c : SpliceCause) :
    Reports s (resolveOnly e p sp o c s) := (Reports.of_frame (modMachine_frame ..)).trans (handOver_reports ..)

theorem cancelAll_reports (e : EdId) (c : SpliceCause) : Reports s (cancelAll e c s) := by
  refine .foldl (fun s p => ?_) _ _
  split
  · exact resolveOnly_reports ..
  · exact .refl s

theorem judgeArming_reports (e : EdId) (p : ProgId) (sp : PendingSplice) : Reports s (judgeArming e p sp s).1 := by
  unfold judgeArming
  dsimp only
  split
  · exact resolveOnly_reports ..
  split
  · exact resolveOnly_reports ..
  split
  · exact .of_frame (modMachine_frame ..)
  · exact .of_frame (modMachine_frame ..)

theorem takeArming_reports (e : EdId) (p : ProgId) (sp : PendingSplice) (sync : Bool) :
    Reports s (takeArming e p sp sync s) := by
  have hjudged := judgeArming_reports s e p sp
  unfold takeArming
  split <;> rename_i heq <;> rw [heq] at hjudged
  · split
    · exact hjudged.trans (judgeOutcome_reports ..)
    · exact hjudged.trans (goOn_reports ..)
  · split
    · exact hjudged.trans (.of_frame (modChan_frame ..))
    · exact hjudged.trans (goOn_reports ..)

theorem armFromChannel_reports (e : EdId) (w : SchedWord) : Reports s (armFromChannel e w s) := by
  unfold armFromChannel
  split
  · exact .refl s
  · split
    · exact takeArming_reports ..
    · exact (Reports.of_frame (modMachine_frame ..)).trans (.of_frame (modChan_frame ..))

theorem takeWaiting_reports (e : EdId) (p : ProgId) : Reports s (takeWaiting e p s) := by
  have hready : ∀ f, Reports s (modMachine e p f s) := fun f => .of_frame (modMachine_frame e p f s)
  unfold takeWaiting
  split
  · dsimp only
    split
    · exact (hready _).trans (armFromChannel_reports ..)
    · exact hready _
  · exact .refl s

theorem resolve_reports (e : EdId) (p : ProgId) (sp : PendingSplice) (o : SpliceOutcome) (c : SpliceCause) :
    Reports s (resolve e p sp o c s) := by
  unfold resolve
  dsimp only
  refine ((resolveOnly_reports s e p sp o c).trans ?_).trans (takeWaiting_reports ..)
  split
  · exact outcomeToChannel_reports ..
  · exact .refl _

theorem reachT_reports (e : EdId) (p : ProgId) (sp : PendingSplice) : Reports s (reachT e p sp s) := by
  have hseek := Reports.of_frame (modMachine_frame e p (fun m => { m with phase := .seeking sp }) s)
  unfold reachT
  dsimp only
  split
  · exact hseek.trans (resolve_reports ..)
  · exact hseek

theorem judgeLoad_reports (e : EdId) (p : ProgId) : Reports s (judgeLoad e p s) := by
  cases hphase : (machineOf s e p).phase with
  | steady =>
    rw [judgeLoad_of_steady hphase]
    exact .refl s
  | armed sp =>
    rw [judgeLoad_of_armed hphase]
    split
    · exact resolve_reports ..
    split
    · exact .of_frame (modMachine_frame ..)
    · exact .refl s
  | seeking sp =>
    rw [judgeLoad_of_seeking hphase]
    split
    · exact resolve_reports ..
    · exact .refl s

/-! ## Words (R129, R130, R132 to R136) -/

theorem runWord_reports (e : EdId) (a : Addr) (w : SchedWord) : Reports s (runWord e a w s) := by
  unfold runWord
  split
  · exact armFromChannel_reports ..
  · dsimp only
    split
    · exact endChain_reports ..
    · exact (Reports.of_frame (modChan_frame ..)).trans (.of_frame (issue_frame ..))
  · exact judgeWait_reports ..
  · exact (Reports.of_frame (modChan_frame ..)).trans (goOn_reports ..)
  · exact endChain_reports ..

theorem wordCurrent_reports (e : EdId) (a : Addr) (w : SchedWord) : Reports s (wordCurrent e a w s) := by
  have hcurrent : ∀ f, Reports s (modChan e f s) := fun f => .of_frame (modChan_frame e f s)
  unfold wordCurrent
  dsimp only
  split
  · exact (hcurrent _).trans (handOver_reports ..)
  · exact hcurrent _

theorem wordReturned_reports (e : EdId) (rsp : Response) : Reports s (wordReturned e rsp s) := by
  unfold wordReturned
  dsimp only
  split
  · exact endChain_reports ..
  · split
    · exact endChain_reports ..
    · split
      · exact endChain_reports ..
      · exact (wordCurrent_reports ..).trans (runWord_reports ..)

theorem dataReturned_reports (e : EdId) (rsp : Response) : Reports s (dataReturned e rsp s) := by
  unfold dataReturned
  split
  · split
    · exact endChain_reports ..
    · split
      · exact endChain_reports ..
      · exact ((Reports.of_frame (receiveFrame_frame ..)).trans (.of_frame (modChan_frame ..))).trans (goOn_reports ..)
    · exact .refl s
  · exact .refl s

/-! ## Admission (R31, R41, R42) -/

theorem entryPoint_reports (e : EdId) (p : ProgId) (v : Variant) (cellE : Bool) : Reports s (entryPoint e p v cellE s) := by
  unfold entryPoint
  split
  · split
    · exact resolve_reports ..
    · exact .refl s
  · exact .refl s

theorem admitEdition_reports (c : IngestKept) (x : StreamEntry) (e : EdId) : Reports s (admitEdition c x s e) := by
  have hentry := entryPoint_reports s e x.prog x.variant c.e
  unfold admitEdition
  split
  · exact .refl s
  · dsimp only
    split
    · exact hentry
    split
    · exact hentry
    · exact hentry.trans (.of_frame (admitLimits_frame ..))

theorem admitCell_reports (c : IngestKept) : Reports s (admitCell c s) := by
  have hfound := lookup_reports s c.label
  unfold admitCell
  split
  · exact .refl s
  · split <;> rename_i heq <;> rw [heq] at hfound
    · exact hfound.trans (.of_frame (modRing_frame ..))
    · split
      · exact hfound.trans (.of_frame (modRing_frame ..))
      · exact hfound.trans (.foldl (fun s e => admitEdition_reports s c _ e) _ _)

theorem ingestReturned_reports (c : IngestKept) (rsp : Response) : Reports s (ingestReturned c rsp s) := by
  unfold ingestReturned
  split
  · exact .refl s
  · split
    · exact admitCell_reports ..
    · exact .of_frame (modRing_frame ..)

/-! ## Editions and house time (R155, R157, R163, R167) -/

theorem watchExpires_reports (e : EdId) : Reports s (watchExpires e s) := by
  rw [watchExpires_eq]
  exact (Reports.of_frame (watchExpired_frame ..)).trans (handOver_reports ..)

theorem turnOff_reports (e : EdId) : Reports s (turnOff e s) := by
  rw [turnOff_eq]
  exact (((Reports.of_frame (releasedOff_frame ..)).trans (.of_frame (dropWait_frame ..))).trans
    (cancelAll_reports ..)).trans (stopChain_reports ..)

theorem referenceEdge_reports : Reports s (referenceEdge s) := by
  have htick : ∀ u, Reports s (elapse 1 { s with time := u }) := fun u =>
    (Reports.of_frame (frame_time s u)).trans (.of_frame (elapse_frame ..))
  unfold referenceEdge
  split
  · exact htick _
  · exact (htick _).trans (handOver_reports ..)

theorem loseReference_reports : Reports s (loseReference s) :=
  ((Reports.of_frame (frame_time s _)).trans (.of_frame (elapse_frame ..))).trans (handOver_reports ..)

theorem judgeMachines_reports : Reports s (judgeMachines s) :=
  .foldl (fun s e => .foldl (fun s p => judgeLoad_reports s e p) _ s) _ _

theorem applyLoad_reports (v : HouseTime) : Reports s (applyLoad v s) :=
  (((Reports.of_frame (frame_time s _)).trans (handOver_reports ..)).trans (judgeMachines_reports _)).trans
    (.foldl judgeWaiting_reports _ _)

/-! ## The owning blocks of the commands -/

theorem doSetRingTimingOnly_reports (ring : BitVec 8) (sil : BitVec 16) (res : BitVec 8) :
    Reports s (doSetRingTimingOnly ring sil res s).state := by
  unfold doSetRingTimingOnly
  split
  · exact .refl s
  split
  · exact .refl s
  split
  · exact .refl s
  · exact (Reports.of_frame (modRing_frame ..)).trans (applyTiming_reports ..)

theorem doArmSplice_reports (tag : Tag16) (e p v : BitVec 8) (f : Bool) (w : BitVec 16) (t : HouseTime) :
    Reports s (doArmSplice tag e p v f w t s).state := by
  unfold doArmSplice
  split
  · split
    · exact judgeArming_reports ..
    · exact .refl s
  · exact .refl s

theorem doCancelSplice_reports (e p : BitVec 8) : Reports s (doCancelSplice e p s).state := by
  unfold doCancelSplice
  split
  · split
    · exact resolve_reports ..
    · exact .refl s
  · exact .refl s

theorem doStartSchedule_reports (e : BitVec 8) (a : Addr) : Reports s (doStartSchedule e a s).state := by
  unfold doStartSchedule
  split
  · exact .refl s
  split
  · exact .refl s
  · exact (Reports.of_frame (modChan_frame ..)).trans (fetchWord_reports ..)

theorem doHaltSchedule_reports (e : BitVec 8) : Reports s (doHaltSchedule e s).state := by
  unfold doHaltSchedule
  split
  · exact .refl s
  split
  · exact .refl s
  · exact stopChain_reports ..

theorem doClearSchedule_reports (e : BitVec 8) : Reports s (doClearSchedule e s).state := by
  unfold doClearSchedule
  split
  · exact .refl s
  · exact (((Reports.of_frame (dropWait_frame ..)).trans (cancelAll_reports ..)).trans
      (.of_frame (modComp_frame ..))).trans (stopChain_reports ..)

theorem doResumeSchedule_reports (e : BitVec 8) : Reports s (doResumeSchedule e s).state := by
  unfold doResumeSchedule
  split
  · exact .refl s
  split
  · exact fetchWord_reports ..
  · exact .refl s

theorem doSetEdition_reports (e : BitVec 8) (au : Bool) (w m q : BitVec 16) (b : Addr) (o : BitVec 24) :
    Reports s (doSetEdition e au w m q b o s).state := by
  unfold doSetEdition
  split
  · exact .refl s
  · rename_i e _
    have hset := Reports.of_frame (modEd_frame e (setEditionRecord au w m q b o) s)
    dsimp only
    split
    · exact .refl s
    split
    · exact .refl s
    split
    · exact .refl s
    · show Reports s (if _ then _ else _)
      split
      · exact hset.trans (watchExpires_reports ..)
      · exact hset

theorem doEditionOff_reports (e : BitVec 8) : Reports s (doEditionOff e s).state := by
  unfold doEditionOff
  split
  · exact .refl s
  · exact turnOff_reports ..

theorem doStatistics_reports (sc n : BitVec 8) : Reports s (doStatistics sc n s).state := by
  unfold doStatistics
  split
  · split
    · exact handOverAll_reports ..
    · exact .refl s
  split
  · split
    · exact handOverAll_reports ..
    · exact .refl s
  split
  · split
    · exact .refl s
    · exact handOverAll_reports ..
  · exact .refl s

end

end Sys2Proof.Machine
end

section
/-! SUPPORT. Every row keeps the two laws of the report writer, and so does a step (R192, R193, R196, R198): most only hand reports
over, and only the writer's own completions, SET REPORT RING and REPORT ACK move the ring. -/

set_option Elab.async false

namespace Sys2Proof.Machine

/-! ## Keeping the laws -/

/-- If INT, and the bounds of the report ring, are as they should be in s, then they are in t. -/
structure KeepsRing (s t : State) : Prop where
  int : IntLaw s → IntLaw t
  ring : WriterLaw s → WriterLaw t

theorem KeepsRing.refl (s : State) : KeepsRing s s := ⟨id, id⟩

theorem KeepsRing.trans {s t u : State} (h : KeepsRing s t) (g : KeepsRing t u) : KeepsRing s u :=
  ⟨g.int ∘ h.int, g.ring ∘ h.ring⟩

/-- A change of the writer, with the same command in flight. -/
theorem KeepsRing.of_writer {s t : State} (hint : IntDriven s.rep → IntDriven t.rep) (hring : InRing s.rep → InRing t.rep)
    (hrun : t.cmd.running = s.cmd.running) : KeepsRing s t := by
  refine ⟨fun h => intLaw_iff.2 (hint (intLaw_iff.1 h)), fun h => ?_⟩
  obtain ⟨hrecord, hasked⟩ := writerLaw_iff.1 h
  exact writerLaw_iff.2 ⟨hring hrecord, by rwa [RingAsked, hrun]⟩

/-- What every hand-over keeps of the writer, any number of them keep. -/
theorem Receives.keeps {P : ReportWriter → Prop} (hP : ∀ r b t, P r → P (handed b r t).1) {r r' : ReportWriter}
    (h : Receives r r') (hr : P r) : P r' := by
  induction h with
  | refl => exact hr
  | tail _ hstep ih =>
    obtain ⟨b, t, rfl⟩ := hstep
    exact hP _ b t ih

/-- The hand-over of reports keeps both laws. -/
theorem Reports.keepsRing {s t : State} (h : Reports s t) : KeepsRing s t :=
  .of_writer (Receives.keeps (P := IntDriven) (fun _ b t hr => handed_intDriven hr b t) h.writer)
    (Receives.keeps (P := InRing) (fun _ b t hr => handed_inRing hr b t) h.writer) h.running

theorem KeepsRing.of_frame {bs : List Block} {s t : State} (f : Frame bs s t) (hr : .rep ∉ bs := by decide)
    (hc : .cmd ∉ bs := by decide) : KeepsRing s t := (Reports.of_frame f hr hc).keepsRing

section
variable (s : State)

theorem handOver_keepsRing (b : Report) : KeepsRing s (handOver b s) := (handOver_reports s b).keepsRing

/-- Another command in flight, or none, that asks for no ring outside its check. -/
theorem withCmd_keepsRing {u : CommandUnit} (h : RingAsked s.cmd → RingAsked u) : KeepsRing s { s with cmd := u } :=
  ⟨id, fun hlaw => writerLaw_iff.2 ((writerLaw_iff.1 hlaw).imp_right h)⟩

/-- Which commands wait does not matter to the writer. -/
theorem withQueue_keepsRing (q : List TakenCommand) : KeepsRing s { s with cmd := { s.cmd with queue := q } } :=
  withCmd_keepsRing s id

/-! ## SET REPORT RING, REPORT ACK and the writer's completions -/

theorem setRingAct_keepsRing {n : Nat} (hn : RingPlaces n) (i : Bool) (b : Addr) : KeepsRing s (setRingAct n i b s) :=
  .of_writer (fun _ => setRingAct_intDriven n i b s) (fun _ => setRingAct_inRing hn i b s) (by rw [setRingAct_eq])

theorem doSetReportRing_keepsRing (n : BitVec 16) (i : Bool) (b : Addr) : KeepsRing s (doSetReportRing n i b s).state := by
  rw [doSetReportRing_eq]
  split
  · exact .refl s
  · rename_i hok
    split
    · exact setRingAct_keepsRing s ⟨by omega, by omega⟩ i b
    · exact .refl s

theorem doReportAck_keepsRing (a : BitVec 16) : KeepsRing s (doReportAck a s).state := by
  cases hset : s.rep.isSet with
  | false =>
    rw [doReportAck_of_unset hset]
    exact .refl s
  | true =>
    rw [doReportAck_of_set hset]
    split
    · exact .refl s
    · rename_i hin
      obtain ⟨ha, hspan⟩ := not_or.1 hin
      exact .of_writer (fun _ => driveInt_intDriven _) (fun h => h.acknowledge (not_le.1 ha) (not_lt.1 hspan)) rfl

theorem recordReturned_keepsRing (rsp : Response) : KeepsRing s (recordReturned rsp s) := by
  cases hw : s.rep.writer with
  | idle | index =>
    rw [recordReturned, hw]
    exact .refl s
  | record carried =>
    obtain ⟨kind, d⟩ := rsp
    cases kind with
    | okay =>
      rw [recordReturned_of_okay hw]
      exact .of_writer (fun _ => driveInt_intDriven _) (fun h => h.recordWritten hw) rfl
    | error =>
      rw [recordReturned_of_error hw]
      exact .of_writer id (fun h => h.recordFailed carried) rfl

theorem startWrite_keepsRing : KeepsRing s (startWrite s) := by
  rcases startWrite_cases s with ⟨p, ps, _, hp, h⟩ | ⟨_, h⟩ <;> rw [h]
  · exact .of_writer id (fun hring => hring.goOn 0 fun _ _ => by simp [hp]) rfl
  · exact .refl s

/-! ## The owning blocks of the commands -/

/-- Only SET REPORT RING goes in flight for a ring, with a number of places that passed its check (R196). -/
theorem ringPlaces_of_runAct {tag : Tag16} {c : Command} {s u : State} {n : Nat} {i : Bool} {b : Addr}
    (h : runAct tag c s = .inFlight (.reportRing n i b) u) : RingPlaces n := by
  cases c with
  | setReportRing places en base =>
    simp only [runAct, doSetReportRing_eq] at h
    split at h
    · cases h
    · split at h
      · cases h
      · cases h
        constructor <;> omega
  | timeLoad | restart => cases h
  | _ =>
    unfold runAct at h
    dsimp only [doSetStreamEntry, doLoadStreamEntries, doSetEccThreshold, doSetRing, doSetRingTimingOnly, doDisableRing,
      doSetProtection, doClearProtection, doSetProgramme, doSetCarriage, doArmSplice, doCancelSplice, doSetVariantNow,
      doStartSchedule, doHaltSchedule, doClearSchedule, doResumeSchedule, doSetEdition, doEditionOn, doEditionOff,
      doRelocateControl, doSetMemoryLimit, doReportAck, doStatistics] at h
    repeat' split at h
    all_goals cases h

theorem runAct_keepsRing (tag : Tag16) (c : Command) : KeepsRing s (runAct tag c s).state := by
  cases c with
  | setStreamEntry => exact .of_frame (doSetStreamEntry_frame ..)
  | loadStreamEntries => exact .of_frame (doLoadStreamEntries_frame ..)
  | setEccThreshold => exact .of_frame (doSetEccThreshold_frame ..)
  | setRing => exact .of_frame (doSetRing_frame ..)
  | setRingTimingOnly => exact (doSetRingTimingOnly_reports ..).keepsRing
  | disableRing => exact .of_frame (doDisableRing_frame ..)
  | setProtection => exact .of_frame (doSetProtection_frame ..)
  | clearProtection => exact .of_frame (doClearProtection_frame ..)
  | setProgramme => exact .of_frame (doSetProgramme_frame ..)
  | setCarriage => exact .of_frame (doSetCarriage_frame ..)
  | armSplice => exact (doArmSplice_reports ..).keepsRing
  | cancelSplice => exact (doCancelSplice_reports ..).keepsRing
  | setVariantNow => exact .of_frame (doSetVariantNow_frame ..)
  | startSchedule => exact (doStartSchedule_reports ..).keepsRing
  | haltSchedule => exact (doHaltSchedule_reports ..).keepsRing
  | clearSchedule => exact (doClearSchedule_reports ..).keepsRing
  | resumeSchedule => exact (doResumeSchedule_reports ..).keepsRing
  | setEdition => exact (doSetEdition_reports ..).keepsRing
  | editionOn => exact .of_frame (doEditionOn_frame ..)
  | editionOff => exact (doEditionOff_reports ..).keepsRing
  | timeLoad => exact .of_frame (doTimeLoad_frame ..)
  | relocateControl => exact .of_frame (doRelocateControl_frame ..)
  | setMemoryLimit => exact .of_frame (doSetMemoryLimit_frame ..)
  | setReportRing => exact doSetReportRing_keepsRing ..
  | reportAck => exact doReportAck_keepsRing ..
  | statistics => exact (doStatistics_reports ..).keepsRing
  | restart => exact .of_frame (restartAct_frame s)

/-! ## The command unit -/

theorem startCommand_keepsRing (c : TakenCommand) : KeepsRing s (startCommand c s) := by
  unfold startCommand
  split
  · exact handOver_keepsRing ..
  · exact handOver_keepsRing ..
  · have hcmd : (restartAct s).cmd = s.cmd := (restartAct_frame s).cmd_eq
    have hreset : KeepsRing s { restartAct s with cmd := { s.cmd with queue := [] } } :=
      (KeepsRing.of_frame (restartAct_frame s)).trans (withCmd_keepsRing _ (by rw [hcmd]; exact id))
    exact (hreset.trans (handOver_keepsRing ..)).trans
      (Reports.foldl (fun s c => handOver_reports s (commandReport c .state)) _ _).keepsRing
  · rename_i k _ _
    have hact := runAct_keepsRing s c.tag k
    split <;> rename_i heq <;> rw [heq] at hact
    · exact hact.trans (handOver_keepsRing ..)
    · refine hact.trans (withCmd_keepsRing _ fun _ _ _ _ _ hrun => ?_)
      cases hrun
      exact ringPlaces_of_runAct heq

theorem endRunning_keepsRing (o : CmdOutcome) : KeepsRing s (endRunning o s) := by
  unfold endRunning
  split
  · have hended : KeepsRing s { s with cmd := { s.cmd with running := none } } := withCmd_keepsRing s fun _ => nofun
    exact hended.trans (handOver_keepsRing ..)
  · exact .refl s

theorem advanceScan_keepsRing : KeepsRing s (advanceScan s) := .of_frame (advanceScan_frame s)

theorem endPurge_keepsRing : KeepsRing s (endPurge s) := by
  unfold endPurge
  dsimp only
  split
  · exact (advanceScan_keepsRing s).trans (endRunning_keepsRing ..)
  · exact advanceScan_keepsRing s

theorem drain_keepsRing (fuel : Nat) : KeepsRing s (drain fuel s) := by
  induction fuel generalizing s with
  | zero => exact .refl s
  | succ fuel ih =>
    unfold drain
    split
    · exact (((withQueue_keepsRing s _).trans (startCommand_keepsRing ..)).trans (endPurge_keepsRing _)).trans (ih _)
    · exact .refl s

theorem finishRunning_keepsRing (o : CmdOutcome) : KeepsRing s (finishRunning o s) :=
  (endRunning_keepsRing s o).trans (drain_keepsRing ..)

theorem settlePurge_keepsRing : KeepsRing s (settlePurge s) := by
  unfold settlePurge
  dsimp only
  split
  · exact (advanceScan_keepsRing s).trans (finishRunning_keepsRing ..)
  · exact advanceScan_keepsRing s

theorem takeCommand_keepsRing (c : TakenCommand) : KeepsRing s (takeCommand c s) := by
  unfold takeCommand
  split
  · exact (startCommand_keepsRing s c).trans (endPurge_keepsRing _)
  · split
    · exact withQueue_keepsRing ..
    · exact handOver_keepsRing ..

/-! ## The downstream port -/

theorem streamListReturned_keepsRing (rsp : Response) : KeepsRing s (streamListReturned rsp s) := by
  have hwritten : ∀ t, KeepsRing s { s with stream := t } := fun t => .of_frame (frame_stream s t)
  have hloading : ∀ t c f n a, KeepsRing s
      { s with stream := t, cmd := { s.cmd with running := some ⟨c, .load f n a⟩ } } := fun t _ _ _ _ =>
    (hwritten t).trans (withCmd_keepsRing _ fun _ => nofun)
  unfold streamListReturned
  split
  · split
    · exact finishRunning_keepsRing ..
    · dsimp only
      split
      · exact (hwritten _).trans (finishRunning_keepsRing ..)
      · exact (hloading ..).trans (.of_frame (issue_frame ..))
  · exact .refl s

theorem carriageListReturned_keepsRing (rsp : Response) : KeepsRing s (carriageListReturned rsp s) := by
  unfold carriageListReturned
  split
  · split
    · exact finishRunning_keepsRing ..
    · split
      · exact finishRunning_keepsRing ..
      · exact (KeepsRing.of_frame (receiveFrame_frame ..)).trans (finishRunning_keepsRing ..)
  · exact .refl s

/-- The act of SET REPORT RING that waited has the places that its check passed: the law says so of the command in flight. -/
theorem indexReturned_keepsRing : KeepsRing s (indexReturned s) := by
  have hidle : KeepsRing s { s with rep := { s.rep with writer := .idle } } :=
    .of_writer id (fun h => h.goOn s.rep.lost nofun) rfl
  unfold indexReturned
  split
  · dsimp only
    split
    · rename_i c n i b hrun
      have hact : KeepsRing s (setRingAct n i b { s with rep := { s.rep with writer := .idle } }) :=
        ⟨fun _ => setRingAct_intDriven ..,
          fun h => (hidle.trans (setRingAct_keepsRing _ (h.waiting c n i b hrun) i b)).ring h⟩
      exact hact.trans (finishRunning_keepsRing ..)
    · exact hidle.trans (startWrite_keepsRing _)
  · exact .refl s

theorem respond_keepsRing (tag : PortTag) (rsp : Response) : KeepsRing s (respond tag rsp s) := by
  cases hold : takeOldest tag s.down with
  | none =>
    rw [respond, hold]
    exact .refl s
  | some found =>
    obtain ⟨⟨kind, q⟩, rest⟩ := found
    rw [respond, hold]
    refine (KeepsRing.of_frame (frame_down s rest)).trans ?_
    cases kind with
    | forwarded => exact .of_frame (readyForwarded_frame ..)
    | ingest k => exact (KeepsRing.of_frame (readyForwarded_frame ..)).trans (ingestReturned_reports ..).keepsRing
    | delivery e i live =>
      have hback : KeepsRing { s with down := rest } (readReturned i { s with down := rest }) :=
        .of_frame (readReturned_frame ..)
      refine (hback.trans ?_).trans (settlePurge_keepsRing _)
      cases live with
      | true => exact .of_frame (deliveryReturned_frame ..)
      | false => exact .refl _
    | streamList => exact streamListReturned_keepsRing ..
    | carriageList => exact carriageListReturned_keepsRing ..
    | wordFetch e live =>
      cases live with
      | true => exact (wordReturned_reports ..).keepsRing
      | false => exact .refl _
    | dataFetch e live =>
      cases live with
      | true => exact (dataReturned_reports ..).keepsRing
      | false => exact .refl _
    | recordWrite => exact recordReturned_keepsRing ..
    | indexWrite => exact indexReturned_keepsRing _

/-! ## The upstream port -/

theorem takeRequest_keepsRing (r : Request) : KeepsRing s (takeRequest r s) := by
  have hfwd : ∀ k, KeepsRing s (forward k r s) := fun k => .of_frame (forward_frame k r s)
  have hopen : ∀ c rsp, KeepsRing s (openReq r.tag c rsp s) := fun c rsp => .of_frame (openReq_frame r.tag c rsp s)
  unfold takeRequest
  cases classify s r with
  | beyond => exact hopen ..
  | feedRead e n => exact ((hopen ..).trans (takeFeedRead_reports ..).keepsRing).trans (settlePurge_keepsRing _)
  | lengthFault e => exact ((hopen ..).trans (.of_frame (modFeed_frame ..))).trans (feedReadTaken_reports ..).keepsRing
  | feedWrite e => exact (hopen ..).trans (.of_frame (modFeed_frame ..))
  | ingest i slot => exact (takeIngest_reports ..).keepsRing
  | malformed i => exact (hfwd _).trans (.of_frame (modRing_frame ..))
  | command k => exact (hfwd _).trans (takeCommand_keepsRing ..)
  | ringRead | controlOther | passThrough => exact hfwd _

theorem present_keepsRing (r : Request) : KeepsRing s (present r s) := by
  unfold present
  split
  · exact takeRequest_keepsRing s r
  · exact .of_frame (frame_path ..)

theorem idleStep_keepsRing : KeepsRing s (idleStep s) := by
  unfold idleStep
  split
  · exact .refl s
  · exact (KeepsRing.of_frame (frame_path ..)).trans (takeRequest_keepsRing ..)

end

/-! ## The rows -/

/-- The row ends in a next state, and keeps both laws on the way to it. -/
def EndsInRing (s : State) (o : Host.Outcome State Fault Refusal) : Prop := ∃ t, o = .next t ∧ KeepsRing s t

theorem KeepsRing.ends {s t : State} (h : KeepsRing s t) : EndsInRing s (.next t) := ⟨t, rfl, h⟩

theorem endsInRing_same (s : State) : EndsInRing s (.next s) := (KeepsRing.refl s).ends

/-- A row that changes nothing where its moment has not come (log entry 8). -/
theorem endsInRing_ite {s t : State} {due : Prop} [Decidable due] (h : KeepsRing s t) :
    EndsInRing s (if due then .next t else .next s) := by
  split
  · exact h.ends
  · exact endsInRing_same s

section
variable (s : State)

theorem execSpliceTReached_endsInRing (e : EdId) (p : ProgId) : EndsInRing s (execSpliceTReached e p s) := by
  unfold execSpliceTReached
  split
  · exact endsInRing_ite (reachT_reports ..).keepsRing
  · exact endsInRing_same s

theorem execWindowEnd_endsInRing (e : EdId) (p : ProgId) : EndsInRing s (execWindowEnd e p s) := by
  unfold execWindowEnd
  split
  · exact endsInRing_ite (resolve_reports ..).keepsRing
  · exact endsInRing_same s

theorem execOscillatorPeriodEnd_endsInRing : EndsInRing s (execOscillatorPeriodEnd s) := by
  unfold execOscillatorPeriodEnd
  split
  · exact (KeepsRing.of_frame (elapse_frame ..)).ends
  · exact (KeepsRing.of_frame (frame_time s _)).ends

theorem execPpsEdge_endsInRing : EndsInRing s (execPpsEdge s) := by
  unfold execPpsEdge
  split
  · exact (applyLoad_reports ..).keepsRing.ends
  · exact endsInRing_same s

theorem execPpsTimeout_endsInRing : EndsInRing s (execPpsTimeout s) := by
  unfold execPpsTimeout
  split
  · exact endsInRing_ite ((KeepsRing.of_frame (frame_time s _)).trans (handOver_keepsRing ..))
  · exact endsInRing_same s

theorem execResponseLeaves_endsInRing (tag : PortTag) : EndsInRing s (execResponseLeaves tag s) := by
  unfold execResponseLeaves
  split
  · exact (KeepsRing.of_frame (frame_path s _)).ends
  · exact endsInRing_same s

theorem execIngestWriteCompletion_endsInRing (tag : PortTag) (rsp : Response) (up : BitFault) :
    EndsInRing s (execIngestWriteCompletion tag rsp up s) := by
  unfold execIngestWriteCompletion
  split
  · exact ((KeepsRing.of_frame (frame_stream s _)).trans (respond_keepsRing ..)).ends
  · exact (respond_keepsRing ..).ends

/-- Hardware reset leaves no ring set, with empty indices and INT low (R203). -/
theorem execHardwareReset_endsInRing (strap : BitVec 4) : EndsInRing s (execHardwareReset strap s) := by
  obtain ⟨hint, hring, _⟩ := resetMeetsEveryLaw strap
  obtain ⟨hrecord, hasked⟩ := writerLaw_iff.1 hring
  exact KeepsRing.ends ⟨fun _ => hint, fun _ => writerLaw_iff.2 ⟨hrecord, hasked⟩⟩

/-- Every row keeps both laws: only commands, completions and a reset do more to the writer than hand reports over. -/
theorem exec_endsInRing (c : Instr) : EndsInRing s (exec c s) := by
  have hpresent : ∀ r, EndsInRing s (.next (present r s)) := fun r => (present_keepsRing s r).ends
  have hrespond : ∀ tag rsp, EndsInRing s (.next (respond tag rsp s)) := fun tag rsp => (respond_keepsRing s tag rsp).ends
  have hcommand : ∀ h k, EndsInRing s (takeRow h k s) := fun h k => (takeCommand_keepsRing s (takenRow h k)).ends
  have hupset : ∀ us, KeepsRing s (upsetRefs us s) := fun us => .of_frame (upsetRefs_frame us s)
  cases c with
  | ingestWrite r | malformedWrite r | ringRead r | passThroughRequest r | controlPassThrough r | requestBeyondLimit r
  | lengthFault r | feedWrite r | commandWrite r => exact hpresent r
  | wholeCellRead r us => exact ((hupset us).trans (present_keepsRing _ r)).ends
  | downstreamCompletion tag rsp | staleResponseDiscard tag rsp => exact hrespond tag rsp
  | deliveryReadCompletion _ rsp | wordFetchCompletion _ rsp | dataFetchCompletion _ rsp | streamListReadCompletion rsp
  | carriageListReadCompletion rsp | reportWriteCompletion rsp | indexBlockWriteCompletion rsp => exact hrespond _ rsp
  | ingestWriteCompletion tag rsp up => exact execIngestWriteCompletion_endsInRing s tag rsp up
  | responseLeaves tag => exact execResponseLeaves_endsInRing s tag
  | purgeScanStep us => exact (((hupset us).trans (scanStep_reports _).keepsRing).trans (settlePurge_keepsRing _)).ends
  | silenceExpiry i => exact endsInRing_ite (silenceExpires_reports ..).keepsRing
  | feedWatchExpiry e => exact endsInRing_ite ((watchExpires_reports ..).keepsRing.trans (settlePurge_keepsRing _))
  | spliceTReached e p => exact execSpliceTReached_endsInRing s e p
  | windowEnd e p => exact execWindowEnd_endsInRing s e p
  | waitReached e => exact (judgeWaiting_reports s e).keepsRing.ends
  | referenceLost => exact endsInRing_ite (loseReference_reports s).keepsRing
  | stationReferenceEdge | referenceRestored => exact (referenceEdge_reports s).keepsRing.ends
  | oscillatorPeriodEnd => exact execOscillatorPeriodEnd_endsInRing s
  | ppsEdge => exact execPpsEdge_endsInRing s
  | ppsTimeout => exact execPpsTimeout_endsInRing s
  | hardwareReset strap => exact execHardwareReset_endsInRing s strap
  | setStreamEntry | loadStreamEntries | setEccThreshold | setRing | setRingTimingOnly | disableRing | setProtection
  | clearProtection | setProgramme | setCarriage | armSplice | cancelSplice | setVariantNow | startSchedule | haltSchedule
  | clearSchedule | resumeSchedule | setEdition | editionOn | editionOff | timeLoad | relocateControl | setMemoryLimit
  | setReportRing | reportAck | statistics | restart => exact hcommand _ _

end

/-! ## The step -/

theorem step_keepsRing {s t : State} (ht : step s = .next t) : KeepsRing s t := by
  cases hp : s.pending with
  | nil =>
    rw [step_of_empty hp] at ht
    cases ht
    exact idleStep_keepsRing s
  | cons c rest =>
    obtain ⟨u, hu, hkeeps⟩ := exec_endsInRing { s with pending := rest } c
    rw [step, hp] at ht
    cases hu.symm.trans ht
    exact (KeepsRing.of_frame (frame_pending s rest)).trans hkeeps

/-- Settles O7: INT is driven anew wherever the ring or its indices change, and a hand-over changes neither. -/
theorem stepKeepsTheInterruptLine : Obligations.StepKeepsTheInterruptLine := by
  unfold Obligations.StepKeepsTheInterruptLine
  exact fun _ _ h ht => (step_keepsRing ht).int h

/-- Settles O8: a report is accepted only where the ring has a place for it, and a place is used up only by a record of the list. -/
theorem stepKeepsTheReportRing : Obligations.StepKeepsTheReportRing := by
  unfold Obligations.StepKeepsTheReportRing
  exact fun _ _ h ht => (step_keepsRing ht).ring h

end Sys2Proof.Machine
end

section
/-! SUPPORT. The step: every row ends in a next state that differs from the state before it only in the blocks of the part,
the row that a step runs, and the command records that the host writes. -/

set_option Elab.async false

namespace Sys2Proof.Machine

/-- A frame of the part's blocks says no more than that the model's own queue stays (log entry 1). -/
theorem frame_partBlocks_iff {s t : State} : Frame partBlocks s t ↔ t.pending = s.pending := by
  refine ⟨fun h => h.pending_eq, fun h => ?_⟩
  constructor
  case pending => exact .inr h
  all_goals exact .inl (by decide)

/-! ## The rows -/

/-- The row ends in a next state, and touches only the part on the way to it. -/
def EndsInPart (s : State) (o : Host.Outcome State Fault Refusal) : Prop := ∃ t, o = .next t ∧ Frame partBlocks s t

/-- A frame of any blocks of the part will do. -/
theorem Frame.endsInPart {bs : List Block} {s t : State} (h : Frame bs s t)
    (w : bs.all (fun b => partBlocks.contains b) = true := by decide) : EndsInPart s (.next t) := ⟨t, rfl, h.mono w⟩

theorem endsInPart_same (s : State) : EndsInPart s (.next s) := ⟨s, rfl, .refl s⟩

/-- A row that changes nothing where its moment has not come (log entry 8). -/
theorem endsInPart_ite {s t : State} {due : Prop} [Decidable due] (h : EndsInPart s (.next t)) :
    EndsInPart s (if due then .next t else .next s) := by
  split
  · exact h
  · exact endsInPart_same s

section
variable (s : State)

theorem execSpliceTReached_endsInPart (e : EdId) (p : ProgId) : EndsInPart s (execSpliceTReached e p s) := by
  unfold execSpliceTReached
  split
  · exact endsInPart_ite (reachT_frame ..).endsInPart
  · exact endsInPart_same s

theorem execWindowEnd_endsInPart (e : EdId) (p : ProgId) : EndsInPart s (execWindowEnd e p s) := by
  unfold execWindowEnd
  split
  · exact endsInPart_ite (resolve_frame ..).endsInPart
  · exact endsInPart_same s

theorem execOscillatorPeriodEnd_endsInPart : EndsInPart s (execOscillatorPeriodEnd s) := by
  unfold execOscillatorPeriodEnd
  split
  · exact (elapse_frame 1 s).endsInPart
  · exact (frame_time s _).endsInPart

theorem execPpsEdge_endsInPart : EndsInPart s (execPpsEdge s) := by
  unfold execPpsEdge
  split
  · exact (applyLoad_frame ..).endsInPart
  · exact endsInPart_same s

theorem execPpsTimeout_endsInPart : EndsInPart s (execPpsTimeout s) := by
  unfold execPpsTimeout
  split
  · exact endsInPart_ite ((frame_time s _).andThen (handOver_frame ..) : Frame partBlocks s _).endsInPart
  · exact endsInPart_same s

theorem execResponseLeaves_endsInPart (tag : PortTag) : EndsInPart s (execResponseLeaves tag s) := by
  unfold execResponseLeaves
  split
  · exact (frame_path s _).endsInPart
  · exact endsInPart_same s

theorem execIngestWriteCompletion_endsInPart (tag : PortTag) (rsp : Response) (up : BitFault) :
    EndsInPart s (execIngestWriteCompletion tag rsp up s) := by
  unfold execIngestWriteCompletion
  split
  · exact ((frame_stream s _).andThen (respond_frame ..) : Frame partBlocks s _).endsInPart
  · exact (respond_frame ..).endsInPart

/-- The read of a purge scan and the end of the purge, after the storage errors that the read meets (R25, R58). -/
theorem execPurgeScanStep_endsInPart (us : List Upset) : EndsInPart s (execPurgeScanStep us s) := by
  have hscan : Frame partBlocks s (scanStep (upsetRefs us s)) := (upsetRefs_frame us s).andThen (scanStep_frame _)
  exact (hscan.trans (settlePurge_frame _)).endsInPart

/-- Hardware reset replaces every block of the part; the queue is not the part's (log entry 3). -/
theorem execHardwareReset_endsInPart (strap : BitVec 4) : EndsInPart s (execHardwareReset strap s) :=
  ⟨_, rfl, frame_partBlocks_iff.2 rfl⟩

/-- Every row ends in a next state and leaves the model's own queue alone. -/
theorem exec_endsInPart (c : Instr) : EndsInPart s (exec c s) := by
  have hpresent : ∀ r, EndsInPart s (.next (present r s)) := fun r => (present_frame r s).endsInPart
  have hrespond : ∀ tag rsp, EndsInPart s (.next (respond tag rsp s)) := fun tag rsp => (respond_frame tag rsp s).endsInPart
  have hcommand : ∀ h k, EndsInPart s (takeRow h k s) := fun h k => (takeCommand_frame (takenRow h k) s).endsInPart
  cases c with
  | ingestWrite r | malformedWrite r | ringRead r | passThroughRequest r | controlPassThrough r | requestBeyondLimit r
  | lengthFault r | feedWrite r | commandWrite r => exact hpresent r
  | wholeCellRead r us => exact ((upsetRefs_frame us s).andThen (present_frame r _) : Frame partBlocks s _).endsInPart
  | downstreamCompletion tag rsp | staleResponseDiscard tag rsp => exact hrespond tag rsp
  | deliveryReadCompletion _ rsp | wordFetchCompletion _ rsp | dataFetchCompletion _ rsp | streamListReadCompletion rsp
  | carriageListReadCompletion rsp | reportWriteCompletion rsp | indexBlockWriteCompletion rsp => exact hrespond _ rsp
  | ingestWriteCompletion tag rsp up => exact execIngestWriteCompletion_endsInPart s tag rsp up
  | responseLeaves tag => exact execResponseLeaves_endsInPart s tag
  | purgeScanStep us => exact execPurgeScanStep_endsInPart s us
  | silenceExpiry i => exact endsInPart_ite (silenceExpires_frame i s).endsInPart
  | feedWatchExpiry e => exact endsInPart_ite (watchRow_frame e s).endsInPart
  | spliceTReached e p => exact execSpliceTReached_endsInPart s e p
  | windowEnd e p => exact execWindowEnd_endsInPart s e p
  | waitReached e => exact (judgeWaiting_frame s e).endsInPart
  | referenceLost => exact endsInPart_ite (loseReference_frame s).endsInPart
  | stationReferenceEdge | referenceRestored => exact (referenceEdge_frame s).endsInPart
  | oscillatorPeriodEnd => exact execOscillatorPeriodEnd_endsInPart s
  | ppsEdge => exact execPpsEdge_endsInPart s
  | ppsTimeout => exact execPpsTimeout_endsInPart s
  | hardwareReset strap => exact execHardwareReset_endsInPart s strap
  | setStreamEntry | loadStreamEntries | setEccThreshold | setRing | setRingTimingOnly | disableRing | setProtection
  | clearProtection | setProgramme | setCarriage | armSplice | cancelSplice | setVariantNow | startSchedule | haltSchedule
  | clearSchedule | resumeSchedule | setEdition | editionOn | editionOff | timeLoad | relocateControl | setMemoryLimit
  | setReportRing | reportAck | statistics | restart => exact hcommand _ _

end

/-- Settles O2: a row touches only blocks of the part, and the queue is none of them. -/
theorem everyCommandAnswersAndKeepsTheQueue : Obligations.EveryCommandAnswersAndKeepsTheQueue := by
  unfold Obligations.EveryCommandAnswersAndKeepsTheQueue
  intro c s
  obtain ⟨t, ht, hpart⟩ := exec_endsInPart s c
  exact ⟨t, ht, hpart.pending_eq⟩

/-! ## The step -/

theorem step_of_cons {s : State} {c : Instr} {rest : List Instr} (h : s.pending = c :: rest) :
    step s = exec c { s with pending := rest } := by
  rw [step, h]

/-- Settles O1, by the branch of `step` for a queue that holds a command. -/
theorem frontCommandRuns : Obligations.FrontCommandRuns := by
  unfold Obligations.FrontCommandRuns
  exact fun _ _ _ => step_of_cons

/-! ## Command records -/

/-- Settles O15: the code and the tag stand where the layout says, and the fields of every kind parse back (R208). -/
theorem commandRecordReadsBack : Obligations.CommandRecordReadsBack := by
  unfold Obligations.CommandRecordReadsBack
  exact fun _ tag slot hall => takenRecord_encodeCommand tag slot hall

end Sys2Proof.Machine
end
